-- ==== Sys2Proof/Word.lean ====
section
/-!
DEFINITION. The word types of the KX-J960 (R5, R179) and nothing else.
-/
namespace Sys2Proof

/-- One byte. -/
abbrev Byte := BitVec 8

/-- A scalar register's value: 64 bits (R179). -/
abbrev Word := BitVec 64

/-- One 32-bit lane of a vector register (R257). -/
abbrev Lane := BitVec 32

/-- A vector register's value: 128 lanes, lane 0 first (R179). -/
abbrev Vec := List Lane

/-- A mask register's value: 128 bits (R179). -/
abbrev Mask := BitVec 128

end Sys2Proof
end

