-- ==== Sys2Proof/Syntax.lean ====
section
/-!
DEFINITION. The instructions, stream words and events of the KX-J960 as syntax: one constructor of `Instr` for each row
of the opcode table. Register numbers, kinds and selectors are typed, so that most reserved encodings name no term.
-/
namespace Sys2Proof

/-- A scalar number, s0 to s63 (R179). -/
abbrev SReg := Fin 64
/-- A scalar destination: `none` is the discard code 0x7F (R180). -/
abbrev SDst := Option (Fin 64)
/-- A vector number, v0 to v47 (R179). -/
abbrev VReg := Fin 48
/-- A mask number, m0 to m7 (R179). -/
abbrev MReg := Fin 8
/-- A predicate number, p0 to p15, and a q field (R179, R186). -/
abbrev PReg := Fin 16
/-- An engine id that R10 assigns: 0 to 26. -/
abbrev Eng := Fin 27

/-- An operand that is a vector or a scalar code (R256). -/
inductive VOrS where
  | v (n : VReg)
  | s (n : SReg)
  deriving DecidableEq, Repr

/-- A vector, scalar or discarded destination (R248). -/
inductive VSDst where
  | v (n : VReg)
  | s (n : SReg)
  | discard
  deriving DecidableEq, Repr

/-- A memory operand with a scalar index: mode 0 with offset9, or mode 1 (R230). -/
inductive MAddr where
  | off (base : SReg) (o : BitVec 9)
  | idx (base : SReg) (x : SReg)
  deriving DecidableEq, Repr

/-- The memory operand of VSTM: mode 0, or mode 1 with a mask (R240). -/
inductive MAddrM where
  | off (base : SReg) (o : BitVec 9)
  | msk (base : SReg) (m : MReg)
  deriving DecidableEq, Repr

/-- The handle of format FT: a number (HR = 0) or the scalar that holds it (HR = 1) (R185). -/
inductive HRef where
  | num (h : Fin 1024)
  | reg (s : SReg)
  deriving DecidableEq, Repr

/-- The conditions of CMP and CMPI (R205). -/
inductive Cond where
  | eq | ne | lt | ge | ltu | geu | tz | tnz
  deriving DecidableEq, Repr

/-- The size kinds of LD (R188, R234). -/
inductive LdKind where
  | n8 | i8 | n16 | i16 | n32 | i32 | d64
  deriving DecidableEq, Repr

/-- The size kinds of ST (R188, R234). -/
inductive StKind where
  | b8 | h16 | w32 | d64
  deriving DecidableEq, Repr

/-- The kinds of the vector loads, codes 0x0 to 0x7 (R188). -/
inductive VKind where
  | w32 | h16z | h16s | b8z | b8s | h16h | n4z | n4s
  deriving DecidableEq, Repr

/-- The kinds of VLD: those of the vector loads, and the four unpack patterns (R188, R126). -/
inductive VLdKind where
  | plain (k : VKind)
  | unpk (n : Fin 4)
  deriving DecidableEq, Repr

/-- The kinds of the vector stores (R188). -/
inductive VStKind where
  | w32 | h16 | b8 | h16h | n4
  deriving DecidableEq, Repr

/-- The kinds of TLD and TST (R243). -/
inductive TKind where
  | b512 | b256 | b128
  deriving DecidableEq, Repr

/-- The operations of AMO (R244). -/
inductive AmoOp where
  | swap | add | and | or | xor | min | max | minu | maxu
  deriving DecidableEq, Repr

/-- The access orders, coded as MEMPFX.ORD (R135). -/
inductive Ord where
  | rlx | acq | rel | ar | sc
  deriving DecidableEq, Repr

/-- The scopes, coded as MEMPFX.SCOPE (R135). -/
inductive Scope where
  | cl | core | pkg | sys
  deriving DecidableEq, Repr

/-- The cache policies, coded as MEMPFX.CP (R135). -/
inductive CPol where
  | norm | strm | evict
  deriving DecidableEq, Repr

/-- The address spaces, coded as MEMPFX.ASP (R135). -/
inductive Asp where
  | ctx | drv | phys
  deriving DecidableEq, Repr

/-- The orders that FENCE allows (R190). -/
inductive FenceOrd where
  | acq | rel | ar
  deriving DecidableEq, Repr

/-- The element types of the floating-point group 0x01 to 0x12 (R189). -/
inductive FTy where
  | f32 | bf16x2 | f16x2
  deriving DecidableEq, Repr

/-- The element types of the integer group, and of VSPLAT, VZIP and VUNZIP (R189). -/
inductive ITy where
  | w32 | w16 | w8
  deriving DecidableEq, Repr

/-- The element types of the reductions and of VSCANADD (R189). -/
inductive RTy where
  | f32 | i32 | n32
  deriving DecidableEq, Repr

/-- The conditions of VCMP (R264). -/
inductive FCond where
  | eq | ne | lt | le | gt | ge | un | ord
  deriving DecidableEq, Repr

/-- The conditions of VICMP (R270). -/
inductive ICond where
  | eq | ne | lt | ge | ltu | geu | le | leu
  deriving DecidableEq, Repr

/-- The operations of MLOG (R283). -/
inductive MOp where
  | and | or | xor | andn | orn | nand | nor | xnor
  deriving DecidableEq, Repr

/-- The selectors of MPOPC (R283). -/
inductive MSel where
  | cnt | lo | hi
  deriving DecidableEq, Repr

/-- The sources of VSPLAT: an element of a vector, or a scalar (R280). -/
inductive SplatSrc where
  | lane (a : VReg) (b : SReg)
  | scal (a : SReg)
  deriving DecidableEq, Repr

/-- The immediates of VLI: `VLI` and `VLI.h` (R280). -/
inductive VliImm where
  | plain (i : BitVec 20)
  | high (i : BitVec 16)
  deriving DecidableEq, Repr

/-- The MX element formats of VQMX and VDQMX (R285). -/
inductive MxFmt where
  | mx4 | mx6 | mx8
  deriving DecidableEq, Repr

/-- The selectors of VPACK (R287). -/
inductive PackSel where
  | i32i16 | n32n16 | i16i8 | n16n8
  deriving DecidableEq, Repr

/-- The keys of the race words (R193). -/
inductive Key where
  | n8 | n16 | n32 | n64 | i8 | i16 | i32 | i64 | fp16 | bf16 | fp32
  deriving DecidableEq, Repr

/-- The operations of SCAN and REDUCE (R193). -/
inductive CollOp where
  | add | max | affine
  deriving DecidableEq, Repr

/-- The formats of FN (R193). -/
inductive FnFmt where
  | fp32 | bf16 | fp16
  deriving DecidableEq, Repr

/-- The block lengths of QNT (R193). -/
inductive QntLen where
  | l32 | l768 | l1024 | l1536
  deriving DecidableEq, Repr

/-- A scribe core, 0 to 31. -/
abbrev CoreId := Fin 32
/-- A cluster of a core. -/
abbrev CluId := Fin 4
/-- A traverse port. -/
abbrev PortId := Fin 8
/-- A race die, 0 to 7 for the spec's 1 to 8. -/
abbrev RaceDie := Fin 8
/-- A logical tile, 0 to 511 (R2). -/
abbrev TileId := Fin 512

/-- A chip's coordinates in the torus (R420). -/
structure Coord where
  x : Nat
  y : Nat
  z : Nat
  w : Nat
  deriving DecidableEq, Repr

/-- A chip's finding of its parent's datum (R423): ticks, sixteenths of a tick, and the chip that is the root. -/
structure DatumReading where
  datum : BitVec 64
  frac : Fin 16
  root : Coord
  deriving DecidableEq, Repr

/-- The hottest of the package's dies, 0 to 9, and the hottest race die, each with its temperature in 1/16 °C (R432, R433). -/
structure HotDies where
  die : Fin 10
  temp : BitVec 16
  race : RaceDie
  rtemp : BitVec 16
  deriving DecidableEq, Repr

/-- What answers a copy's packet, and a round of cells: as it is itself answered ABSENT where it finds no endpoint (R419, R429). -/
inductive Answer where
  | ack (id : Nat) (core : CoreId) (eng : Eng) (run : Option (BitVec 32))
  | fault (id : Nat) (core : CoreId) (eng : Eng) (reason va : Nat)
  | cells (cs : List (Nat × List Byte))
  deriving DecidableEq, Repr

/-- What a packet of the traverse network carries (R419, R425, R428, R312), a copy's packet under a number that its answer repeats: the
copy's bytes with the running CRC to fold them into, if it folds; the acknowledgement with the folded CRC (R314); the failure of the
translation there (R313); ABSENT with its reason; cells of system exchange with their physical addresses; a link's status flit; a message of datum alignment, or the
parent's reply to one (R423); and ABSENT to an answer or to cells. -/
inductive Payload where
  | copyWrite (id : Nat) (asid va : Nat) (bytes : List Byte) (core : CoreId) (eng : Eng) (run : Option (BitVec 32))
  | copyAck (id : Nat) (core : CoreId) (eng : Eng) (run : Option (BitVec 32))
  | copyFault (id : Nat) (core : CoreId) (eng : Eng) (reason va : Nat)
  | absent (id : Nat) (core : CoreId) (eng : Eng) (reason : Nat)
  | cells (cs : List (Nat × List Byte))
  | status (cpres : Bool)
  | timing (reply : Bool)
  | bounced (reason : Nat) (was : Answer)
  deriving DecidableEq, Repr

/-- A packet: source, destination, traffic class, the directions it keeps to and the dimensions it left for last after a link was down
(R429), payload (R421, R425). -/
structure Packet where
  src : Coord
  dst : Coord
  class0 : Bool
  turned : List (Fin 8)
  skipped : List (Fin 4)
  body : Payload
  deriving DecidableEq, Repr

/-- The instructions: one constructor for each row of spec/opcode_table.json. Every predicated line instruction begins with its
q field (R186). Stream words begin with `w`; the steps that have no encoding begin with `ev`, act on the
unit that `State.at` names, and carry what the host, a neighbour or a measurement supplies. -/
inductive Instr where
  -- X slot: integer operations (R197 to R203)
  | add (q : PReg) (d : SDst) (a b : SReg)
  | sub (q : PReg) (d : SDst) (a b : SReg)
  | addi (q : PReg) (d : SDst) (a : SReg) (i : BitVec 14)
  | mul (q : PReg) (d : SDst) (a b : SReg)
  | mulh (q : PReg) (d : SDst) (a b : SReg)
  | mulhu (q : PReg) (d : SDst) (a b : SReg)
  | div (q : PReg) (d : SDst) (a b : SReg)
  | divu (q : PReg) (d : SDst) (a b : SReg)
  | rem (q : PReg) (d : SDst) (a b : SReg)
  | remu (q : PReg) (d : SDst) (a b : SReg)
  | and (q : PReg) (d : SDst) (a b : SReg)
  | or (q : PReg) (d : SDst) (a b : SReg)
  | xor (q : PReg) (d : SDst) (a b : SReg)
  | andn (q : PReg) (d : SDst) (a b : SReg)
  | orn (q : PReg) (d : SDst) (a b : SReg)
  | shl (q : PReg) (d : SDst) (a b : SReg)
  | shr (q : PReg) (d : SDst) (a b : SReg)
  | sar (q : PReg) (d : SDst) (a b : SReg)
  | rol (q : PReg) (d : SDst) (a b : SReg)
  | fshl (q : PReg) (d : SDst) (a b c : SReg)
  | fshr (q : PReg) (d : SDst) (a b c : SReg)
  | clz (q : PReg) (d : SDst) (a : SReg)
  | ctz (q : PReg) (d : SDst) (a : SReg)
  | popc (q : PReg) (d : SDst) (a : SReg)
  | min (q : PReg) (d : SDst) (a b : SReg)
  | max (q : PReg) (d : SDst) (a b : SReg)
  | minu (q : PReg) (d : SDst) (a b : SReg)
  | maxu (q : PReg) (d : SDst) (a b : SReg)
  | sel (q : PReg) (d : SDst) (a b : SReg) (c : PReg)
  | li (q : PReg) (d : SDst) (i : BitVec 21)
  | lih (q : PReg) (d : SDst) (i : BitVec 16)
  | ext (q : PReg) (d : SDst) (a : SReg) (pos wm1 : Fin 64)
  | extu (q : PReg) (d : SDst) (a : SReg) (pos wm1 : Fin 64)
  | ins (q : PReg) (d : SReg) (a : SReg) (pos wm1 : Fin 64)
  | bswap (q : PReg) (d : SDst) (a : SReg)
  | abs (q : PReg) (d : SDst) (a : SReg)
  -- X slot: comparisons and predicates (R204 to R207)
  | cmp (q : PReg) (c : Cond) (pd : PReg) (a b : SReg)
  | cmpi (q : PReg) (c : Cond) (pd : PReg) (a : SReg) (i : BitVec 14)
  | tstb (q : PReg) (clr : Bool) (pd : PReg) (a : SReg) (bit : Fin 64)
  | pand (q : PReg) (pd pa pb : PReg)
  | por (q : PReg) (pd pa pb : PReg)
  | pxor (q : PReg) (pd pa pb : PReg)
  | pandn (q : PReg) (pd pa pb : PReg)
  -- X slot: control (R208 to R228)
  | br (q : PReg) (off : BitVec 24)
  | brcc (q : PReg) (cc : Fin 16) (off : BitVec 24)
  | call (q : PReg) (off : BitVec 24)
  | callr (q : PReg) (d : SReg) (a : SReg)
  | ret (q : PReg) (a : SReg)
  | jmpr (q : PReg) (a : SReg)
  | loop (q : PReg) (st : SReg) (id : Fin 8) (rot : Bool) (sm1 : Fin 8) (lenm1 : BitVec 14)
  | lbrk (q : PReg) (id : Fin 8) (off : BitVec 24)
  | forkc (q : PReg) (mask : BitVec 4) (off : BitVec 24)
  | ccset (q : PReg) (mask : BitVec 16)
  | ccclr (q : PReg) (mask : BitVec 16)
  | ccwait (q : PReg) (mask : BitVec 16)
  | sleepuntil (q : PReg) (a : SReg)
  | safe (vlive : BitVec 24) (slive : BitVec 8)
  | spawn (q : PReg) (d : SDst) (a : SReg)
  | join (q : PReg) (a : SReg)
  | yield (q : PReg) (a b : SReg)
  | exit (q : PReg)
  -- X slot: system (R321 to R332)
  | mfk (q : PReg) (d : SReg) (k : BitVec 12)
  | mtk (q : PReg) (k : BitVec 12) (a : SReg)
  | rdcyc (q : PReg) (d : SDst)
  | rddatum (q : PReg) (d : SDst)
  | locality (q : PReg) (d : SDst) (a : SReg)
  | trap (q : PReg) (code : BitVec 16) (a : SReg)
  | eret (q : PReg)
  | brkpt (q : PReg) (code : BitVec 16)
  | widle (q : PReg) (a : SReg)
  | mempfx (o : Ord) (sc : Scope) (cp : CPol) (asp : Asp)
  -- M slot: memory (R230 to R240)
  | ld (q : PReg) (d : SDst) (m : MAddr) (k : LdKind)
  | st (q : PReg) (d : SReg) (m : MAddr) (k : StKind)
  | pref (q : PReg) (m : MAddr)
  | vld (q : PReg) (d : VReg) (m : MAddr) (k : VLdKind)
  | vst (q : PReg) (d : VReg) (m : MAddr) (k : VStKind)
  | vldu (q : PReg) (d : VReg) (m : MAddr) (k : VKind)
  | vstm (q : PReg) (d : VReg) (m : MAddrM)
  | vlds (q : PReg) (d : VReg) (base x : SReg) (k : VKind)
  | vsts (q : PReg) (d : VReg) (base x : SReg) (k : VStKind)
  | vgath (q : PReg) (d : VReg) (base : SReg) (x : VReg)
  | vscat (q : PReg) (d : VReg) (base : SReg) (x : VReg)
  | vldb (q : PReg) (d : VReg) (m : MAddr) (k : VKind)
  -- M slot: tiles (R241 to R243)
  | talloc (q : PReg) (d : SDst) (a b : SReg) (pd : PReg)
  | tfree (q : PReg) (h : HRef)
  | tgive (q : PReg) (h : HRef)
  | ttake (q : PReg) (h : HRef)
  | evHandleReload (h : Fin 1024)
  | tld (q : PReg) (d : VReg) (h : HRef) (row : SReg) (k : TKind)
  | tst (q : PReg) (d : VReg) (h : HRef) (row : SReg) (k : TKind)
  | tinfo (q : PReg) (d : SReg) (h : HRef)
  | thold (q : PReg) (h : HRef)
  | trels (q : PReg) (h : HRef)
  -- M slot: atomics, lattices, fences (R244 to R249)
  | amo (q : PReg) (op : AmoOp) (w64 : Bool) (d : SDst) (a b : SReg)
  | cas (q : PReg) (w64 : Bool) (d a b : SReg)
  | cas2 (q : PReg) (d a b : SReg)
  | ljoin (q : PReg) (src : VOrS) (m : MAddr)
  | lld (q : PReg) (d : VSDst) (m : MAddr)
  | lwait (q : PReg) (pd : PReg) (a b c : SReg)
  | fence (q : PReg) (o : FenceOrd) (sc : Scope)
  | fencesc (q : PReg) (sc : Scope)
  | fencea (q : PReg) (sc : Scope)
  | ifence (q : PReg)
  -- M slot: engine issue (R250 to R255)
  | eng (e : Eng) (func : Fin 128) (a b : SReg) (r : Option SReg) (w : Bool)
  | fork (l a b : SReg) (w : Bool)
  | rdv (q : PReg) (a : SReg)
  | setf (q : PReg) (f : Fin 64)
  | clrf (q : PReg) (f : Fin 64)
  | waitf (q : PReg) (e : Eng) (f : Fin 64)
  | qstat (q : PReg) (d : SReg) (e : Eng)
  -- V slot: floating point (R261 to R267)
  | vadd (q : PReg) (ty : FTy) (d a : VReg) (b : VOrS)
  | vsub (q : PReg) (ty : FTy) (d a : VReg) (b : VOrS)
  | vmul (q : PReg) (ty : FTy) (d a : VReg) (b : VOrS)
  | vfma (q : PReg) (ty : FTy) (d a : VReg) (b : VOrS) (c : VReg)
  | vfms (q : PReg) (ty : FTy) (d a : VReg) (b : VOrS) (c : VReg)
  | vfnma (q : PReg) (ty : FTy) (d a : VReg) (b : VOrS) (c : VReg)
  | vfnms (q : PReg) (ty : FTy) (d a : VReg) (b : VOrS) (c : VReg)
  | vmin (q : PReg) (ty : FTy) (d a : VReg) (b : VOrS)
  | vmax (q : PReg) (ty : FTy) (d a : VReg) (b : VOrS)
  | vminn (q : PReg) (ty : FTy) (d a : VReg) (b : VOrS)
  | vmaxn (q : PReg) (ty : FTy) (d a : VReg) (b : VOrS)
  | vabs (q : PReg) (ty : FTy) (d a : VReg)
  | vneg (q : PReg) (ty : FTy) (d a : VReg)
  | vcpys (q : PReg) (ty : FTy) (d a : VReg) (b : VOrS)
  | vcmp (q : PReg) (ty : FTy) (c : FCond) (e1 : Bool) (md : MReg) (a : VReg) (b : VOrS)
  | vclass (q : PReg) (ty : FTy) (d a : VReg)
  | vrnd (q : PReg) (ty : FTy) (d a : VReg)
  | vscale (q : PReg) (ty : FTy) (d a : VReg) (b : VOrS)
  -- V slot: integer (R268 to R271)
  | viadd (q : PReg) (ty : ITy) (d a : VReg) (b : VOrS)
  | visub (q : PReg) (ty : ITy) (d a : VReg) (b : VOrS)
  | vimul (q : PReg) (ty : ITy) (d a : VReg) (b : VOrS)
  | vimin (q : PReg) (ty : ITy) (d a : VReg) (b : VOrS)
  | vimax (q : PReg) (ty : ITy) (d a : VReg) (b : VOrS)
  | viminu (q : PReg) (ty : ITy) (d a : VReg) (b : VOrS)
  | vimaxu (q : PReg) (ty : ITy) (d a : VReg) (b : VOrS)
  | vand (q : PReg) (ty : ITy) (d a : VReg) (b : VOrS)
  | vor (q : PReg) (ty : ITy) (d a : VReg) (b : VOrS)
  | vxor (q : PReg) (ty : ITy) (d a : VReg) (b : VOrS)
  | vandn (q : PReg) (ty : ITy) (d a : VReg) (b : VOrS)
  | vshl (q : PReg) (ty : ITy) (d a : VReg) (b : VOrS)
  | vshr (q : PReg) (ty : ITy) (d a : VReg) (b : VOrS)
  | vsar (q : PReg) (ty : ITy) (d a : VReg) (b : VOrS)
  | vfshl (q : PReg) (ty : ITy) (d a : VReg) (b : VOrS) (c : VReg)
  | vfshr (q : PReg) (ty : ITy) (d a : VReg) (b : VOrS) (c : VReg)
  | vclz (q : PReg) (ty : ITy) (d a : VReg)
  | vpopc (q : PReg) (ty : ITy) (d a : VReg)
  | vicmp (q : PReg) (ty : ITy) (c : ICond) (e : Fin 4) (md : MReg) (a : VReg) (b : VOrS)
  | vsatn (q : PReg) (n8 : Bool) (d a : VReg) (b : VOrS)
  | viabs (q : PReg) (ty : ITy) (d a : VReg)
  -- V slot: reductions, scans, bit streams (R272 to R279)
  | vredadd (q : PReg) (ty : RTy) (d a : VReg) (m : MReg)
  | vredmax (q : PReg) (ty : RTy) (d a : VReg) (m : MReg)
  | vredmin (q : PReg) (ty : RTy) (d a : VReg) (m : MReg)
  | vgmax (q : PReg) (ty : RTy) (d a : VReg) (m : MReg) (n : Fin 8)
  | vgsum (q : PReg) (ty : RTy) (d a : VReg) (m : MReg) (n : Fin 8)
  | vscanadd (q : PReg) (ty : RTy) (d a : VReg) (m : MReg)
  | vscanaff (q : PReg) (d a : VReg) (b : VOrS) (c : VReg)
  | vbsr (q : PReg) (d a b c : VReg)
  | vbsw (q : PReg) (d a : VReg) (b : VOrS) (c : VReg)
  -- V slot: moves, permutes, masks (R280 to R283)
  | vmov (q : PReg) (d : VReg) (a : VOrS)
  | vsplat (q : PReg) (ty : ITy) (d : VReg) (src : SplatSrc)
  | vli (q : PReg) (d : VReg) (i : VliImm)
  | vmvs (q : PReg) (d : SDst) (a : VReg) (b : SReg)
  | vins (q : PReg) (d : VReg) (a b : SReg)
  | vperm (q : PReg) (d a : VReg) (b : VOrS) (c : VReg)
  | vrotl (q : PReg) (d a : VReg) (b : SReg)
  | vslide (q : PReg) (d a : VReg) (b : SReg) (c : VReg)
  | vzip (q : PReg) (ty : ITy) (d a : VReg) (b : VOrS)
  | vunzip (q : PReg) (ty : ITy) (d a : VReg) (b : VOrS)
  | vsel (q : PReg) (d a : VReg) (m : MReg) (c : VReg)
  | mlog (q : PReg) (op : MOp) (md ma mb : MReg)
  | mpopc (q : PReg) (sel : MSel) (d : SReg) (ma : MReg)
  -- V slot: conversions (R284 to R287)
  | vcvt (q : PReg) (sel : Fin 36) (d a : VReg) (b : Option VOrS)
  | vqmx (q : PReg) (f : MxFmt) (d a : VReg)
  | vdqmx (q : PReg) (f : MxFmt) (d a : VReg)
  | vpack (q : PReg) (sel : PackSel) (d a : VReg) (b : VOrS)
  | vunpk (q : PReg) (sel : Fin 12) (d a : VReg)
  -- stream words: literals, stack and ALU (R297)
  | wLit (i : BitVec 12)
  | wLitx (i : BitVec 12)
  | wPick (n : Fin 8)
  | wShl (n : Fin 64)
  | wShr (n : Fin 64)
  -- stream words: branches and control (R298, R299)
  | wJmp (off : BitVec 10)
  | wJz (off : BitVec 10)
  | wJnz (off : BitVec 10)
  | wLoopn (off : BitVec 10)
  | wWaitf (f : Fin 64)
  | wSetf (f : Fin 64)
  | wCalls (e : Fin 128)
  -- stream words: matrix, race, table, collective, copy, special functions (R301 to R320)
  | wMma (shape : Fin 9) (aclr : Bool)
  | wQnt (l : QntLen)
  | wRmin (k : Key)
  | wRmax (k : Key)
  | wRsort (k : Key)
  | wRtopk (k : Key) (lf : Bool)
  | wTbld (big : Bool)
  | wTbl (big : Bool) (aclr : Bool)
  | wScan (op : CollOp) (excl : Bool)
  | wReduce (op : CollOp)
  | wCpy (sc : Scope)
  | wCpy2d (sc : Scope)
  | wCpyx (sc : Scope)
  | wCpyg (sc : Scope)
  | wCrcc (sc : Scope) (last : Bool)
  | wExp2 (f : FnFmt)
  | wLog2 (f : FnFmt)
  | wRcp (f : FnFmt)
  | wRsqrt (f : FnFmt)
  | wSinpi (f : FnFmt)
  | wCospi (f : FnFmt)
  | wTanh (f : FnFmt)
  | wSigm (f : FnFmt)
  -- steps of clusters, engines and the crossbar
  | evQueueHeadIssue (plumbOk : Bool)
  | evStroke (misread : List (Nat × Nat))
  | evRacePass
  | evEvxCounterEvent (k : Fin 16)
  | evEvxTermEdge (k : Fin 16)
  -- steps of records and launches
  | evRecordPop (helper : Option (Fin 4))
  -- steps of the race dies
  | evLevellingCommit (pass : Bool) (counts : List Nat) (vgain : BitVec 12) (offp offn : BitVec 8)
  | evTemperatureSample (temp : BitVec 16)
  | evPatrolVisit (ch : Fin 256) (corrected uncorrectable raced : List (Fin 32))
  -- lattice exchange
  -- steps of the launch unit and the driver's windows
  | evLatticeWindowWrite (off : BitVec 26) (bytes : List Byte)
  | evLatticeWindowRead (off : BitVec 26) (len : Nat)
  | evMemoryWindowWrite (off : Nat) (bytes : List Byte)
  | evMemoryWindowRead (off len : Nat)
  | evClrslot (j : Fin 64) (ltype : BitVec 4) (lscope : Bool)
  | evDump (buf : Nat)
  | evInval (v : BitVec 64)
  | evLeaseExpiry (idx : Nat)
  | evXretry (v : BitVec 64)
  | evSealWrite (n : Fin 16) (v : BitVec 64)
  | evXschedWrite (r : Option (Fin 8)) (v : BitVec 64)
  | evSlewRegisterWrite (r : Fin 3) (v : BitVec 64)
  | evLevellingRequestWrite (v : BitVec 64)
  | evTrimTargetWrite (v : BitVec 64)
  | evQctlClear (v : BitVec 64)
  | evTrctlWrite (v : BitVec 64)
  | evRegisterWrite (off : BitVec 21) (v : BitVec 64)
  -- resets, power, island, time
  | evPacketArrival (p : Packet)
  | evFlitReplay (more : Nat)
  | evDatumAlign (parent : DatumReading)
  | evDatumOffsetWrite (v : BitVec 64)
  | evThermalSample (hot : HotDies) (watts flow : BitVec 16) (tin : BitVec 16)
  | evPcieLinkTrains (gen7 wide16 : Bool)
  | evAccessPerformed (id : Nat) (group : Fin 10)
  | evDatumRootWrite (root : Bool)
  -- the instructions, words and steps without a field of their own stand last; the steps act on the unit that `State.at` names
  | nop | evCcwaitRelease | evSleepuntilWake | evWidleComplete | evTtakeComplete | evLwaitPass | evLwaitTimeout
  | evRdvComplete | evWaitEntryRelease | wDup | wDrop | wSwap | wOver | wRot | wAdd | wSub | wAnd | wOr | wXor | wInc
  | wDec | wNeg | wMin | wMax | wEqz | wEnd | wReply | wBound | wJoin | wRets | wDesc | wMload | wAccz | wAccout
  | wCrci | evFolioIssue | evEngineOverrun | evMloadBankActivate | evCopyComplete | evPromiseMiss
  | evCopyResend | evBoundaryTrap | evSafePointDrought | evSideLogReplay | evRecordReady | evStrandStart
  | evImageLoad | evRecordRetire | evPreemptionRequest | evCoreHalt | evResume | evSlewStep | evFillerStroke
  | evLevellingStart | evLevellingPeriodExpiry | evExchangeRound | evSystemExchangeRound | evLaunchPacket
  | evLaunchComplete | evActivate | evRetire | evCoolingEnd | evInvalLeaseExpiry | evInvalDone | evPreempt
  | evCctlResume | evTraceTransfer | evComputeReset | evFunctionLevelReset | evComputeRailLoss | evIslandRailUp
  | evIslandRailLoss | evAttach | evDetach | evIslandReset | evRetrainPort | evIslandDrainEnd | evTrainComplete
  | evPortUp | evLinkDown | evClass0Admission | evPtmDialogue | evComputeRailUp | evComputeResetComplete
  deriving DecidableEq, Repr

/-- A line: its header bits (R182) and its three syllables. -/
structure Line where
  sync : Bool
  xpfx : Bool
  holdA : Bool
  holdB : Bool
  holdC : Bool
  x : Instr
  m : Instr
  v : Instr
  deriving DecidableEq, Repr

end Sys2Proof
end

