-- ==== Sys2Proof/Config.lean ====
section
/-!
DEFINITION. What the spec leaves open, as constants without a body: no proof can evaluate one, so every statement holds whatever they
are. The log entries named at each say where the spec leaves the value open.
-/
namespace Sys2Proof.Config

/-- Byte `off` of a handle's contents as allocated with stamp `stamp`: undefined after TALLOC (R117; log entry 5). -/
opaque newTileByte (stamp off : Nat) : BitVec 8

/-- Mantissa of column `col` of row `row` of a new accumulator handle: undefined (R117; log entry 13). -/
opaque newAccMant (stamp row col : Nat) : BitVec 32

/-- Block exponent of group `grp` of row `row` of a new accumulator handle: undefined, and may be 255 (R117; log entry 13). -/
opaque newAccExp (stamp row grp : Nat) : BitVec 8

/-- Sticky bit of that group: undefined (R117; log entry 13). -/
opaque newAccSticky (stamp row grp : Nat) : Bool

/-- The fused delay-cell bias code of a tile (R392; log entry 9). -/
opaque fusedBias (tile : Nat) : BitVec 12

/-- The fused vernier gain code of a tile (R392; log entry 9). -/
opaque fusedVgain (tile : Nat) : BitVec 12

/-- The fused negative-rail window offset of a tile (R392; log entry 9). -/
opaque fusedOffn (tile : Nat) : BitVec 8

/-- The fused positive-rail window offset of a tile (R392; log entry 9). -/
opaque fusedOffp (tile : Nat) : BitVec 8

/-- A register that SAFE marks dead, after resumption: undefined (R223; log entry 11). -/
opaque deadReg (stamp idx : Nat) : BitVec 64

/-- A lane of a vector register that SAFE marks dead, after resumption: undefined (R223; log entry 11). -/
opaque deadLane (stamp reg lane : Nat) : BitVec 32

/-- Byte `off` of a save area written with stamp `stamp`, where R388 does not fix the layout (log entry 29). -/
opaque saveByte (stamp off : Nat) : BitVec 8

/-- Byte `off` of a dump written with stamp `stamp`, where R391 does not fix the layout (log entry 56). -/
opaque dumpByte (stamp off : Nat) : BitVec 8

/-- The bytes of a dump's reference to one save slot: R391 does not state them (log entry 56). -/
opaque dumpRefSize : Nat

/-- TYPE, SUB, DIE, UNIT and ARG0 to ARG3 of the reliability-log record of a loss of compute: R430 asks for one, and R398 lists none (log
entry 57). -/
opaque lossField (k : Nat) : Nat

/-- What an access to the first 64 KiB of BAR4 reads that is not 8 bytes at a register (R409; log entry 55). -/
opaque openByte (stamp i : Nat) : BitVec 8

/-- Whether a copy that a compute reset cuts short had written its byte `i` (R340; log entry 107). -/
opaque cutByte (stamp i : Nat) : Bool

/-- The BIAS of a tile whose ring step computes a number outside the register's 12 bits: R394 does not say (log entry 111). -/
opaque biasBeyond (x : Int) : BitVec 12

end Sys2Proof.Config
end

