-- ==== Sys2Proof/Machine/State.lean ====
section
/-!
DEFINITION. The state of one KX-J960 package as plain data: everything the spec gives the machine, the reasons a step can stop, and the
state right after reset.
-/
namespace Sys2Proof.Machine

/-- Why a step stops with a fault: there is no such reason. The spec gives every access and every instruction an effect, so nothing raises
one. -/
inductive Fault where
  deriving DecidableEq, Repr

/-- Why the model has no meaning for an instruction. -/
inductive Refusal where
  /-- An instruction without a meaning yet: raised by the arms of Machine/Dispatch.lean only; safe. -/
  | notModelled (mnemonic : String)
  deriving DecidableEq, Repr

/-- A vector register: 128 lanes (R179). -/
abbrev VecReg := Vector Lane 128

/-- The unit that `exec` acts for: core, cluster, engine, port, context and record (the model's own, log entry 2). -/
structure At where
  core : CoreId := 0
  clu : CluId := 0
  eng : Eng := 0
  port : PortId := 0
  asid : Fin 64 := 0
  lid : Nat := 0
  seq : Nat := 0
  deriving DecidableEq, Repr

/-- The record of a trap (R328): cause, sub-cause, arguments. -/
structure TrapRec where
  cause : BitVec 8
  sub : BitVec 8 := 0
  a0 : Word := 0
  a1 : Word := 0
  a2 : Word := 0
  a3 : Word := 0
  deriving DecidableEq, Repr

/-- A pending boundary trap (R331): its record, and the engine whose stopped queue it will let resume, if any. -/
structure BTrap where
  tr : TrapRec
  eng : Option Eng := none
  deriving DecidableEq, Repr

/-- A pending floating-point exception (R81, R82): the element's identifier, all flags it raised, and those whose trap is enabled. -/
structure PendEx where
  wid : Word
  iter : List Nat
  col : Bool
  pos : Nat
  flags : BitVec 7
  enabled : BitVec 7
  deriving DecidableEq, Repr

/-- The attributes of a memory instruction (R135). -/
structure Attr where
  ord : Ord := .rlx
  scope : Scope := .pkg
  cpol : CPol := .norm
  asp : Asp := .ctx
  deriving DecidableEq, Repr

/-- What a cluster's presented line waits for (R222, R333). `passed` says that the line commits now; an `lwait` whose test has decided it
carries the outcome and the CYC at which it completes (R368), one whose page does not translate the space it walked and whether the page is
migrating (R386); `fetch` marks the translation of the line itself; `port` waits for a shared
port (R38). -/
inductive Hold where
  | none
  | passed
  | ccwait (mask : BitVec 16)
  | sleep (until_ : Word)
  | widle (mask : Word)
  | rdv (mask : Word)
  | lwait (deadline va threshold : Nat) (attr : Attr) (held : Option (Nat × Bool)) (done : Option (Bool × Word))
  | ttake (h stamp : Nat)
  | reload (h : Nat)
  | translation (asid va : Nat) (mig fetch : Bool)
  | declined (asid va : Nat)
  | sideLog
  | performing
  | settling
  | queueFull
  | port
  | reply
  | push
  | ending
  | sealed
  deriving DecidableEq, Repr

/-- An operand latch (R183). -/
structure Latch where
  valid : Bool := false
  reg : VReg := 0
  val : VecReg := Vector.replicate 128 0
  deriving DecidableEq, Repr

/-- LCn (R219). -/
structure LoopCtr where
  act : Bool := false
  count : BitVec 33 := 0
  deriving DecidableEq, Repr

/-- An active hardware loop (R213, R214): first body row, length in rows, stages, rotation, trip count, kernel iteration. -/
structure LoopRec where
  id : Fin 8
  first : Nat
  len : Nat
  stages : Nat
  rot : Bool
  trip : Nat
  t : Nat
  deriving DecidableEq, Repr

/-- How a store's bytes are grouped (R159, R236, R237, R240); `nibbles` keeps the high nibble of each byte. -/
inductive StForm where
  | scalar | vector | masked | elements | nibbles
  deriving DecidableEq, Repr

/-- A store-like access as the memory operations take it: how its bytes are grouped into elements or cells, or a join or a reduction. -/
inductive Access where
  | store (form : StForm) (bytes : List (Nat × Byte))
  | join (va : Nat) (vec : Bool) (bytes : List Byte)
  | amo (va : Nat) (op : AmoOp) (w64 : Bool) (b : Word)
  deriving DecidableEq, Repr

/-- A side-log entry (R232), with the datum at its issue (R391), and the page that it waits for, if it does, with whether that page is
migrating (R386). -/
structure SideEntry where
  acc : Access
  attr : Attr
  datum : Word
  held : Option (Nat × Bool)
  deriving DecidableEq, Repr

/-- A side-log entry of a record that has taken EXIT: it stays in its cluster's log until it is replayed (R232). -/
structure Left where
  lid : Nat
  seq : Nat
  wid : Word
  asid : Nat
  clu : CluId
  entry : SideEntry
  deriving DecidableEq, Repr

/-- One cluster's architectural state. `safeLive` is the masks of the SAFE line at which it stands halted (R223); `acted` says that the folio at
its line has acted but for its YIELD or EXIT, and holds what a YIELD of its own has read (R226); `age` counts the consecutive refusals at each shared port, `refused` are the ports that
refused it in this clk, and `got` those that have granted the request of its folio line (R38, R39); `relAt` is the number of the store after
its last release fence (R148), `turned` says that its last line ended an iteration of a loop (R412), and `scOut` the cells that its SC joins have still to reach on other packages (R162). -/
structure Cluster where
  s : Vector Word 64
  v : Vector VecReg 48
  p : BitVec 16
  m : Vector Mask 8
  pc : Word
  la : Latch
  lb : Latch
  lc : Latch
  rrb : BitVec 5
  lctr : Vector LoopCtr 8
  loops : List LoopRec
  hm : Bool
  tsub : BitVec 8
  tcause : BitVec 8
  trappc : Word
  trapa : Vector Word 4
  trapit : Vector Word 8
  stoppedEng : Option Eng
  sr : Vector (BitVec 32) 128
  slog : List SideEntry
  pendEx : List PendEx
  pendTrap : List BTrap
  drought : Nat
  dfired : Bool
  hold : Hold
  replies : List (Fin 64)
  rstk : List Word
  age : Vector Nat 4
  refused : BitVec 4
  got : BitVec 4
  acted : Option (Word × Word)
  halted : Bool
  safeLive : Option (BitVec 24 × BitVec 8)
  known : Vector Nat 4
  branch : Option Word
  forked : Option Word
  relAt : Nat
  turned : Bool
  scOut : List (Nat × Nat)
  deriving DecidableEq, Repr

/-- A command as its queue holds it (R41, R52, R58, R70): its entry and stack values, who enqueued it, what it captured, the stamp that
orders the core's commands, the stamps of each cluster's commands that its cluster knew to come before it (R36), and the runs that were
pre-empted when its run began (R52). -/
structure CmdSpec where
  entry : Nat
  a : Word
  b : Word
  clu : CluId
  reply : Option (Fin 64)
  numctl : Word
  iter : List Nat
  pos : Nat
  wid : Word
  lid : Nat
  seq : Nat
  run : Nat
  folio : Nat
  stamp : Nat
  enq : Word
  known : List Nat
  notAfter : List Nat
  deriving DecidableEq, Repr

/-- One end of a piece of a copy: a virtual address, or a byte of a tile handle. -/
inductive CopyEnd where
  | va (a : Nat)
  | tile (h off : Nat)
  deriving DecidableEq, Repr

/-- A run of bytes that a copy moves. -/
structure Piece where
  src : CopyEnd
  dst : CopyEnd
  n : Nat
  deriving DecidableEq, Repr

/-- A copy in progress (R312 to R314): its pieces in increasing destination address, its scope, the destination chip, its traffic class,
whether it folds into the running CRC, what CRCI puts there and what LAST compares, the handle and code that it fills, its words on the stack; for a remote copy
how many of its bytes are acknowledged, the number of the packet that is under way, and the CYC at which a copy answered ABSENT resends; for a copy that
a helper placed, the core's command stamp at its placement and what TRAPA2 says of a fault of its word (R292). -/
structure CopyJob where
  pieces : List Piece
  scope : Scope
  remote : Option Coord
  class0 : Bool
  fold : Bool
  init : Option (BitVec 32)
  exp : Option (BitVec 32)
  tile : Option (Word × Bool)
  pops : Nat
  acked : Nat
  sent : Option Nat
  again : Option Word
  placed : Nat
  where_ : Word
  deriving DecidableEq, Repr

/-- A place of an engine's queue: a wait entry on a flag, a command (R47), or a copy that a helper sequencer placed (R315). -/
inductive QEnt where
  | wait (f : Fin 64)
  | cmd (c : CmdSpec)
  | placed (c : CmdSpec) (h : Eng) (j : CopyJob)
  deriving DecidableEq, Repr

/-- The multi-step work of a word in progress on an engine: strokes, races, tables, copies, collectives, a bank fill. -/
inductive Job where
  | mma (act acc : Word) (shape : Nat) (m : Nat) (half : Nat)
  | mload (w : Word)
  | race (kind : Nat) (keys out : Word) (key : Key) (n k : Nat) (lf : Bool) (pass : Nat) (ranks : List (Nat × Nat))
  | copy (c : CopyJob)
  | coll
  deriving DecidableEq, Repr

/-- What holds a command's stream on a translation (R386): nothing, or a walk that found no entry or one in migration. -/
inductive Stall where
  | none
  | held (asid va : Nat) (mig : Bool)
  deriving DecidableEq, Repr

/-- The running command of an engine (R289). `killed` marks the command of a rolled-back record, which stops at its next word boundary (R405);
`drawn` lists the words that rounded under SR so far, each with its elements and the draws of
each (R306); `left` and `hops` are the bytes that the command has still to perform and its hops (R139, R313); `owner` is the helper that
placed it, for a copy of R315, and `copies` how many of a helper's copies are not complete. -/
structure Cmd where
  spec : CmdSpec
  ip : Nat
  stk : List Word
  rstk : List Nat
  bound : Option Nat
  issued : Word
  replied : Bool
  flags : BitVec 7
  pend : List PendEx
  job : Option Job
  spot : BitVec 32
  conv : Nat
  drawn : List (Nat × Nat)
  promise : Option Word
  left : Nat
  hops : Nat
  copies : Nat
  stall : Stall
  owner : Option Eng
  killed : Bool
  deriving DecidableEq, Repr

/-- A weight bank: the format record of its fill and its codes and scales, column by column (R100). -/
structure Bank where
  fmt : BitVec 32
  codes : List Int
  index : List Nat
  scales : List (BitVec 8)
  deriving DecidableEq, Repr

/-- The event crossbar of a context (R48 to R50): its registers, the writes that take effect from the next cycle (R322), the terms'
outputs and the counters' source levels at the last sampling, and the actions due at the end of this cycle, each with its entry. -/
structure Xbar where
  evx : Vector Word 32
  pend : List (Nat × Word)
  terms : BitVec 16
  prev : BitVec 16
  due : List (Nat × Nat)
  deriving DecidableEq, Repr

/-- One engine (R10, R12, R41). `pulse` names the record of the command that executed END in this cycle (R48), `waitLeft` says that a wait entry
has left the queue's head in this cycle (R369); `keys` holds the key registers of the tile's columns, those not listed being 0 (R110; log
entry 106). -/
structure Engine where
  prog : List (BitVec 16)
  entries : List (BitVec 16)
  queue : List QEnt
  cmd : Option Cmd
  stopped : Bool
  mark : Bool
  credits : Nat
  desc : Option (Vector Word 4)
  bank0 : Option Bank
  bank1 : Option Bank
  active : Option Bool
  crc : List (Nat × BitVec 32)
  lastPromise : Word
  posn : Nat
  pulse : Option (Nat × Nat)
  waitLeft : Bool
  keys : List (Nat × Nat)
  deriving DecidableEq, Repr

/-- One group of an accumulator row (R64, R105). -/
structure AccGroup where
  row : Nat
  grp : Nat
  e : Nat
  sg : Bool
  m : List Int
  deriving DecidableEq, Repr

/-- A tile-table entry (R116 to R122) with the handle's contents; `Core.tiles` lists it under 1,024·ASID + handle. `stamp` names the allocation for contents not yet written; `flips` are the
command stamps at its owner flips (R52), and `mine` the record whose current run allocated it (R405). -/
structure TileEnt where
  h : Nat
  rowsm1 : Nat
  colsm1 : Nat
  esz : Nat
  level : Nat
  home : Nat
  owner : Bool
  res : Bool
  infl : Bool
  pins : Nat
  swz : BitVec 8
  ptag : BitVec 8
  place : Nat
  slot : Nat
  last : Nat
  stamp : Nat
  flips : List Nat
  mine : Option (Nat × Nat)
  cells : List Host.Cell
  acc : List AccGroup
  deriving DecidableEq, Repr

/-- What a strand's signature covers (R83): NUMCTL at its start, the values that MTK wrote to it, and the descriptors that its commands
loaded in enqueue order; of the current run, which a rollback discards, the last two so far, descriptors with their command's stamp. -/
structure Sig where
  start : Option Word
  mtk : List Word
  desc : List Word
  curMtk : List Word
  curDesc : List (Nat × List Word)
  deriving DecidableEq, Repr

/-- The run of a record on a core: which record, and what the rules of the run need. -/
structure Run where
  lid : Nat
  seq : Nat
  wid : Word
  runId : Nat
  startDatum : Word
  notAfter : List Nat
  deriving DecidableEq, Repr

/-- A staged byte (R403): who wrote it, where it goes, in which order and at which scope, in program order per cluster; with the virtual
address and the datum at issue (R391), its window, the space it translated in and its page's grant (R385), and the store that it is of. -/
structure Staged where
  lid : Nat
  seq : Nat
  clu : CluId
  pa : Nat
  byte : Byte
  ord : Ord
  scope : Scope
  va : Nat
  datum : Word
  window : Nat
  asid : Nat
  granted : Word
  store : Nat
  deriving DecidableEq, Repr

/-- A release LJOIN of a record with staged bytes before it (R162, R403): the cell that it will join, and its value. -/
structure StagedJoin where
  lid : Nat
  seq : Nat
  clu : CluId
  slot : Nat
  off : Nat
  ltype : Nat
  sc : Bool
  val : Nat
  deriving DecidableEq, Repr

/-- What was recorded for a context while it is saved (R334): flags set, rendezvous marks, replies, raised flags. -/
structure Recorded where
  flags : BitVec 64
  marks : BitVec 32
  replies : List (CluId × Fin 64 × Word)
  fp : BitVec 7
  traps : List (CluId × BTrap)
  deriving DecidableEq, Repr

/-- A pre-empted record's saved context (R334, R388); `arrays` is the descriptor, the weight banks and the active bank of each engine (R300;
log entry 46); `debug` says that a debug halt holds it (R329), `given` that its scratchpad went to another context (R389). -/
structure Saved where
  run : Run
  pri : Nat
  asid : Nat
  clusters : Vector Cluster 4
  numctl : Word
  fpstat : Word
  memdef : Word
  agectl : Word
  unpk : Vector Word 4
  tvec : Word
  xb : Xbar
  cc : BitVec 16
  cck : Vector (Vector Nat 4) 16
  f : BitVec 64
  marks : List Bool
  credits : List Nat
  queues : List (List QEnt)
  posns : List Nat
  crcs : List (List (Nat × BitVec 32))
  arrays : List (Option (Vector Word 4) × Option Bank × Option Bank × Option Bool)
  recorded : Recorded
  debug : Bool
  given : Bool
  deriving DecidableEq, Repr

/-- One scribe core and its engines. `ccSet`, `ccClr`, `fSet`, `fClr`, `fpSetNow`, `exNow` and `kpend` hold the cycle's sets and clears of cc bits
and flags, the exception flags that it raised and the exceptions that become pending, and its writes to shared k-registers, which take effect
at its end (R36, R47, R80, R81, R322); `granted` counts the requests that each shared port has granted in it (R37). -/
structure Core where
  clu : Vector Cluster 4
  eng : Vector Engine 27
  numctl : Word
  fpstat : Word
  memdef : Word
  agectl : Word
  unpk : Vector Word 4
  tvec : Word
  xb : Xbar
  cc : BitVec 16
  ccSet : BitVec 16
  ccClr : BitVec 16
  cck : Vector (Vector Nat 4) 16
  f : BitVec 64
  fSet : BitVec 64
  fClr : BitVec 64
  fpSetNow : BitVec 7
  exNow : List (CluId × PendEx)
  kpend : List (Nat × Word)
  granted : Vector Nat 4
  folioNo : Nat
  asid : Nat
  run : Option Run
  popped : Option (Nat × Nat)
  tiles : List (Nat × TileEnt)
  qctr : List (Nat × Word)
  frz : Bool
  preReq : Bool
  haltd : Bool
  dbgHalted : Bool
  pstop : Bool
  staging : List Staged
  joins : List StagedJoin
  left : List Left
  imgTag : Option (Nat × Nat)
  saved : List Saved
  lastEnd : Word
  runs : Nat
  stamps : Nat
  deriving DecidableEq, Repr

/-- A tile's levelling, patrol and resolver registers and its place in the slew limiter (R392, R352). -/
structure TileRegs where
  lvl : Bool
  fail : Bool
  dead : Bool
  tgt : BitVec 9
  bias : BitVec 12
  vgain : BitVec 12
  temp : BitVec 16
  tlvl : BitVec 16
  offn : BitVec 8
  offp : BitVec 8
  rescnt : BitVec 48
  spotcnt : BitVec 48
  spoterr : BitVec 16
  pending : Bool
  since : Word
  began : Word
  convs : Nat
  winStart : BitVec 48
  fenced : Bool
  granted : Bool
  filling : Option Word
  leaving : Bool
  deriving DecidableEq, Repr

/-- One race die's registers (R351, R392) and the state of its slew limiter (R352). -/
structure RDie where
  rampl : Word
  ramph : Word
  down : BitVec 7
  pendL : Option Word
  pendH : Option Word
  pendD : Option (BitVec 7)
  idx : Nat
  prev : Nat
  ruthr : BitVec 24
  ruwin : BitVec 5
  dt : BitVec 8
  period : BitVec 8
  paten : Bool
  patintv : BitVec 16
  patskip : BitVec 48
  cecnt : BitVec 48
  uecnt : BitVec 48
  deriving DecidableEq, Repr

/-- The states of a record (R17). -/
inductive RState where
  | pending | ready | running | preempted | draining | retired | lost
  deriving DecidableEq, Repr

/-- A continuation record (R13, R17). `dw2` and `dw3` are the doublewords it was pushed with, `slot` its place in its priority's ring (R379);
`member` says that its launch created it; `held` is the NUMCTL and FPSTAT that a YIELD leaves for its next run (R69), `posns` how many
commands its earlier runs have enqueued to each engine (R58). -/
structure Rec where
  lid : Nat
  seq : Nat
  wid : Word
  code : Nat
  frame : Nat
  jcnt : Nat
  preds : List Nat
  pri : Nat
  helper : Bool
  node : Bool
  det : Bool
  member : Bool
  state : RState
  dw2 : Word
  dw3 : Word
  slot : Nat
  readyStamp : Int
  readyDatum : Word
  readyCode : Nat
  core : Option Nat
  rollbacks : Nat
  retiredSince : List Nat
  nidem : Bool
  fp : BitVec 7
  held : Option (Word × Word)
  posns : List Nat
  sig : Sig
  deriving DecidableEq, Repr

/-- One participant of a collective (R309 to R311): its command, its index, its word, its values (a pair (a, 0) where they are single),
and whether its word is done. -/
structure Contrib where
  core : CoreId
  spec : CmdSpec
  idx : Nat
  scan : Bool
  op : CollOp
  excl : Bool
  xs : List (Nat × Nat)
  done : Bool
  deriving DecidableEq, Repr

/-- A collective at the combiner: its launch, its level, the value of the fields above it, its number of participants, whether they
differ, and those that have arrived (R309 to R311). -/
structure Coll where
  lid : Nat
  level : Nat
  hi : Nat
  total : Nat
  bad : Bool
  parts : List Contrib
  deriving DecidableEq, Repr

/-- One field of a launch header (R358). -/
structure LField where
  width : Nat
  extent : Nat
  scope : Nat
  gang : Bool
  deriving DecidableEq, Repr

/-- A launch: its packet, its header, and its progress (R25 to R30, R376, R377, R381). `members` counts those of this chip, `statics` are
the handles of R365 by core, `held` says that a page it needs waits for XRETRY, `asked` that a request was posted for it (R386), and `peers`, for a
launch over several chips, how many members the other packages lost, once all there have retired or are lost (R340; log entry 107). -/
structure Launch where
  lid : Nat
  asid : Nat
  idx : Nat
  img : Nat
  frame : Nat
  stk : Nat
  sz : Nat
  cmask : BitVec 32
  numctl : Word
  tvec : Word
  start : Word
  compl : Nat
  tag : Word
  chipset : Nat
  flags : BitVec 16
  code0 : Nat
  codeBase : Nat
  descBase : Nat
  hdr : List Word
  fields : List LField
  k : Nat
  dyn : Bool
  nchips : Nat
  chipPos : Nat
  nextMember : Nat
  members : Nat
  nextSeq : Nat
  started : Option Word
  ended : Word
  nret : Nat
  lost : Nat
  fp : BitVec 7
  status : Nat
  done : Bool
  held : Bool
  asked : Bool
  declined : Bool
  peers : Option Nat
  statics : List (Nat × List Nat)
  sigs : List (Word × Word)
  deriving DecidableEq, Repr

/-- An address-space identifier's context (R380, R381). `pktHeld` says that its next packet waits for XRETRY, `pktAsked` that a request was
posted for it (R386). -/
structure Ctx where
  active : Bool
  cooling : Option Word
  ptroot : Nat
  ringbase : Nat
  rlog : Nat
  lease : Nat
  cons : Nat
  fqbase : Nat
  fqlog : Nat
  fqtail : Nat
  fqovf : Nat
  backbase : Nat
  backsize : Nat
  savebase : Nat
  cexp : Nat
  texp : Nat
  flags : BitVec 32
  lwin : List Nat
  lseq : Word
  ldone : Word
  pktHeld : Bool
  pktAsked : Bool
  pktDeclined : Bool
  deriving DecidableEq, Repr

/-- A cached translation with its lease (R385). `unit` is the unit whose cache holds it. -/
structure Tlb where
  unit : Nat
  asid : Nat
  va : Nat
  size : Nat
  tt : Nat
  r : Bool
  w : Bool
  x : Bool
  c : Bool
  pa : Nat
  ltype : BitVec 4
  lscope : Bool
  granted : Word
  expiry : Word
  deriving DecidableEq, Repr

/-- A walk-cache entry (R385): the table of a level that a unit's walks of an address range reach, with its lease. -/
structure WalkEnt where
  unit : Nat
  asid : Nat
  level : Nat
  va : Nat
  table : Nat
  granted : Word
  expiry : Word
  deriving DecidableEq, Repr

/-- A store that has not reached every visibility group (R143): its bytes by physical place, the window it used, who issued it, its
order and scope, the groups that have seen it, the earlier accesses that a release waits for, and the cluster's acquires before it that
every order waits for (R145); its record, the virtual addresses of its places, and the datum at issue (R391); the space it translated in (64
for the physical space), with each page's grant (R385); whether the side log's replay issued it (R153), whether it is the write of an atomic
(R133), the groups where a fence has made it visible through both HBM windows (R148), its number in program order, which is the one it was staged
with where it was (R404), and whether it is an atomic's write that a release of its record orders behind the bytes staged before it (R145). -/
structure InFlight where
  id : Nat
  core : CoreId
  clu : CluId
  window : Nat
  bytes : List (Nat × Byte)
  ord : Ord
  scope : Scope
  seen : BitVec 10
  after : List Nat
  behind : List Nat
  who : Option (Nat × Nat)
  names : List (Nat × Nat)
  datum : Word
  asid : Nat
  grants : List (Nat × Word)
  replay : Bool
  rmw : Bool
  xwin : BitVec 10
  po : Nat
  held : Bool
  deriving DecidableEq, Repr

/-- A cell of a lattice replica above bottom (R155, R157): die, slot, offset of the cell in its page, value as a little-endian number. -/
structure LatCell where
  die : Nat
  slot : Nat
  off : Nat
  val : Nat
  deriving DecidableEq, Repr

/-- A lattice slot's record (R381). -/
structure SlotRec where
  slot : Nat
  ltype : BitVec 4
  lscope : Bool
  deriving DecidableEq, Repr

/-- An invalidation marker (R152, R385): the range of an ASID, the datum and CYC of the INVAL, and each core's command stamp then. -/
structure Marker where
  asid : Nat
  lo : Nat
  hi : Nat
  since : Word
  cyc : Word
  stamps : List Nat
  deriving DecidableEq, Repr

/-- A translation request that waits for room in its fault queue (R390). -/
structure Post where
  asid : Fin 64
  core : Nat
  clu : Nat
  eng : Nat
  wid : Word
  tag : Word
  va : Nat
  kind : Nat
  deriving DecidableEq, Repr

/-- A DUMP that waits for its cores to halt (R391): the context, the buffer's address, the cores, each with the record that ran there. -/
structure DumpJob where
  asid : Fin 64
  buf : Nat
  cores : List (Nat × Nat × Nat)
  deriving DecidableEq, Repr

/-- The driver-window registers of unit 40 (R379, R420). -/
structure PkgRegs where
  ctxtab : Word
  fatbase : Word
  mwbase : Word
  dbghalt : Word
  invPhase : BitVec 2
  inv : Word
  invStart : Word
  marks : List Marker
  invdone : Word
  seals : Vector Word 16
  xctl : Word
  xsched : Vector Word 8
  xpend : List (Nat × Word)
  ctxBusy : Bool
  ctxResult : BitVec 2
  stalled : Option Nat
  pqring : Vector Word 4
  csetbase : Word
  locks : List Nat
  round : Nat
  dump : Option DumpJob
  deriving DecidableEq, Repr

/-- A codeword of HBM or a word of SRAM that the code still corrects, by its place and length; `counted` since the last write to it (R401). -/
structure Weak where
  place : Nat
  size : Nat
  counted : Bool
  deriving DecidableEq, Repr

/-- A row of the corrected-error table, or a word of SRAM (R401, R402); `logged` since its entry was reset. -/
structure ErrRow where
  place : Nat
  row : Nat
  count : Nat
  first : Word
  logged : Bool
  deriving DecidableEq, Repr

/-- The management controller's registers (R397, R433) and tables (R401). -/
structure McRegs where
  rlbase : Word
  rllog : BitVec 5
  rltail : BitVec 32
  rlhead : BitVec 32
  cewin : Word
  cethr : BitVec 8
  stgbase : Word
  stgsize : BitVec 32
  rblimit : BitVec 4
  inj : Word
  injva : Word
  rlovf : BitVec 32
  fence : Vector Word 8
  locks : List Nat
  rows : List ErrRow
  words : List ErrRow
  pcap : BitVec 16
  pwr : BitVec 16
  tmax : BitVec 16
  capms : BitVec 16
  cap : Nat
  flow : BitVec 16
  tin : BitVec 16
  trips : BitVec 32
  deriving DecidableEq, Repr

/-- A trace record (R410). -/
structure TraceRec where
  datum : Word
  ty : Nat
  core : Nat
  unit : Nat
  loop : Nat
  stage : BitVec 8
  subt : Nat
  seq : Nat
  iter : Nat
  arg : Word
  deriving DecidableEq, Repr

/-- The trace streamer (R409, R411); `tick` are the core and unit of each record captured in the datum tick `tickAt` (R410). -/
structure Trace where
  ctl : Word
  stopped : Bool
  ring : Word
  wr : Word
  rd : Word
  trig : Word
  ovw : Word
  circle : List TraceRec
  tick : List (Nat × Nat)
  tickAt : Word
  post : Option Nat
  deriving DecidableEq, Repr

/-- The states of the transit island (R416). -/
inductive IState where
  | off | train | forwardOnly | attached | draining
  deriving DecidableEq, Repr

/-- A traverse port (R418, R426). Its class-0 bucket is held in thirds of a byte; `wait0` are the class-0 packets held at admission,
`sent` the packets that have left by this port, and `ncpres` whether the neighbour's status flit reports its compute present (R419);
`recent` is the datum of each replay of the last ms (R425). -/
structure Port where
  replay : BitVec 32
  retrain : BitVec 16
  lstate : BitVec 2
  bucket : Nat
  wait0 : List Packet
  sent : List Packet
  ncpres : Bool
  recent : List Word
  deriving DecidableEq, Repr

/-- The transit island (R416 to R426). `frac` and `shadowFrac` are the counters' fractional parts in 1/(21·10^9) tick, and `slew` what
remains to be slewed out, in the same unit; `rootAt` is the chip that the last exchange named as the datum's root (R423), `resend` the packets
that found no way or no endpoint, each with the datum at which it is sent again (R419, R429); `jumped` is the last forward step of the local datum, from and to (R424). -/
structure Island where
  state : IState
  cpres : Bool
  coordSet : Bool
  me : Coord
  ext : Coord
  datum : Word
  frac : Nat
  slew : Int
  rate : BitVec 32
  skew : BitVec 32
  parent : PortId
  lock : Bool
  root : Bool
  trained : Bool
  dptm : Word
  ports : Vector Port 8
  c0wait : Word
  inbox : List Packet
  shadow : Word
  shadowFrac : Nat
  shadowing : Bool
  ahead : Bool
  jumped : Option (Word × Word)
  rootAt : Coord
  resend : List (Word × Packet)
  deriving DecidableEq, Repr

/-- The unit of work that the default rotation or the agenda names next (log entry 2): a cluster's or an engine's turn, an event at a unit, some
clk, a read or write of BAR0 by the host (R372), an upset of a stored bit (R400 to R402), or a race pass on an engine with the conversions that
misread and what each reads (R89, R110; log entry 96), the SC joins of a cluster applied on the other packages (R162; log entry 39), or the members
of a launch on the other packages retired, with how many were lost (R340; log entry 107). -/
inductive Turn where
  | cluster (n : CoreId) (c : CluId)
  | engine (n : CoreId) (e : Eng)
  | event (u : At) (i : Instr)
  | clk (k : Nat)
  | hostRead (off len : Nat)
  | hostWrite (off : Nat) (bytes : List Byte)
  | upset (place : Nat) (hard : Bool)
  | race (n : CoreId) (e : Eng) (misread : List (Nat × Nat))
  | joined (n : CoreId) (c : CluId)
  | peers (lid lost : Nat)
  deriving DecidableEq, Repr

/-- How a syllable of the line being issued ended. -/
inductive Ev where
  | done
  | trap (t : TrapRec)
  | held (h : Hold)
  deriving DecidableEq, Repr

/-- The issue context of the line being issued: the sources as they stood before it (R184), the line's bits and marks, what it has
come to, the engines that earlier lines of its folio enqueue to and their number of SPAWNs (R34), and the shared ports that it requests
(R37). -/
structure Iss where
  src : Cluster
  sync : Bool
  holdA : Bool
  holdB : Bool
  holdC : Bool
  attr : Option Attr
  bits : BitVec 128
  inBody : Bool
  afterTrap : Option TrapRec
  ending : Bool
  ev : Ev
  ahead : List Eng
  spawns : Nat
  ports : BitVec 4
  deriving DecidableEq, Repr

/-- The whole package: the cores, the tiles and race dies, memory in every form, the launch unit, the management controller, the trace
streamer, the transit island, whether the compute rails are up, and the model's own fields. -/
structure State where
  cores : Vector Core 32
  tile : Vector TileRegs 512
  rdie : Vector RDie 8
  mem : List Host.Cell
  host : List Host.Cell
  bad : List (Nat × Nat)
  weak : List Weak
  inflight : List InFlight
  lat : List LatCell
  dirty : List (Nat × Nat × Nat × Nat)
  carried : List (Nat × Nat × Nat × Nat)
  sysDirty : List (Nat × Nat × Nat)
  slots : List SlotRec
  tlb : List Tlb
  wcache : List WalkEnt
  ctxs : Vector Ctx 64
  launches : List Launch
  recs : List Rec
  coll : List Coll
  pkg : PkgRegs
  mc : McRegs
  trace : Trace
  island : Island
  cyc : Word
  power : Bool
  hostLink : Option (Bool × Bool)
  msi : List Nat
  posts : List Post
  patrol : List (Nat × Nat)
  at_ : At
  iss : Iss
  agenda : List Turn
  rr : Nat
  issued : List (Nat × Nat)
  fresh : Nat
  ids : Nat
  hostOut : List Byte
  hostHeld : List (Nat × Bool × Instr)
  deriving DecidableEq, Repr

/-- A cluster at reset; m0 is all ones (R179). -/
def Cluster.reset : Cluster where
  s := Vector.replicate 64 0
  v := Vector.replicate 48 (Vector.replicate 128 0)
  p := 0
  m := Vector.ofFn fun i => if i.val = 0 then BitVec.allOnes 128 else 0
  pc := 0
  la := {}
  lb := {}
  lc := {}
  rrb := 0
  lctr := Vector.replicate 8 {}
  loops := []
  hm := false
  tsub := 0
  tcause := 0
  trappc := 0
  trapa := Vector.replicate 4 0
  trapit := Vector.replicate 8 0
  stoppedEng := none
  sr := Vector.replicate 128 0
  slog := []
  pendEx := []
  pendTrap := []
  drought := 0
  dfired := false
  hold := .none
  replies := []
  rstk := []
  age := Vector.replicate 4 0
  refused := 0
  got := 0
  acted := none
  halted := false
  safeLive := none
  known := Vector.replicate 4 0
  branch := none
  forked := none
  relAt := 0
  turned := false
  scOut := []

/-- An engine at reset: no program, every entry unset (R288). -/
def Engine.reset : Engine where
  prog := []
  entries := []
  queue := []
  cmd := none
  stopped := false
  mark := false
  credits := 0
  desc := none
  bank0 := none
  bank1 := none
  active := none
  crc := []
  lastPromise := 0
  posn := 0
  pulse := none
  waitLeft := false
  keys := []

/-- The reset value of a counter or term register EVXn (R49, R50): EN 0, the source, the destination and the inputs none. -/
def evxReset (n : Nat) : Word :=
  if n < 16 then 0x00FF_FF00_0000_0000#64 else 0x00FF_FFFF_FFFF_0000#64

/-- The crossbar at reset: every counter and term disabled. -/
def Xbar.reset : Xbar where
  evx := Vector.ofFn fun i => evxReset i.val
  pend := []
  terms := 0
  prev := 0
  due := []

/-- A core at reset. -/
def Core.reset : Core where
  clu := Vector.replicate 4 Cluster.reset
  eng := Vector.replicate 27 Engine.reset
  numctl := 0
  fpstat := 0
  memdef := 0x40
  agectl := 0x0FF55
  unpk := Vector.replicate 4 0
  tvec := 0
  xb := Xbar.reset
  cc := 0
  ccSet := 0
  ccClr := 0
  cck := Vector.replicate 16 (Vector.replicate 4 0)
  f := 0
  fSet := 0
  fClr := 0
  fpSetNow := 0
  exNow := []
  kpend := []
  granted := Vector.replicate 4 0
  folioNo := 0
  asid := 0
  run := none
  popped := none
  tiles := []
  qctr := []
  frz := false
  preReq := false
  haltd := false
  dbgHalted := false
  pstop := false
  staging := []
  joins := []
  left := []
  imgTag := none
  saved := []
  lastEnd := 0
  runs := 0
  stamps := 0

/-- A tile's registers at reset (R392). The fused trims are free values (log entry 9); TEMP and TLVL have no reset value and stand at
0 (log entry 12). -/
def TileRegs.reset (t : Nat) : TileRegs where
  lvl := false
  fail := false
  dead := false
  tgt := 100
  bias := Config.fusedBias t
  vgain := Config.fusedVgain t
  temp := 0
  tlvl := 0
  offn := Config.fusedOffn t
  offp := Config.fusedOffp t
  rescnt := 0
  spotcnt := 0
  spoterr := 0
  pending := false
  since := 0
  began := 0
  convs := 0
  winStart := 0
  fenced := false
  granted := false
  filling := none
  leaving := false

/-- A race die's registers at reset (R351, R352, R392). -/
def RDie.reset : RDie where
  rampl := 0x201C_1814_100C_0804#64
  ramph := 0x403C_3834_302C_2824#64
  down := 4
  pendL := none
  pendH := none
  pendD := none
  idx := 0
  prev := 0
  ruthr := 16384
  ruwin := 24
  dt := 8
  period := 50
  paten := true
  patintv := 80
  patskip := 0
  cecnt := 0
  uecnt := 0

/-- A context that is not active. -/
def Ctx.reset : Ctx where
  active := false
  cooling := none
  ptroot := 0
  ringbase := 0
  rlog := 0
  lease := 0
  cons := 0
  fqbase := 0
  fqlog := 0
  fqtail := 0
  fqovf := 0
  backbase := 0
  backsize := 0
  savebase := 0
  cexp := 0
  texp := 0
  flags := 0
  lwin := []
  lseq := 0
  ldone := 0
  pktHeld := false
  pktAsked := false
  pktDeclined := false

/-- XSCHEDr at reset: the cycle of R164, five bytes a round, a pair as high and low nibble. -/
def xschedReset (r : Nat) : Word :=
  match r with
  | 0 => 0x49_3827_1605#64
  | 1 => 0x89_6745_2301#64
  | 2 => 0x79_5634_1208#64
  | 3 => 0x89_6745_2301#64
  | _ => 0xFF_FFFF_FFFF#64

/-- The driver-window registers at reset (R379). -/
def PkgRegs.reset : PkgRegs where
  ctxtab := 0
  fatbase := 0
  mwbase := 0
  dbghalt := 0
  invPhase := 0
  inv := 0
  invStart := 0
  marks := []
  invdone := 0
  seals := Vector.replicate 16 0
  xctl := 0x403
  xsched := Vector.ofFn fun i => xschedReset i.val
  xpend := []
  ctxBusy := false
  ctxResult := 0
  stalled := none
  pqring := Vector.replicate 4 0
  csetbase := 0
  locks := []
  round := 0
  dump := none

/-- The management controller's registers at reset (R397, R433). -/
def McRegs.reset : McRegs where
  rlbase := 0
  rllog := 8
  rltail := 0
  rlhead := 0
  cewin := 86400000000000#64
  cethr := 3
  stgbase := 0
  stgsize := 0
  rblimit := 3
  inj := 0
  injva := 0
  rlovf := 0
  fence := Vector.replicate 8 0
  locks := []
  rows := []
  words := []
  pcap := 1500
  pwr := 0
  tmax := 0
  capms := 0
  cap := 64
  flow := 0
  tin := 0
  trips := 0

/-- The trace streamer at reset (R409). -/
def Trace.reset : Trace where
  ctl := 0
  stopped := false
  ring := 8
  wr := 0
  rd := 0
  trig := 0xFF00
  ovw := 0
  circle := []
  tick := []
  tickAt := 0
  post := none

/-- A traverse port at reset (R418); its bucket is full (R426; log entry 12). -/
def Port.reset : Port where
  replay := 0
  retrain := 0
  lstate := 0
  bucket := 12288
  wait0 := []
  sent := []
  ncpres := false
  recent := []

/-- The island at reset (R418): TRAIN, compute not present, extents of 1, ROOT as strapped (log entry 10). -/
def Island.reset : Island where
  state := .train
  cpres := false
  coordSet := false
  me := ⟨0, 0, 0, 0⟩
  ext := ⟨1, 1, 1, 1⟩
  datum := 0
  frac := 0
  slew := 0
  rate := 0
  skew := 0
  parent := 0
  lock := false
  root := true
  trained := false
  dptm := 0
  ports := Vector.replicate 8 Port.reset
  c0wait := 0
  inbox := []
  shadow := 0
  shadowFrac := 0
  shadowing := true
  ahead := false
  jumped := none
  rootAt := ⟨0, 0, 0, 0⟩
  resend := []

/-- No line is being issued. -/
def Iss.reset : Iss where
  src := Cluster.reset
  sync := false
  holdA := false
  holdB := false
  holdC := false
  attr := none
  bits := 0
  inBody := false
  afterTrap := none
  ending := false
  ev := .done
  ahead := []
  spawns := 0
  ports := 0

/-- The machine right after reset: every register at the value its Reset column gives, the island in TRAIN with its rail up, compute
not yet present, nothing queued, memory with nothing listed. -/
def State.reset : State where
  cores := Vector.replicate 32 Core.reset
  tile := Vector.ofFn fun i => TileRegs.reset i.val
  rdie := Vector.replicate 8 RDie.reset
  mem := []
  host := []
  bad := []
  weak := []
  inflight := []
  lat := []
  dirty := []
  carried := []
  sysDirty := []
  slots := []
  tlb := []
  wcache := []
  ctxs := Vector.replicate 64 Ctx.reset
  launches := []
  recs := []
  coll := []
  pkg := PkgRegs.reset
  mc := McRegs.reset
  trace := Trace.reset
  island := Island.reset
  cyc := 0
  power := false
  hostLink := none
  msi := []
  posts := []
  patrol := []
  at_ := {}
  iss := Iss.reset
  agenda := []
  rr := 0
  issued := []
  fresh := 0
  ids := 0
  hostOut := []
  hostHeld := []

end Sys2Proof.Machine
end

