-- ==== Sys2Proof/Machine/Bits.lean ====
section
/-!
DEFINITION. Bit fields, byte order and bit counting on numbers and words, and reading and replacing an element of a fixed-size vector.
-/
namespace Sys2Proof.Machine

/-- Outcome of a meaning. -/
abbrev Res := Host.Outcome State Fault Refusal

/-- A state from an outcome that is one. -/
def Res.orElse (r : Res) (s : State) : State := match r with | .next t => t | _ => s

/-- Bits [hi:lo] of a number. -/
def bits (hi lo n : Nat) : Nat := n / 2 ^ lo % 2 ^ (hi + 1 - lo)

/-- Bit k of a number. -/
def nbit (k n : Nat) : Bool := n / 2 ^ k % 2 == 1

/-- A field of a word as a number. -/
def wf_ (hi lo : Nat) (w : Word) : Nat := bits hi lo w.toNat

/-- The sign extension of the low `k` bits of a number to a word. -/
def signExt (k n : Nat) : Word :=
  let m := n % 2 ^ k
  if m < 2 ^ (k - 1) then BitVec.ofNat 64 m else BitVec.ofNat 64 (m + 2 ^ 64 - 2 ^ k)

/-- The low `k` bits of a number as a two's complement integer. -/
def toSigned (k n : Nat) : Int :=
  let m := n % 2 ^ k
  if m < 2 ^ (k - 1) then (m : Int) else (m : Int) - (2 ^ k : Nat)

/-- An integer's low `k` bits. -/
def ofSigned (k : Nat) (x : Int) : Nat := (x % ((2 ^ k : Nat) : Int)).toNat

/-- The little-endian bytes of a number (R5). -/
def leBytes : Nat → Nat → List Byte
  | 0, _ => []
  | k + 1, n => BitVec.ofNat 8 n :: leBytes k (n / 256)

/-- The number whose little-endian bytes are given (R5). -/
def leNat : List Byte → Nat
  | [] => 0
  | b :: bs => b.toNat + 256 * leNat bs

/-- Set bits among the low `k` bits of a number. -/
def popCount : Nat → Nat → Nat
  | 0, _ => 0
  | k + 1, n => n % 2 + popCount k (n / 2)

/-- Leading zeros of a number seen as `k` bits. -/
def clzNat : Nat → Nat → Nat
  | 0, _ => 0
  | k + 1, n => if nbit k n then 0 else 1 + clzNat k n

/-- Trailing zeros of a number seen as `k` bits. -/
def ctzNat : Nat → Nat → Nat
  | 0, _ => 0
  | k + 1, n => if n % 2 = 1 then 0 else 1 + ctzNat k (n / 2)

/-- The address of the `k` bytes from `a` on, each with its byte. -/
def atAddr : Nat → List Byte → List (Nat × Byte)
  | _, [] => []
  | a, b :: bs => (a, b) :: atAddr (a + 1) bs

/-- Sat(lo, hi, x) of R7. -/
def sat (lo hi x : Int) : Int := if x < lo then lo else if x > hi then hi else x

/-- A two's complement or unsigned value clipped to `w` bits, and whether it was. -/
def satW (w : Nat) (signed : Bool) (x : Int) : Int × Bool :=
  let lo : Int := if signed then -((2 ^ (w - 1) : Nat) : Int) else 0
  let hi : Int := if signed then ((2 ^ (w - 1) : Nat) : Int) - 1 else ((2 ^ w : Nat) : Int) - 1
  (sat lo hi x, decide (sat lo hi x ≠ x))

/-- A vector with one element replaced. -/
def vput {α : Type} {n : Nat} (v : Vector α n) (i : Fin n) (a : α) : Vector α n := v.set i.val a i.isLt

/-- A vector with one element changed by a function. -/
def vmod {α : Type} {n : Nat} (v : Vector α n) (i : Fin n) (g : α → α) : Vector α n := vput v i (g v[i])

/-- Every element of a vector changed by a function. -/
def vall {α : Type} {n : Nat} (v : Vector α n) (g : Fin n → α → α) : Vector α n := Vector.ofFn fun i => g i v[i]

/-- The numbers 0 to n − 1. -/
def upto : Nat → List Nat
  | 0 => []
  | n + 1 => upto n ++ [n]

/-- An element put into a list before the first one that ranks above it. -/
def insertBy {α : Type} (le : α → α → Bool) (x : α) : List α → List α
  | [] => [x]
  | y :: ys => if le y x then y :: insertBy le x ys else x :: y :: ys

/-- A list in rising order; equal elements keep their order. -/
def sortBy {α : Type} (le : α → α → Bool) (l : List α) : List α := l.foldl (fun a x => insertBy le x a) []

/-- The elements of a vector, first to last. -/
def vlist {α : Type} {n : Nat} (v : Vector α n) : List α := List.ofFn fun i : Fin n => v[i]

/-- CYC and datum comparisons are of unsigned numbers. -/
def wle (a b : Word) : Bool := a.toNat ≤ b.toNat

/-- ⌈a / b⌉. -/
def ceilDiv (a b : Nat) : Nat := (a + b - 1) / b

/-- The least power of two at or above `n`, found within `fuel` doublings. -/
def pow2Above : Nat → Nat → Nat
  | 0, p => p
  | k + 1, n => if n ≤ 1 then 1 else 2 * pow2Above k ((n + 1) / 2)

/-- ⌊log2 n⌋ for n > 0, within `fuel` halvings. -/
def log2Nat : Nat → Nat → Nat
  | 0, _ => 0
  | k + 1, n => if n ≤ 1 then 0 else 1 + log2Nat k (n / 2)

end Sys2Proof.Machine
end

