-- ==== Sys2Proof/Machine/Fp.lean ====
section
/-!
DEFINITION. The number formats and the floating-point rules (R60 to R78): exact dyadic values, RoundTo in every mode, NaNs and zeros, the
arithmetic, comparisons, conversions between formats and to and from integers, MX blocks, and the stochastic-rounding generator.
-/
namespace Sys2Proof.Machine

/-- A floating-point format: exponent bits, fraction bits, and whether it is E4M3, which has no infinity and one NaN (R60). -/
structure Fmt where
  eb : Nat
  mb : Nat
  ocp : Bool := false
  deriving DecidableEq, Repr

def fp32 : Fmt := ⟨8, 23, false⟩
def fp16 : Fmt := ⟨5, 10, false⟩
def bf16 : Fmt := ⟨8, 7, false⟩
def e4m3 : Fmt := ⟨4, 3, true⟩
def e5m2 : Fmt := ⟨5, 2, false⟩

/-- The width of a format. -/
def Fmt.width (f : Fmt) : Nat := f.eb + f.mb + 1
/-- The exponent bias (R60). -/
def Fmt.bias (f : Fmt) : Nat := 2 ^ (f.eb - 1) - 1
/-- The exponent of the smallest normal. -/
def Fmt.emin (f : Fmt) : Int := 1 - (f.bias : Int)
/-- The exponent of the largest finite value. -/
def Fmt.emax (f : Fmt) : Int := if f.ocp then 2 ^ f.eb - 1 - (f.bias : Int) else (f.bias : Int)
/-- The bits of the largest finite magnitude (R60). -/
def Fmt.maxBits (f : Fmt) : Nat := if f.ocp then 2 ^ (f.eb + f.mb) - 2 else (2 ^ f.eb - 1) * 2 ^ f.mb - 1
/-- The bits of +∞, or of the positive NaN where the format has no infinity (R71). -/
def Fmt.infBits (f : Fmt) : Nat := if f.ocp then 2 ^ (f.eb + f.mb) - 1 else (2 ^ f.eb - 1) * 2 ^ f.mb
/-- The canonical NaN (R75). -/
def Fmt.nanBits (f : Fmt) : Nat := if f.ocp then f.infBits else f.infBits + 2 ^ (f.mb - 1)
/-- A magnitude with its sign. -/
def Fmt.signed (f : Fmt) (neg : Bool) (x : Nat) : Nat := if neg then 2 ^ (f.eb + f.mb) + x else x

/-- A value: a NaN with sign, quiet bit and fraction bits, an infinity, or (−1)^neg × m × 2^e exactly. -/
inductive FV where
  | nan (neg : Bool) (quiet : Bool) (frac : Nat)
  | inf (neg : Bool)
  | fin (neg : Bool) (m : Nat) (e : Int)
  deriving DecidableEq, Repr

/-- Flag sets, in FPSTAT's order (R79). -/
abbrev FpFlags := BitVec 7
def flNX : FpFlags := 0x01
def flUF : FpFlags := 0x02
def flOF : FpFlags := 0x04
def flDZ : FpFlags := 0x08
def flNV : FpFlags := 0x10
def flSAT : FpFlags := 0x20
def flEMPTY : FpFlags := 0x40

/-- The rounding modes of NUMCTL.RM (R67, R71). -/
inductive RMode where
  | rne | rtz | rup | rdn | rna | sr
  deriving DecidableEq, Repr

/-- The fields of NUMCTL that a rounding follows (R67). -/
structure NumCfg where
  rm : RMode
  subIn : Bool
  subOut : Bool
  sati : Bool
  satf : Bool
  nanc : Bool
  deriving DecidableEq, Repr

/-- A rounding mode's code; the reserved codes cannot be written (R68) and read as RNE. -/
def rmodeOf (n : Nat) : RMode :=
  match n with
  | 1 => .rtz
  | 2 => .rup
  | 3 => .rdn
  | 4 => .rna
  | 5 => .sr
  | _ => .rne

/-- NUMCTL's fields (R67). -/
def numCfg (w : Word) : NumCfg :=
  ⟨rmodeOf (wf_ 10 8 w), w.getLsbD 11, w.getLsbD 12, w.getLsbD 13, w.getLsbD 14, w.getLsbD 15⟩

/-- A result in a format with the flags it raises. -/
abbrev FpRes := Nat × FpFlags

/-- The value of a bit pattern (R60). -/
def unpack (f : Fmt) (x : Nat) : FV :=
  let neg := nbit (f.eb + f.mb) x
  let e := bits (f.eb + f.mb - 1) f.mb x
  let m := x % 2 ^ f.mb
  if f.ocp && e == 2 ^ f.eb - 1 && m == 2 ^ f.mb - 1 then .nan neg true (2 ^ (f.mb - 1))
  else if !f.ocp && e == 2 ^ f.eb - 1 then (if m = 0 then .inf neg else .nan neg (nbit (f.mb - 1) m) m)
  else if e = 0 then .fin neg m (f.emin - f.mb)
  else .fin neg (m + 2 ^ f.mb) ((e : Int) - f.bias - f.mb)

/-- A finite value that is subnormal in its format. -/
def isSub (f : Fmt) (x : Nat) : Bool := bits (f.eb + f.mb - 1) f.mb x == 0 && x % 2 ^ f.mb != 0

/-- An operand, flushed on input where SUBN says so (R73). -/
def operand (c : NumCfg) (f : Fmt) (x : Nat) : FV :=
  if c.subIn && isSub f x then .fin (nbit (f.eb + f.mb) x) 0 0 else unpack f x

/-- A signalling NaN. -/
def FV.snan : FV → Bool
  | .nan _ q _ => !q
  | _ => false
/-- A NaN. -/
def FV.isNan : FV → Bool
  | .nan _ _ _ => true
  | _ => false
/-- The sign. -/
def FV.neg : FV → Bool
  | .nan n _ _ => n
  | .inf n => n
  | .fin n _ _ => n
/-- The value with its sign inverted; a NaN keeps its own (R262). -/
def FV.flip : FV → FV
  | .nan n q p => .nan n q p
  | .inf n => .inf (!n)
  | .fin n m e => .fin (!n) m e

/-- A NaN result from a selected operand with `mf` fraction bits (R74, R75). -/
def nanOut (c : NumCfg) (f : Fmt) (neg : Bool) (frac mf : Nat) : Nat :=
  if c.nanc then f.nanBits
  else if f.ocp then f.signed neg f.infBits
  else
    let p := if mf > f.mb then frac / 2 ^ (mf - f.mb) else frac * 2 ^ (f.mb - mf)
    let q := 2 ^ (f.mb - 1)
    f.signed neg (f.infBits + (if nbit (f.mb - 1) p then p else p + q))

/-- The NaN rule over operands in priority order (R74): the first NaN, and NV for a signalling one anywhere. -/
def nanRule (c : NumCfg) (f : Fmt) (xs : List FV) : Option FpRes :=
  let nv : FpFlags := if xs.any FV.snan then flNV else 0
  match xs.find? FV.isNan with
  | some (.nan n _ p) => some (nanOut c f n p f.mb, nv)
  | _ => none

/-- The invalid operation's result (R74, case 3). -/
def invalid (f : Fmt) : FpRes := (f.nanBits, flNV)

/-- Whether a magnitude of integer part `g` and remainder `r` of 2^k rounds up, by the mode (R71). -/
def roundsUp (rm : RMode) (neg : Bool) (rnd g r k : Nat) : Bool :=
  r != 0 && match rm with
    | .rne => decide (2 * r > 2 ^ k) || (decide (2 * r = 2 ^ k) && g % 2 == 1)
    | .rtz => false
    | .rup => !neg
    | .rdn => neg
    | .rna => decide (2 * r ≥ 2 ^ k)
    | .sr => decide (r * 4294967296 / 2 ^ k + rnd % 4294967296 ≥ 4294967296)

/-- m × 2^e as a multiple of 2^q, rounded: the multiple, and whether it is inexact. A shift beyond every bit of m and 66 more keeps only
that m is not zero. -/
def roundAt (rm : RMode) (neg : Bool) (rnd m : Nat) (e q : Int) : Nat × Bool :=
  if q ≤ e then (m * 2 ^ (e - q).toNat, false)
  else
    let k := (q - e).toNat
    let far := k > Nat.log2 m + 66
    let k' := if far then 70 else k
    let m' := if far then (if m = 0 then 0 else 1) else m
    let g := m' / 2 ^ k'
    let r := m' % 2 ^ k'
    ((if roundsUp rm neg rnd g r k' then g + 1 else g), r != 0)

/-- An infinite result: in E4M3, which has none, the NaN of its sign (R71), canonical where NANC asks for it (R74). -/
def infRes (c : NumCfg) (f : Fmt) (neg : Bool) : Nat := if f.ocp && c.nanc then f.nanBits else f.signed neg f.infBits

/-- The overflow result (R71). -/
def overflowRes (c : NumCfg) (f : Fmt) (neg : Bool) : FpRes :=
  let toMax := c.satf || (match c.rm with
    | .rtz => true
    | .rup => neg
    | .rdn => !neg
    | _ => false)
  (if toMax then f.signed neg f.maxBits else infRes c f neg, flOF ||| flNX)

/-- RoundTo(fmt, mode, (−1)^neg × m × 2^e) for m > 0 (R7, R71, R73). Tininess is taken after rounding with an unbounded exponent.
A value above the largest finite one that SR draws to it raises NX alone (log entry 141). -/
def roundPos (c : NumCfg) (f : Fmt) (rnd : Nat) (neg : Bool) (m : Nat) (e : Int) : FpRes :=
  let top : Int := e + Nat.log2 m
  if f.ocp && c.rm == .sr && top == f.emax && decide ((roundAt .rup false 0 m e (f.emax - f.mb)).1 > 2 ^ (f.mb + 1) - 2) then
    -- E4M3 under SR, between 448 and 2^9 (log entry 17)
    let s := if e < f.emax - f.mb then e else f.emax - f.mb
    let x := m * 2 ^ (e - s).toNat
    let lo := (2 ^ (f.mb + 1) - 2) * 2 ^ (f.emax - f.mb - s).toNat
    let hi := 2 ^ (f.emax + 1 - s).toNat
    if (x - lo) * 4294967296 / (hi - lo) + rnd % 4294967296 ≥ 4294967296 then overflowRes c f neg
    else (f.signed neg f.maxBits, flNX)
  else
    let q := (if top < f.emin then f.emin else top) - f.mb
    let (n, inex) := if top > f.emax + 1 then (2 ^ f.mb, true) else roundAt c.rm neg rnd m e q
    let mag : Int := (q + f.mb + f.bias - 1) * 2 ^ f.mb + n
    if top > f.emax + 1 ∨ mag > f.maxBits then overflowRes c f neg
    else
      let tiny := decide (top < f.emin) && !(top == f.emin - 1 && decide ((roundAt c.rm neg rnd m e (top - f.mb)).1 ≥ 2 ^ (f.mb + 1)))
      if mag.toNat < 2 ^ f.mb && mag.toNat != 0 && c.subOut then (f.signed neg 0, flUF ||| flNX)
      else (f.signed neg mag.toNat, (if inex then flNX else 0) ||| (if inex && tiny then flUF else 0))

/-- A value that is no NaN, rounded into a format (R71); an infinity into E4M3 is invalid (R71). -/
def roundFV (c : NumCfg) (f : Fmt) (rnd : Nat) (x : FV) : FpRes :=
  match x with
  | .nan n _ p => (nanOut c f n p f.mb, 0)
  | .inf n => if f.ocp then (if c.satf then f.signed n f.maxBits else infRes c f n, flNV) else (f.signed n f.infBits, 0)
  | .fin n m e => if m = 0 then (f.signed n 0, 0) else roundPos c f rnd n m e

/-- The exact product; `none` for 0 × ∞. -/
def mulFV (a b : FV) : Option FV :=
  let n := a.neg != b.neg
  match a, b with
  | .inf _, .fin _ m _ => if m = 0 then none else some (.inf n)
  | .fin _ m _, .inf _ => if m = 0 then none else some (.inf n)
  | .fin _ m1 e1, .fin _ m2 e2 => some (.fin n (m1 * m2) (e1 + e2))
  | _, _ => some (.inf n)

/-- The signed multiple of 2^s that a finite value is. -/
def alignTo (s : Int) (neg : Bool) (m : Nat) (e : Int) : Int :=
  let x : Int := (m * 2 ^ (e - s).toNat : Nat)
  if neg then -x else x

/-- The exact sum, with R76's zeros; `none` for ∞ − ∞. -/
def addFV (rm : RMode) (a b : FV) : Option FV :=
  match a, b with
  | .inf n1, .inf n2 => if n1 = n2 then some (.inf n1) else none
  | .inf n, _ => some (.inf n)
  | _, .inf n => some (.inf n)
  | .fin n1 m1 e1, .fin n2 m2 e2 =>
    if m1 = 0 ∧ m2 = 0 then some (.fin (if n1 = n2 then n1 else rm == .rdn) 0 0)
    else if m1 = 0 then some (.fin n2 m2 e2)
    else if m2 = 0 then some (.fin n1 m1 e1)
    else
      let s := if e1 < e2 then e1 else e2
      let v := alignTo s n1 m1 e1 + alignTo s n2 m2 e2
      if v = 0 then some (.fin (rm == .rdn) 0 0) else some (.fin (decide (v < 0)) v.natAbs s)
  | _, _ => none

/-- The result of an exact value that may be invalid. -/
def roundOpt (c : NumCfg) (f : Fmt) (rnd : Nat) : Option FV → FpRes
  | none => invalid f
  | some x => roundFV c f rnd x

/-- a + b, or a − b (R262). -/
def fpAdd (c : NumCfg) (f : Fmt) (rnd : Nat) (sub : Bool) (x y : Nat) : FpRes :=
  let a := operand c f x
  let b := operand c f y
  match nanRule c f [a, b] with
  | some r => r
  | none => roundOpt c f rnd (addFV c.rm a (if sub then b.flip else b))

/-- a × b (R262). -/
def fpMul (c : NumCfg) (f : Fmt) (rnd : Nat) (x y : Nat) : FpRes :=
  let a := operand c f x
  let b := operand c f y
  match nanRule c f [a, b] with
  | some r => r
  | none => roundOpt c f rnd (mulFV a b)

/-- ±(a × b) ± c with one rounding (R262, R74). -/
def fpFma (c : NumCfg) (f : Fmt) (rnd : Nat) (negP negC : Bool) (x y z : Nat) : FpRes :=
  let a := operand c f x
  let b := operand c f y
  let d := operand c f z
  match nanRule c f [d, a, b] with
  | some r => r
  | none => match mulFV a b with
    | none => invalid f
    | some p => roundOpt c f rnd (addFV c.rm (if negP then p.flip else p) (if negC then d.flip else d))

/-- Order of two values that are no NaNs, −0 equal to +0: whether a < b. -/
def ltFV (a b : FV) : Bool :=
  match a, b with
  | .inf n1, .inf n2 => n1 && !n2
  | .inf n, _ => n
  | _, .inf n => !n
  | .fin n1 m1 e1, .fin n2 m2 e2 =>
    let s := if e1 < e2 then e1 else e2
    decide (alignTo s n1 m1 e1 < alignTo s n2 m2 e2)
  | _, _ => false

/-- The same with −0 below +0 (R263). -/
def ltZ (a b : FV) : Bool :=
  match a, b with
  | .fin n1 0 _, .fin n2 0 _ => n1 && !n2
  | _, _ => ltFV a b

/-- VMIN, VMAX, VMINN, VMAXN (R263). `num` is the N form. -/
def fpMinMax (c : NumCfg) (f : Fmt) (mx num : Bool) (x y : Nat) : FpRes :=
  let a := operand c f x
  let b := operand c f y
  let nv : FpFlags := if a.snan || b.snan then flNV else 0
  let out (v : FV) : FpRes := let r := roundFV c f 0 v; (r.1, r.2 ||| nv)
  if num && a.isNan && !b.isNan then out b
  else if num && b.isNan && !a.isNan then out a
  else match nanRule c f [a, b] with
    | some r => r
    | none => if mx then out (if ltZ a b then b else a) else out (if ltZ b a then b else a)

/-- VCMP's outcome and NV (R264). -/
def fpCmp (c : NumCfg) (f : Fmt) (cond : FCond) (x y : Nat) : Bool × FpFlags :=
  let a := operand c f x
  let b := operand c f y
  let un := a.isNan || b.isNan
  let sig : FpFlags := if a.snan || b.snan then flNV else 0
  let any : FpFlags := if un then flNV else 0
  let lt := !un && ltFV a b
  let gt := !un && ltFV b a
  match cond with
  | .eq => (!un && !lt && !gt, sig)
  | .ne => (un || lt || gt, sig)
  | .lt => (lt, any)
  | .le => (!un && !gt, any)
  | .gt => (gt, any)
  | .ge => (!un && !lt, any)
  | .un => (un, sig)
  | .ord => (!un, sig)

/-- VCLASS's one-hot class (R265). -/
def fpClass (f : Fmt) (x : Nat) : Nat :=
  match unpack f x with
  | .nan _ q _ => if q then 2 else 1
  | .inf n => if n then 4 else 512
  | .fin n m _ =>
    if m = 0 then (if n then 32 else 64)
    else if isSub f x then (if n then 16 else 128)
    else if n then 8 else 256

/-- VRND (R266): an integral value in the same format. The result passes through RoundTo, which is exact for it. -/
def fpRnd (c : NumCfg) (f : Fmt) (rnd : Nat) (x : Nat) : FpRes :=
  let a := operand c f x
  match nanRule c f [a] with
  | some r => r
  | none => match a with
    | .fin n m e =>
      if m = 0 then (f.signed n 0, 0)
      else
        let (g, inex) := roundAt c.rm n rnd m e 0
        let r := if g = 0 then (f.signed n 0, (0 : FpFlags)) else roundPos c f 0 n g 0
        (r.1, r.2 ||| (if inex then flNX else 0))
    | v => roundFV c f 0 v

/-- VSCALE: a × 2^n (R267). -/
def fpScale (c : NumCfg) (f : Fmt) (rnd : Nat) (x : Nat) (n : Int) : FpRes :=
  let a := operand c f x
  match nanRule c f [a] with
  | some r => r
  | none => match a with
    | .fin g m e => if m = 0 then (f.signed g 0, 0) else roundPos c f rnd g m (e + n)
    | v => roundFV c f 0 v

/-- A conversion between formats (R71, R73, R284). -/
def fpCvt (c : NumCfg) (f g : Fmt) (rnd : Nat) (x : Nat) : FpRes :=
  match operand c f x with
  | .nan n q p => (nanOut c g n p f.mb, if q then 0 else flNV)
  | v => roundFV c g rnd v

/-- A conversion to an integer of `w` bits, as its low `w` bits (R71): a value out of range before it is rounded saturates. -/
def fpToInt (c : NumCfg) (f : Fmt) (rnd w : Nat) (signed : Bool) (x : Nat) : FpRes :=
  let hi : Int := if signed then ((2 ^ (w - 1) : Nat) : Int) - 1 else ((2 ^ w : Nat) : Int) - 1
  let lo : Int := if signed then -((2 ^ (w - 1) : Nat) : Int) else 0
  match operand c f x with
  | .nan _ _ _ => (0, flNV)
  | .inf n => (ofSigned w (if n then lo else hi), flNV)
  | .fin n m e =>
    let (whole, inex) := if e + Nat.log2 m > w + 1 then (2 ^ (w + 1), false) else roundAt .rtz n 0 m e 0
    let most : Int := if n then -lo else hi
    if (whole : Int) > most ∨ ((whole : Int) = most ∧ inex) then (ofSigned w (if n then lo else hi), flNV)
    else
      let g := (roundAt c.rm n rnd m e 0).1
      (ofSigned w (if n then -(g : Int) else g), if inex then flNX else 0)

/-- A conversion from an integer (R284). Zero gives +0. -/
def intToFp (c : NumCfg) (f : Fmt) (rnd : Nat) (v : Int) : FpRes :=
  if v = 0 then (0, 0) else roundPos c f rnd (decide (v < 0)) v.natAbs 0

-- MX blocks (R61 to R63).
/-- ⌊log2 |x|⌋ of a finite value that is not zero. -/
def FV.top : FV → Int
  | .fin _ m e => e + Nat.log2 m
  | _ => 0
def FV.isZero : FV → Bool
  | .fin _ m _ => m == 0
  | _ => false
def FV.isFin : FV → Bool
  | .fin _ _ _ => true
  | _ => false

/-- The scale of a block from its values (R63): 0xFF for a NaN or an infinity, 0 for zeros. -/
def mxScale (xs : List FV) : Nat :=
  if xs.any fun x => !x.isFin then 255
  else match (xs.filter fun x => !x.isZero).map FV.top with
    | [] => 0
    | t :: ts => (sat 0 254 (ts.foldl (fun a b => if a < b then b else a) t + 127)).toNat

/-- One element's code in `b` bits under scale X, with its flags (R63). -/
def mxCode (rm : RMode) (b X rnd : Nat) (x : FV) : Int × FpFlags :=
  match x with
  | .nan _ q _ => (0, if q then 0 else flNV)
  | .inf _ => (0, 0)
  | .fin n m e =>
    if X = 255 then (0, 0)
    else
      let (g, inex) := roundAt rm n rnd m (e + b - 2 + 127 - X) 0
      let v : Int := if n then -(g : Int) else g
      let lim : Int := (2 ^ (b - 1) : Nat)
      let cl := sat (-lim) (lim - 1) v
      (cl, if inex || cl != v then flNX else 0)

/-- A block of values quantized: the scale, and each element's code and flags (R63). The random words are by element. -/
def mxBlock (rm : RMode) (b : Nat) (rnd : Nat → Nat) (xs : List FV) : Nat × List (Int × FpFlags) :=
  let X := mxScale xs
  (X, xs.mapIdx fun i x => mxCode rm b X (rnd i) x)

/-- The FP32 value of an MX element (R61, R286). -/
def mxValue (c : NumCfg) (b X : Nat) (code : Int) : FpRes :=
  if X = 255 then (fp32.nanBits, 0)
  else if code = 0 then (0, 0)
  else roundPos c fp32 0 (decide (code < 0)) code.natAbs ((X : Int) - 127 - (b : Int) + 2)

-- Stochastic rounding (R72).
/-- One step of a lane's generator. -/
def lfsrStep (x : BitVec 32) : BitVec 32 := if x.getLsbD 0 then (x >>> 1) ^^^ 0x80200003#32 else x >>> 1
/-- NextWord: 32 steps. -/
def lfsrSteps : Nat → BitVec 32 → BitVec 32
  | 0, x => x
  | k + 1, x => lfsrSteps k (lfsrStep x)
def nextWord (x : BitVec 32) : BitVec 32 := lfsrSteps 32 x
/-- Seed: of a lane index, or of an engine's column (R72, R306). -/
def srSeed (wid : Word) (idx : Nat) (salt : Nat) : BitVec 32 :=
  let z := wid.setWidth 32 ^^^ (wid >>> 32).setWidth 32 ^^^ BitVec.ofNat 32 (idx * 0x9E3779B9) ^^^ BitVec.ofNat 32 (salt * 65537)
  if z = 0 then 1 else z
/-- A 32-bit word rotated left (R277). -/
def rotL32 (x : BitVec 32) (n : Nat) : BitVec 32 := x.rotateLeft (n % 32)

-- Reductions (R77, R78).
/-- The tree over exactly 2^k leaves, with the combination told its level and the place it writes. -/
def treeAt {α : Type} (op : Nat → Nat → α → α → α) (dflt : α) : Nat → Nat → List α → α
  | 0, _, xs => xs.headD dflt
  | k + 1, lo, xs =>
    let h := 2 ^ k
    op k (lo + 2 * h - 1) (treeAt op dflt k lo (xs.take h)) (treeAt op dflt k (lo + h) (xs.drop h))

end Sys2Proof.Machine
end

