-- ==== Sys2Proof/Machine/Mem.lean ====
section
/-!
DEFINITION. Memory as a canonical list of cells; the physical map and the two HBM windows (R130, R384); stores in flight and the ten
visibility groups (R141 to R145); reads as an observer sees them.
-/
namespace Sys2Proof.Machine

/-- What a byte that nothing has written reads as (log entry 1). -/
def blank : Byte := 0

/-- The byte at an address. -/
def memGet : List Host.Cell → Nat → Byte
  | [], _ => blank
  | (b, v) :: m, a => if a = b then v else memGet m a

/-- A memory with one byte written, in canonical form. -/
def memPut : List Host.Cell → Nat → Byte → List Host.Cell
  | [], a, x => if x = blank then [] else [(a, x)]
  | (b, v) :: m, a, x =>
    if a < b then (if x = blank then (b, v) :: m else (a, x) :: (b, v) :: m)
    else if a = b then (if x = blank then m else (a, x) :: m)
    else (b, v) :: memPut m a x

/-- A memory with several bytes written in order. -/
def memPuts (m : List Host.Cell) (bs : List (Nat × Byte)) : List Host.Cell := bs.foldl (fun m p => memPut m p.1 p.2) m

/-- The canonical form: addresses strictly rising, no entry equal to what an unlisted address reads as. -/
def Memory.wf : List Host.Cell → Bool
  | [] => true
  | [(_, v)] => v != blank
  | (a, v) :: (b, w) :: m => v != blank && decide (a < b) && Memory.wf ((b, w) :: m)

-- The physical map (R384). Places are numbered: HBM bytes by linear address, scratchpads by physical address, host bytes from 2^60.
def hostBase : Nat := 1152921504606846976
def linTop : Nat := 549755813888
def coreBase : Nat := 1099511627776
def tileBase : Nat := 1103806595072
def latBase : Nat := 1108101562368
/-- Words of accumulators have places too, beyond the map: 4,096 granules of 64 bytes for each tile (R116). -/
def accBase : Nat := 576460752303423488
def accSize : Nat := 262144

/-- The linear place of a byte from its channel and in-channel offset (R130). -/
def linOf (c q : Nat) : Nat := c / 32 * 68719476736 + q / 4096 * 131072 + c % 32 * 4096 + q % 4096

/-- The channel of a linear place (R130). -/
def chanOf (k : Nat) : Nat := 32 * (k / 68719476736) + bits 16 12 k

/-- The in-channel offset of a linear place (R130). -/
def qOf (k : Nat) : Nat := bits 35 17 k * 4096 + k % 4096

/-- The channel that an interleaved-window offset reaches: its hash (R130). -/
def ilChan (x : Nat) : Nat :=
  let g := x / 256
  (bits 7 0 g ^^^ bits 15 8 g) ^^^ (bits 23 16 g ^^^ bits 30 24 g)

/-- The linear place of an interleaved-window offset (R130). -/
def ilPlace (x : Nat) : Nat := linOf (ilChan x) (bits 38 16 x * 256 + x % 256)

/-- The interleaved-window offset of a linear place: the inverse of `ilPlace` (R130). -/
def ilOfPlace (k : Nat) : Nat :=
  let gh := qOf k / 256
  let lo := (chanOf k ^^^ bits 7 0 gh) ^^^ (bits 15 8 gh ^^^ bits 22 16 gh)
  (gh * 256 + lo) * 256 + qOf k % 256

/-- The window (a target type of R129) and the place that a physical address reaches; `none` for a hole in the map. -/
def placeOf (pa : Nat) : Option (Nat × Nat) :=
  if pa < linTop then some (0, pa)
  else if pa < coreBase then some (1, ilPlace (pa - linTop))
  else if pa < coreBase + 32 * 8388608 then some (2, pa)
  else if tileBase ≤ pa ∧ pa < tileBase + 512 * 2097152 then some (3, pa)
  else if latBase ≤ pa ∧ pa < latBase + 64 * 65536 then some (4, pa)
  else none

/-- The die that holds a place (R141): 0 for core scratchpad, host memory and anything else on the ductus die. -/
def dieOf (k : Nat) : Nat :=
  if k < linTop then 1 + k / 68719476736
  else if tileBase ≤ k ∧ k < tileBase + 512 * 2097152 then 1 + (k - tileBase) / 2097152 / 64
  else if accBase ≤ k ∧ k < accBase + 512 * accSize then 1 + (k - accBase) / accSize / 64
  else 0

/-- The byte of a place that every group has seen. -/
def State.byteAt (s : State) (k : Nat) : Byte := if hostBase ≤ k then memGet s.host (k - hostBase) else memGet s.mem k

/-- Bytes written so that every group has seen them. -/
def State.putByte (s : State) (k : Nat) (x : Byte) : State :=
  if hostBase ≤ k then { s with host := memPut s.host (k - hostBase) x } else { s with mem := memPut s.mem k x }

/-- Several such bytes. -/
def State.putBytes (s : State) (bs : List (Nat × Byte)) : State := bs.foldl (fun s p => s.putByte p.1 p.2) s

/-- The seal registers name a frame that reaches this place (R379, R387): through the linear window, the interleaved one, or as a
scratchpad. -/
def State.sealed (s : State) (k : Nat) : Bool :=
  (vlist s.pkg.seals).any fun w =>
    let first := bits 51 16 w.toNat
    let within (pa : Nat) : Bool := decide (first ≤ pa / 65536) && decide (pa / 65536 ≤ first + bits 15 0 w.toNat)
    w.getLsbD 63 && (within k || (decide (k < linTop) && within (linTop + ilOfPlace k)))

/-- Who reads: a visibility group, and the cluster whose own stores it sees before others do. -/
structure Obs where
  group : Nat
  own : Option (CoreId × CluId) := none
  deriving DecidableEq, Repr

/-- Whether an in-flight store is visible to an observer through a window (R132, R143): its own, or, where a fence has ordered the two HBM
windows, either (R148). -/
def InFlight.sees (f : InFlight) (o : Obs) (window : Nat) : Bool :=
  (f.window == window || (f.xwin.getLsbD o.group && decide (window ≤ 1))) && (f.seen.getLsbD o.group || o.own == some (f.core, f.clu))

/-- The last byte written to a place by a list of writes, if any. -/
def lastWrite (k : Nat) : List (Nat × Byte) → Option Byte
  | [] => none
  | (a, x) :: bs => match lastWrite k bs with
    | some y => some y
    | none => if a = k then some x else none

/-- The coherence-latest byte visible to an observer (R143): among the stores in flight, else the byte every group has seen. -/
def State.readByte (s : State) (o : Obs) (window k : Nat) : Byte :=
  match s.inflight.foldl (fun r f => if f.sees o window then (match lastWrite k f.bytes with | some x => some x | none => r) else r) none with
  | some x => x
  | none => s.byteAt k

/-- The groups that hold an observer of a scope (R141, R144): every other scope than the cluster's holds the commands of the core's copy
channels, which observe in the group of any die that they write to. -/
def scopeGroups : Scope → BitVec 10
  | .cl => 1
  | _ => 0x3FF

/-- A store in flight has been performed at its scope (R144). -/
def InFlight.performed (f : InFlight) : Bool := (f.seen &&& scopeGroups f.scope) == scopeGroups f.scope

/-- Two stores in flight write a common byte in one coherence order: through one window, or once a fence has ordered the two (R132, R148). -/
def InFlight.overlaps (f g : InFlight) : Bool :=
  (f.window == g.window || (f.window ≤ 1 && g.window ≤ 1 && (f.xwin != 0 || g.xwin != 0))) && f.bytes.any fun p => g.bytes.any fun q => p.1 == q.1

/-- An order that includes a release (R145). -/
def Attr.releases (a : Attr) : Bool := a.ord == .rel || a.ord == .ar || a.ord == .sc

/-- A record has staged a byte on a core, in a store with a number below a bound if one is given (R403). -/
def State.stagedBelow (s : State) (n : CoreId) (who : Option (Nat × Nat)) (bound : Option Nat) : Bool :=
  match who with
  | none => false
  | some r => (s.cores[n]).staging.any fun b => b.lid == r.1 && b.seq == r.2 && (match bound with | none => true | some k => decide (b.store < k))

/-- An access of a cluster for a record must follow bytes that the record has staged: it is a release, or it comes after a release fence that
followed them (R145, R148, R403; log entry 121). -/
def State.defers (s : State) (n : CoreId) (c : CluId) (who : Option (Nat × Nat)) (a : Attr) : Bool :=
  s.stagedBelow n who (if a.releases then none else some ((s.cores[n]).clu[c]).relAt)

/-- The write of an atomic stands behind bytes that its record still has staged (R145, R403). -/
def State.stuck (s : State) (f : InFlight) : Bool := f.held && s.stagedBelow f.core f.who none

/-- The bytes that a record staged before an atomic have still to be staged out or performed (R145, R404). -/
def State.stagedBefore (s : State) (f : InFlight) : Bool :=
  s.stagedBelow f.core f.who (some f.po) ||
    s.inflight.any fun g => g.core == f.core && g.who == f.who && decide (g.po < f.po) && (g.seen &&& scopeGroups f.scope) != scopeGroups f.scope

/-- The orders hold back a store's visibility (R145): until the cluster's acquires before it have performed, and for a release until every
access it follows is performed at its scope; and while a seal covers its frame it waits (R387). -/
def State.mayShow (s : State) (f : InFlight) : Bool :=
  (f.behind.all fun i => s.inflight.all fun g => g.id != i || g.performed || s.stuck g) &&
  (match f.ord with
  | .rlx => true
  | .acq => true
  | _ => f.after.all fun i => s.inflight.all fun g => g.id != i || (g.seen &&& scopeGroups f.scope) == scopeGroups f.scope) &&
  !(f.held && s.stagedBefore f) &&
  (f.seen != 0 || !(f.bytes.any fun b => s.sealed b.1))

/-- The stores before one in the list of stores in flight: those before it in coherence order once it has been seen. -/
def before (id : Nat) : List InFlight → List InFlight
  | [] => []
  | g :: gs => if g.id = id then [] else g :: before id gs

/-- Host writes at system scope follow PCIe ordering: in the order in which they were issued (R154). -/
def InFlight.posted (f : InFlight) : Bool := f.window == 5 && f.scope == .sys

/-- Another cluster issued them. -/
def InFlight.others (f g : InFlight) : Bool := f.core != g.core || f.clu != g.clu

/-- The write may become visible to a group: its order allows it; every coherence-earlier write to one of its bytes is visible there already,
as is every earlier posted write; no atomic that has read one of its bytes has its own write still to show, but an atomic that read later. A
write not yet seen anywhere may be overtaken in coherence order by another cluster's (R133, R142, R143, R145, R154). -/
def State.mayReach (s : State) (f : InFlight) (g : Nat) : Bool :=
  s.mayShow f &&
  ((before f.id s.inflight).all fun e => !(e.overlaps f) || e.seen.getLsbD g || (e.seen == 0 && f.seen == 0 && e.others f)) &&
  (s.inflight.all fun e => !(e.rmw && e.seen == 0 && e.id != f.id && e.overlaps f) || (f.rmw && decide (f.id < e.id))) &&
  (!f.posted || s.inflight.all fun e => !e.posted || decide (f.id ≤ e.id) || e.seen.getLsbD g)

/-- A store that becomes visible for the first time takes its place in coherence order: after every store already seen. -/
def showFirst (id : Nat) (l : List InFlight) : List InFlight :=
  match l.find? (fun f => f.id == id) with
  | none => l
  | some f => if f.seen = 0 then l.filter (fun g => g.seen != 0) ++ [f] ++ l.filter (fun g => g.seen == 0 && g.id != id) else l

/-- ACCESS_PERFORMED for a store: it becomes visible to a group, or, for an SC store, to every group of its scope at one instant; a
store that every group has seen leaves the list (R143, R145). Where its conditions do not hold nothing happens. -/
def State.showTo (s : State) (id g : Nat) : State :=
  match s.inflight.find? (fun f => f.id == id) with
  | none => s
  | some f =>
    let gs : BitVec 10 := if f.ord = .sc then scopeGroups f.scope ||| BitVec.ofNat 10 (2 ^ g) else BitVec.ofNat 10 (2 ^ g)
    if (upto 10).all fun k => !(gs.getLsbD k) || s.mayReach f k then
      let seen := f.seen ||| gs
      let l := showFirst id s.inflight
      if seen = 0x3FF then { s with inflight := l.filter (fun h => h.id != id) }.putBytes f.bytes
      else { s with inflight := l.map fun h => if h.id == id then { h with seen := seen } else h }
    else s

/-- Every store in flight that may, becomes visible to every group, oldest first: what the default rotation does each clk. -/
def State.drain (s : State) : State := s.inflight.foldl (fun s f => (upto 10).foldl (fun s g => s.showTo f.id g) s) s

/-- What a store is to the order of its cluster's accesses: a line's own, a replayed one, an atomic's write, or a staged one that drains. -/
inductive StoreKind where
  | line | replay | rmw | drain
  deriving DecidableEq, Repr

/-- Where a store comes from: its record, the virtual address of each of its places, the datum at its issue, the space it translated in (64
for the physical space), the grant of each page, its kind, and the number that it was staged with. -/
structure Origin where
  who : Option (Nat × Nat)
  names : List (Nat × Nat)
  datum : Word
  asid : Nat
  grants : List (Nat × Word)
  kind : StoreKind := .line
  po : Option Nat := none

/-- An acquire, or an order that includes one. -/
def acquires (o : Ord) : Bool := o == .acq || o == .ar || o == .sc

/-- A new store in flight (R143). A release waits for the earlier stores of its cluster and for every store its group had seen; every store
waits for the acquires of its cluster (R145), and one that drains for every store before it of its record (R404). The
elements of a vector store become visible together (log entry 145). -/
def State.launchStore (s : State) (n : CoreId) (c : CluId) (window : Nat) (bytes : List (Nat × Byte)) (at_ : Attr) (o : Origin) : State :=
  let po := o.po.getD s.ids
  let own (f : InFlight) : Bool := f.core == n && !(s.stuck f) &&
    (if o.kind == .drain then f.who == o.who && decide (f.po < po) else f.clu == c)
  let f : InFlight := {
    id := s.ids, core := n, clu := c, window := window, bytes := bytes, ord := at_.ord, scope := at_.scope, seen := 0
    after := (s.inflight.filter fun f => own f || f.seen.getLsbD 0).map InFlight.id
    behind := (s.inflight.filter fun f => own f && (acquires f.ord || (o.kind == .drain && f.clu == c))).map InFlight.id
    who := o.who, names := o.names.filter (fun p => bytes.any fun b => b.1 == p.1), datum := o.datum, asid := o.asid, grants := o.grants
    replay := o.kind == .replay, rmw := o.kind == .rmw, xwin := 0, po := po
    held := o.kind == .rmw && (s.defers n c o.who at_ ||
      s.inflight.any fun f => s.stuck f && f.who == o.who && f.bytes.any fun p => bytes.any fun q => p.1 == q.1) }
  { s with inflight := s.inflight ++ [f], ids := s.ids + 1 }

/-- A cluster's stores in flight that are not performed at their scope. -/
def State.owes (s : State) (n : CoreId) (c : CluId) : Bool :=
  s.inflight.any fun f => f.core == n && f.clu == c && !(f.performed)

/-- Every store in flight of a cluster, and every one its group has seen, is visible to the groups of a scope (R145, R148), and at system scope
its SC joins have reached the other packages (R162). A write that stands behind its record's staged bytes is ordered with them (log entry 121). -/
def State.settled (s : State) (n : CoreId) (c : CluId) (sc : Scope) : Bool :=
  (s.inflight.all fun f => !((f.core == n && f.clu == c) || f.seen.getLsbD 0) || (f.seen &&& scopeGroups sc) == scopeGroups sc || s.stuck f) &&
    (sc != .sys || ((s.cores[n]).clu[c]).scOut == [])

/-- A store or atomic of a cluster that acquires is not yet performed at its scope (R145). -/
def State.acquiring (s : State) (n : CoreId) (c : CluId) : Bool :=
  s.inflight.any fun f => f.core == n && f.clu == c && acquires f.ord && !(f.performed) && !(s.stuck f)

/-- A posted host write of a cluster is not yet performed (R154): a read of host memory at system scope stays behind it. -/
def State.posting (s : State) (n : CoreId) (c : CluId) : Bool :=
  s.inflight.any fun f => f.core == n && f.clu == c && f.posted && !(f.performed) && !(s.stuck f)

/-- Every store of a cluster that its side log has replayed is performed at its scope (R153). -/
def State.replayed (s : State) (n : CoreId) (c : CluId) : Bool :=
  s.inflight.all fun f => !(f.core == n && f.clu == c && f.replay) || f.performed

/-- A cluster's stores to HBM are ordered with accesses through the other window, in the groups of a scope (R148). -/
def State.joinWindows (s : State) (n : CoreId) (c : CluId) (sc : Scope) : State :=
  { s with inflight := s.inflight.map fun f =>
      if f.core == n && f.clu == c && decide (f.window ≤ 1) then { f with xwin := f.xwin ||| scopeGroups sc } else f }

/-- Some store in flight writes one of these places and comes before an atomic of a cluster in coherence order: the cluster's own, one that
some group has seen, or the write of an atomic. Another that no group has seen comes after it (R133, R142). A write of the atomic's own record
that stands behind its staged bytes does not hold it: the atomic reads that write. -/
def State.contested (s : State) (n : CoreId) (c : CluId) (who : Option (Nat × Nat)) (ks : List Nat) : Bool :=
  s.inflight.any fun f => ((f.core == n && f.clu == c) || f.seen != 0 || f.rmw) && !(s.stuck f && f.who == who) && f.bytes.any fun p => ks.any fun k => p.1 == k

/-- The byte that an atomic of a record reads through a window: the write of an atomic of its record that stands behind staged bytes, else what
every group has seen (R133). -/
def State.atomicByte (s : State) (who : Option (Nat × Nat)) (window k : Nat) : Byte :=
  match s.inflight.foldl (fun r f => if s.stuck f && f.who == who && f.window == window then (match lastWrite k f.bytes with | some x => some x | none => r) else r) none with
  | some x => x
  | none => s.byteAt k

/-- The stores in flight that some group has seen become visible to every group, in coherence order. -/
def State.settleSeen (s : State) : State :=
  ({ s with inflight := s.inflight.filter fun (f : InFlight) => f.seen == 0 } : State).putBytes ((s.inflight.filter fun f => f.seen != 0).flatMap InFlight.bytes)

/-- Bytes written to their places so that every group sees them at once, through their windows: after every store that some group has seen, and
after the writes of the atomics that have read their place, whose bytes there they replace (R133, R143). -/
def State.putSeen (s : State) (bs : List (Nat × Nat × Byte)) : State :=
  let t := s.settleSeen
  let covered (f : InFlight) (k : Nat) : Bool := f.rmw && bs.any fun b => b.1 == f.window && b.2.1 == k
  ({ t with inflight := t.inflight.map fun (f : InFlight) => { f with bytes := f.bytes.filter fun p => !(covered f p.1) } } : State).putBytes (bs.map Prod.snd)

end Sys2Proof.Machine
end

