-- ==== Sys2Proof/Machine/Ecc.lean ====
section
/-!
DEFINITION. Memory errors (R398, R400 to R402): codewords of HBM and words of SRAM that the code still corrects, those that it does not, the
counting of corrected errors, writes to uncorrectable places, and upsets as they come from outside.
-/
namespace Sys2Proof.Machine

def State.onRDie (d : RaceDie) (g : RDie → RDie) (s : State) : State := { s with rdie := vmod s.rdie d g }

/-- The local datum: the island's counter, or the shadow while the island is OFF or in TRAIN or the shadow is still ahead (R323). -/
def State.datum (s : State) : Word := if s.island.shadowing || s.island.ahead then s.island.shadow else s.island.datum

/-- The place lies in an uncorrectable codeword or word (R402). -/
def State.badAt (s : State) (k : Nat) : Bool := s.bad.any fun b => decide (b.1 ≤ k) && decide (k < b.1 + b.2)

/-- The first uncorrectable place from one to another, if any (R402). -/
def State.badIn (s : State) (lo hi : Nat) : Option Nat :=
  (s.bad.find? fun b => decide (b.1 < hi) && decide (lo < b.1 + b.2)).map fun b => Nat.max b.1 lo

/-- The UNIT of an error record (R398): the HBM channel, the tile of its die, or the core. -/
def errUnit (k : Nat) : Nat :=
  if k < linTop then chanOf k else if accBase ≤ k then (k - accBase) / accSize % 64
  else if tileBase ≤ k then (k - tileBase) / 2097152 % 64 else (k - coreBase) / 8388608

/-- The SRAM of a place, 0 a tile's scratchpad, 1 an accumulator, 2 a core's scratchpad, and the address in it (R398). -/
def sramOf (k : Nat) : Nat × Nat :=
  if accBase ≤ k then (1, (k - accBase) % accSize) else if tileBase ≤ k then (0, (k - tileBase) % 2097152) else (2, (k - coreBase) % 8388608)

/-- SUB of an uncorrectable error (R398): HBM or SRAM. -/
def errSub (k : Nat) : Nat := if k < linTop then 0 else 1

/-- The places of some bytes at a physical address, where the map has them. -/
def physBytes (pa : Nat) (bs : List Byte) : List (Nat × Byte) := (atAddr pa bs).filterMap fun p => (placeOf p.1).map fun q => (q.2, p.2)

/-- A record of the reliability log in memory, whole codewords of it written anew (R402). -/
def State.putLog (s : State) (pa : Nat) (bs : List Byte) : State :=
  let xs := physBytes pa bs
  let whole (b : Nat × Nat) : Bool := (upto b.2).all fun i => xs.any fun x => x.1 == b.1 + i
  let t : State := { s with bad := s.bad.filter fun b => !(whole b) }
  t.putBytes (xs.filter fun x => !(t.badAt x.1))

/-- A reliability-log record (R398): dropped with RLOVF when the log is full. -/
def State.relLog (s : State) (ty sub die unit : Nat) (a0 a1 a2 a3 : Nat) : State :=
  let n := 2 ^ s.mc.rllog.toNat
  if (s.mc.rltail - s.mc.rlhead).toNat ≥ n then { s with mc := { s.mc with rlovf := s.mc.rlovf + 1 } }
  else
    let body := leBytes 1 ty ++ leBytes 1 sub ++ leBytes 1 die ++ leBytes 1 unit ++ leBytes 4 0 ++ leBytes 8 s.datum.toNat ++
      leBytes 8 a0 ++ leBytes 8 a1 ++ leBytes 8 a2 ++ leBytes 8 a3 ++ leBytes 16 0
    let at_ := s.mc.rlbase.toNat + 64 * (s.mc.rltail.toNat % n)
    let s1 := s.putLog at_ body
    { s1 with mc := { s1.mc with rltail := s1.mc.rltail + 1 } }

/-- A table of corrected errors with one more of a row, whether the row is to be logged now, having reached CETHR, and the entry dropped for
room, if any (R401). -/
def countRow (place row : Nat) (now window : Word) (thr : Nat) (rows : List ErrRow) : List ErrRow × Option Nat × Option ErrRow :=
  let enter (e : ErrRow) : ErrRow × Option Nat :=
    if thr ≤ e.count ∧ !e.logged then ({ e with logged := true }, some e.count) else (e, none)
  match rows.find? fun e => e.place == place && e.row == row with
  | some e =>
    let old := decide ((now - e.first).toNat > window.toNat)
    let (e1, log) := enter (if old then ⟨place, row, 1, now, false⟩ else { e with count := e.count + 1 })
    (rows.map fun x => if x.place == place && x.row == row then e1 else x, log, none)
  | none =>
    let (new, log) := enter ⟨place, row, 1, now, false⟩
    if rows.length < 4096 then (rows ++ [new], log, none)
    else
      let oldest := rows.foldl (fun (m : Option ErrRow) e => match m with
        | none => some e
        | some o => if e.first.toNat < o.first.toNat then some e else some o) none
      (match oldest with | some o => rows.erase o ++ [new] | none => [new], log, oldest)

/-- A corrected error counted on the die that holds the place, where it is a race die (R392). -/
def State.cecntAt (k : Nat) (s : State) : State :=
  if dieOf k = 0 then s else s.onRDie (Fin.ofNat 8 (dieOf k - 1)) fun x => { x with cecnt := x.cecnt + 1 }

/-- A corrected error at a place (R401, R402): of an HBM row, logged when it reaches CETHR, as is the entry dropped from a full table; or of a
64-bit word of SRAM, in a table of its own (log entry 109). -/
def State.correctedError (k : Nat) (s : State) : State :=
  let s0 := s.cecntAt k
  if k < linTop then
    let ch := chanOf k
    let (rows, log, gone) := countRow ch (qOf k / 2048) s.datum s.mc.cewin s.mc.cethr.toNat s.mc.rows
    let s1 : State := { s0 with mc := { s0.mc with rows := rows } }
    let s2 := match gone with | some o => s1.relLog 9 0 (1 + o.place / 32) o.place (o.place * 1048576 + o.row) 0 0 0 | none => s1
    match log with | some c => s2.relLog 1 0 (dieOf k) ch (qOf k / 2048) c 0 0 | none => s2
  else
    let (rows, log, _) := countRow (k / 8) 0 s.datum s.mc.cewin s.mc.cethr.toNat s.mc.words
    let s1 : State := { s0 with mc := { s0.mc with words := rows } }
    match log with | some _ => s1.relLog 8 (sramOf k).1 (dieOf k) (errUnit k) (sramOf k).2 0 0 0 | none => s1

/-- A read meets a place that the code corrects (R400 to R402): the error counts once until the next write to its codeword; an SRAM word is
written back at once. -/
def correctOne (w : Weak) (s : State) : State :=
  let s1 := if w.counted then s else s.correctedError w.place
  { s1 with weak :=
      if w.place < linTop then s1.weak.map fun x => if x.place == w.place then { x with counted := true } else x
      else s1.weak.filter fun x => x.place != w.place }

/-- A read of every place that a test picks, by where it begins and its length. -/
def State.correct (hit : Nat → Nat → Bool) (s : State) : State := (s.weak.filter fun w => hit w.place w.size).foldl (fun t w => correctOne w t) s
/-- A read of some places. -/
def State.correctAt (ks : List Nat) (s : State) : State := s.correct fun p n => ks.any fun k => decide (p ≤ k) && decide (k < p + n)
/-- A read of the places from one to another. -/
def State.correctIn (lo hi : Nat) (s : State) : State := s.correct fun p n => decide (p < hi) && decide (lo < p + n)

/-- Writes of one codeword or word that is uncorrectable (R402): covered whole it is good again, else the write is lost and logged. A write
stores fresh code, so that nothing in it is left to correct (R401). -/
def dropBad (s : State) (bs : List (Nat × Byte)) : List (Nat × Byte) × State :=
  s.bad.foldl (fun (p : List (Nat × Byte) × State) b =>
    let hits := p.1.filter fun x => decide (b.1 ≤ x.1) && decide (x.1 < b.1 + b.2)
    if hits = [] then p
    else if (upto b.2).all fun i => hits.any fun x => x.1 == b.1 + i then (p.1, { p.2 with bad := p.2.bad.filter fun c => c != b })
    else (p.1.filter (fun x => !(decide (b.1 ≤ x.1) && decide (x.1 < b.1 + b.2))),
      if b.1 < linTop then p.2.relLog 4 0 (dieOf b.1) (chanOf b.1) (qOf b.1) 0 0 0
      else p.2.relLog 4 ((sramOf b.1).1 + 1) (dieOf b.1) (errUnit b.1) (sramOf b.1).2 0 0 0))
    (bs, { s with weak := s.weak.filter fun w => !(bs.any fun b => decide (w.place ≤ b.1) && decide (b.1 < w.place + w.size)) })

/-- Every byte from one place to another is written (R402): the words there are good. -/
def State.freshCode (lo hi : Nat) (s : State) : State :=
  { s with
    bad := s.bad.filter fun b => !(decide (lo ≤ b.1) && decide (b.1 + b.2 ≤ hi))
    weak := s.weak.filter fun w => !(decide (lo ≤ w.place) && decide (w.place + w.size ≤ hi)) }

/-- The part's own write of bytes at a physical address, seen at once by every group: queue records, table updates. Of an uncorrectable codeword
it covers only in part it is lost (R402). -/
def State.putPhys (s : State) (pa : Nat) (bs : List Byte) : State :=
  let (ys, t) := dropBad s (physBytes pa bs)
  t.putBytes ys

/-- The places of the `n` bytes at a physical address. -/
def physPlaces (pa n : Nat) : List Nat := (upto n).filterMap fun i => (placeOf (pa + i)).map Prod.snd

/-- Every byte of `n` at a physical address is written (R402): a codeword that they cover is good again. -/
def State.overwritten (pa n : Nat) (s : State) : State :=
  { s with bad := s.bad.filter fun b => !((upto b.2).all fun i => (physPlaces pa n).contains (b.1 + i)) }

/-- The part's own read of `n` bytes at a physical address, as die 0 sees them. -/
def State.getPhys (s : State) (pa n : Nat) : List Byte :=
  (upto n).map fun i => match placeOf (pa + i) with
    | some (w, k) => s.readByte { group := 0 } w k
    | none => blank

/-- The same as a little-endian number. -/
def State.getPhysN (s : State) (pa n : Nat) : Nat := leNat (s.getPhys pa n)

/-- What the code corrects in bytes that the part itself reads (R401). -/
def State.readsPhys (pa n : Nat) (s : State) : State := if s.weak = [] then s else s.correctAt (physPlaces pa n)

/-- AN UPSET of a stored bit, as it comes from outside (log entry 110): the codeword or word of the place is one that the code corrects, or, with
`hard`, one that it does not. -/
def State.upset (k : Nat) (hard : Bool) (s : State) : State :=
  let n := if k < linTop then 64 else 8
  let p := k / n * n
  let held := decide (k < linTop) || (decide (coreBase ≤ k) && decide (k < coreBase + 32 * 8388608)) ||
    (decide (tileBase ≤ k) && decide (k < tileBase + 512 * 2097152)) || (decide (accBase ≤ k) && decide (k < accBase + 512 * accSize))
  if !s.power || !held || s.badAt k then s
  else if hard then { s with bad := s.bad ++ [(p, n)], weak := s.weak.filter fun w => w.place != p }
  else if s.weak.any fun w => w.place == p then s
  else { s with weak := s.weak ++ [⟨p, n, false⟩] }

end Sys2Proof.Machine
end

