-- ==== Sys2Proof/Machine/Ops.lean ====
section
/-!
DEFINITION. The named operations over registers and shared state: reading sources from the line's start (R184) and writing results,
predicates, fault and reliability records, trace capture, taking a trap and returning from one, and ending, rolling back and aborting
runs.
-/
namespace Sys2Proof.Machine

-- The unit that acts.
def State.core (s : State) : Core := s.cores[s.at_.core]
def State.clu (s : State) : Cluster := s.core.clu[s.at_.clu]
def State.eng (s : State) : Engine := s.core.eng[s.at_.eng]
def State.coreUpd (n : CoreId) (g : Core → Core) (s : State) : State := { s with cores := vmod s.cores n g }
def State.cluUpd (n : CoreId) (c : CluId) (g : Cluster → Cluster) (s : State) : State :=
  s.coreUpd n fun k => { k with clu := vmod k.clu c g }
def State.engUpd (n : CoreId) (e : Eng) (g : Engine → Engine) (s : State) : State :=
  s.coreUpd n fun k => { k with eng := vmod k.eng e g }
def State.onCore (g : Core → Core) (s : State) : State := s.coreUpd s.at_.core g
def State.onClu (g : Cluster → Cluster) (s : State) : State := s.cluUpd s.at_.core s.at_.clu g
def State.onEng (g : Engine → Engine) (s : State) : State := s.engUpd s.at_.core s.at_.eng g
def State.onTile (t : TileId) (g : TileRegs → TileRegs) (s : State) : State := { s with tile := vmod s.tile t g }
def State.onCtx (a : Fin 64) (g : Ctx → Ctx) (s : State) : State := { s with ctxs := vmod s.ctxs a g }
/-- The logical tile of the acting engine (R2); for an engine that is no tile controller the number is not used. -/
def State.tileId (s : State) : TileId := Fin.ofNat 512 (16 * s.at_.core.val + s.at_.eng.val)
/-- The tile of an engine id of a core. -/
def tileOf (n : CoreId) (e : Nat) : TileId := Fin.ofNat 512 (16 * n.val + e)
/-- The context on the acting core. -/
def State.asid (s : State) : Fin 64 := Fin.ofNat 64 s.core.asid

-- Registers. s0, p0 and m0 are fixed, and writes to them are discarded (R179).
/-- A scalar source: its value before the line (R184). -/
def srcS (r : SReg) (s : State) : Word := if r.val = 0 then 0 else s.iss.src.s[r]
/-- A scalar result. -/
def writeS (r : SReg) (x : Word) (s : State) : State := if r.val = 0 then s else s.onClu fun c => { c with s := vput c.s r x }
/-- A result to a destination that may be discarded (R180). -/
def writeD (d : SDst) (x : Word) (s : State) : State :=
  match d with
  | none => s
  | some r => writeS r x s
/-- A predicate of a register file. -/
def Cluster.pred (c : Cluster) (r : PReg) : Bool := if r.val = 0 then true else c.p.getLsbD r.val
/-- A predicate source. -/
def srcP (r : PReg) (s : State) : Bool := s.iss.src.pred r
/-- One bit of a predicate file replaced. -/
def setPBit (p : BitVec 16) (k : Nat) (b : Bool) : BitVec 16 :=
  if b then p ||| BitVec.ofNat 16 (2 ^ k) else p &&& ~~~(BitVec.ofNat 16 (2 ^ k))
/-- A predicate result (R204). -/
def writeP (r : PReg) (b : Bool) (s : State) : State := if r.val = 0 then s else s.onClu fun c => { c with p := setPBit c.p r.val b }
/-- A mask source; m0 is all ones (R179). -/
def srcM (r : MReg) (s : State) : Mask := if r.val = 0 then BitVec.allOnes 128 else s.iss.src.m[r]
/-- A mask result. -/
def writeM (r : MReg) (x : Mask) (s : State) : State := if r.val = 0 then s else s.onClu fun c => { c with m := vput c.m r x }
/-- The physical register that a vector name reaches under RRB (R215). -/
def rotReg (rrb : BitVec 5) (r : VReg) : VReg :=
  if r.val < 16 then r else Fin.ofNat 48 (16 + (r.val - 16 + rrb.toNat) % 32)
/-- A vector source, through RRB as it stands when the line issues (R256). -/
def srcV (r : VReg) (s : State) : VecReg := s.iss.src.v[rotReg s.iss.src.rrb r]
/-- A vector result, through RRB as it stands when the line issues. -/
def writeV (r : VReg) (x : VecReg) (s : State) : State :=
  let k := rotReg s.iss.src.rrb r
  s.onClu fun c => { c with v := vput c.v k x }
/-- The name after a vector name, for a pair (R256). -/
def nextV (r : VReg) : VReg := Fin.ofNat 48 (r.val + 1)
/-- The a operand of a V syllable: the latch where HOLDA is set, else the register (R183). -/
def opVA (r : VReg) (s : State) : VecReg := if s.iss.holdA then s.iss.src.la.val else srcV r s
/-- The b operand where it holds a vector code. -/
def opVB (r : VReg) (s : State) : VecReg := if s.iss.holdB then s.iss.src.lb.val else srcV r s
/-- The c operand where the entry reads it as a vector. -/
def opVC (r : VReg) (s : State) : VecReg := if s.iss.holdC then s.iss.src.lc.val else srcV r s

/-- The word of a bit vector of flags with one bit set. -/
def bitAt (w k : Nat) : BitVec w := BitVec.ofNat w (2 ^ k)

/-- The launch with an identifier. -/
def State.launch (s : State) (lid : Nat) : Option Launch := s.launches.find? fun l => l.lid == lid
/-- The record with a launch and a sequence number. -/
def State.recOf (s : State) (lid seq : Nat) : Option Rec := s.recs.find? fun r => r.lid == lid && r.seq == seq
def State.onLaunch (lid : Nat) (g : Launch → Launch) (s : State) : State :=
  { s with launches := s.launches.map fun l => if l.lid == lid then g l else l }
def State.onRec (lid seq : Nat) (g : Rec → Rec) (s : State) : State :=
  { s with recs := s.recs.map fun r => if r.lid == lid && r.seq == seq then g r else r }
/-- The launch of the record that runs on the acting core. -/
def State.myLaunch (s : State) : Option Launch := s.core.run.bind fun r => s.launch r.lid
/-- A launch is staged (R377). -/
def Launch.staged (l : Launch) : Bool := l.flags.getLsbD 2
/-- The TAG of a launch, or 0. -/
def State.tagOf (s : State) (lid : Nat) : Word := match s.launch lid with | some l => l.tag | none => 0

-- Records in memory.
/-- The physical address of an ASID's context descriptor (R379). -/
def State.ctxAddr (s : State) (a : Fin 64) : Nat := s.pkg.ctxtab.toNat + 256 * a.val

/-- A context's fault queue is full: FQHEAD stands in its descriptor (R380, R390). -/
def State.fqFull (s : State) (a : Fin 64) : Bool :=
  let c := s.ctxs[a]
  decide ((c.fqtail + 2 ^ 32 - s.getPhysN (s.ctxAddr a + 44) 4) % 2 ^ 32 ≥ 2 ^ c.fqlog)

/-- A fault record (R390): written at FQTAIL, which then advances and is mirrored in the descriptor; dropped with FQOVF, which the
descriptor does not show (R380; log entry 43), when the queue is full. MSI-X follows when it is enabled. -/
def State.faultRec (s : State) (a : Fin 64) (ty sub core clu eng : Nat) (wid tag : Word) (a0 a1 a2 a3 : Word) : State :=
  let c := s.ctxs[a]
  if !c.active then s
  else if s.fqFull a then s.onCtx a fun c => { c with fqovf := c.fqovf + 1 }
  else
    let body := leBytes 1 ty ++ leBytes 1 sub ++ leBytes 1 core ++ leBytes 1 clu ++ leBytes 1 eng ++ leBytes 3 0 ++
      leBytes 8 wid.toNat ++ leBytes 8 tag.toNat ++ leBytes 8 s.datum.toNat ++
      leBytes 8 a0.toNat ++ leBytes 8 a1.toNat ++ leBytes 8 a2.toNat ++ leBytes 8 a3.toNat
    let s1 := ((s.readsPhys (s.ctxAddr a + 44) 4).putPhys (c.fqbase + 64 * (c.fqtail % 2 ^ c.fqlog)) body).onCtx a fun c => { c with fqtail := c.fqtail + 1 }
    let s2 := s1.putPhys (s.ctxAddr a + 48) (leBytes 4 (c.fqtail + 1))
    if c.flags.getLsbD 1 then { s2 with msi := s2.msi ++ [bits 13 8 c.flags.toNat] } else s2

/-- The BAR0 offset of a register (R373). -/
def regOff (unit kaddr : Nat) : Nat := unit * 0x8000 + 8 * kaddr

/-- A write that a register refuses is dropped and logged in ASID 0's fault queue (R373). -/
def State.refusedWrite (s : State) (off v : Nat) : State :=
  s.faultRec 0 0x27 0 0xFF 0xFF 0xFF 0 0 (BitVec.ofNat 64 off) (BitVec.ofNat 64 v) 0 0

-- Context commands (R379).
/-- The end of a context command: its RESULT (R379). -/
def State.ctxDone (r : BitVec 2) (s : State) : State := { s with pkg := { s.pkg with ctxBusy := false, ctxResult := r } }

/-- The log record of a refused CTXCMD (R373). -/
def State.refusedCmd (op asid arg : Nat) (s : State) : State := s.refusedWrite (regOff 40 0x808) (op * 2 ^ 60 + asid * 2 ^ 54 + arg)

/-- The host reaches the package (R371): compute is present, and its link is up. -/
def State.hostUp (s : State) : Bool := s.island.cpres && s.hostLink.isSome

/-- A context command as it is written to CTXCMD; while one is in progress it is refused (R379). -/
def ctxCmd (op : Nat) (asid arg : Nat) (s : State) (k : Res) : Res :=
  if !s.hostUp then .next s
  else if s.pkg.ctxBusy then .next (s.refusedCmd op asid arg) else k
/-- A context command refused: RESULT says so, and the write is logged (R373, R379). -/
def ctxRefuse (op : Nat) (asid arg : Nat) (s : State) : Res := .next ((s.ctxDone 1).refusedCmd op asid arg)

/-- A host-access error (R372): logged in ASID 0's fault queue. -/
def State.hostError (s : State) (where_ : Nat) (write : Bool) : State :=
  s.faultRec 0 0x28 0 0xFF 0xFF 0xFF 0 0 (BitVec.ofNat 64 where_) (if write then 1 else 0) 0 0

/-- One record captured into the trace circle (R410, R411), with the loop it names, for a record's SEQ: that of the core's run unless another
is given; whether it is the trigger, and the end of capture, are decided here. -/
def State.traceOne (s : State) (lp : Option LoopRec) (ty core unit : Nat) (arg : Word) (sq : Option Nat) : State × Bool :=
  let t := s.trace
  if !(t.ctl.getLsbD 0) || t.stopped || !(t.ctl.getLsbD (8 + ty)) then (s, false)
  else
    let cl : Option Cluster := if unit < 128 && core < 32 then some (s.cores[Fin.ofNat 32 core].clu[Fin.ofNat 4 unit]) else none
    let running := match (if core < 32 then s.cores[Fin.ofNat 32 core].run else none) with | some r => r.seq | none => 0
    let tick := if t.tickAt = s.datum then t.tick else []
    let r : TraceRec := ⟨s.datum, ty, core, unit, (match lp with | some l => 8 + l.id.val | none => 0),
      (match cl with | some c => (c.p >>> 8).setWidth 8 | none => 0),
      tick.count (core, unit), sq.getD running,
      (match lp with | some l => l.t | none => 0), arg⟩
    let full := t.circle.length ≥ 8192
    let circle := (if full then t.circle.drop 1 else t.circle) ++ [r]
    let hit := t.ctl.getLsbD 2 && t.post.isNone && t.trig.toNat % 256 == ty &&
      (bits 15 8 t.trig.toNat == 0xFF || bits 15 8 t.trig.toNat == core)
    let post := match t.post with
      | some k => some (k - 1)
      | none => if hit then some (bits 63 32 t.trig.toNat) else none
    let stop := match post with | some 0 => true | _ => false
    ({ s with trace := { t with circle := circle, tickAt := s.datum, tick := tick ++ [(core, unit)], ovw := (if full then t.ovw + 1 else t.ovw), post := post, stopped := stop } }, hit)

/-- A precise stop (R412): the cores of PCORE that run a strand are to halt for the debugger at their clusters' next boundaries, each with a record of type 11. -/
def State.preciseStop (s : State) : State :=
  ((upto 32).filter fun n => s.trace.ctl.getLsbD (32 + n) && (s.cores[Fin.ofNat 32 n]).run.isSome).foldl (fun (s : State) n =>
    ({ s with cores := vmod s.cores (Fin.ofNat 32 n) fun k => { k with dbgHalted := true, pstop := true } }.traceOne none 11 n 0 0 none).1) s

/-- A record captured for an event of a unit (R410 to R412), its loop the one given. -/
def State.captureIn (s : State) (lp : Option LoopRec) (ty core unit : Nat) (arg : Word) (sq : Option Nat := none) : State :=
  let (s1, hit) := s.traceOne lp ty core unit arg sq
  if hit && s.trace.ctl.getLsbD 3 then s1.preciseStop else s1

/-- A record captured for an event of a unit, in its innermost active loop (R410). -/
def State.capture (s : State) (ty core unit : Nat) (arg : Word) (sq : Option Nat := none) : State :=
  s.captureIn (if unit < 128 && core < 32 then s.cores[Fin.ofNat 32 core].clu[Fin.ofNat 4 unit].loops.head? else none) ty core unit arg sq

-- The end of a cycle.
/-- A write to a shared k-register taking effect (R322): RO fields keep their value, W1C fields clear, and a raise of the same cycle
stands (R40, R67, R79, R80, R126, R137, R326, R408). -/
def Core.kWrite (k : Core) (p : Nat × Word) : Core :=
  let w := p.2
  match p.1 with
  | 0x000 => { k with numctl := w &&& 0x0000FFFF0000FF1F#64 }
  | 0x001 => { k with fpstat := (k.fpstat &&& ~~~(w &&& 0x7F)) ||| k.fpSetNow.setWidth 64 }
  | 0x002 => { k with memdef := w &&& 0x3FE#64 }
  | 0x003 => { k with agectl := w &&& 0xFFFFF#64 }
  | 0x008 => { k with unpk := vput k.unpk 0 (w &&& 0xFFFFFFFF7F#64) }
  | 0x009 => { k with unpk := vput k.unpk 1 (w &&& 0xFFFFFFFF7F#64) }
  | 0x00A => { k with unpk := vput k.unpk 2 (w &&& 0xFFFFFFFF7F#64) }
  | 0x00B => { k with unpk := vput k.unpk 3 (w &&& 0xFFFFFFFF7F#64) }
  | 0x020 => { k with tvec := w &&& 0x00FFFFFFFFFFFFC1#64 }
  | 0x2C0 => { k with frz := w.getLsbD 0, qctr := if w.getLsbD 1 then [] else k.qctr }
  | _ => k

/-- The exceptions that the cycle has raised become pending in their clusters (R81). -/
def Core.mergeEx (k : Core) : Core :=
  { k with clu := vall k.clu fun i c => { c with pendEx := c.pendEx ++ (k.exNow.filter fun p => p.1 == i).map Prod.snd }, exNow := [] }

/-- The end of a cycle (R36, R47, R80, R81, R322): sets and clears of cc bits and flags, a set of a bit winning over its clear; the writes to
shared k-registers in the order in which they were issued; and the exceptions raised. -/
def Core.endCycle (k : Core) : Core :=
  let k1 := k.kpend.foldl Core.kWrite k
  { k1 with
    cc := (k.cc &&& ~~~k.ccClr) ||| k.ccSet, ccSet := 0, ccClr := 0
    f := (k.f &&& ~~~k.fClr) ||| k.fSet, fSet := 0, fClr := 0
    fpstat := k1.fpstat ||| k.fpSetNow.setWidth 64, fpSetNow := 0, kpend := [] }.mergeEx

-- Ending runs.
/-- A core without a strand: its clusters are as at reset, its run is none. -/
def Core.idle (k : Core) (now : Word) : Core :=
  { k with clu := Vector.replicate 4 Cluster.reset, run := none, kpend := [], exNow := [], lastEnd := now, preReq := (if k.run.isSome then k.preReq else false), pstop := false, dbgHalted := false }

/-- Whether a queue entry belongs to a record. -/
def QEnt.of (lid seq : Nat) : QEnt → Bool
  | .cmd c => c.lid == lid && c.seq == seq
  | .placed c _ _ => c.lid == lid && c.seq == seq
  | .wait _ => false

/-- A queue with a record's commands, and the wait entries it placed, removed; a wait entry stays only before another record's command. -/
def dropQueue (lid seq : Nat) (q : List QEnt) : List QEnt :=
  let kept := q.filter fun e => !(e.of lid seq)
  if kept.any fun e => match e with | .wait _ => false | _ => true then kept else []

/-- The engine without a record's commands (R405): queued ones leave, and a running one stops, without END, at its next word boundary. -/
def Engine.drop (lid seq : Nat) (e : Engine) : Engine :=
  let e1 := { e with queue := dropQueue lid seq e.queue }
  match e1.cmd with
  | some c => if c.spec.lid == lid && c.spec.seq == seq then { e1 with cmd := some { c with killed := true }, stopped := false } else e1
  | none => e1

/-- The tiles without the grants of a record's commands: a tile whose granted command a rollback takes from its queue leaves the active set
(R352, R405). -/
def State.ungranted (lid seq : Nat) (s : State) : Vector TileRegs 512 :=
  vall s.tile fun t r =>
    let g := s.cores[Fin.ofNat 32 (t.val / 16)].eng[(Fin.ofNat 27 (t.val % 16) : Eng)]
    if r.granted && g.cmd.isNone && (g.queue.head?.any fun q => q.of lid seq) then { r with granted := false, leaving := true } else r
def State.ungrant (lid seq : Nat) (s : State) : State := { s with tile := s.ungranted lid seq }

/-- The flags, marks, credits and counts of a core's context at zero (R405). -/
def Core.zeroed (k : Core) : Core :=
  { k with
    f := 0, fSet := 0, fClr := 0, kpend := [], eng := vall k.eng fun _ e => { e with mark := false, credits := 0 }
    xb := { k.xb with evx := vall k.xb.evx fun i w => if i.val < 16 then w &&& 0xFFFFFFFFFFFF0000#64 else w } }

/-- A core holds a record that has begun a run: it runs there, drains, or has its context saved. -/
def Rec.isAt (r : Rec) (n : CoreId) : Bool := r.core == some n.val && (r.state == .running || r.state == .draining || r.state == .preempted)

/-- Every trace of a record removed from a core: clusters, commands, staged bytes, saved context. Flags, marks, credits and counts are its
context's: they go where it runs, and on a core without a run where it was at `home` (R405; log entry 99). -/
def Core.dropRec (lid seq : Nat) (now : Word) (home : Bool) (k : Core) : Core :=
  let k1 := { k with
    eng := vall k.eng fun _ e => e.drop lid seq
    staging := k.staging.filter fun b => !(b.lid == lid && b.seq == seq)
    joins := k.joins.filter fun b => !(b.lid == lid && b.seq == seq)
    left := k.left.filter fun b => !(b.lid == lid && b.seq == seq)
    saved := k.saved.filter fun v => !(v.run.lid == lid && v.run.seq == seq)
    tiles := k.tiles.filter fun t => !(t.2.mine == some (lid, seq))
    popped := if k.popped == some (lid, seq) then none else k.popped }
  match k1.run with
  | some r => if r.lid == lid && r.seq == seq then (k1.idle now).zeroed else k1
  | none => if home then k1.zeroed else k1

/-- A launch is aborted (R405): every record not retired is lost and reported, its traces leave the cores, and the completion record
will carry STATUS 4. -/
def State.abortLaunch (s : State) (lid : Nat) : State :=
  match s.launch lid with
  | none => s
  | some l =>
    let a := Fin.ofNat 64 l.asid
    let gone := s.recs.filter fun r => r.lid == lid && r.state != .retired && r.state != .lost
    let s1 := gone.foldl (fun s r => (s.faultRec a 0x22 0 (match r.core with | some n => n | none => 0xFF) 0xFF 0xFF r.wid l.tag 0 0 0 0).onRec lid r.seq
      fun r => { r with state := .lost }) s
    let s2 := { gone.foldl (fun (s : State) (r : Rec) => s.ungrant lid r.seq) s1 with
      cores := vall s1.cores fun n (k : Core) => gone.foldl (fun (k : Core) (r : Rec) => k.dropRec lid r.seq s.datum (r.isAt n)) k
      coll := s1.coll.filter fun c => c.lid != lid }
    s2.onLaunch lid fun l => { l with status := 4, lost := l.lost + (gone.filter Rec.member).length + (l.members - l.nextMember), nextMember := l.members }

/-- The 32 bytes of a record (R13): as it was pushed, with its sequence number, its deterministic mark, and the CODE and JCNT that it has. -/
def Rec.bytes (r : Rec) : List Byte :=
  leBytes 8 r.wid.toNat ++ leBytes 8 (r.code / 64 * 16384 + r.jcnt % 4096) ++ leBytes 8 r.dw2.toNat ++
    leBytes 8 ((r.dw3 &&& 0x0000FFFFFFFFFFFB#64).toNat + (if r.det then 4 else 0) + r.seq % 65536 * 281474976710656)

/-- A record as it stands, written to its slot of its priority's ring (R22, R379). -/
def State.writeRing (lid seq : Nat) (s : State) : State :=
  match s.recOf lid seq with
  | some r => s.putPhys (wf_ 51 16 (s.pkg.pqring[Fin.ofNat 4 r.pri]) * 65536 + 32 * r.slot) r.bytes
  | none => s

/-- A strand that has contributed nothing to its signature. -/
def Sig.empty : Sig := ⟨none, [], [], [], []⟩
/-- The current run of a strand discarded from its signature (R83). -/
def Sig.drop (g : Sig) : Sig := { g with curMtk := [], curDesc := [] }
/-- The current run of a strand taken into its signature, its commands in enqueue order (R83). -/
def Sig.close (g : Sig) : Sig :=
  { g with mtk := g.mtk ++ g.curMtk, desc := g.desc ++ (sortBy (fun a b => decide (a.1 ≤ b.1)) g.curDesc).flatMap Prod.snd, curMtk := [], curDesc := [] }
/-- The words of a strand's signature (R83). -/
def Sig.words (g : Sig) : List Word := let c := g.close; c.start.toList ++ c.mtk ++ c.desc

/-- The nodes that retired after a record last became READY and that it does not name (R406), and the records of type 0x26. -/
def State.rollbackRecs (s : State) (l : Launch) (r : Rec) (cause : Nat) : State :=
  let a := Fin.ofNat 64 l.asid
  let list := r.retiredSince.filter fun q => !(r.preds.contains q)
  let word (xs : List Nat) : Word := BitVec.ofNat 64 (xs.foldr (fun x n => x % 65536 + 65536 * n) 0)
  let chunk (k : Nat) := (list.drop (12 * k)).take 12
  (upto (max 1 (ceilDiv list.length 12))).foldl (fun s k =>
    let xs := chunk k
    s.faultRec a 0x26 (if k = 0 then cause else 0xFF) (match r.core with | some n => n | none => 0xFF) 0xFF 0xFF r.wid l.tag
      (BitVec.ofNat 64 (r.seq % 65536 + xs.length * 65536 + (if r.nidem then 16777216 else 0) + (r.rollbacks + 1) % 16 * 33554432))
      (word (xs.take 4)) (word ((xs.drop 4).take 4)) (word ((xs.drop 8).take 4))) s

/-- Causes 0x10, 0x11 and 0x12 against a record: rollback in a staged launch, abort in a direct one (R55, R92, R405). -/
def State.recover (s : State) (lid seq cause : Nat) : State :=
  match s.launch lid, s.recOf lid seq with
  | some l, some r =>
    if !l.staged || r.rollbacks + 1 > s.mc.rblimit.toNat then s.abortLaunch lid
    else
      let s1 := s.rollbackRecs l r cause
      let stay (p : Contrib) : Bool := p.done || !(p.spec.lid == lid && p.spec.seq == seq)
      let colls := s1.coll.map fun c => { c with parts := c.parts.filter stay }
      let s2 : State := { s1.ungrant lid seq with cores := vall s1.cores fun n k => k.dropRec lid seq s.datum (r.isAt n), coll := colls }
      let back (r : Rec) : Rec :=
        let r1 := { r with state := .ready, jcnt := 0, code := r.readyCode, rollbacks := r.rollbacks + 1, readyStamp := -((s.ids : Int) + 1) }
        { r1 with fp := 0, readyDatum := s.datum, retiredSince := [], nidem := false, core := (if r.det then r.core else none), sig := r.sig.drop }
      ({ s2 with ids := s2.ids + 1 }.onRec lid seq back).writeRing lid seq
  | _, _ => s

/-- An uncorrectable place has been read (R392, R402): counted on its race die, and logged with its consumer, 0 a core, 1 an engine, 2 the host. -/
def State.uncorrectable (k consumer : Nat) (s : State) : State :=
  let s1 := if dieOf k = 0 then s else s.onRDie (Fin.ofNat 8 (dieOf k - 1)) fun x => { x with uecnt := x.uecnt + 1 }
  s1.relLog 3 (errSub k) (dieOf k) (errUnit k) k consumer 0 0

/-- An uncorrectable error that a cluster consumes for a record (R402): logged, reported to the launch's fault queue as cause 0x11, and
recovered. -/
def State.consumedFor (who : Option (Nat × Nat)) (wid : Word) (pa : Nat) (s : State) : State :=
  let s1 := s.uncorrectable pa 0
  match who with
  | none => s1
  | some r =>
    match s1.launch r.1 with
    | none => s1
    | some l => (s1.faultRec (Fin.ofNat 64 l.asid) 0x11 (errSub pa) s1.at_.core.val s1.at_.clu.val 0xFF wid l.tag (BitVec.ofNat 64 pa) 0 0 0).recover r.1 r.2 0x11

/-- One that the running strand consumes. -/
def State.consumed (s : State) (pa : Nat) : State :=
  s.consumedFor (s.core.run.map fun r => (r.lid, r.seq)) (match s.core.run with | some r => r.wid | none => 0) pa

-- Traps (R325 to R331).
/-- The address of a cluster's line at a row: its own column (R208). -/
def lineAddr (c : CluId) (row : Word) : Word := row + BitVec.ofNat 64 (16 * c.val)

/-- The iteration vector of a cluster: the kernel iteration of each active loop, outermost first (R82). -/
def Cluster.iters (c : Cluster) : List Nat := c.loops.reverse.map LoopRec.t

/-- The failure of the running strand's launch: a trap with no handler (R325; log entry 15). -/
def State.failLaunch (s : State) : State := match s.core.run with | some r => s.abortLaunch r.lid | none => s

/-- A trap that no handler takes is reported to the launch's fault queue with the arguments of R328. -/
def State.reportTrap (s : State) (t : TrapRec) : State :=
  match s.core.run with
  | none => s
  | some r => s.faultRec s.asid t.cause.toNat t.sub.toNat s.at_.core.val s.at_.clu.val 0xFF r.wid (s.tagOf r.lid) t.a0 t.a1 t.a2 t.a3

/-- A double fault (R327): it is not taken; the run ends; a staged record rolls back, a direct launch is aborted. -/
def State.doubleFault (s : State) (t : TrapRec) : State :=
  match s.core.run with
  | none => s
  | some r =>
    let c := s.clu
    let s1 := s.faultRec s.asid 0x24 0 s.at_.core.val s.at_.clu.val 0xFF r.wid (s.tagOf r.lid) (BitVec.ofNat 64 c.tcause.toNat)
      (BitVec.ofNat 64 t.cause.toNat) c.trapa[0] c.trapa[1]
    match s1.launch r.lid with
    | some l => if l.staged then s1.recover r.lid r.seq 0x24 else s1.abortLaunch r.lid
    | none => s1

/-- The register part of taking a trap (R325, R326): the saved address, the cause, the arguments, the iteration indexes, handler mode
and the handler's row. -/
def enterTrap (t : TrapRec) (resume : Word) (tvec : Word) (c : Cluster) : Cluster :=
  { c with
    hm := true
    tcause := t.cause
    tsub := t.sub
    trappc := resume
    trapa := Vector.ofFn fun i => [t.a0, t.a1, t.a2, t.a3].getD i.val 0
    trapit := Vector.ofFn fun i => BitVec.ofNat 64 (c.iters.getD i.val 0)
    pc := BitVec.ofNat 64 (bits 55 6 tvec.toNat * 64)
    hold := .none
    got := 0
    branch := none }

/-- TAKING A TRAP (R325 to R327), for every cause: a double fault in handler mode, a report and a failed launch without a handler, else
entry to the handler with TRAPPC addressing the given line. -/
def takeTrap (t : TrapRec) (resume : Word) (s : State) : State :=
  let s0 := { s with iss := { s.iss with ev := .trap t } }
  if s.clu.hm then s0.doubleFault t
  else if s.core.tvec.getLsbD 0 then
    (s0.onClu (enterTrap t resume s.core.tvec)).capture 5 s.at_.core.val s.at_.clu.val (BitVec.ofNat 64 (t.cause.toNat + 256 * t.sub.toNat))
  else (s0.reportTrap t).failLaunch

/-- A trap with line delivery: precise at the line, which takes no effect (R328). -/
def lineTrap (t : TrapRec) (s : State) : Res := .next (takeTrap t (lineAddr s.at_.clu s.clu.pc) s)

/-- The illegal-operation trap of a slot, 0 X, 1 M, 2 V (R328). -/
def illegalOp (slot : Nat) (s : State) : Res :=
  lineTrap { cause := 0x02, sub := BitVec.ofNat 8 slot, a0 := s.iss.bits.setWidth 64, a1 := (s.iss.bits >>> 64).setWidth 64 } s

/-- The illegal-line trap (R328). -/
def illegalLine (s : State) : Res :=
  lineTrap { cause := 0x01, a0 := s.iss.bits.setWidth 64, a1 := (s.iss.bits >>> 64).setWidth 64 } s

/-- The kinds of access of a page fault, as TRAPA1 codes them (R328). -/
inductive AccKind where
  | load | store | atomic | fetch
  deriving DecidableEq, Repr
def AccKind.code : AccKind → Nat
  | .load => 0
  | .store => 1
  | .atomic => 2
  | .fetch => 3

/-- The reasons of a page fault (R231). -/
inductive PfReason where
  | translation | permission | accessType | alignment
  deriving DecidableEq, Repr
def PfReason.code : PfReason → Nat
  | .translation => 0
  | .permission => 1
  | .accessType => 2
  | .alignment => 3

/-- The page fault (R328). -/
def pageFault (r : PfReason) (va : Nat) (k : AccKind) (s : State) : Res :=
  lineTrap { cause := 0x03, sub := BitVec.ofNat 8 r.code, a0 := BitVec.ofNat 64 va, a1 := BitVec.ofNat 64 k.code } s

/-- The owner fault of a core access (R54, R119). -/
def ownerFault (sub h : Nat) (s : State) : Res := lineTrap { cause := 0x05, sub := BitVec.ofNat 8 sub, a0 := BitVec.ofNat 64 h } s

/-- The line being issued requests a shared port (R37). -/
def usePort (p : Fin 4) (s : State) : State := { s with iss := { s.iss with ports := s.iss.ports ||| BitVec.ofNat 4 (2 ^ p.val) } }

/-- The cluster holds at its line, for a reason: the line has not issued and is presented again (R222). -/
def holdLine (h : Hold) (s : State) : Res :=
  .next { (s.onClu fun c => { c with hold := h }) with iss := { s.iss with ev := .held h } }

/-- The line ends with its run: the record was rolled back or lost under it. -/
def lineGone (s : State) : Res := .next { s with iss := { s.iss with ev := .held .none } }

/-- RETURNING FROM A TRAP (R330): handler mode ends and the cluster continues at row TRAPPC[55:6], in its own column; a queue that the
trap's command stopped resumes (R292). -/
def leaveTrap (s : State) : State :=
  let s1 := match s.clu.stoppedEng with
    | some e => s.engUpd s.at_.core e fun g => { g with stopped := false }
    | none => s
  s1.onClu fun c => { c with hm := false, stoppedEng := none, branch := some (BitVec.ofNat 64 (bits 55 6 c.trappc.toNat * 64)) }

-- Conditions.
/-- The condition of a q field (R186): `none` for q = 8 outside a loop body, which is reserved. -/
def qCond (q : PReg) (s : State) : Option Bool :=
  if q.val < 8 then some (srcP q s)
  else if s.iss.inBody then some (s.iss.src.p.getLsbD q.val)
  else if q.val = 8 then none
  else some (!(s.iss.src.p.getLsbD (q.val - 8)))

/-- A predicated syllable (R186): under a false condition it does nothing; a reserved q is an illegal operation of its slot. -/
def whenQ (slot : Nat) (q : PReg) (s : State) (k : Res) : Res :=
  match qCond q s with
  | some true => k
  | some false => .next s
  | none => illegalOp slot s

end Sys2Proof.Machine
end

