-- ==== Sys2Proof/Machine/Lattice.lean ====
section
/-!
DEFINITION. Lattice types, replicas and joins (R155 to R163), the exchange between replicas (R164), and what a join marks dirty.
-/
namespace Sys2Proof.Machine

/-- The cell size of a lattice type (R155). -/
def latSize (lt : Nat) : Nat := if lt = 6 ∨ lt = 7 then 64 else 8

/-- The least element of a lattice type (R155). -/
def latBottom (lt : Nat) : Nat :=
  if lt = 1 ∨ lt = 3 then 2 ^ 64 - 1 else if lt = 5 then 0xFFF0000000000000 else 0

/-- FMAXT's total order as a number (R156): numeric order with −0 below +0, NaNs on top by payload and then by sign, the negative lower. -/
def fmaxKey (x : Nat) : Nat :=
  let neg := nbit 63 x
  let mag := x % 2 ^ 63
  let nan := decide (mag > 0x7FF0000000000000)
  if nan then 2 ^ 65 + (mag % 2 ^ 52) * 2 + (if neg then 0 else 1)
  else if neg then 2 ^ 63 - 1 - mag else 2 ^ 63 + mag

/-- Two cells joined byte by byte or slot by slot, `k` parts of `w` bits (VMAX, GCNT). -/
def maxParts : Nat → Nat → Nat → Nat → Nat
  | 0, _, _, _ => 0
  | k + 1, w, a, b => max (a % 2 ^ w) (b % 2 ^ w) + 2 ^ w * maxParts k w (a / 2 ^ w) (b / 2 ^ w)

/-- Join(T, a, b) (R155). -/
def latJoin (lt a b : Nat) : Nat :=
  match lt with
  | 0 => max a b
  | 1 => min a b
  | 2 => a ||| b
  | 3 => a &&& b
  | 4 => max a b
  | 5 => if fmaxKey a ≤ fmaxKey b then b else a
  | 6 => maxParts 64 8 a b
  | 7 => maxParts 16 32 a b
  | _ => max a b

/-- The value of a GCNT cell: the sum of its slots as an N64 (R156). -/
def gcntSum : Nat → Nat → Nat
  | 0, _ => 0
  | k + 1, a => (a % 2 ^ 32 + gcntSum k (a / 2 ^ 32)) % 2 ^ 64

/-- Every byte of a VMAX cell is at least `t` (R161). -/
def vmaxAll : Nat → Nat → Nat → Bool
  | 0, _, _ => true
  | k + 1, a, t => decide (t ≤ a % 256) && vmaxAll k (a / 256) t

/-- The threshold of LWAIT is passed (R161). -/
def latPassed (lt cell t : Nat) : Bool :=
  match lt with
  | 0 => decide (t ≤ cell)
  | 4 => decide (t ≤ cell)
  | 1 => decide (cell ≤ t)
  | 2 => t &&& cell == t
  | 3 => cell &&& t == cell
  | 5 => decide (fmaxKey t ≤ fmaxKey cell)
  | 6 => vmaxAll 64 cell (t % 256)
  | 7 => decide (t ≤ gcntSum 16 cell)
  | _ => false

/-- A slot's recorded type (R381). -/
def State.slotRec (s : State) (slot : Nat) : Option SlotRec := s.slots.find? fun r => r.slot == slot

/-- A cell of a die's replica (R157). -/
def State.latGet (s : State) (die slot off lt : Nat) : Nat :=
  match s.lat.find? fun c => c.die == die && c.slot == slot && c.off == off with
  | some c => c.val
  | none => latBottom lt

/-- A cell of a die's replica replaced; a cell at bottom is not listed. -/
def State.latPut (s : State) (die slot off lt v : Nat) : State :=
  let rest := s.lat.filter fun c => !(c.die == die && c.slot == slot && c.off == off)
  { s with lat := if v = latBottom lt then rest else rest ++ [⟨die, slot, off, v⟩] }

/-- The die pairs of a schedule register: five bytes, 0xFF unused (R379). -/
def pairsOf (w : Word) : List (Nat × Nat) :=
  ((upto 5).map fun k => bits (8 * k + 7) (8 * k) w.toNat).filterMap fun b => if b = 0xFF then none else some (b / 16, b % 16)

/-- A cell that rose at a die becomes dirty for every other die, and, from the die-0 replica of a system-scope slot, for every port
(R164, R428). -/
def State.markDirty (s : State) (die slot off : Nat) : State :=
  let new := (upto 10).filterMap fun d => if d = die then none else some (die, d, slot, off)
  let sys := match s.slotRec slot with
    | some r => if r.lscope && die == 0 then (upto 8).map fun p => (p, slot, off) else []
    | none => []
  { s with
    dirty := s.dirty ++ new.filter fun x => !(s.dirty.contains x)
    sysDirty := s.sysDirty ++ sys.filter fun x => !(s.sysDirty.contains x) }

/-- A value joined into a cell of a die's replica (R158). -/
def State.latJoinAt (s : State) (die slot off lt v : Nat) : State :=
  let old := s.latGet die slot off lt
  let new := latJoin lt old v
  if new = old then s else (s.latPut die slot off lt new).markDirty die slot off

/-- Dirty cells in increasing cell address (R164): the slot's place, then the offset in the page. -/
def byCell {α : Type} (key : α → Nat × Nat) (l : List α) : List α :=
  sortBy (fun a b => decide ((key a).1 * 65536 + (key a).2 ≤ (key b).1 * 65536 + (key b).2)) l

/-- One side of a pair's exchange: the cells that stood dirty from `i` to `j` when the round began, those that an earlier round had no room for
first, each part in increasing cell address, within 8,192 bytes, are joined at `j` with the values they had then; the rest wait (R164). -/
def State.exchangeHalf (s0 : State) (i j : Nat) (s : State) : State :=
  let inOrder := byCell (fun x : Nat × Nat × Nat × Nat => (x.2.2.1, x.2.2.2))
  let all := s0.dirty.filter fun x => x.1 == i && x.2.1 == j
  let mine := inOrder (all.filter s0.carried.contains) ++ inOrder (all.filter fun x => !(s0.carried.contains x))
  let step (p : State × Nat) (x : Nat × Nat × Nat × Nat) : State × Nat :=
    match p.1.slotRec x.2.2.1 with
    | none => ({ p.1 with dirty := p.1.dirty.filter fun y => y != x }, p.2)
    | some r =>
      let lt := r.ltype.toNat
      if p.2 + latSize lt > 8192 then (p.1, 8192)
      else
        let v := s0.latGet i x.2.2.1 x.2.2.2 lt
        (({ p.1 with dirty := p.1.dirty.filter fun y => y != x }).latJoinAt j x.2.2.1 x.2.2.2 lt v, p.2 + latSize lt)
  let t := (mine.foldl step (s, 0)).1
  { t with carried := (t.carried.filter fun x => !(x.1 == i && x.2.1 == j)) ++ mine.filter t.dirty.contains }

/-- A launch page's cell (R376): slot 0 of the lattice window. -/
def launchCell (c : Ctx) (off : Nat) : Word := if off / 8 = 0 then c.lseq else if off / 8 = 1 then c.ldone else 0

end Sys2Proof.Machine
end

