-- ==== Sys2Proof/Machine/Operands.lean ====
section
/-!
DEFINITION. The operand forms: effective addresses (R230), attributes (R135 to R137), translation (R382 to R386) with its faults
(R231), and the shared loads, stores and side log that the memory instructions use (R232, R233, R403).
-/
namespace Sys2Proof.Machine

-- Addresses and attributes.
/-- The effective address of a memory operand (R230): mode 0 scales offset9, mode 1 adds the index unscaled. -/
def eaOf (m : MAddr) (scale : Nat) (s : State) : Nat :=
  match m with
  | .off b o => (srcS b s + BitVec.ofInt 64 (o.toInt * scale)).toNat
  | .idx b x => (srcS b s + srcS x s).toNat

/-- MEMDEF's order, scope, policy and space (R137). -/
def attrOfMemdef (w : Word) : Attr where
  ord := if bits 9 7 w.toNat = 4 then .sc else .rlx
  scope := match bits 6 5 w.toNat with | 0 => .cl | 1 => .core | 2 => .pkg | _ => .sys
  cpol := match bits 4 3 w.toNat with | 1 => .strm | 2 => .evict | _ => .norm
  asp := match bits 2 1 w.toNat with | 1 => .drv | 2 => .phys | _ => .ctx

/-- The attributes of the line's memory instruction: the MEMPFX's, else MEMDEF's (R135). -/
def State.attr (s : State) : Attr := match s.iss.attr with
  | some a => a
  | none => attrOfMemdef s.core.memdef

/-- The ASID whose space an access uses: the context's, or the driver's, which is ASID 0 (R135, R380). -/
def State.spaceOf (s : State) (a : Asp) : Fin 64 := match a with | .drv => 0 | _ => s.asid

/-- ASP other than the context's is for handlers only (R136). -/
def State.aspAllowed (s : State) (a : Attr) : Bool := a.asp == .ctx || s.iss.src.hm

/-- A 56-bit address: bits [63:56] are a sign extension of bit 55 (R230). -/
def canonical (va : Nat) : Bool := va / 2 ^ 55 = 0 || va / 2 ^ 55 = 2 ^ 9 - 1

-- Page tables.
/-- What a walk finds. -/
inductive Walk where
  | leaf (t : Tlb)
  | invalid
  | malformed (level : Nat) (entry : Word)
  | migrating (lat : Bool)
  deriving DecidableEq, Repr

/-- The page size of a leaf at a level (R382). -/
def leafSize (level : Nat) : Nat := if level = 0 then 65536 else if level = 1 then 2097152 else 1073741824

/-- The physical range that a target type allows (R384), the exposed parts by the context's split (R115); the reserved types have none to
leave, so their pages translate and then refuse every access (R129). -/
def inRange (c : Ctx) (tt pa size : Nat) : Bool :=
  match tt with
  | 0 => pa + size ≤ linTop
  | 1 => linTop ≤ pa && pa + size ≤ coreBase
  | 2 => coreBase ≤ pa && pa + size ≤ coreBase + 32 * 8388608 && (pa - coreBase) % 8388608 ≥ 8388608 - c.cexp * 1048576
  | 3 => tileBase ≤ pa && pa + size ≤ tileBase + 512 * 2097152 && (pa - tileBase) % 2097152 ≥ 2097152 - c.texp * 262144
  | 4 => latBase ≤ pa && pa + size ≤ latBase + 64 * 65536
  | _ => true

/-- A leaf entry, checked (R383, R384). -/
def leafOf (s : State) (u asid : Nat) (c : Ctx) (va level : Nat) (e : Word) : Walk :=
  let w := e.toNat
  let size := leafSize level
  let tt := bits 61 59 w
  let pa := bits 51 16 w * 65536
  let padr := if size = 65536 then pa else bits 51 16 w * 65536
  let lt := bits 15 12 w
  let ls := nbit 11 w
  let slot := (padr - latBase) / 65536
  let bad := level > 2 || bits 53 52 w != 0 || bits 10 0 w != 0 || padr % size != 0 || !(inRange c tt padr size) ||
    ((tt == 2 || tt == 3) && size == 1073741824) || (tt == 4 && size != 65536) ||
    (tt != 4 && (lt != 0 || ls)) ||
    (tt == 4 && s.slotRec slot != some ⟨slot, BitVec.ofNat 4 lt, ls⟩)
  if bad then .malformed level e
  else if nbit 54 w then .migrating (tt == 4)
  else .leaf ⟨u, asid, va / size * size, size, tt, nbit 58 w, nbit 57 w, nbit 56 w, nbit 55 w, padr, BitVec.ofNat 4 lt, ls, s.datum,
    s.datum + BitVec.ofNat 64 ((if c.lease = 0 then 16 else c.lease) * 1000)⟩

/-- The index of a virtual address at a level (R382). -/
def vaIndex (level va : Nat) : Nat :=
  match level with
  | 4 => bits 55 48 va
  | 3 => bits 47 39 va
  | 2 => bits 38 30 va
  | 1 => bits 29 21 va
  | _ => bits 20 16 va

/-- A table's alignment (R382). -/
def tableAlign (level : Nat) : Nat := if level = 4 then 2048 else if level = 0 then 256 else 4096

/-- The walk from a table of a level down (R382 to R384). -/
def walkFrom (s : State) (u asid : Nat) (c : Ctx) (va : Nat) : Nat → Nat → Walk
  | level, table =>
    match level with
    | 0 => step 0 table (fun _ => .malformed 0 0)
    | l + 1 => step (l + 1) table (fun nx => walkFrom s u asid c va l nx)
where
  /-- One level: read the entry, and either check the leaf or go on with the next table. -/
  step (level table : Nat) (next : Nat → Walk) : Walk :=
    let e := BitVec.ofNat 64 (s.getPhysN (table + 8 * vaIndex level va) 8)
    let w := e.toNat
    if !(nbit 63 w) then .invalid
    else if nbit 62 w then leafOf s u asid c va level e
    else
      let nx := bits 51 8 w * 256
      if level = 0 || bits 61 54 w != 0 || bits 53 52 w != 0 || bits 7 0 w != 0 || nx % tableAlign (level - 1) != 0 then .malformed level e
      else next nx

/-- The tables that a walk from a table of a level passes, each with its level (R382). -/
def tablesFrom (s : State) (va : Nat) : Nat → Nat → List (Nat × Nat)
  | 0, table => [(0, table)]
  | l + 1, table =>
    let w := s.getPhysN (table + 8 * vaIndex (l + 1) va) 8
    (l + 1, table) :: (if nbit 63 w && !(nbit 62 w) then tablesFrom s va l (bits 51 8 w * 256) else [])

/-- The bytes of address that a table of a level covers (R382). -/
def tableSpan (level : Nat) : Nat := match level with
  | 0 => 2 ^ 21
  | 1 => 2 ^ 30
  | 2 => 2 ^ 39
  | 3 => 2 ^ 48
  | _ => 2 ^ 56

/-- Where a unit's walk of an address starts (R385): at the lowest table that its walk cache holds, else at the root. -/
def State.walkStart (s : State) (u asid : Nat) (root va : Nat) : Nat × Nat :=
  (s.wcache.filter fun w => w.unit == u && w.asid == asid && w.va / tableSpan w.level == va / tableSpan w.level && decide (s.datum.toNat < w.expiry.toNat)).foldl
    (fun p w => if w.level < p.1 then (w.level, w.table) else p) (4, root)

/-- The frame attribute bit of a linear frame (R384). -/
def State.frameAttr (s : State) (frame : Nat) : Bool := nbit (frame % 8) (s.getPhysN (s.pkg.fatbase.toNat + frame / 8) 1)

/-- The page's cacheability differs from the attribute of some linear frame that holds a byte of it (R131). -/
def aliasClash (s : State) (t : Tlb) : Bool :=
  match t.tt with
  | 0 => (upto (t.size / 65536)).any fun i => s.frameAttr (t.pa / 65536 + i) != t.c
  | 1 => (upto (t.size / 256)).any fun i => s.frameAttr (ilPlace (t.pa - linTop + 256 * i) / 65536) != t.c
  | _ => false

/-- How a translation ends; `migrating` says whether the leaf found is a lattice page's, `nowhere` that no page of the physical space holds
the address. -/
inductive Xl where
  | ok (t : Tlb)
  | unmapped
  | migrating (lat : Bool)
  | aliased
  | nowhere
  deriving DecidableEq, Repr

/-- A cached translation of a unit that has not expired (R385). -/
def State.cached (s : State) (u asid va : Nat) : Option Tlb :=
  s.tlb.find? fun t => t.unit == u && t.asid == asid && decide (t.va ≤ va) && decide (va < t.va + t.size) && decide (s.datum.toNat < t.expiry.toNat)

/-- What a walk that has read a leaf puts into its unit's walk cache, under the leaf's lease (R385). -/
def walkEnts (t : Tlb) (va : Nat) (tables : List (Nat × Nat)) : List WalkEnt :=
  (tables.filter fun p => decide (p.1 < 4)).map fun p => ⟨t.unit, t.asid, p.1, va / tableSpan p.1 * tableSpan p.1, p.2, t.granted, t.expiry⟩

/-- For whom a unit walks: the WID of the record, and the TAG of its launch (R377, R390). -/
structure Walker where
  wid : Word := 0
  tag : Word := 0
  deriving DecidableEq, Repr

/-- The fault record of a malformed entry (R384, R390): of a cluster of core `u`, of engine `u` − 32, or of a unit that is neither. -/
def State.malformedRec (s : State) (u : Nat) (w : Walker) (a : Fin 64) (va level : Nat) (e : Word) : State :=
  let (core, clu, eng) := if u < 32 then (u, s.at_.clu.val, 0xFF) else if u < 896 then ((u - 32) / 27, 0xFF, (u - 32) % 27) else (0xFF, 0xFF, 0xFF)
  s.faultRec a 0x29 0 core clu eng w.wid w.tag (BitVec.ofNat 64 va) (BitVec.ofNat 64 level) e 0

/-- The part's own reads of the table entries of a walk: what the code corrects there (R401). -/
def State.walked (a level table : Nat) (s : State) : State :=
  if s.weak = [] then s else (tablesFrom s a level table).foldl (fun t p => t.readsPhys (p.2 + 8 * vaIndex p.1 a) 8) s

/-- A leaf whose walk began at a cached table: its lease ends no later than that table's (R385; log entry 135). -/
def State.leased (s : State) (t : Tlb) (va level : Nat) : Tlb :=
  match s.wcache.find? fun w => w.unit == t.unit && w.asid == t.asid && w.level == level && w.va / tableSpan level == va / tableSpan level &&
    decide (s.datum.toNat < w.expiry.toNat) with
  | some w => if level < 4 ∧ w.expiry.toNat < t.expiry.toNat then { t with granted := w.granted, expiry := w.expiry } else t
  | none => t

/-- A virtual address translated for a unit (R382 to R386): from its cache, else by a walk whose leaf, and the tables on the way to it, are
then cached under a lease. -/
def xlate (u : Nat) (w : Walker) (asid : Fin 64) (va : Nat) (s : State) : Xl × State :=
  if !(canonical va) then (.unmapped, s)
  else
    let a := va % 2 ^ 56
    match s.cached u asid.val a with
    | some t => (.ok t, s)
    | none =>
      let c := s.ctxs[asid]
      let (level, table) := s.walkStart u asid.val c.ptroot a
      let s1 := s.walked a level table
      match walkFrom s u asid.val c a level table with
      | .leaf t => if aliasClash s t then (.aliased, s1) else
          let t' := s.leased t a level
          (.ok t', { s1 with tlb := s1.tlb ++ [t'], wcache := s1.wcache ++ walkEnts t' a ((tablesFrom s a level table).filter fun p => decide (p.1 < level)) })
      | .migrating lat => (.migrating lat, s1)
      | .invalid => (.unmapped, s1)
      | .malformed l e => (.unmapped, s1.malformedRec u w asid va l e)

/-- A physical-space access as a translation of its own (ASP 0b10): its window is the target type of its place, within the map as the context
splits the scratchpads (R384); a lattice slot that no CLRSLOT has recorded has type 0 (log entry 143). -/
def physXlate (c : Ctx) (pa : Nat) (s : State) : Xl :=
  let base := pa / 65536 * 65536
  match placeOf pa with
  | none => .nowhere
  | some (w, _) =>
    if inRange c w base 65536 then
      let lt := match s.slotRec ((base - latBase) / 65536) with | some r => r.ltype | none => 0
      .ok ⟨0, 0, base, 65536, w, true, true, true, true, base, lt, false, s.datum, s.datum⟩
    else .nowhere

/-- The unit number of a cluster's translations: its core; engine e of core n is 32 + 27n + e. -/
def State.unit (s : State) : Nat := s.at_.core.val
def engUnit (n : CoreId) (e : Eng) : Nat := 32 + 27 * n.val + e.val

/-- The running record, or none, as a walker. -/
def State.walker (s : State) : Walker := match s.core.run with
  | some r => ⟨r.wid, s.tagOf r.lid⟩
  | none => {}

/-- One page of the running access, translated under its attributes. -/
def xlatePage (a : Attr) (va : Nat) (s : State) : Xl × State :=
  match a.asp with
  | .phys => (physXlate s.ctxs[s.asid] va s, s)
  | _ => xlate s.unit s.walker (s.spaceOf a.asp) va s

/-- The window and place of a byte under its page's translation. -/
def placeIn (t : Tlb) (va : Nat) : Nat × Nat :=
  let pa := t.pa + (va % 2 ^ 56 - t.va)
  match t.tt with
  | 0 => (0, pa)
  | 1 => (1, ilPlace (pa - linTop))
  | 5 => (5, hostBase + pa)
  | tt => (tt, pa)

/-- Of some addresses, the first in each 64 KiB page, in order. -/
def pagesOf (vas : List Nat) : List Nat := vas.foldl (fun l a => if l.any fun b => b / 65536 == a / 65536 then l else l ++ [a]) []

/-- A translation request posted to its fault queue, or left to wait while the queue is full (R386, R390). -/
def State.post (p : Post) (s : State) : State :=
  if s.fqFull p.asid then { s with posts := s.posts ++ [p] }
  else s.faultRec p.asid 0x23 0 p.core p.clu p.eng p.wid p.tag (BitVec.ofNat 64 p.va) (BitVec.ofNat 64 p.kind) 0 0

/-- A cluster's translation request (R386). -/
def State.postRequest (s : State) (a : Fin 64) (va : Nat) (k : Nat) : State :=
  s.post ⟨a, s.at_.core.val, s.at_.clu.val, 0xFF, s.walker.wid, s.walker.tag, va, k⟩

/-- The requests that wait, tried again in order (R390). -/
def State.repost (s : State) : State := s.posts.foldl (fun s p => s.post p) { s with posts := [] }

/-- A load-like access that does not translate (R232): the cluster holds; a request is posted unless the page is migrating (R386). -/
def holdXlate (a : Attr) (va : Nat) (k : AccKind) (mig : Bool) (s : State) : Res :=
  holdLine (.translation (s.spaceOf a.asp).val va mig (k == .fetch)) (if mig then s else s.postRequest (s.spaceOf a.asp) va k.code)

/-- The driver has declined the request of this page (R386). -/
def State.declinedAt (s : State) (a : Attr) (va : Nat) : Bool :=
  match s.clu.hold with
  | .declined asid x => a.asp != .phys && asid == (s.spaceOf a.asp).val && x / 65536 == va / 65536
  | _ => false

/-- The page is a lattice page, as far as its translation tells. -/
def Xl.lattice : Xl → Bool
  | .ok t => t.tt == 4
  | .migrating lat => lat
  | _ => false

/-- What translating the pages of an access comes to: the pages with their entries, a page that does not translate (`mig`: it is migrating;
`lat`: a page of the access is known to be a lattice page), or how the access ends. -/
inductive Pages where
  | ok (ps : List (Nat × Tlb)) (s : State)
  | miss (va : Nat) (mig lat : Bool) (s : State)
  | stop (r : Res)

/-- Every page an access touches, translated in order at the first byte there, and checked for permission, then for a reserved target type
(R129, R231). A page that the driver declined faults with the translation reason (R386), as does an address that the physical space does not
hold: no page could be mapped for it. -/
def xlatePages (a : Attr) (k : AccKind) (s : State) : List Nat → Pages
  | [] => .ok [] s
  | va :: vas =>
    if s.declinedAt a va then .stop (pageFault .translation va k s)
    else match xlatePage a va s with
    | (.ok t, s1) =>
      let allowed := match k with | .load => t.r | .fetch => t.x | _ => t.w
      if !allowed then .stop (pageFault .permission va k s1)
      else if t.tt > 5 then .stop (pageFault .accessType va k s1)
      else match xlatePages a k s1 vas with
        | .ok qs s2 => .ok ((va / 65536, t) :: qs) s2
        | .miss x mig lat s2 => .miss x mig (lat || t.tt == 4) s2
        | r => r
    | (.unmapped, s1) => .miss va false (vas.any fun x => (xlatePage a x s1).1.lattice) s1
    | (.migrating lat, s1) => .miss va true (lat || vas.any fun x => (xlatePage a x s1).1.lattice) s1
    | (.aliased, s1) => .stop (lineTrap { cause := 0x04, a0 := BitVec.ofNat 64 va } s1)
    | (.nowhere, s1) => .stop (pageFault .translation va k s1)

/-- The shared port that an access to a page takes (R37): the core's own scratchpad, or memory beyond the core. -/
def Tlb.port (t : Tlb) (n : CoreId) : Fin 4 := if t.tt = 2 ∧ (t.pa - coreBase) / 8388608 = n.val then 1 else 3
/-- The ports of an access's pages requested. -/
def usePages (ps : List (Nat × Tlb)) (s : State) : State := ps.foldl (fun s p => usePort (p.2.port s.at_.core) s) s

/-- The entry of a byte's page. -/
def entryOf (ps : List (Nat × Tlb)) (va : Nat) : Option Tlb := (ps.find? fun p => p.1 == va / 65536).map Prod.snd

-- The side log (R232, R153).
/-- The bytes that a logged store will write. -/
def SideEntry.bytes (e : SideEntry) : List (Nat × Byte) := match e.acc with
  | .store .nibbles _ => []
  | .store _ bs => bs
  | _ => []
/-- The addresses that a logged join, reduction or nibble store names. The cell of a scalar join has 8 bytes or, in a GCNT page, 64. -/
def SideEntry.opaqueAddrs (e : SideEntry) : List Nat := match e.acc with
  | .join va _ _ => (upto 64).map fun i => va / 64 * 64 + i
  | .amo va _ w64 _ => (upto (if w64 then 8 else 4)).map fun i => va + i
  | .store .nibbles bs => bs.map Prod.fst
  | _ => []
/-- How the side log answers a load: not at all, with every byte, or by holding it. -/
inductive LogRead where
  | no
  | all (bs : List Byte)
  | hold
  deriving DecidableEq, Repr
/-- The space of an access of a context: an address-space identifier, or 64 for the physical space (R135). -/
def Attr.space (a : Attr) (asid : Nat) : Nat := match a.asp with
  | .ctx => asid
  | .drv => 0
  | .phys => 64
/-- The entries of a cluster's log in the space of the running access. -/
def State.logHere (s : State) : List SideEntry := s.clu.slog.filter fun e => e.attr.space s.asid.val == s.attr.space s.asid.val
def readLog (log : List SideEntry) (vas : List Nat) : LogRead :=
  let ws := log.flatMap SideEntry.bytes
  let os := log.flatMap SideEntry.opaqueAddrs
  if vas.any fun a => os.contains a then .hold
  else if vas.all fun a => (lastWrite a ws).isSome then (if vas = [] then .no else .all (vas.map fun a => (lastWrite a ws).getD blank))
  else if vas.any fun a => (lastWrite a ws).isSome then .hold
  else .no

/-- A store-like access retires into the side log, or holds its cluster as a load does when the log is full (R232). -/
def logStore (acc : Access) (a : Attr) (va : Nat) (mig : Bool) (s : State) : Res :=
  let k : AccKind := match acc with | .amo _ _ _ _ => .atomic | _ => .store
  if s.clu.slog.length + (s.core.left.filter fun x => x.clu == s.at_.clu).length ≥ 32 then holdXlate a va k mig s
  else .next ((if mig then s else s.postRequest (s.spaceOf a.asp) va k.code).onClu fun c => { c with slog := c.slog ++ [⟨acc, a, s.datum, some (va, mig)⟩] })

/-- The acting cluster's side log is empty and what it has replayed is performed (R153). -/
def State.logDone (s : State) : Bool := s.clu.slog == [] && s.replayed s.at_.core s.at_.clu

/-- What an access of the acting cluster waits for before it is looked at (R145, R153): an acquire before it in the side log or, where it
reads, in flight; for a release or an SC access the side log's end; and an SC join that has still to reach other packages (R162). -/
def State.accessWaits (s : State) (reads ordered : Bool) : Option Hold :=
  if s.clu.slog.any fun e => acquires e.attr.ord then some .sideLog
  else if ordered && s.clu.slog != [] then some .sideLog
  else if s.clu.scOut != [] then some .settling
  else if (ordered && !(s.replayed s.at_.core s.at_.clu)) || (reads && s.acquiring s.at_.core s.at_.clu) then some .settling
  else none

-- Loads.
/-- The observer that a cluster is. -/
def State.obs (s : State) : Obs := { group := 0, own := some (s.at_.core, s.at_.clu) }

/-- The running record: its launch and sequence number. -/
def State.runKey (s : State) : Option (Nat × Nat) := s.core.run.map fun r => (r.lid, r.seq)

/-- A staged byte of a record on the acting core (R403). -/
def State.stagedOf (s : State) (who : Option (Nat × Nat)) (k : Nat) : Option Byte :=
  match who with
  | none => none
  | some r => ((s.core.staging.filter fun b => b.lid == r.1 && b.seq == r.2 && b.pa == k).getLast?).map Staged.byte

/-- A staged byte of the running record (R403). -/
def State.stagedByte (s : State) (k : Nat) : Option Byte := s.stagedOf s.runKey k

/-- A byte of a lattice page's replica on a die (R160). -/
def State.latByte (s : State) (die : Nat) (t : Tlb) (pa : Nat) : Byte :=
  let lt := t.ltype.toNat
  let slot := (pa - latBase) / 65536
  let off := (pa - latBase) % 65536
  BitVec.ofNat 8 (s.latGet die slot (off / latSize lt * latSize lt) lt / 256 ^ (off % latSize lt))

/-- A cell as the running record reads it: the local replica's, with the record's own joins that wait for its staged bytes (R142, R160). -/
def State.cellSeen (s : State) (slot off lt : Nat) : Nat :=
  (s.core.joins.filter fun j => s.runKey == some (j.lid, j.seq) && j.slot == slot && j.off == off).foldl (fun v j => latJoin lt v j.val) (s.latGet 0 slot off lt)

/-- A byte of a lattice page as the running record reads it (R134, R160). -/
def State.cellByte (s : State) (t : Tlb) (pa : Nat) : Byte :=
  let lt := t.ltype.toNat
  let off := (pa - latBase) % 65536
  BitVec.ofNat 8 (s.cellSeen ((pa - latBase) / 65536) (off / latSize lt * latSize lt) lt / 256 ^ (off % latSize lt))

/-- The value of a byte as the cluster loads it. -/
def State.loadByte (s : State) (t : Tlb) (va : Nat) : Byte :=
  let p := placeIn t va
  if t.tt = 4 then s.cellByte t p.2
  else match s.stagedByte p.2 with
    | some b => b
    | none => s.readByte s.obs p.1 p.2

/-- What a load comes to: its bytes, in the order of the addresses, or how the line ends. -/
inductive Loaded where
  | ok (bs : List Byte) (s : State)
  | stop (r : Res)

/-- The acting cluster's translations of some pages dropped: they reach a sealed frame, so the access walks again (R387). -/
def State.bounce (ps : List (Nat × Tlb)) (s : State) : State :=
  { s with tlb := s.tlb.filter fun t => !(t.unit == s.unit && ps.any fun p => p.2 == t) }

/-- The places that some addresses reach under their pages' entries. -/
def placesOf (ps : List (Nat × Tlb)) (vas : List Nat) : List Nat := vas.filterMap fun va => (entryOf ps va).map fun t => (placeIn t va).2

/-- PCIe ordering holds for an access: it is at system scope and reaches a host page (R154). -/
def hostOrdered (a : Attr) (ps : List (Nat × Tlb)) : Bool := a.scope == .sys && ps.any fun p => p.2.tt == 5

/-- THE LOAD (R231, R232): it waits for the acquires before it, and an SC load for every access before it (R145, R153); it is answered by the
side log where that covers every byte; else it is translated, checked and performed at issue (log entry 7). A sealed frame holds it (R387), as
do, at system scope on a host page, the cluster's posted host writes (R154); an uncorrectable word that staging does not cover is consumed
(R402, R403). -/
def loadBytes (k : AccKind) (vas : List Nat) (s : State) : Loaded :=
  let a := s.attr
  if !(s.aspAllowed a) || a.ord == .rel || a.ord == .ar then .stop (illegalOp 1 s)
  else match s.accessWaits true (a.ord == .sc) with
  | some h => .stop (holdLine h s)
  | none =>
    if a.ord == .sc && !(s.settled s.at_.core s.at_.clu a.scope) then .stop (holdLine .settling s)
    else match readLog s.logHere vas with
    | .hold => .stop (holdLine .sideLog s)
    | .all bs => .ok bs s
    | .no => match xlatePages a k s (pagesOf vas) with
      | .stop r => .stop r
      | .miss va mig _ s1 => .stop (holdXlate a va k mig s1)
      | .ok ps s1 =>
        let read := fun va => match entryOf ps va with | some t => s1.loadByte t va | none => blank
        if (placesOf ps vas).any s1.sealed then .stop (holdLine .sealed (s1.bounce ps))
        else if hostOrdered a ps && s1.posting s1.at_.core s1.at_.clu then .stop (holdLine .settling s1)
        else match (placesOf ps vas).find? fun p => s1.badAt p && (s1.stagedByte p).isNone with
          | some p => .stop (lineGone (s1.consumed p))
          | none => .ok (vas.map read) ((usePages ps s1).correctAt ((placesOf ps vas).filter fun p => (s1.stagedByte p).isNone))

-- Stores.
/-- The windows whose bytes a staged launch stages: HBM and the host (R403). -/
def stagedWindow (w : Nat) : Bool := w == 0 || w == 1 || w == 5

/-- A record whose staged lines of 64 bytes exceed the core's SRAM of 2 MiB and its spill aborts its launch, with a launch fault (R403). -/
def State.stageLimit (n : CoreId) (lid seq : Nat) (s : State) : State :=
  let lines := ((s.cores[n].staging.filter fun b => b.lid == lid && b.seq == seq && stagedWindow b.window).map fun b => b.pa / 64).eraseDups
  match s.launch lid with
  | some l => if lines.length > (2 + s.mc.stgsize.toNat) * 16384 then
      (s.faultRec (Fin.ofNat 64 l.asid) 0x20 0 n.val 0xFF 0xFF 0 l.tag 5 (BitVec.ofNat 64 l.idx) 0 0).abortLaunch lid else s
  | none => s

/-- The virtual address of a place of a store. -/
def Origin.va (o : Origin) (k : Nat) : Nat := match o.names.find? fun p => p.1 == k with | some p => p.2 | none => 0
/-- The grant of the page of a place of a store (R385). -/
def Origin.grant (o : Origin) (k : Nat) : Word := match o.grants.find? fun g => g.1 == o.va k / 65536 with | some g => g.2 | none => 0
/-- A byte of a store as it is staged. -/
def Origin.stage (o : Origin) (r : Nat × Nat) (c : CluId) (ord : Ord) (sc : Scope) (id : Nat) (b : Nat × Nat × Byte) : Staged :=
  ⟨r.1, r.2, c, b.2.1, b.2.2, ord, sc, o.va b.2.1, o.datum, b.1, o.asid, o.grant b.2.1, id⟩

/-- A record's write of a window is staged: its launch is a staged one, and the window HBM's or the host's (R403). -/
def State.stages (s : State) (who : Option (Nat × Nat)) (window : Nat) : Bool :=
  (match who with | some r => (s.launch r.1).any Launch.staged | none => false) && stagedWindow window

/-- The byte of a place is held with a record's staged bytes, or stands in an atomic's write behind them. -/
def State.asideAt (s : State) (n : CoreId) (who : Option (Nat × Nat)) (k : Nat) : Bool :=
  (match who with | some r => (s.cores[n]).staging.any fun b => b.lid == r.1 && b.seq == r.2 && b.pa == k | none => false) ||
    s.inflight.any fun f => s.stuck f && f.who == who && f.bytes.any fun p => p.1 == k

/-- A store's byte is kept with the record's staged bytes: R403 stages its window; or the store must follow bytes staged before it, or one that
does (R142, R145; log entry 121). -/
def State.aside (s : State) (n : CoreId) (c : CluId) (who : Option (Nat × Nat)) (a : Attr) (b : Nat × Nat × Byte) : Bool :=
  s.stages who b.1 || s.defers n c who a || s.asideAt n who b.2.1

/-- The lines of the write-staging SRAM of a core: 2 MiB in lines of 64 bytes (R403). -/
def sramLines : Nat := 32768

/-- Bytes just staged, those of the lines that the SRAM has no room for also in the core's spill, one line after the other in the order in which
they were first staged (R403; log entry 108). -/
def State.spill (n : CoreId) (bs : List Staged) (s : State) : State :=
  let lines := (((s.cores[n]).staging.filter fun b => stagedWindow b.window).map fun b => b.pa / 64).eraseDups
  let base := s.mc.stgbase.toNat + n.val * s.mc.stgsize.toNat * 1048576
  bs.foldl (fun t b =>
    let i := lines.idxOf (b.pa / 64) - sramLines
    if sramLines ≤ lines.idxOf (b.pa / 64) ∧ i < s.mc.stgsize.toNat * 16384 then t.putPhys (base + i * 64 + b.pa % 64) [b.byte] else t) s

/-- A record's bytes added to a core's staging, as one store (R403). -/
def State.stageBytes (n : CoreId) (c : CluId) (o : Origin) (ord : Ord) (sc : Scope) (bs : List (Nat × Nat × Byte)) (s : State) : State :=
  match o.who, bs with
  | some r, _ :: _ =>
    let new := bs.map (o.stage r c ord sc s.ids)
    (({ s with ids := s.ids + 1 }.coreUpd n fun k => { k with staging := k.staging ++ new }).spill n (new.filter fun b => stagedWindow b.window)).stageLimit n r.1 r.2
  | _, _ => s

/-- Bytes put in flight, one store for each window that they go through (R132, R143). -/
def launchBytes (n : CoreId) (c : CluId) (o : Origin) (a : Attr) (bs : List (Nat × Nat × Byte)) (s : State) : State :=
  (upto 6).foldl (fun t w =>
    match bs.filter fun b => b.1 == w with
    | [] => t
    | xs => let (ys, u) := dropBad t (xs.map fun b => (b.2.1, b.2.2)); if ys = [] then u else u.launchStore n c w ys a o) s

/-- The bytes of plain pages performed for a record: staged (R403), else put in flight (R143), one store in flight for each window. -/
def performStore (n : CoreId) (c : CluId) (o : Origin) (a : Attr) (bs : List (Nat × Nat × Byte)) (s : State) : State :=
  launchBytes n c o a (bs.filter fun b => !(s.aside n c o.who a b)) (s.stageBytes n c o a.ord a.scope (bs.filter fun b => s.aside n c o.who a b))

/-- The staged bytes of a record put in flight, store by store in program order of each cluster, each with the order and the scope of its access
(R404). -/
def State.drainStaged (n : CoreId) (lid seq : Nat) (s : State) : State :=
  let mine := (s.cores[n]).staging.filter fun b => b.lid == lid && b.seq == seq
  let s1 := s.coreUpd n fun k => { k with staging := k.staging.filter fun b => !(b.lid == lid && b.seq == seq) }
  (mine.map Staged.store).eraseDups.foldl (fun t id =>
    match mine.filter fun b => b.store == id with
    | [] => t
    | b :: bs =>
      let o : Origin := {
        who := some (lid, seq), names := (b :: bs).map fun x => (x.pa, x.va), datum := b.datum, asid := b.asid
        grants := (b :: bs).map fun x => (x.va / 65536, x.granted), kind := .drain, po := some id }
      launchBytes n b.clu o { ord := b.ord, scope := b.scope } ((b :: bs).map fun x => (x.window, x.pa, x.byte)) t) s1

/-- A place that a store reaches when its page is walked again: with the address that names it, under the page's entry now. -/
def renamed (ps : List (Nat × Tlb)) (f : InFlight) (k : Nat) : Nat :=
  match f.names.find? fun n => n.1 == k with
  | none => k
  | some n => match entryOf ps n.2 with
    | some t => (placeIn t n.2).2
    | none => k

/-- A virtual store in flight that no group has seen and that reaches a sealed frame is bounced: its unit walks again, and it goes where its pages
now stand (R387; log entry 132). -/
def State.reissue (s : State) (f : InFlight) : State :=
  let vas := f.names.map Prod.snd
  if f.asid = 64 ∨ f.seen ≠ 0 ∨ !(f.bytes.any fun b => s.sealed b.1) then s
  else
    let walk (r : Option (List (Nat × Tlb))) (va : Nat) : Option (List (Nat × Tlb)) := r.bind fun ps =>
      match (xlate f.core.val {} (Fin.ofNat 64 f.asid) va { s with tlb := [], wcache := [] }).1 with
      | .ok t => if t.w && decide (t.tt ≤ 5) && t.tt != 4 then some (ps ++ [(va / 65536, t)]) else none
      | _ => none
    match (pagesOf vas).foldl walk (some []) with
    | none => s
    | some ps => { s with inflight := s.inflight.map fun g => if g.id == f.id then
        { g with
          window := match ps with | p :: _ => (placeIn p.2 p.2.va).1 | [] => g.window
          bytes := g.bytes.map fun b => (renamed ps g b.1, b.2)
          names := g.names.map fun n => (renamed ps g n.1, n.2) } else g }

/-- The stores in flight bounced from sealed frames, and then every one that may becomes visible. -/
def State.drainAll (s : State) : State := (s.inflight.foldl State.reissue s).drain

/-- What stops a checked store (R159). -/
inductive Refused where
  | notMonotone (va old new : Nat)
  | access (va : Nat)
  | align (va : Nat)

/-- The cells of a lattice page that some bytes cover: cell base and the value to store, `none` where the cell is covered in part. -/
def cellsOf (size : Nat) (bs : List (Nat × Byte)) : List (Nat × Option Nat) :=
  ((bs.map fun b => b.1 / size * size).eraseDups).map fun c =>
    let xs := (upto size).map fun i => lastWrite (c + i) bs
    (c, if xs.all Option.isSome then some (leNat (xs.map fun x => x.getD 0)) else none)

/-- A value joined at the local replica of die 0 (R158, R162): with SC, at every replica of the package at once (log entry 39). -/
def joinCell (slot off lt : Nat) (sc : Bool) (v : Nat) (s : State) : State :=
  if sc then (upto 10).foldl (fun s d => s.latJoinAt d slot off lt v) s else s.latJoinAt 0 slot off lt v

/-- The release LJOINs of a record that waited for its staged bytes applied to their cells (R162, R404). -/
def State.applyJoins (n : CoreId) (lid seq : Nat) (s : State) : State :=
  let mine (j : StagedJoin) : Bool := j.lid == lid && j.seq == seq
  ((s.cores[n]).joins.filter mine).foldl (fun t j => joinCell j.slot j.off j.ltype j.sc j.val t)
    (s.coreUpd n fun k => { k with joins := k.joins.filter fun j => !(mine j) })

/-- A port over which system exchange runs: up, to a neighbour whose compute is present (R419, R428). -/
def Island.meets (i : Island) (k : PortId) : Bool := i.state == .attached && i.ports[k].lstate == 2 && i.ports[k].ncpres
/-- Replicas of a system-scope slot on other packages are present (R157, R162). -/
def State.reaches (s : State) (slot : Nat) : Bool := (s.slotRec slot).any SlotRec.lscope && (List.finRange 8).any s.island.meets

/-- A join of the acting cluster for a record (R158, R162): where it must follow bytes that the record has staged, it is kept until those have
drained (log entry 100); with SC, a cell of a system-scope slot has still to reach the other packages (log entry 39). -/
def joinOrDefer (who : Option (Nat × Nat)) (a : Attr) (slot off lt v : Nat) (s : State) : State :=
  let sc := a.ord == .sc
  match who, s.defers s.at_.core s.at_.clu who a with
  | some r, true => s.onCore fun k => { k with joins := k.joins ++ [⟨r.1, r.2, s.at_.clu, slot, off, lt, sc, v⟩] }
  | _, _ => joinCell slot off lt sc v (if sc && s.reaches slot then s.onClu fun c => { c with scOut := c.scOut ++ [(slot, off)] } else s)

/-- Cells checked and stored in increasing address; those before a faulting cell are stored (R159). A checked value is the cell's join with
what the cell holds, so it is stored as the join is. -/
def checkedCells (who : Option (Nat × Nat)) (t : Tlb) (a : Attr) (s : State) : List (Nat × Option Nat) → State × Option Refused
  | [] => (s, none)
  | (va, none) :: _ => (s, some (.access va))
  | (va, some v) :: cs =>
    let lt := t.ltype.toNat
    let pa := (placeIn t va).2
    let slot := (pa - latBase) / 65536
    let off := (pa - latBase) % 65536
    let old := s.cellSeen slot off lt
    if latJoin lt old v = v then checkedCells who t a (joinOrDefer who a slot off lt v s) cs
    else (s, some (.notMonotone va old v))

/-- What the operand form and the alignment to the cell refuse of a checked store in one lattice page (R159, R231). -/
def storeForm (f : StForm) (t : Tlb) (bs : List (Nat × Byte)) : Option Refused :=
  let size := latSize t.ltype.toNat
  let first := (bs.headD (0, 0)).1
  match f with
  | .elements => some (.access first)
  | .nibbles => some (.access first)
  | .scalar => if bs.length ≠ 8 ∨ size ≠ 8 then some (.access first) else none
  | .vector => if first % size ≠ 0 then some (.align first) else none
  | .masked => none

/-- The first thing that a page's type refuses of a store, whatever its cells hold: a form, an alignment, a cell covered in part. -/
def formRefused (f : StForm) (ps : List (Nat × Tlb)) (bs : List (Nat × Byte)) : Option Refused :=
  ps.foldl (fun r q => match r with
    | some x => some x
    | none =>
      let here := bs.filter fun b => b.1 / 65536 == q.1
      if q.2.tt ≠ 4 then none
      else match storeForm f q.2 here with
        | some x => some x
        | none => ((cellsOf (latSize q.2.ltype.toNat) here).find? fun c => c.2.isNone).map fun c => .access c.1) none

/-- A checked store's bytes in one lattice page: the operand form and the alignment to the cell first (R159, R231). -/
def latticeStore (f : StForm) (who : Option (Nat × Nat)) (t : Tlb) (a : Attr) (bs : List (Nat × Byte)) (s : State) : State × Option Refused :=
  match storeForm f t bs with
  | some r => (s, some r)
  | none => checkedCells who t a s (cellsOf (latSize t.ltype.toNat) bs)

/-- The lattice pages of a store, in order. -/
def latticePages (f : StForm) (who : Option (Nat × Nat)) (a : Attr) (bs : List (Nat × Byte)) (s : State) : List (Nat × Tlb) → State × Option Refused
  | [] => (s, none)
  | (p, t) :: ps =>
    if t.tt = 4 then
      match latticeStore f who t a (bs.filter fun b => b.1 / 65536 == p) s with
      | (s1, none) => latticePages f who a bs s1 ps
      | r => r
    else latticePages f who a bs s ps

/-- The bytes of pages that are not lattice pages, by window and place. -/
def plainBytes (ps : List (Nat × Tlb)) (bs : List (Nat × Byte)) : List (Nat × Nat × Byte) :=
  bs.filterMap fun b => match entryOf ps b.1 with
    | some t => if t.tt = 4 then none else let p := placeIn t b.1; some (p.1, p.2, b.2)
    | none => none

/-- Where a store's bytes go under its pages' translations, each with its virtual address: for whom, from which datum on, in which space. -/
def originOf (who : Option (Nat × Nat)) (d : Word) (asid : Nat) (kind : StoreKind) (ps : List (Nat × Tlb)) (vas : List Nat) : Origin :=
  { who := who, names := vas.filterMap fun a => (entryOf ps a).map fun t => ((placeIn t a).2, a), datum := d, asid := asid
    grants := ps.map fun p => (p.1, p.2.granted), kind := kind }

/-- The bytes that a nibble store leaves: the high nibble as it stands (R237). -/
def mergeNibbles (s : State) (who : Option (Nat × Nat)) (bs : List (Nat × Nat × Byte)) : List (Nat × Nat × Byte) :=
  bs.map fun b =>
    let old := match s.stagedOf who b.2.1 with | some x => x | none => s.readByte s.obs b.1 b.2.1
    (b.1, b.2.1, (old &&& 0xF0) ||| (b.2.2 &&& 0x0F))

/-- A store performed over its translated pages (R159, R403): the lattice cells first, and every other byte once they pass. -/
def performPages (n : CoreId) (c : CluId) (o : Origin) (f : StForm) (a : Attr) (ps : List (Nat × Tlb)) (bs : List (Nat × Byte)) (s : State) :
    State × Option Refused :=
  match latticePages f o.who a bs s ps with
  | (s1, none) => (performStore n c o a (if f = .nibbles then mergeNibbles s1 o.who (plainBytes ps bs) else plainBytes ps bs) s1, none)
  | r => r

/-- An access to some addresses meets bytes that the acting cluster's side log names (R142, R232). -/
def State.meetsLog (s : State) (vas : List Nat) : Bool := match readLog s.logHere vas with | .no => false | _ => true

/-- The origin of a store of the running line. -/
def State.origin (s : State) (ps : List (Nat × Tlb)) (vas : List Nat) : Origin :=
  originOf s.runKey s.datum (s.attr.space s.asid.val) .line ps vas

/-- THE STORE (R231, R232, R159, R403): a translation miss retires into the side log, but holds where the page is a migrating lattice page; a
release or SC store waits for the side log, and every store for the logged accesses to its bytes (R142); a lattice page takes checked stores,
which wait for the acquires before them; every other byte goes to staging or into flight. -/
def storeBytes (f : StForm) (bs : List (Nat × Byte)) (s : State) : Res :=
  let a := s.attr
  let vas := bs.map Prod.fst
  if !(s.aspAllowed a) || a.ord == .acq || a.ord == .ar then illegalOp 1 s
  else match s.accessWaits false a.releases with
  | some h => holdLine h s
  | none => match xlatePages a .store s (pagesOf vas) with
    | .stop r => r
    | .miss va mig lat s1 => if lat then holdXlate a va .store mig s1 else logStore (.store f bs) a va mig s1
    | .ok ps s1 =>
      let lattice := ps.any fun p => p.2.tt == 4
      if s1.meetsLog vas then holdLine .sideLog s1
      else if (placesOf ps vas).any s1.sealed then holdLine .sealed (s1.bounce ps)
      else if lattice && ((a.releases && !(s1.settled s1.at_.core s1.at_.clu a.scope)) || s1.acquiring s1.at_.core s1.at_.clu) then holdLine .settling s1
      else match performPages s1.at_.core s1.at_.clu (s1.origin ps vas) f a ps bs (usePages ps s1) with
        | (s2, none) => .next s2
        | (s2, some (.notMonotone va old new)) =>
          lineTrap { cause := 0x06, a0 := BitVec.ofNat 64 va, a1 := BitVec.ofNat 64 old, a2 := BitVec.ofNat 64 new } s2
        | (s2, some (.access va)) => pageFault .accessType va .store s2
        | (s2, some (.align va)) => pageFault .alignment va .store s2

/-- The line commits now: what it waited for has been decided. -/
def State.passed (s : State) : Bool := s.clu.hold == .passed

/-- A wait (R222): the line holds until a condition is met, and completes where it stands met or has been. -/
def waitFor (h : Hold) (met : Bool) (s : State) (k : Res) : Res := if s.passed || met then k else holdLine h s

/-- What waits for the acting cluster's side log (R153): until it is empty, and until what it replayed is performed. -/
def afterLog (s : State) (k : Res) : Res :=
  waitFor .sideLog (s.clu.slog == []) s (waitFor .settling (s.replayed s.at_.core s.at_.clu) s k)

/-- What a release at a scope waits for (R145, R153): the side log, then every access before it performed at the scope. -/
def releaseAt (sc : Scope) (s : State) (k : Res) : Res :=
  afterLog s (waitFor .settling (s.settled s.at_.core s.at_.clu sc) s k)

end Sys2Proof.Machine
end

