-- ==== Sys2Proof/Machine/Flags.lean ====
section
/-!
DEFINITION. Floating-point flags: raising them into FPSTAT (R79, R80), pending exceptions (R81), the identifier that a report names and
its trap (R82), and the engine side of both.
-/
namespace Sys2Proof.Machine

/-- Flags raised, to stand in FPSTAT of the running context from the end of the cycle (R80); a clear in the same cycle does not undo
them. -/
def raise (fl : FpFlags) (s : State) : State := s.onCore fun k => { k with fpSetNow := k.fpSetNow ||| fl }

/-- The flags whose trap NUMCTL enables: its low five bits are in FPSTAT's order (R67, R79). -/
def trapEnables (numctl : Word) : FpFlags := BitVec.ofNat 7 (numctl.toNat % 32)

/-- The identity of the running record. -/
def State.runWid (s : State) : Word := match s.core.run with | some r => r.wid | none => 0

/-- The pending exceptions of an instruction's elements, by lane: those that raised an enabled flag (R81). -/
def pendingOf (wid : Word) (iter : List Nat) (col : Bool) (en : FpFlags) (fs : List (Nat × FpFlags)) : List PendEx :=
  fs.filterMap fun p => if p.2 &&& en = 0 then none else some ⟨wid, iter, col, p.1, p.2, p.2 &&& en⟩

/-- The elements of a vector instruction raise their flags, each with its lane (R80, R81, R261); exceptions become pending as the cycle ends. -/
def raiseLanes (fs : List (Nat × FpFlags)) (s : State) : State :=
  let all := fs.foldl (fun a p => a ||| p.2) (0 : FpFlags)
  let new := pendingOf s.runWid s.clu.iters false (trapEnables s.core.numctl) fs
  let s1 := if all = 0 then s else raise all s
  if new = [] then s1 else s1.onCore fun k => { k with exNow := k.exNow ++ new.map fun p => (s.at_.clu, p) }

/-- FPSTAT.PEND: the flag bits pending delivery in some cluster; SAT and EMPTY read zero (R79). -/
def Core.pendBits (k : Core) : FpFlags :=
  ((vlist k.clu).flatMap Cluster.pendEx).foldl (fun a p => a ||| (p.enabled &&& 0x1F)) 0

/-- FPSTAT as MFK reads it (R79). -/
def Core.fpstatRead (k : Core) : Word := (k.fpstat &&& 0x7F) ||| (k.pendBits.setWidth 64 <<< 8)

/-- The order of iteration vectors: a proper prefix ranks lower (R82). -/
def iterLt : List Nat → List Nat → Bool
  | [], [] => false
  | [], _ :: _ => true
  | _ :: _, [] => false
  | a :: as, b :: bs => decide (a < b) || (a == b && iterLt as bs)

/-- The order of logical identifiers: WID, iteration vector, lanes before columns, lane or column (R82). -/
def PendEx.lt (a b : PendEx) : Bool :=
  decide (a.wid.toNat < b.wid.toNat) || (a.wid == b.wid && (iterLt a.iter b.iter || (a.iter == b.iter &&
    ((!a.col && b.col) || (a.col == b.col && decide (a.pos < b.pos))))))

/-- The same element: equal identifiers. -/
def PendEx.same (a b : PendEx) : Bool := a.wid == b.wid && a.iter == b.iter && a.col == b.col && a.pos == b.pos

/-- The pending exception whose identifier is lowest (R82). -/
def lowest : List PendEx → Option PendEx
  | [] => none
  | p :: ps => match lowest ps with
    | none => some p
    | some q => if q.lt p then some q else some p

/-- The floating-point trap's record (R82, R328). -/
def fpTrapRec (ps : List PendEx) (p : PendEx) : TrapRec :=
  let el := (ps.filter fun q => q.same p).foldl (fun a q => a ||| q.flags) (0 : FpFlags)
  let all := ps.foldl (fun a q => a ||| q.enabled) (0 : FpFlags)
  { cause := 0x0C, a0 := p.wid,
    a1 := BitVec.ofNat 64 (el.toNat + 256 * all.toNat + (if p.col then 32768 else 0) + p.pos % 65536 * 65536 + p.iter.length % 16 * 4294967296) }

/-- Delivery of the pending exceptions before a delivering instruction takes effect (R81, R82): the trap of cause 0x0C at its line, and
every pending exception of the cluster cleared. TRAPIT holds the reported element's iteration vector (log entry 18). -/
def deliverFp (s : State) (k : Res) : Res :=
  match lowest s.clu.pendEx with
  | none => k
  | some p =>
    let was := s.clu.hm
    let t := fpTrapRec s.clu.pendEx p
    let s1 := takeTrap t (lineAddr s.at_.clu s.clu.pc) (s.onClu fun c => { c with pendEx := [] })
    .next (if !was && s.core.tvec.getLsbD 0 then
      s1.onClu fun c => { c with trapit := Vector.ofFn fun i => BitVec.ofNat 64 (p.iter.getD i.val 0) } else s1)

/-- A delivering instruction's pending exceptions come first, unless the line already commits (R81). -/
def delivering (s : State) (k : Res) : Res := if s.passed then k else deliverFp s k

-- Engines (R70, R80, R81).
/-- The running command of the acting engine raises flags, with a column for those that have one; they are held until END. -/
def raiseCols (fs : List (Nat × FpFlags)) (s : State) : State :=
  s.onEng fun e => { e with cmd := e.cmd.map fun c =>
    { c with
      flags := fs.foldl (fun a p => a ||| p.2) c.flags
      pend := c.pend ++ pendingOf c.spec.wid c.spec.iter true (trapEnables c.spec.numctl) fs } }

end Sys2Proof.Machine
end

