-- ==== Sys2Proof/WellFormed.lean ====
section
/-!
DEFINITION. The checks on an instruction's operands that its types do not already make: each is named, and each is a static ground of
the illegal-operation trap (R196), whatever the syllable's condition.
-/
namespace Sys2Proof

/-- Why an instruction is ill-formed. -/
inductive IllFormed where
  /-- EXT, EXTU, INS with pos + width above 64 (R203). -/
  | fieldBeyondWord
  /-- FORKC with an empty mask (R212). -/
  | emptyForkMask
  /-- CAS2 whose d is odd or zero, or whose b is odd (R246). -/
  | badScalarPair
  /-- VCMP or VICMP naming an element that the type does not hold (R264, R270). -/
  | noSuchElement
  /-- VGMAX, VGSUM with group exponent 0 (R274). -/
  | badGroup
  /-- A pair named at v47 (R256). -/
  | pairBeyondV47
  /-- VBSR whose d is its c (R278). -/
  | cursorIsDestination
  /-- VCVT with a second source that its selector does not take, or without one that it takes (R284). -/
  | badSecondSource
  deriving DecidableEq, Repr

/-- The elements per lane of an integer type (R257). -/
def ITy.elems : ITy → Nat
  | .w32 => 1
  | .w16 => 2
  | .w8 => 4

/-- The VCVT selectors that take a second source (R284). -/
def vcvtTwoSource (sel : Nat) : Bool :=
  sel < 2 || (0x0C ≤ sel && sel ≤ 0x0F) || (0x18 ≤ sel && sel ≤ 0x1B)

/-- The first ground on which an instruction is ill-formed, if any. -/
def wfCheck : Instr → Option IllFormed
  | .ext _ _ _ p n => if p.val + n.val + 1 > 64 then some .fieldBeyondWord else none
  | .extu _ _ _ p n => if p.val + n.val + 1 > 64 then some .fieldBeyondWord else none
  | .ins _ _ _ p n => if p.val + n.val + 1 > 64 then some .fieldBeyondWord else none
  | .forkc _ mask _ => if mask = 0 then some .emptyForkMask else none
  | .cas2 _ d _ b => if d.val % 2 = 1 ∨ d.val = 0 ∨ b.val % 2 = 1 then some .badScalarPair else none
  | .vcmp _ ty _ e1 _ _ _ => if ty = .f32 ∧ e1 = true then some .noSuchElement else none
  | .vicmp _ ty _ e _ _ _ => if e.val < ty.elems then none else some .noSuchElement
  | .vgmax _ _ _ _ _ n => if n.val = 0 then some .badGroup else none
  | .vgsum _ _ _ _ _ n => if n.val = 0 then some .badGroup else none
  | .vbsr _ d _ b c => if b.val = 47 then some .pairBeyondV47 else if d = c then some .cursorIsDestination else none
  | .vbsw _ d _ _ _ => if d.val = 47 then some .pairBeyondV47 else none
  | .vzip _ _ d _ _ => if d.val = 47 then some .pairBeyondV47 else none
  | .vunzip _ _ d _ _ => if d.val = 47 then some .pairBeyondV47 else none
  | .vcvt _ sel _ _ b => if b.isSome = vcvtTwoSource sel.val then none else some .badSecondSource
  | _ => none

/-- An instruction is well-formed when no check names a ground against it. -/
def Instr.wf (i : Instr) : Bool := (wfCheck i).isNone

end Sys2Proof
end

