-- ==== Sys2Proof/Decode.lean ====
section
/-!
DEFINITION. Decoding of lines (R182 to R192) and of stream words (R193, R194), total on any bits, with every rejection named; and the
encoder, written from the same tables of the spec.
-/
namespace Sys2Proof

/-- Why a syllable or a stream word names no instruction (R180, R181, R187, R189, R194, R196). -/
inductive DecErr where
  | unassignedOpcode
  | unusedField
  | reservedCode
  | wrongClass
  | discardNotAllowed
  | numberOutOfRange
  | reservedKind
  | reservedType
  | reservedSelector
  | reservedOrder
  | reservedEngine
  | reservedAttribute
  | illFormed (r : IllFormed)
  | reservedClass
  | unassignedWord
  | argumentOutOfLimits
  deriving DecidableEq, Repr

/-- A decoding: an instruction or the name of the rejection. -/
abbrev Dec (α : Type) := Except DecErr α

/-- `some` to `ok`, `none` to the named error. -/
def orErr {α : Type} (e : DecErr) : Option α → Dec α
  | some a => .ok a
  | none => .error e

/-- A field that must be zero (R187). -/
def zeroField (n : Nat) : Dec Unit := if n = 0 then .ok () else .error .unusedField

-- The fields of a 40-bit syllable (R185), as numbers.
def opOf (w : Nat) : Nat := w / 4294967296 % 256
def fD (w : Nat) : Nat := w / 33554432 % 128
def fA (w : Nat) : Nat := w / 262144 % 128
def fB (w : Nat) : Nat := w / 2048 % 128
def fC (w : Nat) : Nat := w / 16 % 128
def fQ (w : Nat) : Fin 16 := ⟨w % 16, Nat.mod_lt _ (by decide)⟩
def fI14 (w : Nat) : Nat := w / 16 % 16384
def fI21 (w : Nat) : Nat := w / 16 % 2097152
def fOff24 (w : Nat) : Nat := w / 256 % 16777216
def fAux (w : Nat) : Nat := w / 16 % 16
def fMode (w : Nat) : Nat := w / 131072 % 2
def fOff9 (w : Nat) : Nat := w / 256 % 512
def fIdx (w : Nat) : Nat := w / 1024 % 128
def fIdxZ (w : Nat) : Nat := w / 256 % 4
def fKind (w : Nat) : Nat := w / 16 % 16
def fHandle (w : Nat) : Nat := w / 32768 % 1024
def fRow (w : Nat) : Nat := w / 256 % 128
def fTKind (w : Nat) : Nat := w / 32 % 8
def fHR (w : Nat) : Nat := w / 16 % 2
def fVD (w : Nat) : Nat := w / 67108864 % 64
def fVA (w : Nat) : Nat := w / 524288 % 128
def fVB (w : Nat) : Nat := w / 4096 % 128
def fVC (w : Nat) : Nat := w / 64 % 64
def fTy (w : Nat) : Nat := w / 16 % 4

-- The formats of R185, packed.
def pkFA (op d a b c q : Nat) : Nat := op * 4294967296 + d * 33554432 + a * 262144 + b * 2048 + c * 16 + q
def pkFI (op d a i q : Nat) : Nat := op * 4294967296 + d * 33554432 + a * 262144 + i * 16 + q
def pkFL (op d i q : Nat) : Nat := op * 4294967296 + d * 33554432 + i * 16 + q
def pkFB (op off aux q : Nat) : Nat := op * 4294967296 + off * 256 + aux * 16 + q
/-- Format FM; `m` is bits [17:8]: the mode and what it selects. -/
def pkFM (op d base m k q : Nat) : Nat := op * 4294967296 + d * 33554432 + base * 262144 + m * 256 + k * 16 + q
def pkFT (op d h row k hr q : Nat) : Nat :=
  op * 4294967296 + d * 33554432 + h * 32768 + row * 256 + k * 32 + hr * 16 + q
def pkFE (op e f a b d r w : Nat) : Nat :=
  op * 4294967296 + e * 134217728 + f * 1048576 + a * 16384 + b * 256 + d * 4 + r * 2 + w
def pkFV (op d a b c ty q : Nat) : Nat :=
  op * 4294967296 + d * 67108864 + a * 524288 + b * 4096 + c * 64 + ty * 16 + q

-- Operand codes (R180, R181).
def encS (r : SReg) : Nat := r.val
def decS (n : Nat) : Dec SReg :=
  if h : n < 64 then .ok ⟨n, h⟩
  else if n = 127 then .error .discardNotAllowed else if n < 120 then .error .wrongClass else .error .reservedCode
def encSDst : SDst → Nat
  | some r => r.val
  | none => 127
def decSDst (n : Nat) : Dec SDst :=
  if h : n < 64 then .ok (some ⟨n, h⟩)
  else if n = 127 then .ok none else if n < 120 then .error .wrongClass else .error .reservedCode
def encVCode (r : VReg) : Nat := 64 + r.val
def decVCode (n : Nat) : Dec VReg :=
  if h : 64 ≤ n ∧ n < 112 then .ok ⟨n - 64, by omega⟩
  else if n = 127 then .error .discardNotAllowed else if n < 120 then .error .wrongClass else .error .reservedCode
def encMCode (r : MReg) : Nat := 112 + r.val
def decMCode (n : Nat) : Dec MReg :=
  if h : 112 ≤ n ∧ n < 120 then .ok ⟨n - 112, by omega⟩
  else if n = 127 then .error .discardNotAllowed else if n < 112 then .error .wrongClass else .error .reservedCode
def encVOrS : VOrS → Nat
  | .v r => 64 + r.val
  | .s r => r.val
def decVOrS (n : Nat) : Dec VOrS :=
  if h : n < 64 then .ok (.s ⟨n, h⟩)
  else if h : 64 ≤ n ∧ n < 112 then .ok (.v ⟨n - 64, by omega⟩)
  else if n = 127 then .error .discardNotAllowed else if n < 120 then .error .wrongClass else .error .reservedCode
def encVSDst : VSDst → Nat
  | .v r => 64 + r.val
  | .s r => r.val
  | .discard => 127
def decVSDst (n : Nat) : Dec VSDst :=
  if h : n < 64 then .ok (.s ⟨n, h⟩)
  else if h : 64 ≤ n ∧ n < 112 then .ok (.v ⟨n - 64, by omega⟩)
  else if n = 127 then .ok .discard else if n < 120 then .error .wrongClass else .error .reservedCode
def decFin (k : Nat) (e : DecErr) (n : Nat) : Dec (Fin k) := if h : n < k then .ok ⟨n, h⟩ else .error e
def decP (n : Nat) : Dec PReg := decFin 16 .numberOutOfRange n
def decVNum (n : Nat) : Dec VReg := decFin 48 .numberOutOfRange n
def decMNum (n : Nat) : Dec MReg := decFin 8 .numberOutOfRange n

-- Codes of the named alternatives.
def condCode : Cond → Nat
  | .eq => 0 | .ne => 1 | .lt => 2 | .ge => 3 | .ltu => 4 | .geu => 5 | .tz => 6 | .tnz => 7
def condOf : Nat → Option Cond
  | 0 => some .eq | 1 => some .ne | 2 => some .lt | 3 => some .ge | 4 => some .ltu | 5 => some .geu | 6 => some .tz | 7 => some .tnz
  | _ => none
def ldKindCode : LdKind → Nat
  | .n8 => 0 | .i8 => 1 | .n16 => 2 | .i16 => 3 | .n32 => 4 | .i32 => 5 | .d64 => 6
def ldKindOf : Nat → Option LdKind
  | 0 => some .n8 | 1 => some .i8 | 2 => some .n16 | 3 => some .i16 | 4 => some .n32 | 5 => some .i32 | 6 => some .d64
  | _ => none
def stKindCode : StKind → Nat
  | .b8 => 0 | .h16 => 2 | .w32 => 4 | .d64 => 6
def stKindOf : Nat → Option StKind
  | 0 => some .b8 | 2 => some .h16 | 4 => some .w32 | 6 => some .d64
  | _ => none
def vKindCode : VKind → Nat
  | .w32 => 0 | .h16z => 1 | .h16s => 2 | .b8z => 3 | .b8s => 4 | .h16h => 5 | .n4z => 6 | .n4s => 7
def vKindOf : Nat → Option VKind
  | 0 => some .w32 | 1 => some .h16z | 2 => some .h16s | 3 => some .b8z | 4 => some .b8s | 5 => some .h16h | 6 => some .n4z
  | 7 => some .n4s
  | _ => none
def vLdKindCode : VLdKind → Nat
  | .plain k => vKindCode k
  | .unpk n => 12 + n.val
def vLdKindOf (n : Nat) : Option VLdKind :=
  if h : 12 ≤ n ∧ n < 16 then some (.unpk ⟨n - 12, by omega⟩) else (vKindOf n).map .plain
def vStKindCode : VStKind → Nat
  | .w32 => 0 | .h16 => 1 | .b8 => 3 | .h16h => 5 | .n4 => 6
def vStKindOf : Nat → Option VStKind
  | 0 => some .w32 | 1 => some .h16 | 3 => some .b8 | 5 => some .h16h | 6 => some .n4
  | _ => none
def tKindCode : TKind → Nat
  | .b512 => 0 | .b256 => 1 | .b128 => 2
def tKindOf : Nat → Option TKind
  | 0 => some .b512 | 1 => some .b256 | 2 => some .b128
  | _ => none
def amoCode : AmoOp → Nat
  | .swap => 0 | .add => 1 | .and => 2 | .or => 3 | .xor => 4 | .min => 5 | .max => 6 | .minu => 7 | .maxu => 8
def amoOf : Nat → Option AmoOp
  | 0 => some .swap | 1 => some .add | 2 => some .and | 3 => some .or | 4 => some .xor | 5 => some .min | 6 => some .max
  | 7 => some .minu | 8 => some .maxu
  | _ => none
def ordCode : Ord → Nat
  | .rlx => 0 | .acq => 1 | .rel => 2 | .ar => 3 | .sc => 4
def ordOf : Nat → Option Ord
  | 0 => some .rlx | 1 => some .acq | 2 => some .rel | 3 => some .ar | 4 => some .sc
  | _ => none
def scopeCode : Scope → Nat
  | .cl => 0 | .core => 1 | .pkg => 2 | .sys => 3
def scopeOf : Nat → Option Scope
  | 0 => some .cl | 1 => some .core | 2 => some .pkg | 3 => some .sys
  | _ => none
def cpolCode : CPol → Nat
  | .norm => 0 | .strm => 1 | .evict => 2
def cpolOf : Nat → Option CPol
  | 0 => some .norm | 1 => some .strm | 2 => some .evict
  | _ => none
def aspCode : Asp → Nat
  | .ctx => 0 | .drv => 1 | .phys => 2
def aspOf : Nat → Option Asp
  | 0 => some .ctx | 1 => some .drv | 2 => some .phys
  | _ => none
def fenceOrdCode : FenceOrd → Nat
  | .acq => 1 | .rel => 2 | .ar => 3
def fenceOrdOf : Nat → Option FenceOrd
  | 1 => some .acq | 2 => some .rel | 3 => some .ar
  | _ => none
def fTyCode : FTy → Nat
  | .f32 => 0 | .bf16x2 => 1 | .f16x2 => 2
def fTyOf : Nat → Option FTy
  | 0 => some .f32 | 1 => some .bf16x2 | 2 => some .f16x2
  | _ => none
def iTyCode : ITy → Nat
  | .w32 => 0 | .w16 => 1 | .w8 => 2
def iTyOf : Nat → Option ITy
  | 0 => some .w32 | 1 => some .w16 | 2 => some .w8
  | _ => none
def rTyCode : RTy → Nat
  | .f32 => 0 | .i32 => 1 | .n32 => 2
def rTyOf : Nat → Option RTy
  | 0 => some .f32 | 1 => some .i32 | 2 => some .n32
  | _ => none
def fCondCode : FCond → Nat
  | .eq => 0 | .ne => 1 | .lt => 2 | .le => 3 | .gt => 4 | .ge => 5 | .un => 6 | .ord => 7
def fCondOf : Nat → Option FCond
  | 0 => some .eq | 1 => some .ne | 2 => some .lt | 3 => some .le | 4 => some .gt | 5 => some .ge | 6 => some .un | 7 => some .ord
  | _ => none
def iCondCode : ICond → Nat
  | .eq => 0 | .ne => 1 | .lt => 2 | .ge => 3 | .ltu => 4 | .geu => 5 | .le => 6 | .leu => 7
def iCondOf : Nat → Option ICond
  | 0 => some .eq | 1 => some .ne | 2 => some .lt | 3 => some .ge | 4 => some .ltu | 5 => some .geu | 6 => some .le | 7 => some .leu
  | _ => none
def mOpCode : MOp → Nat
  | .and => 0 | .or => 1 | .xor => 2 | .andn => 3 | .orn => 4 | .nand => 5 | .nor => 6 | .xnor => 7
def mOpOf : Nat → Option MOp
  | 0 => some .and | 1 => some .or | 2 => some .xor | 3 => some .andn | 4 => some .orn | 5 => some .nand | 6 => some .nor
  | 7 => some .xnor
  | _ => none
def mSelCode : MSel → Nat
  | .cnt => 0 | .lo => 1 | .hi => 2
def mSelOf : Nat → Option MSel
  | 0 => some .cnt | 1 => some .lo | 2 => some .hi
  | _ => none
def mxCode : MxFmt → Nat
  | .mx4 => 0 | .mx6 => 1 | .mx8 => 2
def mxOf : Nat → Option MxFmt
  | 0 => some .mx4 | 1 => some .mx6 | 2 => some .mx8
  | _ => none
def packCode : PackSel → Nat
  | .i32i16 => 0 | .n32n16 => 1 | .i16i8 => 2 | .n16n8 => 3
def packOf : Nat → Option PackSel
  | 0 => some .i32i16 | 1 => some .n32n16 | 2 => some .i16i8 | 3 => some .n16n8
  | _ => none
def keyCode : Key → Nat
  | .n8 => 0 | .n16 => 1 | .n32 => 2 | .n64 => 3 | .i8 => 4 | .i16 => 5 | .i32 => 6 | .i64 => 7 | .fp16 => 8 | .bf16 => 9
  | .fp32 => 10
def keyOf : Nat → Option Key
  | 0 => some .n8 | 1 => some .n16 | 2 => some .n32 | 3 => some .n64 | 4 => some .i8 | 5 => some .i16 | 6 => some .i32
  | 7 => some .i64 | 8 => some .fp16 | 9 => some .bf16 | 10 => some .fp32
  | _ => none
def collCode : CollOp → Nat
  | .add => 0 | .max => 1 | .affine => 2
def collOf : Nat → Option CollOp
  | 0 => some .add | 1 => some .max | 2 => some .affine
  | _ => none
def fnFmtCode : FnFmt → Nat
  | .fp32 => 0 | .bf16 => 1 | .fp16 => 2
def fnFmtOf : Nat → Option FnFmt
  | 0 => some .fp32 | 1 => some .bf16 | 2 => some .fp16
  | _ => none
def qntCode : QntLen → Nat
  | .l32 => 0 | .l768 => 1 | .l1024 => 2 | .l1536 => 3
def qntOf : Nat → Option QntLen
  | 0 => some .l32 | 1 => some .l768 | 2 => some .l1024 | 3 => some .l1536
  | _ => none
def bit (b : Bool) : Nat := if b then 1 else 0

-- The operand forms: each a decoder and its encoder (R185, R190 to R192).
def decNop (w : Nat) : Dec Instr := do zeroField (w % 4294967296); pure .nop

def decRrr (mk : PReg → SDst → SReg → SReg → Instr) (w : Nat) : Dec Instr := do
  let d ← decSDst (fD w); let a ← decS (fA w); let b ← decS (fB w); zeroField (fC w)
  pure (mk (fQ w) d a b)
def encRrr (op : Nat) (q : PReg) (d : SDst) (a b : SReg) : Nat := pkFA op (encSDst d) a.val b.val 0 q.val
def decRri (mk : PReg → SDst → SReg → BitVec 14 → Instr) (w : Nat) : Dec Instr := do
  let d ← decSDst (fD w); let a ← decS (fA w)
  pure (mk (fQ w) d a (BitVec.ofNat 14 (fI14 w)))
def encRri (op : Nat) (q : PReg) (d : SDst) (a : SReg) (i : BitVec 14) : Nat := pkFI op (encSDst d) a.val i.toNat q.val
def decRrrr (mk : PReg → SDst → SReg → SReg → SReg → Instr) (w : Nat) : Dec Instr := do
  let d ← decSDst (fD w); let a ← decS (fA w); let b ← decS (fB w); let c ← decS (fC w)
  pure (mk (fQ w) d a b c)
def encRrrr (op : Nat) (q : PReg) (d : SDst) (a b c : SReg) : Nat := pkFA op (encSDst d) a.val b.val c.val q.val
def decRrrp (mk : PReg → SDst → SReg → SReg → PReg → Instr) (w : Nat) : Dec Instr := do
  let d ← decSDst (fD w); let a ← decS (fA w); let b ← decS (fB w); let c ← decP (fC w)
  pure (mk (fQ w) d a b c)
def encRrrp (op : Nat) (q : PReg) (d : SDst) (a b : SReg) (c : PReg) : Nat := pkFA op (encSDst d) a.val b.val c.val q.val
def decRr (mk : PReg → SDst → SReg → Instr) (w : Nat) : Dec Instr := do
  let d ← decSDst (fD w); let a ← decS (fA w); zeroField (fB w); zeroField (fC w)
  pure (mk (fQ w) d a)
def encRr (op : Nat) (q : PReg) (d : SDst) (a : SReg) : Nat := pkFA op (encSDst d) a.val 0 0 q.val
def decLi (mk : PReg → SDst → BitVec 21 → Instr) (w : Nat) : Dec Instr := do
  let d ← decSDst (fD w)
  pure (mk (fQ w) d (BitVec.ofNat 21 (fI21 w)))
def encLi (op : Nat) (q : PReg) (d : SDst) (i : BitVec 21) : Nat := pkFL op (encSDst d) i.toNat q.val
/-- LIH's destination may be discarded (R197, R202; log entry 20). -/
def decLih (mk : PReg → SDst → BitVec 16 → Instr) (w : Nat) : Dec Instr := do
  let d ← decSDst (fD w); zeroField (fI21 w / 65536)
  pure (mk (fQ w) d (BitVec.ofNat 16 (fI21 w)))
def encLih (op : Nat) (q : PReg) (d : SDst) (i : BitVec 16) : Nat := pkFL op (encSDst d) i.toNat q.val
def decExt (mk : PReg → SDst → SReg → Fin 64 → Fin 64 → Instr) (w : Nat) : Dec Instr := do
  let d ← decSDst (fD w); let a ← decS (fA w); zeroField (fI14 w / 4096)
  pure (mk (fQ w) d a (Fin.ofNat 64 (fI14 w / 64)) (Fin.ofNat 64 (fI14 w)))
def encExt (op : Nat) (q : PReg) (d : SDst) (a : SReg) (p n : Fin 64) : Nat := pkFI op (encSDst d) a.val (p.val * 64 + n.val) q.val
def decIns (mk : PReg → SReg → SReg → Fin 64 → Fin 64 → Instr) (w : Nat) : Dec Instr := do
  let d ← decS (fD w); let a ← decS (fA w); zeroField (fI14 w / 4096)
  pure (mk (fQ w) d a (Fin.ofNat 64 (fI14 w / 64)) (Fin.ofNat 64 (fI14 w)))
def encIns (op : Nat) (q : PReg) (d a : SReg) (p n : Fin 64) : Nat := pkFI op d.val a.val (p.val * 64 + n.val) q.val
def decCmp (mk : PReg → Cond → PReg → SReg → SReg → Instr) (w : Nat) : Dec Instr := do
  let c ← orErr .reservedSelector (condOf (fD w / 16)); let a ← decS (fA w); let b ← decS (fB w); zeroField (fC w)
  pure (mk (fQ w) c (Fin.ofNat 16 (fD w)) a b)
def encCmp (op : Nat) (q : PReg) (c : Cond) (pd : PReg) (a b : SReg) : Nat := pkFA op (condCode c * 16 + pd.val) a.val b.val 0 q.val
def decCmpi (mk : PReg → Cond → PReg → SReg → BitVec 14 → Instr) (w : Nat) : Dec Instr := do
  let c ← orErr .reservedSelector (condOf (fD w / 16)); let a ← decS (fA w)
  pure (mk (fQ w) c (Fin.ofNat 16 (fD w)) a (BitVec.ofNat 14 (fI14 w)))
def encCmpi (op : Nat) (q : PReg) (c : Cond) (pd : PReg) (a : SReg) (i : BitVec 14) : Nat :=
  pkFI op (condCode c * 16 + pd.val) a.val i.toNat q.val
def decTstb (mk : PReg → Bool → PReg → SReg → Fin 64 → Instr) (w : Nat) : Dec Instr := do
  let pd ← decP (fD w); let a ← decS (fA w); zeroField (fI14 w / 128)
  pure (mk (fQ w) (fI14 w / 64 % 2 == 1) pd a (Fin.ofNat 64 (fI14 w)))
def encTstb (op : Nat) (q : PReg) (r : Bool) (pd : PReg) (a : SReg) (b : Fin 64) : Nat :=
  pkFI op pd.val a.val (bit r * 64 + b.val) q.val
def decPpp (mk : PReg → PReg → PReg → PReg → Instr) (w : Nat) : Dec Instr := do
  let d ← decP (fD w); let a ← decP (fA w); let b ← decP (fB w); zeroField (fC w)
  pure (mk (fQ w) d a b)
def encPpp (op : Nat) (q pd pa pb : PReg) : Nat := pkFA op pd.val pa.val pb.val 0 q.val
def decBr (mk : PReg → BitVec 24 → Instr) (w : Nat) : Dec Instr := do
  zeroField (fAux w); pure (mk (fQ w) (BitVec.ofNat 24 (fOff24 w)))
def encBr (op : Nat) (q : PReg) (off : BitVec 24) : Nat := pkFB op off.toNat 0 q.val
def decBrcc (mk : PReg → Fin 16 → BitVec 24 → Instr) (w : Nat) : Dec Instr :=
  pure (mk (fQ w) (Fin.ofNat 16 (fAux w)) (BitVec.ofNat 24 (fOff24 w)))
def encBrcc (op : Nat) (q : PReg) (cc : Fin 16) (off : BitVec 24) : Nat := pkFB op off.toNat cc.val q.val
def decCallr (mk : PReg → SReg → SReg → Instr) (w : Nat) : Dec Instr := do
  let d ← decS (fD w); let a ← decS (fA w); zeroField (fB w); zeroField (fC w)
  pure (mk (fQ w) d a)
def encCallr (op : Nat) (q : PReg) (d a : SReg) : Nat := pkFA op d.val a.val 0 0 q.val
/-- One scalar source in a; d, b and c zero. -/
def decRa (mk : PReg → SReg → Instr) (w : Nat) : Dec Instr := do
  zeroField (fD w); let a ← decS (fA w); zeroField (fB w); zeroField (fC w)
  pure (mk (fQ w) a)
def encRa (op : Nat) (q : PReg) (a : SReg) : Nat := pkFA op 0 a.val 0 0 q.val
def decRab (mk : PReg → SReg → SReg → Instr) (w : Nat) : Dec Instr := do
  zeroField (fD w); let a ← decS (fA w); let b ← decS (fB w); zeroField (fC w)
  pure (mk (fQ w) a b)
def encRab (op : Nat) (q : PReg) (a b : SReg) : Nat := pkFA op 0 a.val b.val 0 q.val
/-- Format FA with every field but q zero. -/
def decQ (mk : PReg → Instr) (w : Nat) : Dec Instr := do
  zeroField (fD w); zeroField (fA w); zeroField (fB w); zeroField (fC w)
  pure (mk (fQ w))
def encQ (op : Nat) (q : PReg) : Nat := pkFA op 0 0 0 0 q.val
def decLoop (mk : PReg → SReg → Fin 8 → Bool → Fin 8 → BitVec 14 → Instr) (w : Nat) : Dec Instr := do
  let st ← decS (fD w)
  pure (mk (fQ w) st (Fin.ofNat 8 (fI21 w / 262144)) (fI21 w / 131072 % 2 == 1) (Fin.ofNat 8 (fI21 w / 16384)) (BitVec.ofNat 14 (fI21 w)))
def encLoop (op : Nat) (q : PReg) (st : SReg) (id : Fin 8) (rot : Bool) (sm1 : Fin 8) (lenm1 : BitVec 14) : Nat :=
  pkFL op st.val (id.val * 262144 + bit rot * 131072 + sm1.val * 16384 + lenm1.toNat) q.val
def decLbrk (mk : PReg → Fin 8 → BitVec 24 → Instr) (w : Nat) : Dec Instr := do
  zeroField (fAux w / 8); pure (mk (fQ w) (Fin.ofNat 8 (fAux w)) (BitVec.ofNat 24 (fOff24 w)))
def encLbrk (op : Nat) (q : PReg) (id : Fin 8) (off : BitVec 24) : Nat := pkFB op off.toNat id.val q.val
def decForkc (mk : PReg → BitVec 4 → BitVec 24 → Instr) (w : Nat) : Dec Instr :=
  pure (mk (fQ w) (BitVec.ofNat 4 (fAux w)) (BitVec.ofNat 24 (fOff24 w)))
def encForkc (op : Nat) (q : PReg) (mask : BitVec 4) (off : BitVec 24) : Nat := pkFB op off.toNat mask.toNat q.val
def decCc (mk : PReg → BitVec 16 → Instr) (w : Nat) : Dec Instr := do
  zeroField (fD w); zeroField (fI21 w / 65536); pure (mk (fQ w) (BitVec.ofNat 16 (fI21 w)))
def encCc (op : Nat) (q : PReg) (mask : BitVec 16) : Nat := pkFL op 0 mask.toNat q.val
def decSafe (mk : BitVec 24 → BitVec 8 → Instr) (w : Nat) : Dec Instr :=
  pure (mk (BitVec.ofNat 24 (w / 256)) (BitVec.ofNat 8 w))
def encSafe (op : Nat) (vl : BitVec 24) (sl : BitVec 8) : Nat := op * 4294967296 + vl.toNat * 256 + sl.toNat
def decMfk (mk : PReg → SReg → BitVec 12 → Instr) (w : Nat) : Dec Instr := do
  let d ← decS (fD w); zeroField (fA w); zeroField (fI14 w / 4096)
  pure (mk (fQ w) d (BitVec.ofNat 12 (fI14 w)))
def encMfk (op : Nat) (q : PReg) (d : SReg) (k : BitVec 12) : Nat := pkFI op d.val 0 k.toNat q.val
def decMtk (mk : PReg → BitVec 12 → SReg → Instr) (w : Nat) : Dec Instr := do
  zeroField (fD w); let a ← decS (fA w); zeroField (fI14 w / 4096)
  pure (mk (fQ w) (BitVec.ofNat 12 (fI14 w)) a)
def encMtk (op : Nat) (q : PReg) (k : BitVec 12) (a : SReg) : Nat := pkFI op 0 a.val k.toNat q.val
/-- One scalar destination; a, b and c zero. -/
def decD (mk : PReg → SDst → Instr) (w : Nat) : Dec Instr := do
  let d ← decSDst (fD w); zeroField (fA w); zeroField (fB w); zeroField (fC w)
  pure (mk (fQ w) d)
def encD (op : Nat) (q : PReg) (d : SDst) : Nat := pkFA op (encSDst d) 0 0 0 q.val
def decTrap (mk : PReg → BitVec 16 → SReg → Instr) (w : Nat) : Dec Instr := do
  let a ← decS (fD w); zeroField (fI21 w / 65536)
  pure (mk (fQ w) (BitVec.ofNat 16 (fI21 w)) a)
def encTrap (op : Nat) (q : PReg) (code : BitVec 16) (a : SReg) : Nat := pkFL op a.val code.toNat q.val
def decBrkpt (mk : PReg → BitVec 16 → Instr) (w : Nat) : Dec Instr := do
  zeroField (fD w); zeroField (fI21 w / 65536); pure (mk (fQ w) (BitVec.ofNat 16 (fI21 w)))
def encBrkpt (op : Nat) (q : PReg) (code : BitVec 16) : Nat := pkFL op 0 code.toNat q.val
/-- MEMPFX (R135). A reserved code or bit raises the illegal-line trap (R136): the error names it apart. -/
def decMempfx (mk : Ord → Scope → CPol → Asp → Instr) (w : Nat) : Dec Instr := do
  let o ← orErr .reservedAttribute (ordOf (w / 536870912 % 8)); let sc ← orErr .reservedAttribute (scopeOf (w / 134217728 % 4))
  let cp ← orErr .reservedAttribute (cpolOf (w / 33554432 % 4)); let asp ← orErr .reservedAttribute (aspOf (w / 8388608 % 4))
  if w % 8388608 = 0 then pure (mk o sc cp asp) else .error .reservedAttribute
def encMempfx (op : Nat) (o : Ord) (sc : Scope) (cp : CPol) (asp : Asp) : Nat :=
  op * 4294967296 + ordCode o * 536870912 + scopeCode sc * 134217728 + cpolCode cp * 33554432 + aspCode asp * 8388608

/-- The memory operand of FM with a scalar index (R230): `m` is bits [17:8]. -/
def decMAddr (base m : Nat) : Dec MAddr := do
  let b ← decS base
  if m / 512 = 0 then pure (.off b (BitVec.ofNat 9 m))
  else do zeroField (m % 4); let x ← decS (m / 4 % 128); pure (.idx b x)
def encMAddr : MAddr → Nat × Nat
  | .off b o => (b.val, o.toNat)
  | .idx b x => (b.val, 512 + x.val * 4)
def fM (w : Nat) : Nat := w / 256 % 1024
def decMAddrM (base m : Nat) : Dec MAddrM := do
  let b ← decS base
  if m / 512 = 0 then pure (.off b (BitVec.ofNat 9 m))
  else do zeroField (m % 4); let x ← decMCode (m / 4 % 128); pure (.msk b x)
def encMAddrM : MAddrM → Nat × Nat
  | .off b o => (b.val, o.toNat)
  | .msk b x => (b.val, 512 + (112 + x.val) * 4)
def decLd (mk : PReg → SDst → MAddr → LdKind → Instr) (w : Nat) : Dec Instr := do
  let d ← decSDst (fD w); let m ← decMAddr (fA w) (fM w); let k ← orErr .reservedKind (ldKindOf (fKind w))
  pure (mk (fQ w) d m k)
def encLd (op : Nat) (q : PReg) (d : SDst) (m : MAddr) (k : LdKind) : Nat :=
  pkFM op (encSDst d) (encMAddr m).1 (encMAddr m).2 (ldKindCode k) q.val
def decSt (mk : PReg → SReg → MAddr → StKind → Instr) (w : Nat) : Dec Instr := do
  let d ← decS (fD w); let m ← decMAddr (fA w) (fM w); let k ← orErr .reservedKind (stKindOf (fKind w))
  pure (mk (fQ w) d m k)
def encSt (op : Nat) (q : PReg) (d : SReg) (m : MAddr) (k : StKind) : Nat :=
  pkFM op d.val (encMAddr m).1 (encMAddr m).2 (stKindCode k) q.val
def decPref (mk : PReg → MAddr → Instr) (w : Nat) : Dec Instr := do
  zeroField (fD w); let m ← decMAddr (fA w) (fM w)
  if fKind w = 0 then pure (mk (fQ w) m) else .error .reservedKind
def encPref (op : Nat) (q : PReg) (m : MAddr) : Nat := pkFM op 0 (encMAddr m).1 (encMAddr m).2 0 q.val
def decVld (mk : PReg → VReg → MAddr → VLdKind → Instr) (w : Nat) : Dec Instr := do
  let d ← decVCode (fD w); let m ← decMAddr (fA w) (fM w); let k ← orErr .reservedKind (vLdKindOf (fKind w))
  pure (mk (fQ w) d m k)
def encVld (op : Nat) (q : PReg) (d : VReg) (m : MAddr) (k : VLdKind) : Nat :=
  pkFM op (encVCode d) (encMAddr m).1 (encMAddr m).2 (vLdKindCode k) q.val
def decVst (mk : PReg → VReg → MAddr → VStKind → Instr) (w : Nat) : Dec Instr := do
  let d ← decVCode (fD w); let m ← decMAddr (fA w) (fM w); let k ← orErr .reservedKind (vStKindOf (fKind w))
  pure (mk (fQ w) d m k)
def encVst (op : Nat) (q : PReg) (d : VReg) (m : MAddr) (k : VStKind) : Nat :=
  pkFM op (encVCode d) (encMAddr m).1 (encMAddr m).2 (vStKindCode k) q.val
def decVldk (mk : PReg → VReg → MAddr → VKind → Instr) (w : Nat) : Dec Instr := do
  let d ← decVCode (fD w); let m ← decMAddr (fA w) (fM w); let k ← orErr .reservedKind (vKindOf (fKind w))
  pure (mk (fQ w) d m k)
def encVldk (op : Nat) (q : PReg) (d : VReg) (m : MAddr) (k : VKind) : Nat :=
  pkFM op (encVCode d) (encMAddr m).1 (encMAddr m).2 (vKindCode k) q.val
def decVstm (mk : PReg → VReg → MAddrM → Instr) (w : Nat) : Dec Instr := do
  let d ← decVCode (fD w); let m ← decMAddrM (fA w) (fM w)
  if fKind w = 0 then pure (mk (fQ w) d m) else .error .reservedKind
def encVstm (op : Nat) (q : PReg) (d : VReg) (m : MAddrM) : Nat :=
  pkFM op (encVCode d) (encMAddrM m).1 (encMAddrM m).2 0 q.val
/-- The strided forms use mode 1 only (R237). -/
def decVlds (mk : PReg → VReg → SReg → SReg → VKind → Instr) (w : Nat) : Dec Instr := do
  let d ← decVCode (fD w); let k ← orErr .reservedKind (vKindOf (fKind w))
  match ← decMAddr (fA w) (fM w) with
  | .idx b x => pure (mk (fQ w) d b x k)
  | .off _ _ => .error .reservedKind
def encVlds (op : Nat) (q : PReg) (d : VReg) (b x : SReg) (k : VKind) : Nat :=
  pkFM op (encVCode d) b.val (512 + x.val * 4) (vKindCode k) q.val
def decVsts (mk : PReg → VReg → SReg → SReg → VStKind → Instr) (w : Nat) : Dec Instr := do
  let d ← decVCode (fD w); let k ← orErr .reservedKind (vStKindOf (fKind w))
  match ← decMAddr (fA w) (fM w) with
  | .idx b x => pure (mk (fQ w) d b x k)
  | .off _ _ => .error .reservedKind
def encVsts (op : Nat) (q : PReg) (d : VReg) (b x : SReg) (k : VStKind) : Nat :=
  pkFM op (encVCode d) b.val (512 + x.val * 4) (vStKindCode k) q.val
/-- Gather and scatter use mode 1 with a vector index (R238). -/
def decVgs (mk : PReg → VReg → SReg → VReg → Instr) (w : Nat) : Dec Instr := do
  let d ← decVCode (fD w); let b ← decS (fA w)
  if fM w / 512 = 0 ∨ fKind w ≠ 0 then .error .reservedKind
  else do zeroField (fM w % 4); let x ← decVCode (fM w / 4 % 128); pure (mk (fQ w) d b x)
def encVgs (op : Nat) (q : PReg) (d : VReg) (b : SReg) (x : VReg) : Nat :=
  pkFM op (encVCode d) b.val (512 + (64 + x.val) * 4) 0 q.val

/-- The handle of FT (R185). -/
def decH (w : Nat) : Dec HRef :=
  if fHR w = 0 then pure (.num (Fin.ofNat 1024 (fHandle w)))
  else do (if fHandle w / 128 = 0 then pure () else .error .reservedKind); let r ← decS (fHandle w); pure (.reg r)
def encH : HRef → Nat × Nat
  | .num h => (h.val, 0)
  | .reg r => (r.val, 1)
def decHq (mk : PReg → HRef → Instr) (w : Nat) : Dec Instr := do
  zeroField (fD w); let h ← decH w; zeroField (fRow w); zeroField (fTKind w)
  pure (mk (fQ w) h)
def encHq (op : Nat) (q : PReg) (h : HRef) : Nat := pkFT op 0 (encH h).1 0 0 (encH h).2 q.val
def decTx (mk : PReg → VReg → HRef → SReg → TKind → Instr) (w : Nat) : Dec Instr := do
  let d ← decVCode (fD w); let h ← decH w; let row ← decS (fRow w); let k ← orErr .reservedKind (tKindOf (fTKind w))
  pure (mk (fQ w) d h row k)
def encTx (op : Nat) (q : PReg) (d : VReg) (h : HRef) (row : SReg) (k : TKind) : Nat :=
  pkFT op (encVCode d) (encH h).1 row.val (tKindCode k) (encH h).2 q.val
def decTinfo (mk : PReg → SReg → HRef → Instr) (w : Nat) : Dec Instr := do
  let d ← decS (fD w); let h ← decH w; zeroField (fRow w); zeroField (fTKind w)
  pure (mk (fQ w) d h)
def encTinfo (op : Nat) (q : PReg) (d : SReg) (h : HRef) : Nat := pkFT op d.val (encH h).1 0 0 (encH h).2 q.val
/-- The size selectors of the atomics: 0b010 and 0b011 (R244). -/
def amoSize : Nat → Option Bool
  | 2 => some false
  | 3 => some true
  | _ => none
def decAmo (mk : PReg → AmoOp → Bool → SDst → SReg → SReg → Instr) (w : Nat) : Dec Instr := do
  let d ← decSDst (fD w); let a ← decS (fA w); let b ← decS (fB w)
  let op ← orErr .reservedSelector (amoOf (fC w / 8)); let z ← orErr .reservedSelector (amoSize (fC w % 8))
  pure (mk (fQ w) op z d a b)
def encAmo (op : Nat) (q : PReg) (o : AmoOp) (w64 : Bool) (d : SDst) (a b : SReg) : Nat :=
  pkFA op (encSDst d) a.val b.val (amoCode o * 8 + 2 + bit w64) q.val
def decCas (mk : PReg → Bool → SReg → SReg → SReg → Instr) (w : Nat) : Dec Instr := do
  let d ← decS (fD w); let a ← decS (fA w); let b ← decS (fB w); let z ← orErr .reservedSelector (amoSize (fC w))
  pure (mk (fQ w) z d a b)
def encCas (op : Nat) (q : PReg) (w64 : Bool) (d a b : SReg) : Nat := pkFA op d.val a.val b.val (2 + bit w64) q.val
def decCas2 (mk : PReg → SReg → SReg → SReg → Instr) (w : Nat) : Dec Instr := do
  let d ← decS (fD w); let a ← decS (fA w); let b ← decS (fB w); zeroField (fC w)
  pure (mk (fQ w) d a b)
def encCas2 (op : Nat) (q : PReg) (d a b : SReg) : Nat := pkFA op d.val a.val b.val 0 q.val
def decLjoin (mk : PReg → VOrS → MAddr → Instr) (w : Nat) : Dec Instr := do
  let d ← decVOrS (fD w); let m ← decMAddr (fA w) (fM w)
  if fKind w = 0 then pure (mk (fQ w) d m) else .error .reservedKind
def encLjoin (op : Nat) (q : PReg) (d : VOrS) (m : MAddr) : Nat := pkFM op (encVOrS d) (encMAddr m).1 (encMAddr m).2 0 q.val
def decLld (mk : PReg → VSDst → MAddr → Instr) (w : Nat) : Dec Instr := do
  let d ← decVSDst (fD w); let m ← decMAddr (fA w) (fM w)
  if fKind w = 0 then pure (mk (fQ w) d m) else .error .reservedKind
def encLld (op : Nat) (q : PReg) (d : VSDst) (m : MAddr) : Nat := pkFM op (encVSDst d) (encMAddr m).1 (encMAddr m).2 0 q.val
def decLwait (mk : PReg → PReg → SReg → SReg → SReg → Instr) (w : Nat) : Dec Instr := do
  let pd ← decP (fD w); let a ← decS (fA w); let b ← decS (fB w); let c ← decS (fC w)
  pure (mk (fQ w) pd a b c)
def encLwait (op : Nat) (q pd : PReg) (a b c : SReg) : Nat := pkFA op pd.val a.val b.val c.val q.val
def decFence (mk : PReg → FenceOrd → Scope → Instr) (w : Nat) : Dec Instr := do
  zeroField (fD w); zeroField (fA w); zeroField (fI14 w / 32)
  let o ← orErr .reservedOrder (fenceOrdOf (fI14 w / 4 % 8)); let sc ← orErr .reservedOrder (scopeOf (fI14 w % 4))
  pure (mk (fQ w) o sc)
def encFence (op : Nat) (q : PReg) (o : FenceOrd) (sc : Scope) : Nat := pkFI op 0 0 (fenceOrdCode o * 4 + scopeCode sc) q.val
/-- FENCESC and FENCEA require order 0b000 (R249). -/
def decFsc (mk : PReg → Scope → Instr) (w : Nat) : Dec Instr := do
  zeroField (fD w); zeroField (fA w); zeroField (fI14 w / 32)
  if fI14 w / 4 % 8 ≠ 0 then .error .reservedOrder
  else do let sc ← orErr .reservedOrder (scopeOf (fI14 w % 4)); pure (mk (fQ w) sc)
def encFsc (op : Nat) (q : PReg) (sc : Scope) : Nat := pkFI op 0 0 (scopeCode sc) q.val
def decEng (mk : Eng → Fin 128 → SReg → SReg → Option SReg → Bool → Instr) (w : Nat) : Dec Instr := do
  let e ← decFin 27 .reservedEngine (w / 134217728 % 32)
  if w / 2 % 2 = 0 then do
    zeroField (w / 4 % 64)
    pure (mk e (Fin.ofNat 128 (w / 1048576)) (Fin.ofNat 64 (w / 16384)) (Fin.ofNat 64 (w / 256)) none (w % 2 == 1))
  else pure (mk e (Fin.ofNat 128 (w / 1048576)) (Fin.ofNat 64 (w / 16384)) (Fin.ofNat 64 (w / 256))
    (some (Fin.ofNat 64 (w / 4))) (w % 2 == 1))
def encEng (op : Nat) (e : Eng) (f : Fin 128) (a b : SReg) (r : Option SReg) (w : Bool) : Nat :=
  match r with
  | none => pkFE op e.val f.val a.val b.val 0 0 (bit w)
  | some d => pkFE op e.val f.val a.val b.val d.val 1 (bit w)
def decFork (mk : SReg → SReg → SReg → Bool → Instr) (w : Nat) : Dec Instr := do
  zeroField (w / 134217728 % 32); zeroField (w / 1048576 % 128); zeroField (w / 2 % 2)
  pure (mk (Fin.ofNat 64 (w / 4)) (Fin.ofNat 64 (w / 16384)) (Fin.ofNat 64 (w / 256)) (w % 2 == 1))
def encFork (op : Nat) (l a b : SReg) (w : Bool) : Nat := pkFE op 0 0 a.val b.val l.val 0 (bit w)
def decFlag (mk : PReg → Fin 64 → Instr) (w : Nat) : Dec Instr := do
  zeroField (fD w); zeroField (fA w); zeroField (fI14 w / 64); pure (mk (fQ w) (Fin.ofNat 64 (fI14 w)))
def encFlag (op : Nat) (q : PReg) (f : Fin 64) : Nat := pkFI op 0 0 f.val q.val
def decWaitf (mk : PReg → Eng → Fin 64 → Instr) (w : Nat) : Dec Instr := do
  zeroField (fD w); zeroField (fA w); zeroField (fI14 w / 2048); let e ← decFin 27 .reservedEngine (fI14 w / 64 % 32)
  pure (mk (fQ w) e (Fin.ofNat 64 (fI14 w)))
def encWaitf (op : Nat) (q : PReg) (e : Eng) (f : Fin 64) : Nat := pkFI op 0 0 (e.val * 64 + f.val) q.val
def decQstat (mk : PReg → SReg → Eng → Instr) (w : Nat) : Dec Instr := do
  let d ← decS (fD w); zeroField (fA w); zeroField (fI14 w / 32); let e ← decFin 27 .reservedEngine (fI14 w % 32)
  pure (mk (fQ w) d e)
def encQstat (op : Nat) (q : PReg) (d : SReg) (e : Eng) : Nat := pkFI op d.val 0 e.val q.val

-- The operand forms of format FV (R256).
def decFv3 (mk : PReg → FTy → VReg → VReg → VOrS → Instr) (w : Nat) : Dec Instr := do
  let d ← decVNum (fVD w); let a ← decVCode (fVA w); let b ← decVOrS (fVB w); zeroField (fVC w)
  let ty ← orErr .reservedType (fTyOf (fTy w)); pure (mk (fQ w) ty d a b)
def encFv3 (op : Nat) (q : PReg) (ty : FTy) (d a : VReg) (b : VOrS) : Nat :=
  pkFV op d.val (encVCode a) (encVOrS b) 0 (fTyCode ty) q.val
def decFv4 (mk : PReg → FTy → VReg → VReg → VOrS → VReg → Instr) (w : Nat) : Dec Instr := do
  let d ← decVNum (fVD w); let a ← decVCode (fVA w); let b ← decVOrS (fVB w); let c ← decVNum (fVC w)
  let ty ← orErr .reservedType (fTyOf (fTy w)); pure (mk (fQ w) ty d a b c)
def encFv4 (op : Nat) (q : PReg) (ty : FTy) (d a : VReg) (b : VOrS) (c : VReg) : Nat :=
  pkFV op d.val (encVCode a) (encVOrS b) c.val (fTyCode ty) q.val
def decFv2 (mk : PReg → FTy → VReg → VReg → Instr) (w : Nat) : Dec Instr := do
  let d ← decVNum (fVD w); let a ← decVCode (fVA w); zeroField (fVB w); zeroField (fVC w)
  let ty ← orErr .reservedType (fTyOf (fTy w)); pure (mk (fQ w) ty d a)
def encFv2 (op : Nat) (q : PReg) (ty : FTy) (d a : VReg) : Nat := pkFV op d.val (encVCode a) 0 0 (fTyCode ty) q.val
def decVcmp (mk : PReg → FTy → FCond → Bool → MReg → VReg → VOrS → Instr) (w : Nat) : Dec Instr := do
  let md ← decMNum (fVD w); let a ← decVCode (fVA w); let b ← decVOrS (fVB w)
  let c ← orErr .reservedSelector (fCondOf (fVC w % 8)); (if fVC w / 16 = 0 then pure () else .error .reservedSelector)
  let ty ← orErr .reservedType (fTyOf (fTy w)); pure (mk (fQ w) ty c (fVC w / 8 % 2 == 1) md a b)
def encVcmp (op : Nat) (q : PReg) (ty : FTy) (c : FCond) (e1 : Bool) (md : MReg) (a : VReg) (b : VOrS) : Nat :=
  pkFV op md.val (encVCode a) (encVOrS b) (bit e1 * 8 + fCondCode c) (fTyCode ty) q.val
def decIv3 (mk : PReg → ITy → VReg → VReg → VOrS → Instr) (w : Nat) : Dec Instr := do
  let d ← decVNum (fVD w); let a ← decVCode (fVA w); let b ← decVOrS (fVB w); zeroField (fVC w)
  let ty ← orErr .reservedType (iTyOf (fTy w)); pure (mk (fQ w) ty d a b)
def encIv3 (op : Nat) (q : PReg) (ty : ITy) (d a : VReg) (b : VOrS) : Nat :=
  pkFV op d.val (encVCode a) (encVOrS b) 0 (iTyCode ty) q.val
def decIv4 (mk : PReg → ITy → VReg → VReg → VOrS → VReg → Instr) (w : Nat) : Dec Instr := do
  let d ← decVNum (fVD w); let a ← decVCode (fVA w); let b ← decVOrS (fVB w); let c ← decVNum (fVC w)
  let ty ← orErr .reservedType (iTyOf (fTy w)); pure (mk (fQ w) ty d a b c)
def encIv4 (op : Nat) (q : PReg) (ty : ITy) (d a : VReg) (b : VOrS) (c : VReg) : Nat :=
  pkFV op d.val (encVCode a) (encVOrS b) c.val (iTyCode ty) q.val
def decIv2 (mk : PReg → ITy → VReg → VReg → Instr) (w : Nat) : Dec Instr := do
  let d ← decVNum (fVD w); let a ← decVCode (fVA w); zeroField (fVB w); zeroField (fVC w)
  let ty ← orErr .reservedType (iTyOf (fTy w)); pure (mk (fQ w) ty d a)
def encIv2 (op : Nat) (q : PReg) (ty : ITy) (d a : VReg) : Nat := pkFV op d.val (encVCode a) 0 0 (iTyCode ty) q.val
def decVicmp (mk : PReg → ITy → ICond → Fin 4 → MReg → VReg → VOrS → Instr) (w : Nat) : Dec Instr := do
  let md ← decMNum (fVD w); let a ← decVCode (fVA w); let b ← decVOrS (fVB w)
  let c ← orErr .reservedSelector (iCondOf (fVC w % 8)); (if fVC w / 32 = 0 then pure () else .error .reservedSelector)
  let ty ← orErr .reservedType (iTyOf (fTy w)); pure (mk (fQ w) ty c (Fin.ofNat 4 (fVC w / 8)) md a b)
def encVicmp (op : Nat) (q : PReg) (ty : ITy) (c : ICond) (e : Fin 4) (md : MReg) (a : VReg) (b : VOrS) : Nat :=
  pkFV op md.val (encVCode a) (encVOrS b) (e.val * 8 + iCondCode c) (iTyCode ty) q.val
def decVsatn (mk : PReg → Bool → VReg → VReg → VOrS → Instr) (w : Nat) : Dec Instr := do
  let d ← decVNum (fVD w); let a ← decVCode (fVA w); let b ← decVOrS (fVB w); zeroField (fVC w)
  if fTy w = 1 then pure (mk (fQ w) false d a b) else if fTy w = 2 then pure (mk (fQ w) true d a b) else .error .reservedType
def encVsatn (op : Nat) (q : PReg) (n8 : Bool) (d a : VReg) (b : VOrS) : Nat :=
  pkFV op d.val (encVCode a) (encVOrS b) 0 (1 + bit n8) q.val
def decRed (mk : PReg → RTy → VReg → VReg → MReg → Instr) (w : Nat) : Dec Instr := do
  let d ← decVNum (fVD w); let a ← decVCode (fVA w); let m ← decMCode (fVB w); zeroField (fVC w)
  let ty ← orErr .reservedType (rTyOf (fTy w)); pure (mk (fQ w) ty d a m)
def encRed (op : Nat) (q : PReg) (ty : RTy) (d a : VReg) (m : MReg) : Nat :=
  pkFV op d.val (encVCode a) (encMCode m) 0 (rTyCode ty) q.val
def decGrp (mk : PReg → RTy → VReg → VReg → MReg → Fin 8 → Instr) (w : Nat) : Dec Instr := do
  let d ← decVNum (fVD w); let a ← decVCode (fVA w); let m ← decMCode (fVB w); let n ← decFin 8 .reservedSelector (fVC w)
  let ty ← orErr .reservedType (rTyOf (fTy w)); pure (mk (fQ w) ty d a m n)
def encGrp (op : Nat) (q : PReg) (ty : RTy) (d a : VReg) (m : MReg) (n : Fin 8) : Nat :=
  pkFV op d.val (encVCode a) (encMCode m) n.val (rTyCode ty) q.val
/-- The forms whose ty is only 0b00 (R189). -/
def tyZero (w : Nat) : Dec Unit := if fTy w = 0 then .ok () else .error .reservedType
def decZ4 (mk : PReg → VReg → VReg → VOrS → VReg → Instr) (w : Nat) : Dec Instr := do
  let d ← decVNum (fVD w); let a ← decVCode (fVA w); let b ← decVOrS (fVB w); let c ← decVNum (fVC w); tyZero w
  pure (mk (fQ w) d a b c)
def encZ4 (op : Nat) (q : PReg) (d a : VReg) (b : VOrS) (c : VReg) : Nat :=
  pkFV op d.val (encVCode a) (encVOrS b) c.val 0 q.val
def decVbsr (mk : PReg → VReg → VReg → VReg → VReg → Instr) (w : Nat) : Dec Instr := do
  let d ← decVNum (fVD w); let a ← decVCode (fVA w); let b ← decVCode (fVB w); let c ← decVNum (fVC w); tyZero w
  pure (mk (fQ w) d a b c)
def encVbsr (op : Nat) (q : PReg) (d a b c : VReg) : Nat := pkFV op d.val (encVCode a) (encVCode b) c.val 0 q.val
def decVbsw (mk : PReg → VReg → VReg → VOrS → VReg → Instr) (w : Nat) : Dec Instr := decZ4 mk w
def encVbsw (op : Nat) (q : PReg) (d a : VReg) (b : VOrS) (c : VReg) : Nat := encZ4 op q d a b c
def decVmov (mk : PReg → VReg → VOrS → Instr) (w : Nat) : Dec Instr := do
  let d ← decVNum (fVD w); let a ← decVOrS (fVA w); zeroField (fVB w); zeroField (fVC w); tyZero w
  pure (mk (fQ w) d a)
def encVmov (op : Nat) (q : PReg) (d : VReg) (a : VOrS) : Nat := pkFV op d.val (encVOrS a) 0 0 0 q.val
/-- VSPLAT: a vector a with a scalar b, or a scalar a with b zero (R280). -/
def decVsplat (mk : PReg → ITy → VReg → SplatSrc → Instr) (w : Nat) : Dec Instr := do
  let d ← decVNum (fVD w); zeroField (fVC w); let ty ← orErr .reservedType (iTyOf (fTy w))
  match ← decVOrS (fVA w) with
  | .v a => do let b ← decS (fVB w); pure (mk (fQ w) ty d (.lane a b))
  | .s a => do zeroField (fVB w); pure (mk (fQ w) ty d (.scal a))
def encVsplat (op : Nat) (q : PReg) (ty : ITy) (d : VReg) (src : SplatSrc) : Nat :=
  match src with
  | .lane a b => pkFV op d.val (encVCode a) b.val 0 (iTyCode ty) q.val
  | .scal a => pkFV op d.val a.val 0 0 (iTyCode ty) q.val
def decVli (mk : PReg → VReg → VliImm → Instr) (w : Nat) : Dec Instr := do
  let d ← decVCode (fD w)
  if fI21 w / 1048576 = 0 then pure (mk (fQ w) d (.plain (BitVec.ofNat 20 (fI21 w))))
  else do zeroField (fI21 w / 65536 % 16); pure (mk (fQ w) d (.high (BitVec.ofNat 16 (fI21 w))))
def encVli (op : Nat) (q : PReg) (d : VReg) (i : VliImm) : Nat :=
  match i with
  | .plain j => pkFL op (encVCode d) j.toNat q.val
  | .high j => pkFL op (encVCode d) (1048576 + j.toNat) q.val
def decVmvs (mk : PReg → SDst → VReg → SReg → Instr) (w : Nat) : Dec Instr := do
  let d ← decSDst (fD w); let a ← decVCode (fA w); let b ← decS (fB w); zeroField (fC w); pure (mk (fQ w) d a b)
def encVmvs (op : Nat) (q : PReg) (d : SDst) (a : VReg) (b : SReg) : Nat := pkFA op (encSDst d) (encVCode a) b.val 0 q.val
def decVins (mk : PReg → VReg → SReg → SReg → Instr) (w : Nat) : Dec Instr := do
  let d ← decVCode (fD w); let a ← decS (fA w); let b ← decS (fB w); zeroField (fC w); pure (mk (fQ w) d a b)
def encVins (op : Nat) (q : PReg) (d : VReg) (a b : SReg) : Nat := pkFA op (encVCode d) a.val b.val 0 q.val
def decVrotl (mk : PReg → VReg → VReg → SReg → Instr) (w : Nat) : Dec Instr := do
  let d ← decVNum (fVD w); let a ← decVCode (fVA w); let b ← decS (fVB w); zeroField (fVC w); tyZero w
  pure (mk (fQ w) d a b)
def encVrotl (op : Nat) (q : PReg) (d a : VReg) (b : SReg) : Nat := pkFV op d.val (encVCode a) b.val 0 0 q.val
def decVslide (mk : PReg → VReg → VReg → SReg → VReg → Instr) (w : Nat) : Dec Instr := do
  let d ← decVNum (fVD w); let a ← decVCode (fVA w); let b ← decS (fVB w); let c ← decVNum (fVC w); tyZero w
  pure (mk (fQ w) d a b c)
def encVslide (op : Nat) (q : PReg) (d a : VReg) (b : SReg) (c : VReg) : Nat := pkFV op d.val (encVCode a) b.val c.val 0 q.val
def decZip (mk : PReg → ITy → VReg → VReg → VOrS → Instr) (w : Nat) : Dec Instr := decIv3 mk w
def encZip (op : Nat) (q : PReg) (ty : ITy) (d a : VReg) (b : VOrS) : Nat := encIv3 op q ty d a b
def decVsel (mk : PReg → VReg → VReg → MReg → VReg → Instr) (w : Nat) : Dec Instr := do
  let d ← decVNum (fVD w); let a ← decVCode (fVA w); let m ← decMCode (fVB w); let c ← decVNum (fVC w); tyZero w
  pure (mk (fQ w) d a m c)
def encVsel (op : Nat) (q : PReg) (d a : VReg) (m : MReg) (c : VReg) : Nat := pkFV op d.val (encVCode a) (encMCode m) c.val 0 q.val
def decMlog (mk : PReg → MOp → MReg → MReg → MReg → Instr) (w : Nat) : Dec Instr := do
  let d ← decMCode (fD w); let a ← decMCode (fA w); let b ← decMCode (fB w); let op ← orErr .reservedSelector (mOpOf (fC w))
  pure (mk (fQ w) op d a b)
def encMlog (op : Nat) (q : PReg) (o : MOp) (md ma mb : MReg) : Nat :=
  pkFA op (encMCode md) (encMCode ma) (encMCode mb) (mOpCode o) q.val
def decMpopc (mk : PReg → MSel → SReg → MReg → Instr) (w : Nat) : Dec Instr := do
  let d ← decS (fD w); let a ← decMCode (fA w); zeroField (fB w); let sel ← orErr .reservedSelector (mSelOf (fC w))
  pure (mk (fQ w) sel d a)
def encMpopc (op : Nat) (q : PReg) (sel : MSel) (d : SReg) (ma : MReg) : Nat :=
  pkFA op d.val (encMCode ma) 0 (mSelCode sel) q.val
def decVcvt (mk : PReg → Fin 36 → VReg → VReg → Option VOrS → Instr) (w : Nat) : Dec Instr := do
  let d ← decVNum (fVD w); let a ← decVCode (fVA w); let sel ← decFin 36 .reservedSelector (fVC w); tyZero w
  if vcvtTwoSource sel.val then do let b ← decVOrS (fVB w); pure (mk (fQ w) sel d a (some b))
  else do zeroField (fVB w); pure (mk (fQ w) sel d a none)
def encVcvt (op : Nat) (q : PReg) (sel : Fin 36) (d a : VReg) (b : Option VOrS) : Nat :=
  match b with
  | some b => pkFV op d.val (encVCode a) (encVOrS b) sel.val 0 q.val
  | none => pkFV op d.val (encVCode a) 0 sel.val 0 q.val
def decMx (mk : PReg → MxFmt → VReg → VReg → Instr) (w : Nat) : Dec Instr := do
  let d ← decVNum (fVD w); let a ← decVCode (fVA w); zeroField (fVB w); let f ← orErr .reservedSelector (mxOf (fVC w)); tyZero w
  pure (mk (fQ w) f d a)
def encMx (op : Nat) (q : PReg) (f : MxFmt) (d a : VReg) : Nat := pkFV op d.val (encVCode a) 0 (mxCode f) 0 q.val
def decVpack (mk : PReg → PackSel → VReg → VReg → VOrS → Instr) (w : Nat) : Dec Instr := do
  let d ← decVNum (fVD w); let a ← decVCode (fVA w); let b ← decVOrS (fVB w)
  let sel ← orErr .reservedSelector (packOf (fVC w)); tyZero w
  pure (mk (fQ w) sel d a b)
def encVpack (op : Nat) (q : PReg) (sel : PackSel) (d a : VReg) (b : VOrS) : Nat :=
  pkFV op d.val (encVCode a) (encVOrS b) (packCode sel) 0 q.val
def decVunpk (mk : PReg → Fin 12 → VReg → VReg → Instr) (w : Nat) : Dec Instr := do
  let d ← decVNum (fVD w); let a ← decVCode (fVA w); zeroField (fVB w); let sel ← decFin 12 .reservedSelector (fVC w); tyZero w
  pure (mk (fQ w) sel d a)
def encVunpk (op : Nat) (q : PReg) (sel : Fin 12) (d a : VReg) : Nat := pkFV op d.val (encVCode a) 0 sel.val 0 q.val

/-- The X slot's opcode map (R190): an opcode it does not assign is rejected by name. -/
def decodeX (w : Nat) : Dec Instr :=
  match opOf w with
  | 0x00 => decNop w
  | 0x01 => decRrr .add w
  | 0x02 => decRrr .sub w
  | 0x03 => decRri .addi w
  | 0x04 => decRrr .mul w
  | 0x05 => decRrr .mulh w
  | 0x06 => decRrr .mulhu w
  | 0x07 => decRrr .div w
  | 0x08 => decRrr .divu w
  | 0x09 => decRrr .rem w
  | 0x0A => decRrr .remu w
  | 0x0B => decRrr .and w
  | 0x0C => decRrr .or w
  | 0x0D => decRrr .xor w
  | 0x0E => decRrr .andn w
  | 0x0F => decRrr .orn w
  | 0x10 => decRrr .shl w
  | 0x11 => decRrr .shr w
  | 0x12 => decRrr .sar w
  | 0x13 => decRrr .rol w
  | 0x14 => decRrrr .fshl w
  | 0x15 => decRrrr .fshr w
  | 0x16 => decRr .clz w
  | 0x17 => decRr .ctz w
  | 0x18 => decRr .popc w
  | 0x19 => decRrr .min w
  | 0x1A => decRrr .max w
  | 0x1B => decRrr .minu w
  | 0x1C => decRrr .maxu w
  | 0x1D => decRrrp .sel w
  | 0x1E => decLi .li w
  | 0x1F => decLih .lih w
  | 0x20 => decExt .ext w
  | 0x21 => decExt .extu w
  | 0x22 => decIns .ins w
  | 0x23 => decRr .bswap w
  | 0x24 => decRr .abs w
  | 0x40 => decCmp .cmp w
  | 0x41 => decCmpi .cmpi w
  | 0x42 => decTstb .tstb w
  | 0x43 => decPpp .pand w
  | 0x44 => decPpp .por w
  | 0x45 => decPpp .pxor w
  | 0x46 => decPpp .pandn w
  | 0x60 => decBr .br w
  | 0x61 => decBrcc .brcc w
  | 0x62 => decBr .call w
  | 0x63 => decCallr .callr w
  | 0x64 => decRa .ret w
  | 0x65 => decRa .jmpr w
  | 0x66 => decLoop .loop w
  | 0x67 => decLbrk .lbrk w
  | 0x68 => decForkc .forkc w
  | 0x69 => decCc .ccset w
  | 0x6A => decCc .ccclr w
  | 0x6B => decCc .ccwait w
  | 0x6C => decRa .sleepuntil w
  | 0x6D => decSafe .safe w
  | 0x6E => decRr .spawn w
  | 0x6F => decRa .join w
  | 0x70 => decRab .yield w
  | 0x71 => decQ .exit w
  | 0x80 => decMfk .mfk w
  | 0x81 => decMtk .mtk w
  | 0x82 => decD .rdcyc w
  | 0x83 => decD .rddatum w
  | 0x84 => decRr .locality w
  | 0x85 => decTrap .trap w
  | 0x86 => decQ .eret w
  | 0x87 => decBrkpt .brkpt w
  | 0x88 => decRa .widle w
  | 0x90 => decMempfx .mempfx w
  | _ => .error .unassignedOpcode

/-- The M slot's opcode map (R191): an opcode it does not assign is rejected by name. -/
def decodeM (w : Nat) : Dec Instr :=
  match opOf w with
  | 0x00 => decNop w
  | 0x01 => decLd .ld w
  | 0x02 => decSt .st w
  | 0x03 => decPref .pref w
  | 0x20 => decVld .vld w
  | 0x21 => decVst .vst w
  | 0x22 => decVldk .vldu w
  | 0x23 => decVstm .vstm w
  | 0x24 => decVlds .vlds w
  | 0x25 => decVsts .vsts w
  | 0x26 => decVgs .vgath w
  | 0x27 => decVgs .vscat w
  | 0x28 => decVldk .vldb w
  | 0x40 => decRrrp .talloc w
  | 0x41 => decHq .tfree w
  | 0x42 => decHq .tgive w
  | 0x43 => decHq .ttake w
  | 0x47 => decHq .thold w
  | 0x48 => decHq .trels w
  | 0x44 => decTx .tld w
  | 0x45 => decTx .tst w
  | 0x46 => decTinfo .tinfo w
  | 0x60 => decAmo .amo w
  | 0x61 => decCas .cas w
  | 0x62 => decCas2 .cas2 w
  | 0x70 => decLjoin .ljoin w
  | 0x71 => decLld .lld w
  | 0x72 => decLwait .lwait w
  | 0x80 => decFence .fence w
  | 0x81 => decFsc .fencesc w
  | 0x82 => decFsc .fencea w
  | 0x83 => decQ .ifence w
  | 0x90 => decEng .eng w
  | 0x91 => decFork .fork w
  | 0x92 => decRa .rdv w
  | 0x93 => decFlag .setf w
  | 0x94 => decFlag .clrf w
  | 0x95 => decWaitf .waitf w
  | 0x96 => decQstat .qstat w
  | _ => .error .unassignedOpcode

/-- The V slot's opcode map (R192): an opcode it does not assign is rejected by name. -/
def decodeV (w : Nat) : Dec Instr :=
  match opOf w with
  | 0x00 => decNop w
  | 0x01 => decFv3 .vadd w
  | 0x02 => decFv3 .vsub w
  | 0x03 => decFv3 .vmul w
  | 0x04 => decFv4 .vfma w
  | 0x05 => decFv4 .vfms w
  | 0x06 => decFv4 .vfnma w
  | 0x07 => decFv4 .vfnms w
  | 0x08 => decFv3 .vmin w
  | 0x09 => decFv3 .vmax w
  | 0x0A => decFv3 .vminn w
  | 0x0B => decFv3 .vmaxn w
  | 0x0C => decFv2 .vabs w
  | 0x0D => decFv2 .vneg w
  | 0x0E => decFv3 .vcpys w
  | 0x0F => decVcmp .vcmp w
  | 0x10 => decFv2 .vclass w
  | 0x11 => decFv2 .vrnd w
  | 0x12 => decFv3 .vscale w
  | 0x40 => decIv3 .viadd w
  | 0x41 => decIv3 .visub w
  | 0x42 => decIv3 .vimul w
  | 0x43 => decIv3 .vimin w
  | 0x44 => decIv3 .vimax w
  | 0x45 => decIv3 .viminu w
  | 0x46 => decIv3 .vimaxu w
  | 0x47 => decIv3 .vand w
  | 0x48 => decIv3 .vor w
  | 0x49 => decIv3 .vxor w
  | 0x4A => decIv3 .vandn w
  | 0x4B => decIv3 .vshl w
  | 0x4C => decIv3 .vshr w
  | 0x4D => decIv3 .vsar w
  | 0x4E => decIv4 .vfshl w
  | 0x4F => decIv4 .vfshr w
  | 0x50 => decIv2 .vclz w
  | 0x51 => decIv2 .vpopc w
  | 0x52 => decVicmp .vicmp w
  | 0x53 => decVsatn .vsatn w
  | 0x54 => decIv2 .viabs w
  | 0x60 => decRed .vredadd w
  | 0x61 => decRed .vredmax w
  | 0x62 => decRed .vredmin w
  | 0x63 => decGrp .vgmax w
  | 0x64 => decGrp .vgsum w
  | 0x65 => decRed .vscanadd w
  | 0x66 => decZ4 .vscanaff w
  | 0x67 => decVbsr .vbsr w
  | 0x68 => decVbsw .vbsw w
  | 0x80 => decVmov .vmov w
  | 0x81 => decVsplat .vsplat w
  | 0x82 => decVli .vli w
  | 0x83 => decVmvs .vmvs w
  | 0x84 => decVins .vins w
  | 0x85 => decZ4 .vperm w
  | 0x86 => decVrotl .vrotl w
  | 0x87 => decVslide .vslide w
  | 0x88 => decZip .vzip w
  | 0x89 => decZip .vunzip w
  | 0x8A => decVsel .vsel w
  | 0x8B => decMlog .mlog w
  | 0x8C => decMpopc .mpopc w
  | 0xA0 => decVcvt .vcvt w
  | 0xA1 => decMx .vqmx w
  | 0xA2 => decMx .vdqmx w
  | 0xA3 => decVpack .vpack w
  | 0xA4 => decVunpk .vunpk w
  | _ => .error .unassignedOpcode

/-- The 40-bit syllable of a line instruction (R185 to R192); 0 for a stream word or an event, which have none. -/
def encodeSyl : Instr → Nat
  | .nop => 0
  | .add q d a b => encRrr 0x01 q d a b
  | .sub q d a b => encRrr 0x02 q d a b
  | .addi q d a i => encRri 0x03 q d a i
  | .mul q d a b => encRrr 0x04 q d a b
  | .mulh q d a b => encRrr 0x05 q d a b
  | .mulhu q d a b => encRrr 0x06 q d a b
  | .div q d a b => encRrr 0x07 q d a b
  | .divu q d a b => encRrr 0x08 q d a b
  | .rem q d a b => encRrr 0x09 q d a b
  | .remu q d a b => encRrr 0x0A q d a b
  | .and q d a b => encRrr 0x0B q d a b
  | .or q d a b => encRrr 0x0C q d a b
  | .xor q d a b => encRrr 0x0D q d a b
  | .andn q d a b => encRrr 0x0E q d a b
  | .orn q d a b => encRrr 0x0F q d a b
  | .shl q d a b => encRrr 0x10 q d a b
  | .shr q d a b => encRrr 0x11 q d a b
  | .sar q d a b => encRrr 0x12 q d a b
  | .rol q d a b => encRrr 0x13 q d a b
  | .fshl q d a b c => encRrrr 0x14 q d a b c
  | .fshr q d a b c => encRrrr 0x15 q d a b c
  | .clz q d a => encRr 0x16 q d a
  | .ctz q d a => encRr 0x17 q d a
  | .popc q d a => encRr 0x18 q d a
  | .min q d a b => encRrr 0x19 q d a b
  | .max q d a b => encRrr 0x1A q d a b
  | .minu q d a b => encRrr 0x1B q d a b
  | .maxu q d a b => encRrr 0x1C q d a b
  | .sel q d a b c => encRrrp 0x1D q d a b c
  | .li q d i => encLi 0x1E q d i
  | .lih q d i => encLih 0x1F q d i
  | .ext q d a p n => encExt 0x20 q d a p n
  | .extu q d a p n => encExt 0x21 q d a p n
  | .ins q d a p n => encIns 0x22 q d a p n
  | .bswap q d a => encRr 0x23 q d a
  | .abs q d a => encRr 0x24 q d a
  | .cmp q c pd a b => encCmp 0x40 q c pd a b
  | .cmpi q c pd a i => encCmpi 0x41 q c pd a i
  | .tstb q r pd a b => encTstb 0x42 q r pd a b
  | .pand q pd pa pb => encPpp 0x43 q pd pa pb
  | .por q pd pa pb => encPpp 0x44 q pd pa pb
  | .pxor q pd pa pb => encPpp 0x45 q pd pa pb
  | .pandn q pd pa pb => encPpp 0x46 q pd pa pb
  | .br q off => encBr 0x60 q off
  | .brcc q cc off => encBrcc 0x61 q cc off
  | .call q off => encBr 0x62 q off
  | .callr q d a => encCallr 0x63 q d a
  | .ret q a => encRa 0x64 q a
  | .jmpr q a => encRa 0x65 q a
  | .loop q st id rot sm1 lenm1 => encLoop 0x66 q st id rot sm1 lenm1
  | .lbrk q id off => encLbrk 0x67 q id off
  | .forkc q mask off => encForkc 0x68 q mask off
  | .ccset q mask => encCc 0x69 q mask
  | .ccclr q mask => encCc 0x6A q mask
  | .ccwait q mask => encCc 0x6B q mask
  | .sleepuntil q a => encRa 0x6C q a
  | .safe vl sl => encSafe 0x6D vl sl
  | .spawn q d a => encRr 0x6E q d a
  | .join q a => encRa 0x6F q a
  | .yield q a b => encRab 0x70 q a b
  | .exit q => encQ 0x71 q
  | .mfk q d k => encMfk 0x80 q d k
  | .mtk q k a => encMtk 0x81 q k a
  | .rdcyc q d => encD 0x82 q d
  | .rddatum q d => encD 0x83 q d
  | .locality q d a => encRr 0x84 q d a
  | .trap q code a => encTrap 0x85 q code a
  | .eret q => encQ 0x86 q
  | .brkpt q code => encBrkpt 0x87 q code
  | .widle q a => encRa 0x88 q a
  | .mempfx o sc cp asp => encMempfx 0x90 o sc cp asp
  | .ld q d m k => encLd 0x01 q d m k
  | .st q d m k => encSt 0x02 q d m k
  | .pref q m => encPref 0x03 q m
  | .vld q d m k => encVld 0x20 q d m k
  | .vst q d m k => encVst 0x21 q d m k
  | .vldu q d m k => encVldk 0x22 q d m k
  | .vstm q d m => encVstm 0x23 q d m
  | .vlds q d base x k => encVlds 0x24 q d base x k
  | .vsts q d base x k => encVsts 0x25 q d base x k
  | .vgath q d base x => encVgs 0x26 q d base x
  | .vscat q d base x => encVgs 0x27 q d base x
  | .vldb q d m k => encVldk 0x28 q d m k
  | .talloc q d a b pd => encRrrp 0x40 q d a b pd
  | .tfree q h => encHq 0x41 q h
  | .tgive q h => encHq 0x42 q h
  | .ttake q h => encHq 0x43 q h
  | .thold q h => encHq 0x47 q h
  | .trels q h => encHq 0x48 q h
  | .tld q d h row k => encTx 0x44 q d h row k
  | .tst q d h row k => encTx 0x45 q d h row k
  | .tinfo q d h => encTinfo 0x46 q d h
  | .amo q op w64 d a b => encAmo 0x60 q op w64 d a b
  | .cas q w64 d a b => encCas 0x61 q w64 d a b
  | .cas2 q d a b => encCas2 0x62 q d a b
  | .ljoin q src m => encLjoin 0x70 q src m
  | .lld q d m => encLld 0x71 q d m
  | .lwait q pd a b c => encLwait 0x72 q pd a b c
  | .fence q o sc => encFence 0x80 q o sc
  | .fencesc q sc => encFsc 0x81 q sc
  | .fencea q sc => encFsc 0x82 q sc
  | .ifence q => encQ 0x83 q
  | .eng e f a b r w => encEng 0x90 e f a b r w
  | .fork l a b w => encFork 0x91 l a b w
  | .rdv q a => encRa 0x92 q a
  | .setf q f => encFlag 0x93 q f
  | .clrf q f => encFlag 0x94 q f
  | .waitf q e f => encWaitf 0x95 q e f
  | .qstat q d e => encQstat 0x96 q d e
  | .vadd q ty d a b => encFv3 0x01 q ty d a b
  | .vsub q ty d a b => encFv3 0x02 q ty d a b
  | .vmul q ty d a b => encFv3 0x03 q ty d a b
  | .vfma q ty d a b c => encFv4 0x04 q ty d a b c
  | .vfms q ty d a b c => encFv4 0x05 q ty d a b c
  | .vfnma q ty d a b c => encFv4 0x06 q ty d a b c
  | .vfnms q ty d a b c => encFv4 0x07 q ty d a b c
  | .vmin q ty d a b => encFv3 0x08 q ty d a b
  | .vmax q ty d a b => encFv3 0x09 q ty d a b
  | .vminn q ty d a b => encFv3 0x0A q ty d a b
  | .vmaxn q ty d a b => encFv3 0x0B q ty d a b
  | .vabs q ty d a => encFv2 0x0C q ty d a
  | .vneg q ty d a => encFv2 0x0D q ty d a
  | .vcpys q ty d a b => encFv3 0x0E q ty d a b
  | .vcmp q ty c e md a b => encVcmp 0x0F q ty c e md a b
  | .vclass q ty d a => encFv2 0x10 q ty d a
  | .vrnd q ty d a => encFv2 0x11 q ty d a
  | .vscale q ty d a b => encFv3 0x12 q ty d a b
  | .viadd q ty d a b => encIv3 0x40 q ty d a b
  | .visub q ty d a b => encIv3 0x41 q ty d a b
  | .vimul q ty d a b => encIv3 0x42 q ty d a b
  | .vimin q ty d a b => encIv3 0x43 q ty d a b
  | .vimax q ty d a b => encIv3 0x44 q ty d a b
  | .viminu q ty d a b => encIv3 0x45 q ty d a b
  | .vimaxu q ty d a b => encIv3 0x46 q ty d a b
  | .vand q ty d a b => encIv3 0x47 q ty d a b
  | .vor q ty d a b => encIv3 0x48 q ty d a b
  | .vxor q ty d a b => encIv3 0x49 q ty d a b
  | .vandn q ty d a b => encIv3 0x4A q ty d a b
  | .vshl q ty d a b => encIv3 0x4B q ty d a b
  | .vshr q ty d a b => encIv3 0x4C q ty d a b
  | .vsar q ty d a b => encIv3 0x4D q ty d a b
  | .vfshl q ty d a b c => encIv4 0x4E q ty d a b c
  | .vfshr q ty d a b c => encIv4 0x4F q ty d a b c
  | .vclz q ty d a => encIv2 0x50 q ty d a
  | .vpopc q ty d a => encIv2 0x51 q ty d a
  | .vicmp q ty c e md a b => encVicmp 0x52 q ty c e md a b
  | .vsatn q n8 d a b => encVsatn 0x53 q n8 d a b
  | .viabs q ty d a => encIv2 0x54 q ty d a
  | .vredadd q ty d a m => encRed 0x60 q ty d a m
  | .vredmax q ty d a m => encRed 0x61 q ty d a m
  | .vredmin q ty d a m => encRed 0x62 q ty d a m
  | .vgmax q ty d a m n => encGrp 0x63 q ty d a m n
  | .vgsum q ty d a m n => encGrp 0x64 q ty d a m n
  | .vscanadd q ty d a m => encRed 0x65 q ty d a m
  | .vscanaff q d a b c => encZ4 0x66 q d a b c
  | .vbsr q d a b c => encVbsr 0x67 q d a b c
  | .vbsw q d a b c => encVbsw 0x68 q d a b c
  | .vmov q d a => encVmov 0x80 q d a
  | .vsplat q ty d src => encVsplat 0x81 q ty d src
  | .vli q d i => encVli 0x82 q d i
  | .vmvs q d a b => encVmvs 0x83 q d a b
  | .vins q d a b => encVins 0x84 q d a b
  | .vperm q d a b c => encZ4 0x85 q d a b c
  | .vrotl q d a b => encVrotl 0x86 q d a b
  | .vslide q d a b c => encVslide 0x87 q d a b c
  | .vzip q ty d a b => encZip 0x88 q ty d a b
  | .vunzip q ty d a b => encZip 0x89 q ty d a b
  | .vsel q d a m c => encVsel 0x8A q d a m c
  | .mlog q op md ma mb => encMlog 0x8B q op md ma mb
  | .mpopc q sel d ma => encMpopc 0x8C q sel d ma
  | .vcvt q sel d a b => encVcvt 0xA0 q sel d a b
  | .vqmx q f d a => encMx 0xA1 q f d a
  | .vdqmx q f d a => encMx 0xA2 q f d a
  | .vpack q sel d a b => encVpack 0xA3 q sel d a b
  | .vunpk q sel d a => encVunpk 0xA4 q sel d a
  | _ => 0

/-- The three slots of a line. -/
inductive Slot where
  | x | m | v
  deriving DecidableEq, Repr

/-- The slot whose opcode map holds a line instruction; `none` for NOP, for stream words and for events. -/
def Instr.slot : Instr → Option Slot
  | .add .. | .sub .. | .addi .. | .mul .. | .mulh .. | .mulhu .. | .div .. | .divu .. | .rem .. | .remu .. | .and ..
  | .or .. | .xor .. | .andn .. | .orn .. | .shl .. | .shr .. | .sar .. | .rol .. | .fshl .. | .fshr .. | .clz .. | .ctz ..
  | .popc .. | .min .. | .max .. | .minu .. | .maxu .. | .sel .. | .li .. | .lih .. | .ext .. | .extu .. | .ins ..
  | .bswap .. | .abs .. | .cmp .. | .cmpi .. | .tstb .. | .pand .. | .por .. | .pxor .. | .pandn .. | .br .. | .brcc ..
  | .call .. | .callr .. | .ret .. | .jmpr .. | .loop .. | .lbrk .. | .forkc .. | .ccset .. | .ccclr .. | .ccwait ..
  | .sleepuntil .. | .safe .. | .spawn .. | .join .. | .yield .. | .exit .. | .mfk .. | .mtk .. | .rdcyc .. | .rddatum ..
  | .locality .. | .trap .. | .eret .. | .brkpt .. | .widle .. | .mempfx .. => some .x
  | .ld .. | .st .. | .pref .. | .vld .. | .vst .. | .vldu .. | .vstm .. | .vlds .. | .vsts .. | .vgath .. | .vscat ..
  | .vldb .. | .talloc .. | .tfree .. | .tgive .. | .ttake .. | .thold .. | .trels .. | .tld .. | .tst .. | .tinfo ..
  | .amo .. | .cas .. | .cas2 .. | .ljoin .. | .lld .. | .lwait .. | .fence .. | .fencesc .. | .fencea .. | .ifence ..
  | .eng .. | .fork .. | .rdv .. | .setf .. | .clrf .. | .waitf .. | .qstat .. => some .m
  | .vadd .. | .vsub .. | .vmul .. | .vfma .. | .vfms .. | .vfnma .. | .vfnms .. | .vmin .. | .vmax .. | .vminn ..
  | .vmaxn .. | .vabs .. | .vneg .. | .vcpys .. | .vcmp .. | .vclass .. | .vrnd .. | .vscale .. | .viadd .. | .visub ..
  | .vimul .. | .vimin .. | .vimax .. | .viminu .. | .vimaxu .. | .vand .. | .vor .. | .vxor .. | .vandn .. | .vshl ..
  | .vshr .. | .vsar .. | .vfshl .. | .vfshr .. | .vclz .. | .vpopc .. | .vicmp .. | .vsatn .. | .viabs .. | .vredadd ..
  | .vredmax .. | .vredmin .. | .vgmax .. | .vgsum .. | .vscanadd .. | .vscanaff .. | .vbsr .. | .vbsw .. | .vmov ..
  | .vsplat .. | .vli .. | .vmvs .. | .vins .. | .vperm .. | .vrotl .. | .vslide .. | .vzip .. | .vunzip .. | .vsel ..
  | .mlog .. | .mpopc .. | .vcvt .. | .vqmx .. | .vdqmx .. | .vpack .. | .vunpk .. => some .v
  | _ => none

/-- One 40-bit syllable as its slot reads it: decoded by the slot's map and then checked (R190 to R192, R196). -/
def decodeSyl (sl : Slot) (w : Nat) : Dec Instr := do
  let i ← match sl with
    | .x => decodeX w
    | .m => decodeM w
    | .v => decodeV w
  match wfCheck i with
  | none => .ok i
  | some r => .error (.illFormed r)

-- Lines (R182).
/-- Why a line's header is refused: bits [122:120] nonzero (R182). -/
def lineReserved (w : Nat) : Nat := w / 1329227995784915872903807060280344576 % 8
def hdrBit (n w : Nat) : Bool := w / 2 ^ n % 2 == 1
def sylX (w : Nat) : Nat := w / 1208925819614629174706176 % 1099511627776
def sylM (w : Nat) : Nat := w / 1099511627776 % 1099511627776
def sylV (w : Nat) : Nat := w % 1099511627776
/-- The 128 bits of a line. -/
def encodeLine (l : Line) : Nat :=
  bit l.sync * 2 ^ 127 + bit l.xpfx * 2 ^ 126 + bit l.holdA * 2 ^ 125 + bit l.holdB * 2 ^ 124 + bit l.holdC * 2 ^ 123 +
    encodeSyl l.x * 1208925819614629174706176 + encodeSyl l.m * 1099511627776 + encodeSyl l.v

-- Stream words (R193).
def sCls (w : Nat) : Nat := w / 4096 % 16
def argZero (n : Nat) (i : Instr) : Dec Instr := if n = 0 then .ok i else .error .argumentOutOfLimits

/-- Class 0x2: stack and ALU words. -/
def decStack (w : Nat) : Dec Instr :=
  let a := w % 64
  match w / 64 % 64 with
  | 0x00 => argZero a .wDup
  | 0x01 => argZero a .wDrop
  | 0x02 => argZero a .wSwap
  | 0x03 => argZero a .wOver
  | 0x04 => argZero a .wRot
  | 0x05 => if h : a < 8 then .ok (.wPick ⟨a, h⟩) else .error .argumentOutOfLimits
  | 0x06 => argZero a .wAdd
  | 0x07 => argZero a .wSub
  | 0x08 => argZero a .wAnd
  | 0x09 => argZero a .wOr
  | 0x0A => argZero a .wXor
  | 0x0B => .ok (.wShl (Fin.ofNat 64 w))
  | 0x0C => .ok (.wShr (Fin.ofNat 64 w))
  | 0x0D => argZero a .wInc
  | 0x0E => argZero a .wDec
  | 0x0F => argZero a .wNeg
  | 0x10 => argZero a .wMin
  | 0x11 => argZero a .wMax
  | 0x12 => argZero a .wEqz
  | _ => .error .unassignedWord

/-- Class 0x3: branches. The target's limits depend on the word's own index and are checked when it runs (R194). -/
def decBranch (w : Nat) : Dec Instr :=
  let o := BitVec.ofNat 10 w
  match w / 1024 % 4 with
  | 0 => .ok (.wJmp o)
  | 1 => .ok (.wJz o)
  | 2 => .ok (.wJnz o)
  | _ => .ok (.wLoopn o)

/-- Class 0x4: control words. -/
def decControl (w : Nat) : Dec Instr :=
  let a := w % 256
  match w / 256 % 16 with
  | 0x0 => argZero a .wEnd
  | 0x1 => argZero a .wReply
  | 0x2 => argZero (a / 64) (.wWaitf (Fin.ofNat 64 w))
  | 0x3 => argZero (a / 64) (.wSetf (Fin.ofNat 64 w))
  | 0x4 => argZero a .wBound
  | 0x5 => argZero a .wJoin
  | 0x6 => argZero (a / 128) (.wCalls (Fin.ofNat 128 w))
  | 0x7 => argZero a .wRets
  | 0x8 => argZero a .wDesc
  | _ => .error .unassignedWord

/-- Class 0x5: matrix words. A shape outside an MMA's set is an argument outside its limits (R194). -/
def decMatrix (w : Nat) : Dec Instr :=
  let a := w % 512
  match w / 512 % 8 with
  | 0 => argZero a .wMload
  | 1 => if h : w / 32 % 16 < 9 then argZero (w % 16) (.wMma ⟨w / 32 % 16, h⟩ (w / 16 % 2 == 1)) else .error .argumentOutOfLimits
  | 2 => argZero a .wAccz
  | 3 => argZero a .wAccout
  | 4 => do let l ← orErr .argumentOutOfLimits (qntOf (w / 128 % 4)); argZero (w % 128) (.wQnt l)
  | _ => .error .unassignedWord

/-- Class 0x6: race words. -/
def decRace (w : Nat) : Dec Instr := do
  let k ← orErr .argumentOutOfLimits (keyOf (w / 64 % 16))
  match w / 1024 % 4 with
  | 0 => argZero (w % 64) (.wRmin k)
  | 1 => argZero (w % 64) (.wRmax k)
  | 2 => argZero (w % 64) (.wRsort k)
  | _ => argZero (w % 32) (.wRtopk k (w / 32 % 2 == 1))

/-- Class 0x7: table words; the shape is 0x9 or 0xA. -/
def decTable (w : Nat) : Dec Instr :=
  let sh := w / 128 % 16
  if sh = 9 ∨ sh = 10 then
    if w / 2048 % 2 = 0 then argZero (w % 128) (.wTbld (sh == 10)) else argZero (w % 64) (.wTbl (sh == 10) (w / 64 % 2 == 1))
  else .error .argumentOutOfLimits

/-- Class 0x8: collective words. -/
def decColl (w : Nat) : Dec Instr := do
  let op ← orErr .argumentOutOfLimits (collOf (w / 256 % 8))
  if w / 2048 % 2 = 0 then argZero (w % 128) (.wScan op (w / 128 % 2 == 1)) else argZero (w % 256) (.wReduce op)

/-- Class 0x9: copy words. -/
def decCopy (w : Nat) : Dec Instr := do
  let sc ← orErr .argumentOutOfLimits (scopeOf (w / 128 % 4))
  match w / 512 % 8 with
  | 0 => argZero (w % 128) (.wCpy sc)
  | 1 => argZero (w % 128) (.wCpy2d sc)
  | 2 => argZero (w % 128) (.wCpyx sc)
  | 3 => argZero (w % 128) (.wCpyg sc)
  | 4 => argZero (w % 512) .wCrci
  | 5 => argZero (w % 64) (.wCrcc sc (w / 64 % 2 == 1))
  | _ => .error .unassignedWord

/-- Class 0xA: special functions. -/
def decFn (w : Nat) : Dec Instr := do
  let f ← orErr .argumentOutOfLimits (fnFmtOf (w / 64 % 4))
  match w / 256 % 16 with
  | 0 => argZero (w % 64) (.wExp2 f)
  | 1 => argZero (w % 64) (.wLog2 f)
  | 2 => argZero (w % 64) (.wRcp f)
  | 3 => argZero (w % 64) (.wRsqrt f)
  | 4 => argZero (w % 64) (.wSinpi f)
  | 5 => argZero (w % 64) (.wCospi f)
  | 6 => argZero (w % 64) (.wTanh f)
  | 7 => argZero (w % 64) (.wSigm f)
  | _ => .error .unassignedWord

/-- A 16-bit stream word (R193): an instruction, or the name of why it raises the engine illegal-word fault (R194). -/
def decodeWord (w : Nat) : Dec Instr :=
  match sCls w with
  | 0x0 => .ok (.wLit (BitVec.ofNat 12 w))
  | 0x1 => .ok (.wLitx (BitVec.ofNat 12 w))
  | 0x2 => decStack w
  | 0x3 => decBranch w
  | 0x4 => decControl w
  | 0x5 => decMatrix w
  | 0x6 => decRace w
  | 0x7 => decTable w
  | 0x8 => decColl w
  | 0x9 => decCopy w
  | 0xA => decFn w
  | _ => .error .reservedClass

/-- The classes each engine kind executes (R291), as a test on an engine id and a word. -/
def kindRuns (e : Nat) (w : Nat) : Bool :=
  let c := sCls w
  if e < 16 then c ≤ 7
  else if w / 256 = 0x48 then false
  else if e < 24 then c ≤ 4 || c == 9
  else if e < 26 then c ≤ 4 || c == 0xA
  else e == 26 && (c ≤ 4 || c == 8)

/-- The 16-bit word of a stream word (R193, R297 to R316); 0 for every other instruction, which has none. -/
def encodeWord : Instr → Nat
  | .wLit i => i.toNat
  | .wLitx i => 0x1000 + i.toNat
  | .wDup => 0x2000 | .wDrop => 0x2040 | .wSwap => 0x2080 | .wOver => 0x20C0 | .wRot => 0x2100
  | .wPick n => 0x2140 + n.val
  | .wAdd => 0x2180 | .wSub => 0x21C0 | .wAnd => 0x2200 | .wOr => 0x2240 | .wXor => 0x2280
  | .wShl n => 0x22C0 + n.val
  | .wShr n => 0x2300 + n.val
  | .wInc => 0x2340 | .wDec => 0x2380 | .wNeg => 0x23C0 | .wMin => 0x2400 | .wMax => 0x2440 | .wEqz => 0x2480
  | .wJmp o => 0x3000 + o.toNat
  | .wJz o => 0x3400 + o.toNat
  | .wJnz o => 0x3800 + o.toNat
  | .wLoopn o => 0x3C00 + o.toNat
  | .wEnd => 0x4000 | .wReply => 0x4100
  | .wWaitf f => 0x4200 + f.val
  | .wSetf f => 0x4300 + f.val
  | .wBound => 0x4400 | .wJoin => 0x4500
  | .wCalls e => 0x4600 + e.val
  | .wRets => 0x4700 | .wDesc => 0x4800
  | .wMload => 0x5000
  | .wMma sh c => 0x5200 + sh.val * 32 + bit c * 16
  | .wAccz => 0x5400 | .wAccout => 0x5600
  | .wQnt l => 0x5800 + qntCode l * 128
  | .wRmin k => 0x6000 + keyCode k * 64
  | .wRmax k => 0x6400 + keyCode k * 64
  | .wRsort k => 0x6800 + keyCode k * 64
  | .wRtopk k lf => 0x6C00 + keyCode k * 64 + bit lf * 32
  | .wTbld b => 0x7000 + (9 + bit b) * 128
  | .wTbl b c => 0x7800 + (9 + bit b) * 128 + bit c * 64
  | .wScan op x => 0x8000 + collCode op * 256 + bit x * 128
  | .wReduce op => 0x8800 + collCode op * 256
  | .wCpy sc => 0x9000 + scopeCode sc * 128
  | .wCpy2d sc => 0x9200 + scopeCode sc * 128
  | .wCpyx sc => 0x9400 + scopeCode sc * 128
  | .wCpyg sc => 0x9600 + scopeCode sc * 128
  | .wCrci => 0x9800
  | .wCrcc sc l => 0x9A00 + scopeCode sc * 128 + bit l * 64
  | .wExp2 f => 0xA000 + fnFmtCode f * 64
  | .wLog2 f => 0xA100 + fnFmtCode f * 64
  | .wRcp f => 0xA200 + fnFmtCode f * 64
  | .wRsqrt f => 0xA300 + fnFmtCode f * 64
  | .wSinpi f => 0xA400 + fnFmtCode f * 64
  | .wCospi f => 0xA500 + fnFmtCode f * 64
  | .wTanh f => 0xA600 + fnFmtCode f * 64
  | .wSigm f => 0xA700 + fnFmtCode f * 64
  | _ => 0

/-- The stream words: the constructors of classes 0x0 to 0xA. -/
def Instr.isWord (i : Instr) : Bool :=
  match i with
  | .wLit .. => true
  | _ => encodeWord i != 0

/-- The one operation of a line that holds one operation (R182): the syllable that is not NOP. -/
def lineOp (w : Nat) : Option Instr :=
  match decodeSyl .x (sylX w), decodeSyl .m (sylM w), decodeSyl .v (sylV w) with
  | .ok .nop, .ok .nop, .ok i => some i
  | .ok .nop, .ok i, .ok .nop => some i
  | .ok i, .ok .nop, .ok .nop => some i
  | _, _, _ => none

/-- What the decoder reads from the bits the opcode table numbers: a 16-bit stream word, or a 128-bit line that holds one operation. -/
def decodeTableWord (nbits w : Nat) : Option Instr :=
  if nbits = 16 then (decodeWord (w % 65536)).toOption
  else if nbits = 128 ∧ lineReserved w = 0 then lineOp w
  else none

end Sys2Proof
end

