-- ==== Sys2Proof/Machine/Loops.lean ====
section
/-!
DEFINITION. Hardware loops (R213 to R217): bodies, stage predicates, the end of an iteration, what a transfer ends, and where a cluster
goes after its line.
-/
namespace Sys2Proof.Machine

/-- A row address: 56 bits (R13, R210). -/
def rowAt (n : Nat) : Word := BitVec.ofNat 64 (n % 72057594037927936)
/-- The row `off` rows from the one at `row` (R209). -/
def rowOff (row : Word) (off : BitVec 24) : Word := rowAt (row + BitVec.ofInt 64 (64 * off.toInt)).toNat

/-- The row is a body row of the loop. -/
def LoopRec.holds (l : LoopRec) (row : Nat) : Bool := decide (l.first ≤ row) && decide (row < l.first + 64 * l.len)
/-- The last body row. -/
def LoopRec.last (l : LoopRec) : Nat := l.first + 64 * l.len - 64
/-- A pipelined loop (R213). -/
def LoopRec.piped (l : LoopRec) : Bool := decide (l.stages ≥ 2) || l.rot
/-- The kernel iterations K (R214). -/
def LoopRec.k (l : LoopRec) : Nat := if l.trip = 0 then 0 else l.trip + l.stages - 1
/-- The stage predicates p8 to p15 of kernel iteration t, p8 lowest (R214). -/
def LoopRec.stagePreds (l : LoopRec) : Nat :=
  (upto 8).foldl (fun a j => if j < l.stages ∧ j ≤ l.t ∧ l.t < j + l.trip then a + 2 ^ j else a) 0

/-- A line lies in a loop body (R186). -/
def Cluster.inBody (c : Cluster) (row : Nat) : Bool := c.loops.any fun l => l.holds row
/-- A pipelined loop is active. -/
def Cluster.inPiped (c : Cluster) : Bool := c.loops.any LoopRec.piped

/-- p8 to p15 replaced. -/
def Cluster.setStages (n : Nat) (c : Cluster) : Cluster :=
  { c with p := (c.p &&& 0x00FF#16) ||| BitVec.ofNat 16 (n % 256 * 256) }

/-- LCn while loop n is active, at its t-th iteration (R214, R219). -/
def Cluster.setLc (id : Fin 8) (act : Bool) (count : Nat) (c : Cluster) : Cluster :=
  { c with lctr := vput c.lctr id ⟨act, BitVec.ofNat 33 count⟩ }

/-- LCn's ACT becomes 0 and its count stays (R217). -/
def Cluster.unact (id : Fin 8) (c : Cluster) : Cluster := { c with lctr := vmod c.lctr id fun l => { l with act := false } }

/-- A loop becomes active (R213, R214). -/
def Cluster.startLoop (l : LoopRec) (c : Cluster) : Cluster :=
  let c1 := ({ c with loops := l :: c.loops }).setLc l.id true (l.k - 1)
  if l.piped then c1.setStages l.stagePreds else c1

/-- The loops of a list, outer ones last, that a transfer from `row` to `target` ends: the outermost loop that holds the row but not the
target, and all nested in it (R217). The result is what remains and what ended. -/
def splitLoops (row target : Nat) : List LoopRec → List LoopRec × List LoopRec
  | [] => ([], [])
  | l :: ls =>
    let (kept, gone) := splitLoops row target ls
    if gone ≠ [] then (kept, l :: gone)
    else if l.holds row && !(l.holds target) then (kept, [l])
    else (l :: kept, [])

/-- The loops that a taken transfer ends, ended (R217). -/
def Cluster.endLoops (row target : Nat) (c : Cluster) : Cluster :=
  let (kept, gone) := splitLoops row target c.loops
  gone.foldl (fun c l => c.unact l.id) { c with loops := kept }

/-- A loop and every loop nested in it ended (R218). -/
def Cluster.breakLoop (id : Fin 8) (c : Cluster) : Cluster :=
  let inner := (c.loops.takeWhile fun l => l.id != id) ++ (c.loops.filter fun l => l.id == id)
  inner.foldl (fun c l => c.unact l.id) { c with loops := (c.loops.dropWhile fun l => l.id != id).drop 1 }

/-- The end of an iteration at a row, inner loop first (R215, R216): `c` so far, with the loops still to look at. A loop whose last row this is
not stays as it is, and those around it are looked at. -/
def iterEnd (row : Nat) (c : Cluster) : List LoopRec → Cluster
  | [] => { c with loops := [], pc := rowAt (row + 64) }
  | l :: ls =>
    if row ≠ l.last then
      let c1 := iterEnd row c ls
      { c1 with loops := l :: c1.loops }
    else
      let c1 := if l.rot then { c with rrb := c.rrb - 1 } else c
      if l.t + 1 < l.k then
        let l1 := { l with t := l.t + 1 }
        let c2 := ({ c1 with loops := l1 :: ls, pc := BitVec.ofNat 64 l.first }).setLc l.id true (l.k - 1 - l1.t)
        if l.piped then c2.setStages l1.stagePreds else c2
      else
        let c2 := c1.setLc l.id false 0
        iterEnd row (if l.piped then c2.setStages 0 else c2) ls

/-- The loops, innermost first, whose iteration ends at a row (R216). -/
def iterEnds (row : Nat) : List LoopRec → List LoopRec
  | [] => []
  | l :: ls => if row ≠ l.last then iterEnds row ls else if l.t + 1 < l.k then [l] else l :: iterEnds row ls

/-- A point at which a precise stop halts a cluster (R412): outside a pipelined loop any boundary, in one the end of a kernel iteration. -/
def Cluster.stopPoint (c : Cluster) : Bool := !(c.inPiped) || c.turned

/-- Where a cluster goes after the line at its row: at its transfer's target, which may end loops, else on by R216. -/
def Cluster.advance (keepLoops : Bool) (c : Cluster) : Cluster :=
  let row := c.pc.toNat
  match c.branch with
  | some t => { (if keepLoops then c else c.endLoops row t.toNat) with pc := t, branch := none, turned := false }
  | none => { iterEnd row c c.loops with turned := c.loops.any fun l => l.last == row }

end Sys2Proof.Machine
end

