-- ==== Sys2Proof/Machine/Hazards.lean ====
section
/-!
DEFINITION. What a line names, syllable by syllable: destinations (R184), scalar sources for the reply interlock (R251), the vector
sources of the V syllable by position (R183), and what it reads implicitly (R184).
-/
namespace Sys2Proof

open Machine

/-- A register that a syllable names as its destination. -/
inductive Dest where
  | s (r : SReg)
  | v (r : VReg)
  | m (r : MReg)
  | p (r : PReg)
  deriving DecidableEq, Repr

/-- The destination of a scalar field that may be discarded. -/
def dS (d : SDst) : List Dest := match d with
  | some r => [.s r]
  | none => []

/-- The destinations that a syllable names (R184); a pair is two (R259). -/
def Instr.dests : Instr → List Dest
  | .add _ d _ _ | .sub _ d _ _ | .mul _ d _ _ | .mulh _ d _ _ | .mulhu _ d _ _ | .div _ d _ _ | .divu _ d _ _ | .rem _ d _ _
  | .remu _ d _ _ | .and _ d _ _ | .or _ d _ _ | .xor _ d _ _ | .andn _ d _ _ | .orn _ d _ _ | .shl _ d _ _ | .shr _ d _ _
  | .sar _ d _ _ | .rol _ d _ _ | .min _ d _ _ | .max _ d _ _ | .minu _ d _ _ | .maxu _ d _ _ => dS d
  | .addi _ d _ _ | .fshl _ d _ _ _ | .fshr _ d _ _ _ | .clz _ d _ | .ctz _ d _ | .popc _ d _ | .sel _ d _ _ _ | .li _ d _
  | .lih _ d _ | .ext _ d _ _ _ | .extu _ d _ _ _ | .bswap _ d _ | .abs _ d _ | .spawn _ d _ | .rdcyc _ d | .rddatum _ d | .locality _ d _
  | .ld _ d _ _ | .vmvs _ d _ _ => dS d
  | .ins _ d _ _ _ | .callr _ d _ | .mfk _ d _ | .tinfo _ d _ | .cas _ _ d _ _ | .qstat _ d _ | .mpopc _ _ d _ => [.s d]
  | .amo _ _ _ d _ _ => dS d
  | .cas2 _ d _ _ => [.s d, .s (d + 1)]
  | .call _ _ => [.s 63]
  | .talloc _ d _ _ pd => dS d ++ [.p pd]
  | .lld _ d _ => (match d with
    | .v n => [.v n]
    | .s n => [.s n]
    | .discard => [])
  | .eng _ _ _ _ r _ => (match r with
    | some d => if d.val = 0 then [] else [.s d]
    | none => [])
  | .cmp _ _ pd _ _ | .cmpi _ _ pd _ _ | .tstb _ _ pd _ _ | .pand _ pd _ _ | .por _ pd _ _ | .pxor _ pd _ _ | .pandn _ pd _ _
  | .lwait _ pd _ _ _ => [.p pd]
  | .vld _ d _ _ | .vldu _ d _ _ | .vlds _ d _ _ _ | .vgath _ d _ _ | .vldb _ d _ _ | .tld _ d _ _ _ => [.v d]
  | .vadd _ _ d _ _ | .vsub _ _ d _ _ | .vmul _ _ d _ _ | .vmin _ _ d _ _ | .vmax _ _ d _ _ | .vminn _ _ d _ _ | .vmaxn _ _ d _ _
  | .vcpys _ _ d _ _ | .vscale _ _ d _ _ | .vabs _ _ d _ | .vneg _ _ d _ | .vclass _ _ d _ | .vrnd _ _ d _ => [.v d]
  | .vfma _ _ d _ _ _ | .vfms _ _ d _ _ _ | .vfnma _ _ d _ _ _ | .vfnms _ _ d _ _ _ => [.v d]
  | .viadd _ _ d _ _ | .visub _ _ d _ _ | .vimul _ _ d _ _ | .vimin _ _ d _ _ | .vimax _ _ d _ _ | .viminu _ _ d _ _
  | .vimaxu _ _ d _ _ | .vand _ _ d _ _ | .vor _ _ d _ _ | .vxor _ _ d _ _ | .vandn _ _ d _ _ | .vshl _ _ d _ _ | .vshr _ _ d _ _
  | .vsar _ _ d _ _ | .vsatn _ _ d _ _ | .vclz _ _ d _ | .vpopc _ _ d _ | .viabs _ _ d _ => [.v d]
  | .vfshl _ _ d _ _ _ | .vfshr _ _ d _ _ _ => [.v d]
  | .vcmp _ _ _ _ md _ _ | .vicmp _ _ _ _ md _ _ | .mlog _ _ md _ _ => [.m md]
  | .vredadd _ _ d _ _ | .vredmax _ _ d _ _ | .vredmin _ _ d _ _ | .vscanadd _ _ d _ _ => [.v d]
  | .vgmax _ _ d _ _ _ | .vgsum _ _ d _ _ _ | .vscanaff _ d _ _ _ => [.v d]
  | .vbsr _ d _ _ c => [.v d, .v c]
  | .vbsw _ d _ _ _ => [.v d, .v (nextV d)]
  | .vzip _ _ d _ _ | .vunzip _ _ d _ _ => [.v d, .v (nextV d)]
  | .vmov _ d _ | .vsplat _ _ d _ | .vli _ d _ | .vins _ d _ _ | .vperm _ d _ _ _ | .vrotl _ d _ _ | .vslide _ d _ _ _
  | .vsel _ d _ _ _ => [.v d]
  | .vcvt _ _ d _ _ | .vqmx _ _ d _ | .vdqmx _ _ d _ | .vpack _ _ d _ _ | .vunpk _ _ d _ => [.v d]
  | _ => []

/-- The scalar of an operand, if it is one. -/
def sOf : VOrS → List SReg
  | .s r => [r]
  | .v _ => []
/-- The scalars of a memory operand (R230). -/
def sOfM : MAddr → List SReg
  | .off b _ => [b]
  | .idx b x => [b, x]
/-- The scalar that holds a handle. -/
def sOfH : HRef → List SReg
  | .num _ => []
  | .reg r => [r]

/-- The scalar sources of a syllable (R251). -/
def Instr.uses : Instr → List SReg
  | .add _ _ a b | .sub _ _ a b | .mul _ _ a b | .mulh _ _ a b | .mulhu _ _ a b | .div _ _ a b | .divu _ _ a b | .rem _ _ a b
  | .remu _ _ a b | .and _ _ a b | .or _ _ a b | .xor _ _ a b | .andn _ _ a b | .orn _ _ a b | .shl _ _ a b | .shr _ _ a b
  | .sar _ _ a b | .rol _ _ a b | .min _ _ a b | .max _ _ a b | .minu _ _ a b | .maxu _ _ a b => [a, b]
  | .fshl _ _ a b c | .fshr _ _ a b c => [a, b, c]
  | .sel _ _ a b _ | .cmp _ _ _ a b | .yield _ a b => [a, b]
  | .addi _ _ a _ | .clz _ _ a | .ctz _ _ a | .popc _ _ a | .ext _ _ a _ _ | .extu _ _ a _ _ | .bswap _ _ a | .abs _ _ a
  | .cmpi _ _ _ a _ | .tstb _ _ _ a _ | .callr _ _ a | .ret _ a | .jmpr _ a | .sleepuntil _ a | .spawn _ _ a | .join _ a
  | .mtk _ _ a | .locality _ _ a | .trap _ _ a | .widle _ a | .rdv _ a => [a]
  | .lih _ d _ => d.toList
  | .ins _ d a _ _ => [d, a]
  | .loop _ n _ _ _ _ => [n]
  | .ld _ _ m _ | .pref _ m | .vld _ _ m _ | .vst _ _ m _ | .vldu _ _ m _ | .vldb _ _ m _ | .lld _ _ m => sOfM m
  | .st _ d m _ => d :: sOfM m
  | .ljoin _ x m => sOf x ++ sOfM m
  | .vstm _ _ m => (match m with
    | .off b _ => [b]
    | .msk b _ => [b])
  | .vlds _ _ b x _ | .vsts _ _ b x _ => [b, x]
  | .vgath _ _ b _ | .vscat _ _ b _ => [b]
  | .talloc _ _ a b _ => [a, b]
  | .tfree _ h | .tgive _ h | .ttake _ h | .tinfo _ _ h | .thold _ h | .trels _ h => sOfH h
  | .tld _ _ h r _ | .tst _ _ h r _ => r :: sOfH h
  | .amo _ _ _ _ a b => [a, b]
  | .cas _ _ d a b => [d, a, b]
  | .cas2 _ d a b => [d, d + 1, a, b, b + 1]
  | .lwait _ _ a b c => [a, b, c]
  | .eng _ _ a b _ _ => [a, b]
  | .fork l a b _ => [l, a, b]
  | .vadd _ _ _ _ b | .vsub _ _ _ _ b | .vmul _ _ _ _ b | .vmin _ _ _ _ b | .vmax _ _ _ _ b | .vminn _ _ _ _ b | .vmaxn _ _ _ _ b
  | .vcpys _ _ _ _ b | .vscale _ _ _ _ b => sOf b
  | .vfma _ _ _ _ b _ | .vfms _ _ _ _ b _ | .vfnma _ _ _ _ b _ | .vfnms _ _ _ _ b _ => sOf b
  | .vcmp _ _ _ _ _ _ b | .vicmp _ _ _ _ _ _ b => sOf b
  | .viadd _ _ _ _ b | .visub _ _ _ _ b | .vimul _ _ _ _ b | .vimin _ _ _ _ b | .vimax _ _ _ _ b | .viminu _ _ _ _ b
  | .vimaxu _ _ _ _ b | .vand _ _ _ _ b | .vor _ _ _ _ b | .vxor _ _ _ _ b | .vandn _ _ _ _ b | .vshl _ _ _ _ b | .vshr _ _ _ _ b
  | .vsar _ _ _ _ b | .vsatn _ _ _ _ b | .vzip _ _ _ _ b | .vunzip _ _ _ _ b | .vpack _ _ _ _ b => sOf b
  | .vfshl _ _ _ _ b _ | .vfshr _ _ _ _ b _ => sOf b
  | .vscanaff _ _ _ b _ | .vbsw _ _ _ b _ | .vperm _ _ _ b _ => sOf b
  | .vmov _ _ a => sOf a
  | .vsplat _ _ _ src => (match src with
    | .lane _ b => [b]
    | .scal a => [a])
  | .vmvs _ _ _ b | .vrotl _ _ _ b | .vslide _ _ _ b _ => [b]
  | .vins _ _ a b => [a, b]
  | .vcvt _ _ _ _ b => (match b with
    | some x => sOf x
    | none => [])
  | _ => []

/-- The vector of an operand, if it is one. -/
def vOf : VOrS → Option VReg
  | .v r => some r
  | .s _ => none

/-- The vector sources of a V syllable at its positions a, b and c (R183, R260). -/
def Instr.vsrc : Instr → Option VReg × Option VReg × Option VReg
  | .vadd _ _ _ a b | .vsub _ _ _ a b | .vmul _ _ _ a b | .vmin _ _ _ a b | .vmax _ _ _ a b | .vminn _ _ _ a b | .vmaxn _ _ _ a b
  | .vcpys _ _ _ a b | .vscale _ _ _ a b => (some a, vOf b, none)
  | .vfma _ _ _ a b c | .vfms _ _ _ a b c | .vfnma _ _ _ a b c | .vfnms _ _ _ a b c => (some a, vOf b, some c)
  | .vabs _ _ _ a | .vneg _ _ _ a | .vclass _ _ _ a | .vrnd _ _ _ a => (some a, none, none)
  | .vcmp _ _ _ _ _ a b | .vicmp _ _ _ _ _ a b => (some a, vOf b, none)
  | .viadd _ _ _ a b | .visub _ _ _ a b | .vimul _ _ _ a b | .vimin _ _ _ a b | .vimax _ _ _ a b | .viminu _ _ _ a b
  | .vimaxu _ _ _ a b | .vand _ _ _ a b | .vor _ _ _ a b | .vxor _ _ _ a b | .vandn _ _ _ a b | .vshl _ _ _ a b | .vshr _ _ _ a b
  | .vsar _ _ _ a b | .vsatn _ _ _ a b | .vzip _ _ _ a b | .vunzip _ _ _ a b | .vpack _ _ _ a b => (some a, vOf b, none)
  | .vclz _ _ _ a | .vpopc _ _ _ a | .viabs _ _ _ a => (some a, none, none)
  | .vfshl _ _ _ a b c | .vfshr _ _ _ a b c => (some a, vOf b, some c)
  | .vredadd _ _ _ a _ | .vredmax _ _ _ a _ | .vredmin _ _ _ a _ | .vscanadd _ _ _ a _ => (some a, none, none)
  | .vgmax _ _ _ a _ _ | .vgsum _ _ _ a _ _ => (some a, none, none)
  | .vscanaff _ _ a b c | .vbsw _ _ a b c | .vperm _ _ a b c => (some a, vOf b, some c)
  | .vbsr _ _ a b c => (some a, some b, some c)
  | .vmov _ _ a => (vOf a, none, none)
  | .vsplat _ _ _ src => (match src with
    | .lane a _ => (some a, none, none)
    | .scal _ => (none, none, none))
  | .vmvs _ _ a _ | .vrotl _ _ a _ | .vqmx _ _ _ a | .vdqmx _ _ _ a | .vunpk _ _ _ a => (some a, none, none)
  | .vslide _ _ a _ c | .vsel _ _ a _ c => (some a, none, some c)
  | .vcvt _ _ _ a b => (some a, b.bind vOf, none)
  | _ => (none, none, none)

/-- The vector names of a syllable in other positions: the M slot's sources, and destinations that an entry also reads. -/
def Instr.vother : Instr → List VReg
  | .vst _ d _ _ | .vstm _ d _ | .vsts _ d _ _ _ | .tst _ d _ _ _ => [d]
  | .vgath _ _ _ x => [x]
  | .vscat _ d _ x => [d, x]
  | .ljoin _ x _ => (match x with
    | .v r => [r]
    | .s _ => [])
  | .vbsr _ _ _ b _ => [nextV b]
  | _ => []

/-- The syllable names a vector register from v16 to v47 (R184). -/
def Instr.namesRotating (i : Instr) : Bool :=
  let (a, b, c) := i.vsrc
  (i.dests.any fun d => match d with
    | .v r => decide (r.val ≥ 16)
    | _ => false) || ((a.toList ++ b.toList ++ c.toList ++ i.vother).any fun r => decide (r.val ≥ 16))

/-- The memory instructions of R135. -/
def Instr.isMem : Instr → Bool
  | .ld _ _ _ _ | .st _ _ _ _ | .pref _ _ | .vld _ _ _ _ | .vst _ _ _ _ | .vldu _ _ _ _ | .vstm _ _ _ | .vlds _ _ _ _ _
  | .vsts _ _ _ _ _ | .vgath _ _ _ _ | .vscat _ _ _ _ | .vldb _ _ _ _ | .amo _ _ _ _ _ _ | .cas _ _ _ _ _ | .cas2 _ _ _ _
  | .ljoin _ _ _ | .lld _ _ _ | .lwait _ _ _ _ _ => true
  | _ => false

/-- The syllables that read NUMCTL implicitly (R184). -/
def Instr.readsNumctl : Instr → Bool
  | .vadd _ _ _ _ _ | .vsub _ _ _ _ _ | .vmul _ _ _ _ _ | .vfma _ _ _ _ _ _ | .vfms _ _ _ _ _ _ | .vfnma _ _ _ _ _ _
  | .vfnms _ _ _ _ _ _ | .vmin _ _ _ _ _ | .vmax _ _ _ _ _ | .vminn _ _ _ _ _ | .vmaxn _ _ _ _ _ | .vcmp _ _ _ _ _ _ _
  | .vrnd _ _ _ _ | .vscale _ _ _ _ _ => true
  | .vredadd _ ty _ _ _ | .vredmax _ ty _ _ _ | .vredmin _ ty _ _ _ | .vscanadd _ ty _ _ _ | .vgmax _ ty _ _ _ _
  | .vgsum _ ty _ _ _ _ => ty == .f32
  | .vscanaff _ _ _ _ _ | .vcvt _ _ _ _ _ | .vqmx _ _ _ _ | .vdqmx _ _ _ _ | .vpack _ _ _ _ _ => true
  | .eng _ _ _ _ _ _ | .fork _ _ _ _ => true
  | _ => false

/-- A VLD with an unpack kind (R128). -/
def Instr.readsUnpk : Instr → Bool
  | .vld _ _ _ (.unpk _) => true
  | _ => false

/-- The MTK hazards of R184. -/
def mtkHazard (xpfx : Bool) (x m v : Instr) : Bool :=
  match x with
  | .mtk _ k _ =>
    let n := k.toNat
    (n == 0 && (m.readsNumctl || v.readsNumctl)) || (n == 2 && !xpfx && m.isMem) ||
      (n == 0x10 && (m.namesRotating || v.namesRotating)) || (decide (8 ≤ n ∧ n < 12) && m.readsUnpk)
  | _ => false

/-- A destination that two of the syllables name (R184). -/
def clash (x m v : Instr) : Bool :=
  let ds := x.dests
  let dm := m.dests
  let dv := v.dests
  (ds.any fun d => dm.contains d || dv.contains d) || dm.any fun d => dv.contains d

/-- The q field of a predicated syllable. -/
def Instr.q : Instr → PReg
  | .add q _ _ _ | .sub q _ _ _ | .mul q _ _ _ | .mulh q _ _ _ | .mulhu q _ _ _ | .div q _ _ _ | .divu q _ _ _ | .rem q _ _ _
  | .remu q _ _ _ | .and q _ _ _ | .or q _ _ _ | .xor q _ _ _ | .andn q _ _ _ | .orn q _ _ _ | .shl q _ _ _ | .shr q _ _ _
  | .sar q _ _ _ | .rol q _ _ _ | .min q _ _ _ | .max q _ _ _ | .minu q _ _ _ | .maxu q _ _ _ => q
  | .addi q _ _ _ | .fshl q _ _ _ _ | .fshr q _ _ _ _ | .clz q _ _ | .ctz q _ _ | .popc q _ _ | .sel q _ _ _ _ | .li q _ _
  | .lih q _ _ | .ext q _ _ _ _ | .extu q _ _ _ _ | .ins q _ _ _ _ | .bswap q _ _ | .abs q _ _ => q
  | .cmp q _ _ _ _ | .cmpi q _ _ _ _ | .tstb q _ _ _ _ | .pand q _ _ _ | .por q _ _ _ | .pxor q _ _ _ | .pandn q _ _ _ => q
  | .br q _ | .brcc q _ _ | .call q _ | .callr q _ _ | .ret q _ | .jmpr q _ | .loop q _ _ _ _ _ | .lbrk q _ _ | .forkc q _ _
  | .ccset q _ | .ccclr q _ | .ccwait q _ | .sleepuntil q _ | .spawn q _ _ | .join q _ | .yield q _ _ | .exit q => q
  | .mfk q _ _ | .mtk q _ _ | .rdcyc q _ | .rddatum q _ | .locality q _ _ | .trap q _ _ | .eret q | .brkpt q _ | .widle q _ => q
  | .ld q _ _ _ | .st q _ _ _ | .pref q _ | .vld q _ _ _ | .vst q _ _ _ | .vldu q _ _ _ | .vstm q _ _ | .vlds q _ _ _ _
  | .vsts q _ _ _ _ | .vgath q _ _ _ | .vscat q _ _ _ | .vldb q _ _ _ => q
  | .talloc q _ _ _ _ | .tfree q _ | .tgive q _ | .ttake q _ | .tld q _ _ _ _ | .tst q _ _ _ _ | .tinfo q _ _ | .thold q _
  | .trels q _ => q
  | .amo q _ _ _ _ _ | .cas q _ _ _ _ | .cas2 q _ _ _ | .ljoin q _ _ | .lld q _ _ | .lwait q _ _ _ _ | .fence q _ _ | .fencesc q _
  | .fencea q _ | .ifence q | .rdv q _ | .setf q _ | .clrf q _ | .waitf q _ _ | .qstat q _ _ => q
  | .vadd q _ _ _ _ | .vsub q _ _ _ _ | .vmul q _ _ _ _ | .vfma q _ _ _ _ _ | .vfms q _ _ _ _ _ | .vfnma q _ _ _ _ _
  | .vfnms q _ _ _ _ _ | .vmin q _ _ _ _ | .vmax q _ _ _ _ | .vminn q _ _ _ _ | .vmaxn q _ _ _ _ | .vabs q _ _ _ | .vneg q _ _ _
  | .vcpys q _ _ _ _ | .vcmp q _ _ _ _ _ _ | .vclass q _ _ _ | .vrnd q _ _ _ | .vscale q _ _ _ _ => q
  | .viadd q _ _ _ _ | .visub q _ _ _ _ | .vimul q _ _ _ _ | .vimin q _ _ _ _ | .vimax q _ _ _ _ | .viminu q _ _ _ _
  | .vimaxu q _ _ _ _ | .vand q _ _ _ _ | .vor q _ _ _ _ | .vxor q _ _ _ _ | .vandn q _ _ _ _ | .vshl q _ _ _ _ | .vshr q _ _ _ _
  | .vsar q _ _ _ _ | .vfshl q _ _ _ _ _ | .vfshr q _ _ _ _ _ | .vclz q _ _ _ | .vpopc q _ _ _ | .vicmp q _ _ _ _ _ _
  | .vsatn q _ _ _ _ | .viabs q _ _ _ => q
  | .vredadd q _ _ _ _ | .vredmax q _ _ _ _ | .vredmin q _ _ _ _ | .vgmax q _ _ _ _ _ | .vgsum q _ _ _ _ _ | .vscanadd q _ _ _ _
  | .vscanaff q _ _ _ _ | .vbsr q _ _ _ _ | .vbsw q _ _ _ _ => q
  | .vmov q _ _ | .vsplat q _ _ _ | .vli q _ _ | .vmvs q _ _ _ | .vins q _ _ _ | .vperm q _ _ _ _ | .vrotl q _ _ _
  | .vslide q _ _ _ _ | .vzip q _ _ _ _ | .vunzip q _ _ _ _ | .vsel q _ _ _ _ | .mlog q _ _ _ _ | .mpopc q _ _ _ => q
  | .vcvt q _ _ _ _ | .vqmx q _ _ _ | .vdqmx q _ _ _ | .vpack q _ _ _ _ | .vunpk q _ _ _ => q
  | _ => 0

/-- A taken transfer's candidates (R211): the syllables that transfer control when their condition holds. -/
def Instr.transfers : Instr → Bool
  | .br _ _ | .brcc _ _ _ | .call _ _ | .callr _ _ _ | .ret _ _ | .jmpr _ _ | .lbrk _ _ _ | .eret _ => true
  | _ => false

/-- YIELD and EXIT (R226). -/
def Instr.ends : Instr → Bool
  | .yield _ _ _ | .exit _ => true
  | _ => false

/-- TRAP and BRKPT (R226, R329). -/
def Instr.traps : Instr → Bool
  | .trap _ _ _ | .brkpt _ _ => true
  | _ => false

/-- CALL and CALLR end no loop (R217). -/
def Instr.calls : Instr → Bool
  | .call _ _ | .callr _ _ _ => true
  | _ => false

end Sys2Proof
end

