-- ==== Sys2Proof/Machine/Records.lean ====
section
/-!
DEFINITION. Continuation records (R13 to R30): reading and checking a record image, pushing it, joining, placement, readiness, and the end
of a run.
-/
namespace Sys2Proof.Machine

/-- A record image (R13): its four doublewords, and the halfwords of its extension block, if it has one (R14). -/
structure Image where
  w0 : Word
  w1 : Word
  w2 : Word
  w3 : Word
  ext : List Nat
  deriving DecidableEq, Repr

/-- The doublewords of 32 bytes. -/
def imageOf (bs : List Byte) (ext : List Nat) : Image :=
  let w (k : Nat) : Word := BitVec.ofNat 64 (leNat ((bs.drop (8 * k)).take 8))
  ⟨w 0, w 1, w 2, w 3, ext⟩

/-- CODE and FRAME as addresses (R13). -/
def Image.code (i : Image) : Nat := wf_ 63 14 i.w1 * 64
def Image.frame (i : Image) : Nat := wf_ 63 14 i.w2 * 64
/-- The address of the extension block; `none` for an EXTOFF of 0 (R13). -/
def Image.extAddr (i : Image) : Option Nat := if wf_ 13 0 i.w2 = 0 then none else some (i.frame + 64 * wf_ 13 0 i.w2)
/-- The halfwords of an extension block of 64 bytes. -/
def halfwords (bs : List Byte) : List Nat := (upto 32).map fun k => leNat ((bs.drop (2 * k)).take 2)
/-- The further predecessor distances (R14). -/
def Image.extDists (i : Image) : List Nat := (i.ext.drop 1).take (i.ext.headD 0)
/-- The predecessor distances that are not 0 (R13, R14). -/
def Image.dists (i : Image) : List Nat :=
  ([wf_ 47 38 i.w3, wf_ 37 28 i.w3, wf_ 27 18 i.w3, wf_ 17 8 i.w3] ++ i.extDists.map fun d => d % 1024).filter fun d => d != 0

/-- R16 refuses the image. -/
def Image.bad (i : Image) : Bool :=
  wf_ 13 12 i.w1 != 0 || wf_ 1 0 i.w3 != 0 || decide (wf_ 5 4 i.w3 > 1) || (wf_ 5 4 i.w3 == 1 && wf_ 63 21 i.w1 != 0) ||
    decide (i.ext.headD 0 > 31) || i.extDists.any fun d => decide (d ≥ 1024)

/-- The start of a launch's retirement window: its oldest record that has not retired (R15). -/
def State.windowStart (s : State) (l : Launch) : Nat :=
  ((s.recs.filter fun r => r.lid == l.lid && r.state != .retired && r.state != .lost).map Rec.seq).foldl Nat.min l.nextSeq

/-- The ring of a priority has a free slot (R379). -/
def State.ringRoom (s : State) (pri : Nat) : Bool :=
  let log := wf_ 4 0 (s.pkg.pqring[Fin.ofNat 4 pri])
  log != 0 && decide ((s.recs.filter fun r => r.pri == pri && r.state != .retired && r.state != .lost).length + s.iss.spawns < 2 ^ log)

/-- A push of a launch may take its place now, after those of earlier lines of the folio (R15, R34, R379). -/
def State.mayPush (s : State) (l : Launch) (pri : Nat) : Bool := decide (l.nextSeq + s.iss.spawns < s.windowStart l + 1024) && s.ringRoom pri

/-- The values of a launch's fields in a WID, most significant field first, each with its field (R25). -/
def fieldVals : List LField → Nat → List (LField × Nat)
  | [], _ => []
  | f :: fs, w =>
    let low := (fs.map LField.width).foldl (· + ·) 0
    (f, w / 2 ^ low % 2 ^ f.width) :: fieldVals fs w

/-- The mixed-radix value of the fields of a scope, 0 system, 1 package, 2 core (R28). -/
def mixedRadix (fs : List (LField × Nat)) (scope : Nat) : Nat :=
  (fs.filter fun f => f.1.scope == scope).foldl (fun a f => a * f.1.extent + f.2) 0

/-- The cores of a core mask, in order. -/
def maskCores (m : BitVec 32) : List Nat := (upto 32).filter fun n => m.getLsbD n

/-- The core on which a deterministic launch places a WID (R28). -/
def Launch.coreFor (l : Launch) (wid : Word) : Option Nat :=
  let cs := maskCores l.cmask
  cs[mixedRadix (fieldVals l.fields wid.toNat) 1 % cs.length]?

/-- A predecessor has retired: one that the launch no longer lists is older than its window (R15). -/
def State.predDone (s : State) (lid q : Nat) : Bool := match s.recOf lid q with
  | some r => r.state == .retired
  | none => true

/-- A record meets the conditions of READY (R17). -/
def State.eligible (s : State) (r : Rec) : Bool := r.jcnt == 0 && (!r.node || r.preds.all (s.predDone r.lid))

/-- The lowest slot of a priority's ring that holds no record (R379; log entry 102). -/
def State.freeSlot (s : State) (pri : Nat) : Nat :=
  let used := (s.recs.filter fun r => r.pri == pri && r.state != .retired && r.state != .lost).map Rec.slot
  ((upto (used.length + 1)).filter fun k => !(used.contains k)).headD 0

/-- A record becomes READY at the tail of its queue (R17, R22). -/
def State.toReady (s : State) (lid seq : Nat) : State :=
  { s with ids := s.ids + 1 }.onRec lid seq fun r =>
    { r with state := .ready, readyStamp := (s.ids : Int) + 1, readyDatum := s.datum, readyCode := r.code, retiredSince := [], nidem := false }

/-- A record pushed into a launch (R13 to R16, R19, R22, R28): it takes the next sequence number and a slot of its ring, and is READY at once
where nothing keeps it PENDING. -/
def State.pushRec (s : State) (l : Launch) (i : Image) (det member : Bool) : State :=
  let helper := wf_ 5 4 i.w3 == 1
  let r : Rec := {
    lid := l.lid, seq := l.nextSeq, wid := i.w0, code := i.code, frame := i.frame, jcnt := wf_ 11 0 i.w1
    preds := (i.dists.filter fun d => decide (d ≤ l.nextSeq)).map fun d => l.nextSeq - d
    pri := wf_ 7 6 i.w3, helper := helper, node := nbit 3 i.w3.toNat, det := det, member := member, state := .pending
    dw2 := i.w2, dw3 := i.w3, slot := s.freeSlot (wf_ 7 6 i.w3)
    readyStamp := 0, readyDatum := 0, readyCode := i.code
    core := if det && !helper then l.coreFor i.w0 else none
    rollbacks := 0, retiredSince := [], nidem := false, fp := 0, held := none, posns := [], sig := .empty }
  let s1 := { s with recs := s.recs ++ [r] }.onLaunch l.lid fun l => { l with nextSeq := l.nextSeq + 1 }
  (if s1.eligible r then s1.toReady r.lid r.seq else s1).writeRing r.lid r.seq

/-- The record of a launch that a 16-bit sequence number names (R15, R225): within the retirement window. -/
def State.namedRec (s : State) (l : Launch) (n : Nat) : Option Rec :=
  s.recs.find? fun r => r.lid == l.lid && r.seq % 65536 == n && decide (s.windowStart l ≤ r.seq)

/-- JOIN on a record of a launch (R19): the counter of a PENDING record goes down by one; else a join underflow is reported. -/
def State.joinRec (s : State) (l : Launch) (joiner n : Nat) : State :=
  let under := s.faultRec (Fin.ofNat 64 l.asid) 0x21 0 s.at_.core.val s.at_.clu.val 0xFF
    (match s.core.run with | some r => r.wid | none => 0) l.tag (BitVec.ofNat 64 (joiner % 65536)) (BitVec.ofNat 64 n) 0 0
  match s.namedRec l n with
  | some r => if r.state == .pending && r.jcnt != 0 then (s.onRec l.lid r.seq fun r => { r with jcnt := r.jcnt - 1 }).writeRing l.lid r.seq else under
  | none => under

-- The end of a run.
/-- Some command of a record waits in a queue of the core (R228). -/
def Core.hasQueued (k : Core) (lid seq : Nat) : Bool :=
  (List.finRange 27).any fun e => (k.eng[e]).queue.any fun q => match q with
    | .cmd c => c.lid == lid && c.seq == seq
    | _ => false
/-- Some command of a record runs on the core, other than one of a run that was rolled back. -/
def Core.hasRunning (k : Core) (lid seq : Nat) : Bool :=
  (List.finRange 27).any fun e => match (k.eng[e]).cmd with
    | some c => c.spec.lid == lid && c.spec.seq == seq && !c.killed
    | none => false

/-- The acting core's run ends: the core is idle from here, its registers, loops and latches discarded (R21, R226). -/
def State.endRun (s : State) : State :=
  let s1 := s.capture 2 s.at_.core.val s.at_.clu.val 0
  { (s1.onCore fun k => k.endCycle.idle s.datum) with iss := { s.iss with ending := true } }

end Sys2Proof.Machine
end

