-- ==== Sys2Proof/Machine/ScalarX.lean ====
section
/-!
DEFINITION. The integer operations of the X slot, the comparisons and the predicates (R187, R197 to R207).
-/
namespace Sys2Proof.Machine

/-- A scalar result of an X syllable under its condition (R197). -/
def aluX (q : PReg) (d : SDst) (x : Word) (s : State) : Res := whenQ 0 q s (.next (writeD d x s))

/-- A predicate destination that a pipelined loop protects (R204). -/
def stageWrite (pd : PReg) (s : State) : Bool := decide (pd.val ≥ 8) && s.iss.src.inPiped

/-- A predicate result of an X syllable under its condition (R204). -/
def predX (q pd : PReg) (b : Bool) (s : State) : Res :=
  whenQ 0 q s (if stageWrite pd s then illegalOp 0 s else .next (writeP pd b s))

/-- The meaning of a well-formed instruction; an ill-formed one is an illegal operation of its slot (R196). -/
def ifWf (slot : Nat) (i : Instr) (s : State) (k : Res) : Res := if i.wf then k else illegalOp slot s

-- R198 and R202: sums, products, logic, shifts, lesser and greater.
/-- The shift count of a scalar shift (R198). -/
def shCount (b : Word) : Nat := b.toNat % 64
/-- The high half of a signed product (R198). -/
def mulHi (a b : Word) : Word := BitVec.ofInt 64 (a.toInt * b.toInt / 18446744073709551616)
/-- The high half of an unsigned product (R198). -/
def mulHiU (a b : Word) : Word := BitVec.ofNat 64 (a.toNat * b.toNat / 18446744073709551616)

/-- NOP does nothing (R187). -/
def execNop (s : State) : Res := .next s
/-- ADD (R198). -/
def execAdd (q : PReg) (d : SDst) (a b : SReg) (s : State) : Res := aluX q d (srcS a s + srcS b s) s
/-- SUB (R198). -/
def execSub (q : PReg) (d : SDst) (a b : SReg) (s : State) : Res := aluX q d (srcS a s - srcS b s) s
/-- ADDI (R202). -/
def execAddi (q : PReg) (d : SDst) (a : SReg) (i : BitVec 14) (s : State) : Res := aluX q d (srcS a s + i.signExtend 64) s
/-- MUL (R198). -/
def execMul (q : PReg) (d : SDst) (a b : SReg) (s : State) : Res := aluX q d (srcS a s * srcS b s) s
/-- MULH (R198). -/
def execMulh (q : PReg) (d : SDst) (a b : SReg) (s : State) : Res := aluX q d (mulHi (srcS a s) (srcS b s)) s
/-- MULHU (R198). -/
def execMulhu (q : PReg) (d : SDst) (a b : SReg) (s : State) : Res := aluX q d (mulHiU (srcS a s) (srcS b s)) s
/-- AND (R198). -/
def execAnd (q : PReg) (d : SDst) (a b : SReg) (s : State) : Res := aluX q d (srcS a s &&& srcS b s) s
/-- OR (R198). -/
def execOr (q : PReg) (d : SDst) (a b : SReg) (s : State) : Res := aluX q d (srcS a s ||| srcS b s) s
/-- XOR (R198). -/
def execXor (q : PReg) (d : SDst) (a b : SReg) (s : State) : Res := aluX q d (srcS a s ^^^ srcS b s) s
/-- ANDN (R198). -/
def execAndn (q : PReg) (d : SDst) (a b : SReg) (s : State) : Res := aluX q d (srcS a s &&& ~~~(srcS b s)) s
/-- ORN (R198). -/
def execOrn (q : PReg) (d : SDst) (a b : SReg) (s : State) : Res := aluX q d (srcS a s ||| ~~~(srcS b s)) s
/-- SHL (R198). -/
def execShl (q : PReg) (d : SDst) (a b : SReg) (s : State) : Res := aluX q d (srcS a s <<< shCount (srcS b s)) s
/-- SHR (R198). -/
def execShr (q : PReg) (d : SDst) (a b : SReg) (s : State) : Res := aluX q d (srcS a s >>> shCount (srcS b s)) s
/-- SAR (R198). -/
def execSar (q : PReg) (d : SDst) (a b : SReg) (s : State) : Res := aluX q d ((srcS a s).sshiftRight (shCount (srcS b s))) s
/-- ROL (R198). -/
def execRol (q : PReg) (d : SDst) (a b : SReg) (s : State) : Res := aluX q d ((srcS a s).rotateLeft (shCount (srcS b s))) s
/-- MIN (R198). -/
def execMin (q : PReg) (d : SDst) (a b : SReg) (s : State) : Res :=
  aluX q d (if (srcS a s).toInt ≤ (srcS b s).toInt then srcS a s else srcS b s) s
/-- MAX (R198). -/
def execMax (q : PReg) (d : SDst) (a b : SReg) (s : State) : Res :=
  aluX q d (if (srcS a s).toInt ≤ (srcS b s).toInt then srcS b s else srcS a s) s
/-- MINU (R198). -/
def execMinu (q : PReg) (d : SDst) (a b : SReg) (s : State) : Res :=
  aluX q d (if (srcS a s).toNat ≤ (srcS b s).toNat then srcS a s else srcS b s) s
/-- MAXU (R198). -/
def execMaxu (q : PReg) (d : SDst) (a b : SReg) (s : State) : Res :=
  aluX q d (if (srcS a s).toNat ≤ (srcS b s).toNat then srcS b s else srcS a s) s

-- R199: division, with its boundary cases.
/-- The signed quotient, truncated towards zero; all ones for a divisor of 0 (R199). -/
def divS (a b : Word) : Word := if b = 0 then BitVec.allOnes 64 else BitVec.ofInt 64 (a.toInt.tdiv b.toInt)
/-- The signed remainder, with the sign of a; a for a divisor of 0 (R199). -/
def remS (a b : Word) : Word := if b = 0 then a else BitVec.ofInt 64 (a.toInt.tmod b.toInt)
/-- The unsigned quotient (R199). -/
def divU (a b : Word) : Word := if b = 0 then BitVec.allOnes 64 else BitVec.ofNat 64 (a.toNat / b.toNat)
/-- The unsigned remainder (R199). -/
def remU (a b : Word) : Word := if b = 0 then a else BitVec.ofNat 64 (a.toNat % b.toNat)

/-- DIV (R199). -/
def execDiv (q : PReg) (d : SDst) (a b : SReg) (s : State) : Res := aluX q d (divS (srcS a s) (srcS b s)) s
/-- DIVU (R199). -/
def execDivu (q : PReg) (d : SDst) (a b : SReg) (s : State) : Res := aluX q d (divU (srcS a s) (srcS b s)) s
/-- REM (R199). -/
def execRem (q : PReg) (d : SDst) (a b : SReg) (s : State) : Res := aluX q d (remS (srcS a s) (srcS b s)) s
/-- REMU (R199). -/
def execRemu (q : PReg) (d : SDst) (a b : SReg) (s : State) : Res := aluX q d (remU (srcS a s) (srcS b s)) s

-- R200: funnel shifts and selection.
/-- FSHL's result: bits [127:64] of a ‖ b shifted left (R200). -/
def funnelL (a b : Word) (n : Nat) : Word := BitVec.ofNat 64 ((a.toNat * 2 ^ 64 + b.toNat) * 2 ^ n / 2 ^ 64)
/-- FSHR's result: bits [63:0] of a ‖ b shifted right (R200). -/
def funnelR (a b : Word) (n : Nat) : Word := BitVec.ofNat 64 ((a.toNat * 2 ^ 64 + b.toNat) / 2 ^ n)

/-- FSHL (R200). -/
def execFshl (q : PReg) (d : SDst) (a b c : SReg) (s : State) : Res := aluX q d (funnelL (srcS a s) (srcS b s) (shCount (srcS c s))) s
/-- FSHR (R200). -/
def execFshr (q : PReg) (d : SDst) (a b c : SReg) (s : State) : Res := aluX q d (funnelR (srcS a s) (srcS b s) (shCount (srcS c s))) s
/-- SEL (R200). -/
def execSel (q : PReg) (d : SDst) (a b : SReg) (c : PReg) (s : State) : Res := aluX q d (if srcP c s then srcS a s else srcS b s) s

-- R201: one source.
/-- Eight bytes in reverse order (R201). -/
def byteSwap (a : Word) : Word := BitVec.ofNat 64 (leNat (leBytes 8 a.toNat).reverse)
/-- CLZ (R201). -/
def execClz (q : PReg) (d : SDst) (a : SReg) (s : State) : Res := aluX q d (BitVec.ofNat 64 (clzNat 64 (srcS a s).toNat)) s
/-- CTZ (R201). -/
def execCtz (q : PReg) (d : SDst) (a : SReg) (s : State) : Res := aluX q d (BitVec.ofNat 64 (ctzNat 64 (srcS a s).toNat)) s
/-- POPC (R201). -/
def execPopc (q : PReg) (d : SDst) (a : SReg) (s : State) : Res := aluX q d (BitVec.ofNat 64 (popCount 64 (srcS a s).toNat)) s
/-- BSWAP (R201). -/
def execBswap (q : PReg) (d : SDst) (a : SReg) (s : State) : Res := aluX q d (byteSwap (srcS a s)) s
/-- ABS (R201). -/
def execAbs (q : PReg) (d : SDst) (a : SReg) (s : State) : Res := aluX q d (if (srcS a s).toInt < 0 then -(srcS a s) else srcS a s) s

-- R202 and R203: immediates and fields.
/-- LI (R202). -/
def execLi (q : PReg) (d : SDst) (i : BitVec 21) (s : State) : Res := aluX q d (i.signExtend 64) s
/-- LIH's result (R202): what its destination holds, moved up, with the immediate; nothing is kept of one that is discarded. -/
def lihField (d : SDst) (i : BitVec 16) (s : State) : Word := match d with
  | some r => (srcS r s <<< 16) ||| i.setWidth 64
  | none => i.setWidth 64
/-- LIH reads its own destination (R202), which may be discarded (R197). -/
def execLih (q : PReg) (d : SDst) (i : BitVec 16) (s : State) : Res := aluX q d (lihField d i s) s

/-- a[pos + width − 1 : pos] (R203). -/
def fieldOf (a : Word) (pos width : Nat) : Nat := bits (pos + width - 1) pos a.toNat
/-- INS's result (R203). -/
def insField (d a : Word) (pos width : Nat) : Word :=
  let m : Word := BitVec.ofNat 64 ((2 ^ width - 1) * 2 ^ pos)
  (d &&& ~~~m) ||| ((a <<< pos) &&& m)

/-- EXT (R203). -/
def execExt (q : PReg) (d : SDst) (a : SReg) (pos wm1 : Fin 64) (s : State) : Res :=
  ifWf 0 (.ext q d a pos wm1) s (aluX q d (signExt (wm1.val + 1) (fieldOf (srcS a s) pos.val (wm1.val + 1))) s)
/-- EXTU (R203). -/
def execExtu (q : PReg) (d : SDst) (a : SReg) (pos wm1 : Fin 64) (s : State) : Res :=
  ifWf 0 (.extu q d a pos wm1) s (aluX q d (BitVec.ofNat 64 (fieldOf (srcS a s) pos.val (wm1.val + 1))) s)
/-- INS (R203). -/
def execIns (q : PReg) (d : SReg) (a : SReg) (pos wm1 : Fin 64) (s : State) : Res :=
  ifWf 0 (.ins q d a pos wm1) s (aluX q (some d) (insField (srcS d s) (srcS a s) pos.val (wm1.val + 1)) s)

-- R205 to R207: comparisons and predicates.
/-- The outcome of a condition (R205). -/
def condHolds (c : Cond) (a b : Word) : Bool :=
  match c with
  | .eq => a == b
  | .ne => a != b
  | .lt => decide (a.toInt < b.toInt)
  | .ge => decide (b.toInt ≤ a.toInt)
  | .ltu => decide (a.toNat < b.toNat)
  | .geu => decide (b.toNat ≤ a.toNat)
  | .tz => (a &&& b) == 0
  | .tnz => (a &&& b) != 0

/-- CMP (R205). -/
def execCmp (q : PReg) (c : Cond) (pd : PReg) (a b : SReg) (s : State) : Res := predX q pd (condHolds c (srcS a s) (srcS b s)) s
/-- CMPI (R205). -/
def execCmpi (q : PReg) (c : Cond) (pd : PReg) (a : SReg) (i : BitVec 14) (s : State) : Res :=
  predX q pd (condHolds c (srcS a s) (i.signExtend 64)) s
/-- TSTB (R206). -/
def execTstb (q : PReg) (clr : Bool) (pd : PReg) (a : SReg) (bit : Fin 64) (s : State) : Res :=
  predX q pd ((srcS a s).getLsbD bit.val != clr) s
/-- PAND (R207). -/
def execPand (q : PReg) (pd pa pb : PReg) (s : State) : Res := predX q pd (srcP pa s && srcP pb s) s
/-- POR (R207). -/
def execPor (q : PReg) (pd pa pb : PReg) (s : State) : Res := predX q pd (srcP pa s || srcP pb s) s
/-- PXOR (R207). -/
def execPxor (q : PReg) (pd pa pb : PReg) (s : State) : Res := predX q pd (srcP pa s != srcP pb s) s
/-- PANDN (R207). -/
def execPandn (q : PReg) (pd pa pb : PReg) (s : State) : Res := predX q pd (srcP pa s && !(srcP pb s)) s

end Sys2Proof.Machine
end

