-- ==== Sys2Proof/Machine/Control.lean ====
section
/-!
DEFINITION. Transfers of control, hardware loops, cluster coordination and waiting, safe points, and strands (R208 to R229).
-/
namespace Sys2Proof.Machine

/-- The row of the line being issued. -/
def State.row (s : State) : Word := s.iss.src.pc
/-- The row after it. -/
def State.nextRow (s : State) : Word := rowAt (s.row.toNat + 64)
/-- A taken transfer to a row (R208). -/
def transferTo (t : Word) (s : State) : State := s.onClu fun c => { c with branch := some t }
/-- A register transfer's target (R210): `none` where a[63:56] is not zero. -/
def regTarget (a : Word) : Option Word := if wf_ 63 56 a = 0 then some (BitVec.ofNat 64 (wf_ 55 6 a * 64)) else none

/-- BR (R209). -/
def execBr (q : PReg) (off : BitVec 24) (s : State) : Res := whenQ 0 q s (.next (transferTo (rowOff s.row off) s))
/-- BRCC reads the cc bits as they stood at the start of the cycle (R209, R36). -/
def execBrcc (q : PReg) (cc : Fin 16) (off : BitVec 24) (s : State) : Res :=
  whenQ 0 q s (.next (if s.core.cc.getLsbD cc.val then transferTo (rowOff s.row off) s else s))
/-- The return stack takes an address (R344): of eight, the oldest leaves. -/
def pushReturn (s : State) : State := s.onClu fun c => { c with rstk := (s.nextRow :: c.rstk).take 8 }
/-- The return stack gives one up. -/
def popReturn (s : State) : State := s.onClu fun c => { c with rstk := c.rstk.drop 1 }

/-- CALL (R209). -/
def execCall (q : PReg) (off : BitVec 24) (s : State) : Res := whenQ 0 q s (.next (transferTo (rowOff s.row off) (pushReturn (writeS 63 s.nextRow s))))
/-- CALLR (R210). -/
def execCallr (q : PReg) (d : SReg) (a : SReg) (s : State) : Res :=
  whenQ 0 q s (match regTarget (srcS a s) with
    | some t => .next (transferTo t (pushReturn (writeS d s.nextRow s)))
    | none => illegalOp 0 s)
/-- RET (R210, R344). -/
def execRet (q : PReg) (a : SReg) (s : State) : Res :=
  whenQ 0 q s (match regTarget (srcS a s) with
    | some t => .next (transferTo t (popReturn s))
    | none => illegalOp 0 s)
/-- JMPR has RET's effect, but for the return stack (R210, R344). -/
def execJmpr (q : PReg) (a : SReg) (s : State) : Res :=
  whenQ 0 q s (match regTarget (srcS a s) with
    | some t => .next (transferTo t s)
    | none => illegalOp 0 s)

-- Loops.
/-- The loop that a LOOP sets up (R213). -/
def loopOf (n : Word) (id : Fin 8) (rot : Bool) (sm1 : Fin 8) (lenm1 : BitVec 14) (s : State) : LoopRec where
  id := id
  first := s.nextRow.toNat
  len := lenm1.toNat + 1
  stages := sm1.val + 1
  rot := rot
  trip := n.toNat % 4294967296
  t := 0

/-- A LOOP is refused (R213): its id is active, a pipelined loop is active, or an active body does not hold the LOOP and its whole body. -/
def loopRefused (l : LoopRec) (s : State) : Bool :=
  let ls := s.iss.src.loops
  (ls.any fun m => m.id == l.id) || s.iss.src.inPiped || ls.any fun m => !(m.holds s.row.toNat && m.holds l.first && m.holds l.last)

/-- LOOP (R213, R214). A trip count of 0 leaves for the row after the body, as a taken transfer does (log entry 144). -/
def execLoop (q : PReg) (st : SReg) (id : Fin 8) (rot : Bool) (sm1 : Fin 8) (lenm1 : BitVec 14) (s : State) : Res :=
  let l := loopOf (srcS st s) id rot sm1 lenm1 s
  whenQ 0 q s (
    if loopRefused l s then illegalOp 0 s
    else if l.trip = 0 then
      .next (transferTo (rowAt (l.first + 64 * l.len)) (if l.piped then s.onClu (Cluster.setStages 0) else s))
    else .next (s.onClu (Cluster.startLoop l)))

/-- LBRK (R218). -/
def execLbrk (q : PReg) (id : Fin 8) (off : BitVec 24) (s : State) : Res :=
  whenQ 0 q s (
    if s.iss.src.loops.any fun l => l.id == id then .next (transferTo (rowOff s.row off) (s.onClu (Cluster.breakLoop id)))
    else illegalOp 0 s)

-- Cluster coordination.
/-- FORKC (R35, R212): each cluster of the mask goes on at the target row; outside a folio it is illegal. -/
def execForkc (q : PReg) (mask : BitVec 4) (off : BitVec 24) (s : State) : Res :=
  ifWf 0 (.forkc q mask off) s (whenQ 0 q s (
    if s.iss.sync then
      .next (s.onCore fun k => { k with clu := vall k.clu fun i c => if mask.getLsbD i.val then { c with forked := some (rowOff s.row off) } else c })
    else illegalOp 0 s))

/-- The commands that a cluster knows to come before its next one: those that CCWAITs told it of, and its own (R36). -/
def State.knows (s : State) : Vector Nat 4 := vput s.clu.known s.at_.clu s.core.stamps
/-- Two such lists together. -/
def joinKnown (a b : Vector Nat 4) : Vector Nat 4 := Vector.ofFn fun i => Nat.max a[i] b[i]

/-- CCSET (R36, R220): a release at core scope (R149). The bits are set at the end of the cycle. -/
def execCcset (q : PReg) (mask : BitVec 16) (s : State) : Res :=
  whenQ 0 q s (releaseAt .core s (.next (s.onCore fun k =>
    { k with
      ccSet := k.ccSet ||| mask
      cck := vall k.cck fun i v => if mask.getLsbD i.val then joinKnown v s.knows else v })))
/-- CCCLR (R36, R220): at the end of the cycle; a set of the same cycle wins. -/
def execCcclr (q : PReg) (mask : BitVec 16) (s : State) : Res := whenQ 0 q s (.next (s.onCore fun k => { k with ccClr := k.ccClr ||| mask }))

/-- Every bit of a mask is set. -/
def ccAll (mask : BitVec 16) (s : State) : Bool := (s.core.cc &&& mask) == mask
/-- CCWAIT (R36, R220): it pairs with every earlier CCSET of its bits in the run (R52; log entry 139). -/
def execCcwait (q : PReg) (mask : BitVec 16) (s : State) : Res :=
  whenQ 0 q s (waitFor (.ccwait mask) (ccAll mask s) s (.next (s.onClu fun c =>
    { c with known := (List.finRange 16).foldl (fun v i => if mask.getLsbD i.val then joinKnown v s.core.cck[i] else v) c.known })))

/-- SLEEPUNTIL (R221). -/
def execSleepuntil (q : PReg) (a : SReg) (s : State) : Res := whenQ 0 q s (waitFor (.sleep (srcS a s)) (wle (srcS a s) s.cyc) s (.next s))

/-- SAFE (R223): the drought count starts again. What it marks live matters where the line stands at a halt. -/
def execSafe (_ : BitVec 24) (_ : BitVec 8) (s : State) : Res := .next (s.onClu fun c => { c with drought := 0, dfired := false })

-- Strands.
/-- A relaxed load at core scope, as SPAWN makes it (R224), with the ports that it takes (R37). -/
def spawnLoad (va n : Nat) (s : State) : Loaded :=
  match loadBytes .load ((upto n).map fun i => va + i) { s with iss := { s.iss with attr := some { ord := .rlx, scope := .core } } } with
  | .ok bs t => .ok bs { t with iss := { s.iss with ports := t.iss.ports } }
  | .stop r => .stop r

/-- What SPAWN reads: the image, and its extension block where it has one (R13, R14, R224). -/
inductive Spawned where
  | ok (i : Image) (s : State)
  | stop (r : Res)

def readImage (va : Nat) (s : State) : Spawned :=
  match spawnLoad va 32 s with
  | .stop r => .stop r
  | .ok bs t =>
    match (imageOf bs []).extAddr with
    | none => .ok (imageOf bs []) t
    | some x => match spawnLoad x 64 t with
      | .stop r => .stop r
      | .ok es u => .ok (imageOf bs (halfwords es)) u

/-- SPAWN (R224, R19): a release at system scope (R229). -/
def execSpawn (q : PReg) (d : SDst) (a : SReg) (s : State) : Res :=
  whenQ 0 q s (
    if (srcS a s).toNat % 32 ≠ 0 then pageFault .alignment (srcS a s).toNat .load s
    else match readImage (srcS a s).toNat s with
      | .stop r => r
      | .ok i t =>
        if i.bad then illegalOp 0 t
        else match s.core.run, s.myLaunch with
          | some r, some l =>
            releaseAt .sys t (waitFor .push (s.mayPush l (wf_ 7 6 i.w3)) t (
              .next (writeD d (BitVec.ofNat 64 (l.nextSeq % 65536)) (t.pushRec l i ((t.recOf r.lid r.seq).any Rec.det) false))))
          | _, _ => .next t)

/-- JOIN (R225, R19): a release at system scope (R229). -/
def execJoin (q : PReg) (a : SReg) (s : State) : Res :=
  whenQ 0 q s (
    if wf_ 63 16 (srcS a s) ≠ 0 then illegalOp 0 s
    else releaseAt .sys s (match s.core.run, s.myLaunch with
      | some r, some l => .next (s.joinRec l r.seq (wf_ 15 0 (srcS a s)))
      | _, _ => .next s))

/-- The running record's commands, queued and running, have all ended (R227). -/
def State.allEnded (s : State) : Bool := match s.core.run with
  | some r => !(s.core.hasQueued r.lid r.seq) && !(s.core.hasRunning r.lid r.seq)
  | none => true
/-- The running record's commands have all left their queues (R228). -/
def State.noneQueued (s : State) : Bool := match s.core.run with
  | some r => !(s.core.hasQueued r.lid r.seq)
  | none => true

/-- YIELD's record goes back to PENDING or READY at its new code (R20), keeping NUMCTL and FPSTAT (R69; log entry 16), its handles stay, and its
run ends. -/
def yieldRun (code jcnt : Nat) (s : State) : State :=
  match s.core.run with
  | none => s
  | some r =>
    let k := s.core.endCycle
    let s1 := s.onRec r.lid r.seq fun x =>
      { x with code := code, jcnt := jcnt, state := .pending, held := some (k.numctl, k.fpstat), posns := (vlist k.eng).map Engine.posn
               sig := x.sig.close }
    let s2 := s1.onCore fun k => { k with tiles := k.tiles.map fun t => if t.2.mine == some (r.lid, r.seq) then (t.1, { t.2 with mine := none }) else t }
    ((if jcnt = 0 then s2.toReady r.lid r.seq else s2).writeRing r.lid r.seq).endRun

/-- A release at a scope by all four clusters: the end of a run is one by all of them (R226, R229). -/
def releaseAll (sc : Scope) (s : State) (k : Res) : Res :=
  let all (f : CluId → Bool) : Bool := (List.finRange 4).all f
  waitFor .sideLog (all fun c => (s.core.clu[c]).slog == []) s (
    waitFor .settling (all fun c => s.replayed s.at_.core c && s.settled s.at_.core c sc) s k)

/-- YIELD (R226, R227): a release at system scope (R229). Outside a folio it is an illegal line, which comes before an illegal operation
(R331). -/
def execYield (q : PReg) (a b : SReg) (s : State) : Res :=
  whenQ 0 q s (
    if !s.iss.sync then illegalLine s
    else if wf_ 5 0 (srcS a s) ≠ 0 ∨ wf_ 63 56 (srcS a s) ≠ 0 ∨ (srcS b s).toNat > 4095 then illegalOp 0 s
    else delivering s (waitFor .ending s.allEnded s (releaseAll .sys s (.next (yieldRun (srcS a s).toNat (srcS b s).toNat s)))))

/-- EXIT's record enters DRAINING, its side-logged accesses stay logged until they are replayed (R232), its flags are kept for the launch's completion, and its run ends (R21, R80, R228). -/
def exitRun (s : State) : State :=
  match s.core.run with
  | none => s
  | some r =>
    let k := s.core.endCycle
    let logs := (List.finRange 4).flatMap fun c => (k.clu[c]).slog.map fun e => (⟨r.lid, r.seq, r.wid, k.asid, c, e⟩ : Left)
    let s1 := s.onRec r.lid r.seq fun x => { x with state := .draining, fp := x.fp ||| k.fpstat.setWidth 7 }
    (s1.onCore fun k => { k with left := k.left ++ logs }).endRun

/-- EXIT (R226, R228). -/
def execExit (q : PReg) (s : State) : Res :=
  whenQ 0 q s (
    if s.iss.sync then delivering s (waitFor .ending s.noneQueued s (.next (exitRun s)))
    else illegalLine s)

end Sys2Proof.Machine
end

