-- ==== Sys2Proof/Machine/Tiles.lean ====
section
/-!
DEFINITION. The tile table (R113 to R125): entries and their contents, placement, backing slots, eviction and reload.
-/
namespace Sys2Proof.Machine

/-- The entry of a handle of a context on a core (R116). -/
def Core.tile (k : Core) (asid h : Nat) : Option TileEnt := (k.tiles.find? fun t => t.1 == 1024 * asid + h).map Prod.snd
/-- An entry changed. -/
def Core.onTileEnt (asid h : Nat) (g : TileEnt → TileEnt) (k : Core) : Core :=
  { k with tiles := k.tiles.map fun t => if t.1 == 1024 * asid + h then (t.1, g t.2) else t }
def State.onEnt (n : CoreId) (asid h : Nat) (g : TileEnt → TileEnt) (s : State) : State := s.coreUpd n (Core.onTileEnt asid h g)

-- Shape and contents.
/-- Rows, and the bytes of a row (R243, R295). -/
def TileEnt.rows (t : TileEnt) : Nat := t.rowsm1 + 1
def TileEnt.cols (t : TileEnt) : Nat := t.colsm1 + 1
def TileEnt.rowBytes (t : TileEnt) : Nat := t.cols * 2 ^ t.esz
/-- The granule of a level (R116). -/
def levelGranule (level : Nat) : Nat := if level = 2 then 64 else 4096
/-- The granules of a footprint (R116). -/
def TileEnt.granules (t : TileEnt) : Nat := ceilDiv (t.rows * t.rowBytes) (levelGranule t.level)

/-- A byte of a handle's contents: what was written last, else undefined (R117; log entry 5). -/
def TileEnt.byte (t : TileEnt) (off : Nat) : Byte :=
  match t.cells.find? fun c => c.1 == off with
  | some c => c.2
  | none => Config.newTileByte t.stamp off

/-- A byte put into a list of written bytes, in rising order of offset. -/
def cellPut : List Host.Cell → Nat → Byte → List Host.Cell
  | [], a, x => [(a, x)]
  | (b, v) :: m, a, x => if a < b then (a, x) :: (b, v) :: m else if a = b then (a, x) :: m else (b, v) :: cellPut m a x

/-- Bytes written into a handle. -/
def TileEnt.write (bs : List (Nat × Byte)) (t : TileEnt) : TileEnt := { t with cells := bs.foldl (fun m p => cellPut m p.1 p.2) t.cells }

/-- `n` bytes of a handle from an offset. -/
def TileEnt.read (t : TileEnt) (off n : Nat) : List Byte := (upto n).map fun i => t.byte (off + i)

-- Placement.
/-- The place of a byte of a handle's contents: in its core's scratchpad, in its home tile's, or in that tile's accumulators (R113, R116). -/
def TileEnt.sram (n : CoreId) (t : TileEnt) (off : Nat) : Nat :=
  let base := if t.level = 0 then coreBase + n.val * 8388608 else if t.level = 1 then tileBase + (16 * n.val + t.home) * 2097152
    else accBase + (16 * n.val + t.home) * accSize
  base + t.place * levelGranule t.level + off

/-- Bytes written into a handle from an offset: those that an uncorrectable word loses are not (R402). -/
def State.putHandle (n : CoreId) (asid hn : Nat) (t : TileEnt) (off : Nat) (bs : List Byte) (s : State) : State :=
  let base := t.sram n 0
  let (ys, u) := dropBad s (atAddr (base + off) bs)
  u.onEnt n asid hn (TileEnt.write (ys.map fun b => (b.1 - base, b.2)))

/-- Two ranges of granules are apart. -/
def apart (a n : Nat) (r : Nat × Nat) : Bool := decide (a + n ≤ r.1) || decide (r.1 + r.2 ≤ a)

/-- The lowest free range of `n` granules among `total`, beside the ranges in use (R116). -/
def lowestFit (total n : Nat) (used : List (Nat × Nat)) : Option Nat :=
  let starts := 0 :: used.map fun r => r.1 + r.2
  let good := starts.filter fun a => decide (a + n ≤ total) && used.all (apart a n)
  good.foldl (fun m a => match m with | none => some a | some b => some (Nat.min a b)) none

/-- The granules of a level's handle part: the whole less the exposed part (R115), or the accumulator store (R116). -/
def levelTotal (c : Ctx) (level : Nat) : Nat :=
  if level = 0 then (8388608 - c.cexp * 1048576) / 4096 else if level = 1 then (2097152 - c.texp * 262144) / 4096 else 4096

/-- The resident handles of a context that share a level, and for T and A a home tile, with a new one. -/
def Core.rivals (k : Core) (asid level home : Nat) : List TileEnt :=
  (k.tiles.filter fun t => t.1 / 1024 == asid && t.2.res && t.2.level == level && (level == 0 || t.2.home == home)).map Prod.snd

/-- A candidate victim (R123). -/
def TileEnt.victim (t : TileEnt) : Bool := decide (t.level < 2) && !t.owner && t.pins == 0 && !t.infl

/-- The candidate victims in least-recently-accessed order (R123). -/
def victims (l : List TileEnt) : List TileEnt := sortBy (fun a b => decide (a.last ≤ b.last)) (l.filter TileEnt.victim)

/-- The range that a footprint takes, with the handles to evict for it, in order; `none` when even every candidate would not make room
(R117, R123). -/
def makeRoom (total n : Nat) (res : List TileEnt) : List TileEnt → Option (Nat × List Nat)
  | [] => (lowestFit total n (res.map fun t => (t.place, t.granules))).map fun p => (p, [])
  | v :: vs =>
    match lowestFit total n (res.map fun t => (t.place, t.granules)) with
    | some p => some (p, [])
    | none => (makeRoom total n (res.filter fun t => t.h != v.h) vs).map fun r => (r.1, v.h :: r.2)

/-- The physical address of a byte of a handle's backing slot (R122). -/
def slotAddr (c : Ctx) (t : TileEnt) (off : Nat) : Nat := c.backbase + 4096 * t.slot + off

/-- EVICTION (R123): the contents go to the backing slot and RES clears. Bytes that nothing has written stay undefined there (log
entry 6). -/
def State.evict (n : CoreId) (asid : Fin 64) (h : Nat) (s : State) : State :=
  match s.cores[n].tile asid.val h with
  | none => s
  | some t =>
    let s0 := (s.correctIn (t.sram n 0) (t.sram n (t.rows * t.rowBytes))).overwritten (slotAddr s.ctxs[asid] t 0) (t.rows * t.rowBytes)
    let s1 := t.cells.foldl (fun (s : State) (c : Host.Cell) => s.putPhys (slotAddr s.ctxs[asid] t c.1) [c.2]) s0
    s1.onEnt n asid.val h fun t => { t with res := false }

/-- RELOAD (R124): the handle takes the lowest free range, victims making room, and its contents come back; `none` while it must wait. -/
def State.reload (n : CoreId) (asid : Fin 64) (h : Nat) (s : State) : Option State :=
  match s.cores[n].tile asid.val h with
  | none => none
  | some t =>
    if t.res then some s
    else
      let rivals := (s.cores[n].rivals asid.val t.level t.home).filter fun r => r.h != h
      match makeRoom (levelTotal s.ctxs[asid] t.level) t.granules rivals (victims rivals) with
      | none => none
      | some (p, gone) =>
        let s1 := (gone.foldl (fun s v => s.evict n asid v) s).readsPhys (slotAddr s.ctxs[asid] t 0) (t.rows * t.rowBytes)
        let cells : List Host.Cell := t.cells.map fun c => (c.1, BitVec.ofNat 8 (s1.getPhysN (slotAddr s1.ctxs[asid] t c.1) 1))
        let lo := { t with place := p }.sram n 0
        some (({ s1 with ids := s1.ids + 1 }.freshCode lo (lo + t.rows * t.rowBytes)).onEnt n asid.val h fun t =>
          { t with res := true, place := p, last := s1.ids, cells := cells })

/-- A handle is accessed now: the order in which victims are taken (R123). -/
def State.touch (n : CoreId) (asid h : Nat) (s : State) : State :=
  { s with ids := s.ids + 1 }.onEnt n asid h fun t => { t with last := s.ids }

/-- The backing slots in use by a context, over every core (R122). -/
def State.slotsUsed (s : State) (asid : Nat) : List (Nat × Nat) :=
  (vlist s.cores).flatMap fun k => (k.tiles.filter fun t => t.1 / 1024 == asid && decide (t.2.level < 2)).map fun t => (t.2.slot, t.2.granules)

/-- The lowest free handle number (R117). -/
def Core.freeHandle (k : Core) (asid : Nat) : Option Nat := (upto 1024).find? fun h => (k.tile asid h).isNone

/-- TINFO's value of an entry (R118). -/
def TileEnt.info (t : TileEnt) : Word :=
  BitVec.ofNat 64 (t.rowsm1 * 2 ^ 48 + t.colsm1 * 2 ^ 36 + t.esz * 2 ^ 34 + t.level * 2 ^ 32 + t.home * 2 ^ 28 +
    (if t.owner then 2 ^ 27 else 0) + (if t.res then 2 ^ 26 else 0) + (if t.infl then 2 ^ 25 else 0) + t.pins * 2 ^ 16 +
    t.swz.toNat * 256 + t.ptag.toNat)

end Sys2Proof.Machine
end

