-- ==== Sys2Proof/Machine/Queue.lean ====
section
/-!
DEFINITION. Engine queues: entries and headers (R288, R293, R294), the range checker (R51), mutual order (R52), what holds a queue's
head (R43, R57), enqueuing, and how an engine's fault or message reaches the cluster that enqueued the command (R228, R292, R334).
-/
namespace Sys2Proof.Machine

-- Entries and headers.
/-- An operand header (R293): write bit, handle, first row, rows, swizzle code. -/
structure Hdr where
  w : Bool
  h : Nat
  row0 : Nat
  rows : Nat
  swz : Nat
  deriving DecidableEq, Repr

/-- A stack value read as an operand header. -/
def hdrOf (x : Word) : Option Hdr :=
  let n := x.toNat
  if bits 63 61 n = 5 ∧ bits 9 0 n = 0 then some ⟨nbit 60 n, bits 59 50 n, bits 49 34 n, bits 33 18 n + 1, bits 17 10 n⟩ else none

/-- An entry of an engine's entry table; unset reads 0xFFFF (R288). -/
def Engine.entryAt (g : Engine) (n : Nat) : Nat := (g.entries.getD n 0xFFFF).toNat
/-- The word at an index of an engine's program memory, as bits: words are 0 where nothing has loaded them (log entry 4). -/
def Engine.bitsAt (g : Engine) (ip : Nat) : Nat := (g.prog.getD ip 0).toNat
/-- The same decoded; an index beyond 4,095 holds no word (log entry 31). -/
def Engine.wordAt (g : Engine) (ip : Nat) : Option Instr := if ip < 4096 then (decodeWord (g.bitsAt ip)).toOption else none
/-- The stack values in the positions that an entry marks (R288, R294). -/
def Engine.marked (g : Engine) (entry : Nat) (a b : Word) : List Word :=
  let e := g.entryAt entry
  if e = 0xFFFF then [] else (if nbit 15 e then [a] else []) ++ (if nbit 14 e then [b] else [])

/-- The command runs a helper strand (R23). -/
def State.isHelperStrand (s : State) (c : CmdSpec) : Bool :=
  match s.recOf c.lid c.seq with | some r => r.helper | none => false

/-- The ranges that a command declares (R294); a helper strand's entry marks are ignored (R23). -/
def State.ranges (s : State) (n : CoreId) (e : Eng) (c : CmdSpec) : List Hdr :=
  if s.isHelperStrand c then [] else ((s.cores[n].eng[e]).marked c.entry c.a c.b).filterMap hdrOf

/-- The context of a command. -/
def State.cmdAsid (s : State) (c : CmdSpec) : Nat := match s.launch c.lid with | some l => l.asid | none => 0

/-- Two ranges overlap (R51). -/
def Hdr.overlaps (a b : Hdr) : Bool :=
  a.h == b.h && decide (a.row0 < b.row0 + b.rows) && decide (b.row0 < a.row0 + a.rows) && (a.w || b.w)

/-- The commands of an engine, the running one first; a copy that a helper placed runs under the helper's own command. -/
def Engine.cmds (g : Engine) : List CmdSpec :=
  (match g.cmd with | some c => if c.owner.isSome then [] else [c.spec] | none => []) ++ g.queue.filterMap fun q => match q with
    | .cmd c => some c
    | _ => none

/-- Every queued and running command of a core with its engine. -/
def Core.cmds (k : Core) : List (Eng × CmdSpec) :=
  (List.finRange 27).flatMap fun e => (k.eng[e]).cmds.map fun c => (e, c)

/-- The predecessors of a record, directly or through a chain (R52). -/
def State.ancestors (s : State) (lid : Nat) : Nat → List Nat → List Nat
  | 0, seen => seen
  | k + 1, seen =>
    let more := (seen.flatMap fun q => match s.recOf lid q with | some r => r.preds | none => []).filter fun p => !(seen.contains p)
    if more = [] then seen else s.ancestors lid k (seen ++ more.eraseDups)

/-- One record is a predecessor of the other (R52). -/
def State.chained (s : State) (lid a b : Nat) : Bool :=
  a != b && ((s.ancestors lid s.recs.length [b]).contains a || (s.ancestors lid s.recs.length [a]).contains b)

/-- An earlier and a later command of one core are mutually ordered (R52): `hs` are the handles that both name. One cluster has issued both
where they are of one run, since a run of another record has clusters of its own; what a cluster knows through cc bits is of its own run too
(log entry 103). A flip lies between them where any cluster has issued it between them (log entry 130). -/
def State.ordered (s : State) (n : CoreId) (hs : List Nat) (a b : CmdSpec) : Bool :=
  let flip := hs.any fun h => match s.cores[n].tile (s.cmdAsid b) h with
    | some t => t.flips.any fun x => decide (a.stamp ≤ x) && decide (x < b.stamp)
    | none => false
  (a.run == b.run && (a.clu == b.clu || decide (a.stamp ≤ b.known.getD a.clu.val 0))) || (a.folio != 0 && a.folio == b.folio) || flip ||
    (a.lid == b.lid && s.chained a.lid a.seq b.seq) || (decide (a.run < b.run) && !(b.notAfter.contains a.run))

/-- The handles that two lists of ranges both name. -/
def sharedHandles (a b : List Hdr) : List Nat := (a.map Hdr.h).filter fun h => (b.map Hdr.h).contains h

/-- The earlier commands of a core that a command's ranges overlap, with the handles that both name (R51): earlier by the order of
enqueuing, which a pre-emption does not change (log entry 103). -/
def State.overlapped (s : State) (n : CoreId) (e : Eng) (c : CmdSpec) : List (CmdSpec × List Nat) :=
  let mine := s.ranges n e c
  (s.cores[n].cmds).filterMap fun p =>
    let theirs := s.ranges n p.1 p.2
    if p.2.stamp < c.stamp && mine.any fun a => theirs.any fun b => a.overlaps b then some (p.2, sharedHandles mine theirs) else none

/-- A command runs on although its record was rolled back, until its next word boundary (R405). -/
def State.killed (s : State) (n : CoreId) (c : CmdSpec) : Bool :=
  (List.finRange 27).any fun e => (s.cores[n].eng[e]).cmd.any fun x => x.killed && x.spec.stamp == c.stamp

/-- The launch of a command is deterministic (R52). -/
def State.detLaunch (s : State) (c : CmdSpec) : Bool := match s.launch c.lid with | some l => !l.dyn | none => false

/-- The other commands of the core whose declared write ranges overlap a table image (R308), with their engines. -/
def State.imageWriters (s : State) (n : CoreId) (me : CmdSpec) (img : Hdr) : List (Eng × CmdSpec) :=
  (s.cores[n].cmds).filter fun p => p.2.stamp != me.stamp && (s.ranges n p.1 p.2).any fun b => b.w && b.overlaps img

/-- The rows of the image that a table descriptor names (R108, R308): 512 KiB and its scales, in the handle's rows. -/
def imageHdr (d : Vector Word 4) (rowBytes : Nat) : Hdr :=
  ⟨false, bits 41 32 d[0].toNat, bits 63 48 d[0].toNat, ceilDiv 528384 rowBytes, 0xFF⟩

/-- The distance around a ring of `n` places, in the shorter direction (R421). -/
def ringDist (n a b : Nat) : Nat := Nat.min ((b + n - a) % n) ((a + n - b) % n)
/-- The traverse hops from this chip to another (R313, R421). -/
def Island.hops (i : Island) (d : Coord) : Nat :=
  ringDist i.ext.x i.me.x d.x + ringDist i.ext.y i.me.y d.y + ringDist i.ext.z i.me.z d.z + ringDist i.ext.w i.me.w d.w
/-- The hops that a copy counts: none for a local one. -/
def State.copyHops (s : State) (j : CopyJob) : Nat := match j.remote with | some d => s.island.hops d | none => 0

/-- The running command is held at a TBL word on its table image (R57, R308). -/
def State.tblHeld (s : State) (n : CoreId) (e : Eng) : Bool :=
  let g := s.cores[n].eng[e]
  match g.cmd, g.desc with
  | some c, some d =>
    (match g.wordAt c.ip, s.cores[n].tile (s.cmdAsid c.spec) (bits 41 32 d[0].toNat) with
    | some (.wTbl _ _), some t => c.job == none && s.imageWriters n c.spec (imageHdr d t.rowBytes) != []
    | _, _ => false)
  | _, _ => false

-- What holds a queue's head.
/-- The destination code of a counter or term register (R49, R50). -/
def evxDest (i : Fin 32) (w : Word) : Nat := if i.val < 16 then bits 47 40 w.toNat else bits 55 48 w.toNat
/-- An enabled counter or term names the engine's start gate (R50). -/
def Xbar.gates (x : Xbar) (e : Eng) : Bool := (List.finRange 32).any fun i => x.evx[i].getLsbD 63 && evxDest i x.evx[i] == 0x40 + e.val

/-- A tile's levelling is requested, from now on; requests merge into one that is pending (R393). -/
def State.requestLevel (t : TileId) (s : State) : State :=
  s.onTile t fun r => if r.pending then r else { r with pending := true, since := s.datum }

/-- The deterministic launch that a core is in (R93): that of a record which runs, drains or stands pre-empted there, or between runs the first one
under way in whose mask the core stands. -/
def State.detOn (s : State) (n : CoreId) : Option Launch :=
  let det (lid : Nat) : Option Launch := (s.launch lid).bind fun l => if l.dyn then none else some l
  match (s.recs.filter fun r => r.isAt n).findSome? fun r => det r.lid with
  | some l => some l
  | none => if (s.cores[n]).run.isSome then none else s.launches.find? fun l => !l.dyn && !l.done && l.started.isSome && l.cmask.getLsbD n.val

/-- A pending levelling may start (R93, R355): at once, or in a deterministic launch from the first of the tile's own time-step boundaries
at or after its request. -/
def State.levelDue (s : State) (t : TileId) : Bool :=
  s.tile[t].pending && (match s.detOn (Fin.ofNat 32 (t.val / 16)) with
    | none => true
    | some l =>
      let cur := s.datum.toNat / 2 ^ l.k
      let back := (cur + 512 - t.val) % 512
      decide (back ≤ cur) && decide (s.tile[t].since.toNat ≤ (cur - back) * 2 ^ l.k))

/-- The state in which a queue's head is counted (R57), or that every condition of R43 holds. -/
inductive HeadState where
  | empty
  | issuing
  | flag (f : Fin 64)
  | busy (reason : Nat)
  | ready (c : CmdSpec)
  | readyCopy (c : CmdSpec) (h : Eng) (j : CopyJob)
  deriving DecidableEq, Repr

/-- The wait entries at the head of a queue whose flags stand set leave it (R47, R369); whether any did. -/
def dropWaits (f : BitVec 64) : List QEnt → List QEnt × Bool
  | .wait k :: q => if f.getLsbD k.val then ((dropWaits f q).1, true) else (.wait k :: q, false)
  | q => (q, false)

/-- A queue whose head has changed: a wait entry that reaches the head after its flag is set leaves at once (R369). -/
def Engine.settle (f : BitVec 64) (g : Engine) : Engine :=
  let (q, b) := dropWaits f g.queue
  { g with queue := q, waitLeft := g.waitLeft || b }

/-- The head of a queue of the acting core leaves it. -/
def State.popHead (e : Eng) (s : State) : State :=
  s.engUpd s.at_.core e fun g => { g with queue := g.queue.drop 1 }.settle s.core.f

/-- The unmet wait at the head of a queue: what R57 counts and QSTAT shows of the head (R255). -/
def Engine.headWait (g : Engine) (f : BitVec 64) : Option (Fin 64) :=
  match g.queue with
  | .wait k :: _ => if f.getLsbD k.val then none else some k
  | _ => none

/-- The queue's head, tested in the order of R57; a busy head has the lowest reason that applies (R408). The command behind a wait entry
that has left in this clk meets its condition from the next one on (R369); until then it is counted as one held by its gate, as is a wait
entry whose flag is set and which has not left yet (log entry 36). -/
def State.headState (s : State) (n : CoreId) (e : Eng) : HeadState :=
  let k := s.cores[n]
  let g := k.eng[e]
  match g.cmd with
  | some _ => if s.tblHeld n e then (match g.headWait k.f with | some f => .flag f | none => .busy 0) else .issuing
  | none =>
    match g.queue with
    | [] => .empty
    | .wait f :: _ => if k.f.getLsbD f.val then .busy 1 else .flag f
    | .placed c h j :: _ => if g.stopped || g.waitLeft || (k.xb.gates e && g.credits == 0) then .busy 1 else .readyCopy c h j
    | .cmd c :: _ =>
      let t := s.tile[tileOf n e.val]
      if s.overlapped n e c != [] then .busy 0
      else if g.stopped || g.waitLeft || (k.xb.gates e && g.credits == 0) then .busy 1
      else if (s.cyc - c.enq).toNat < 8 then .busy 2
      else if e.val < 16 && (t.lvl || s.levelDue (tileOf n e.val) || t.dead) then .busy 4
      else if e.val < 16 && !t.granted then .busy 3
      else .ready c

/-- A command that waits for nothing but the slew limiter requests a start (R352). -/
def State.requests (s : State) (n : CoreId) (e : Eng) : Bool := decide (e.val < 16) && s.headState n e == .busy 3

-- Enqueuing (R41, R250, R252).
/-- An engine's queue has no free place, those that earlier lines of the folio take counted (R34, R41). -/
def State.queueFull (s : State) (e : Eng) : Bool := decide ((s.core.eng[e]).queue.length + (s.iss.ahead.filter fun a => a == e).length ≥ 8)

/-- The tile of an engine id is fenced out of the pane of the acting core (R2, R11). -/
def State.fenced (s : State) (e : Nat) : Bool := decide (e < 16) && (s.tile[tileOf s.at_.core e]).fenced

/-- The conditions on a header in a marked position (R294). -/
def State.badHeader (s : State) (x : Word) : Bool :=
  match hdrOf x with
  | none => true
  | some h => match s.core.tile s.core.asid h.h with
    | none => true
    | some t => decide (h.row0 + h.rows - 1 > t.rowsm1)

/-- One command enqueued: its values, what it captures, and its place in the core's order. -/
def State.enqueue (e : Eng) (entry : Nat) (a b : Word) (reply : Option (Fin 64)) (s : State) : State :=
  let k := s.core
  let spec : CmdSpec := {
    entry := entry, a := a, b := b, clu := s.at_.clu, reply := reply, numctl := s.core.numctl, iter := s.clu.iters
    pos := k.eng[e].posn, wid := s.runWid
    lid := (match k.run with | some r => r.lid | none => 0), seq := (match k.run with | some r => r.seq | none => 0)
    run := (match k.run with | some r => r.runId | none => 0)
    folio := if s.iss.sync then k.folioNo else 0
    stamp := k.stamps + 1, enq := s.cyc
    known := (List.finRange 4).map fun c => (s.clu.known[c] : Nat)
    notAfter := (match k.run with | some r => r.notAfter | none => []) }
  s.onCore fun k => { k with
    stamps := k.stamps + 1
    eng := vmod k.eng e fun g => { g with queue := g.queue ++ [.cmd spec], posn := g.posn + 1 } }

/-- The bytes of a running copy command that are not yet performed (R139): an acknowledged piece of a remote copy is. -/
def Cmd.unperformed (c : Cmd) : Nat := c.left - (match c.job with | some (.copy j) => j.acked | _ => 0)
/-- The revised promise of a copy that misses its own (R139). -/
def Cmd.revised (c : Cmd) (now : Word) : Word := now + BitVec.ofNat 64 (64 + ceilDiv c.unperformed 64 + 1400 * c.hops)

/-- A scalar awaits a reply (R251). -/
def State.awaitReply (d : Fin 64) (s : State) : State := s.onClu fun c => { c with replies := c.replies ++ [d] }

-- Messages from engines to clusters.
/-- The record whose command this is runs on the core, and in the same run. -/
def State.liveOn (s : State) (n : CoreId) (c : CmdSpec) : Bool :=
  match s.cores[n].run with | some r => r.lid == c.lid && r.seq == c.seq && r.runId == c.run | none => false

/-- The record whose command this is is saved on the core (R334). -/
def State.savedOn (s : State) (n : CoreId) (c : CmdSpec) : Bool :=
  s.cores[n].saved.any fun v => v.run.lid == c.lid && v.run.seq == c.seq

/-- What a saved context records while its command runs on (R334). -/
def State.recordFor (n : CoreId) (c : CmdSpec) (g : Recorded → Recorded) (s : State) : State :=
  s.coreUpd n fun k => { k with saved := k.saved.map fun v =>
    if v.run.lid == c.lid && v.run.seq == c.seq then { v with recorded := g v.recorded } else v }

/-- A reply written (R44, R251): into the cluster and its interlock released, or recorded for a saved context; after EXIT nowhere. -/
def State.writeReply (n : CoreId) (c : CmdSpec) (x : Word) (s : State) : State :=
  match c.reply with
  | none => s
  | some d =>
    if s.liveOn n c then
      s.cluUpd n c.clu fun k => { k with s := if d.val = 0 then k.s else vput k.s d x, replies := k.replies.filter fun r => r != d }
    else if s.savedOn n c then s.recordFor n c fun r => { r with replies := r.replies ++ [(c.clu, d, x)] }
    else s

/-- A trap of an engine for the cluster that enqueued the command (R228, R292, R325, R334): pending at its next boundary; recorded for a
saved context, whose queue stops once it resumes; else reported to the launch's fault queue, and with no handler installed the launch fails
too. `eng` is the queue that stops until the handler returns. -/
def State.tellCluster (n : CoreId) (e : Eng) (c : CmdSpec) (tr : TrapRec) (stops : Bool) (s : State) : State :=
  let bt : BTrap := { tr := tr, eng := if stops then some e else none }
  let a := match s.launch c.lid with | some l => Fin.ofNat 64 l.asid | none => 0
  let report (s : State) : State :=
    s.faultRec a tr.cause.toNat tr.sub.toNat n.val c.clu.val e.val c.wid (s.tagOf c.lid) tr.a0 tr.a1 tr.a2 tr.a3
  let hold (s : State) : State := if stops then s.engUpd n e fun g => { g with stopped := true } else s
  if s.liveOn n c && !(s.isHelperStrand c) then
    if s.cores[n].tvec.getLsbD 0 then (hold s).cluUpd n c.clu fun k => { k with pendTrap := k.pendTrap ++ [bt] }
    else (report s).abortLaunch c.lid
  else if s.savedOn n c then s.recordFor n c fun r => { r with traps := r.traps ++ [(c.clu, bt)] }
  else if s.isHelperStrand c then (report s).abortLaunch c.lid
  else report s

/-- A command leaves its engine: its ranges are released, and a race tile leaves the active set (R352). -/
def State.vacate (n : CoreId) (e : Eng) (s : State) : State :=
  let s1 := s.engUpd n e fun g => { g with cmd := none }
  if e.val < 16 then
    s1.onTile (tileOf n e.val) fun t => if t.granted then { t with granted := false, leaving := true } else t
  else s1

end Sys2Proof.Machine
end

