-- ==== Sys2Proof/Machine/Evx.lean ====
section
/-!
DEFINITION. The event crossbar (R47 to R50): flags, the counters and terms of a context, what one clk samples and performs, and the same
for a context that is saved while its commands run on (R334, R335).
-/
namespace Sys2Proof.Machine

/-- A flag set on a core, from the end of the cycle (R47). -/
def State.setFlag (n : CoreId) (f : Nat) (s : State) : State := s.coreUpd n fun k => { k with fSet := k.fSet ||| bitAt 64 (f % 64) }

/-- A flag cleared on a core, from the end of the cycle (R47). -/
def State.clearFlag (n : CoreId) (f : Nat) (s : State) : State := s.coreUpd n fun k => { k with fClr := k.fClr ||| bitAt 64 (f % 64) }

/-- The level of a source code (R48): a pulse, a flag, a counter that is enabled and at zero, a term's output at the last sampling
(log entry 37); reserved codes read false. -/
def Xbar.level (x : Xbar) (f : BitVec 64) (pulses : BitVec 32) (code : Nat) : Bool :=
  if code < 0x20 then pulses.getLsbD code
  else if code < 0x60 then f.getLsbD (code - 0x20)
  else if code < 0x70 then let w := x.evx[Fin.ofNat 32 (code - 0x60)]; w.getLsbD 63 && bits 15 0 w.toNat == 0
  else if code < 0x80 then x.terms.getLsbD (code - 0x70)
  else false

/-- The output of a term (R50). -/
def Xbar.term (x : Xbar) (f : BitVec 64) (pulses : BitVec 32) (w : Word) : Bool :=
  let n := w.toNat
  let used := (upto 4).filterMap fun j =>
    let code := bits (23 + 8 * j) (16 + 8 * j) n
    if code = 0xFF then none else some (x.level f pulses code != nbit (56 + j) n)
  nbit 63 n && (if nbit 62 n then used.any id else used.all id)

/-- A counter's event (R49): a pulse, or a level that has risen. -/
def Xbar.event (x : Xbar) (f : BitVec 64) (pulses : BitVec 32) (i : Fin 32) : Bool :=
  let src := bits 55 48 x.evx[i].toNat
  x.level f pulses src && (decide (src < 0x20) || !(x.prev.getLsbD i.val))

/-- A counter register after an event (R49): its new value, and whether it reached zero. -/
def countDown (w : Word) : Word × Bool :=
  let n := w.toNat
  let c := n % 65536
  if !(nbit 63 n) || c = 0 then (w, false)
  else if c = 1 then (BitVec.ofNat 64 (n - c + (if nbit 62 n then bits 31 16 n else 0)), true)
  else (BitVec.ofNat 64 (n - 1), false)

/-- Sampling at the end of a cycle (R48 to R50): counters count, terms take their outputs, and the actions they ask for become due at
the end of the next cycle; then the writes of the cycle take effect (R322). The levels that the next sampling compares with are this one's. -/
def Xbar.sample (f : BitVec 64) (pulses : BitVec 32) (x : Xbar) : Xbar :=
  let step (i : Fin 32) : Word × List (Nat × Nat) :=
    let w := x.evx[i]
    if i.val < 16 then
      if x.event f pulses i then
        let (w1, hit) := countDown w
        (w1, if hit then [(i.val, evxDest i w)] else [])
      else (w, [])
    else
      (w, if x.term f pulses w && !(x.terms.getLsbD (i.val - 16)) then [(i.val, evxDest i w)] else [])
  let terms := (List.finRange 16).foldl (fun a i => if x.term f pulses x.evx[Fin.ofNat 32 (16 + i.val)] then a ||| bitAt 16 i.val else a) 0
  let counted : Vector Word 32 := Vector.ofFn fun i => (step i).1
  let evx := x.pend.foldl (fun v p => vput v (Fin.ofNat 32 p.1) p.2) counted
  let x1 := { x with evx := evx, pend := [], terms := terms, due := (List.finRange 32).flatMap fun i => (step i).2 }
  let prev := (List.finRange 16).foldl (fun a i => if x.level f pulses (bits 55 48 evx[Fin.ofNat 32 i.val].toNat) then a ||| bitAt 16 i.val else a) 0
  { x1 with prev := prev }

/-- An action on a core (R48): a flag is set, or a gated engine gains a start credit, at most 255 (R50). A credit that falls due once no enabled
entry names its engine is dropped, here as in a saved context: the model's choice (log entry 133). -/
def State.act (n : CoreId) (dest : Nat) (s : State) : State :=
  if dest < 0x40 then s.setFlag n dest
  else if h : dest - 0x40 < 27 ∧ dest ≥ 0x40 then
    s.coreUpd n fun k => if k.xb.gates ⟨dest - 0x40, h.1⟩ then
      { k with eng := vmod k.eng ⟨dest - 0x40, h.1⟩ fun g => { g with credits := Nat.min 255 (g.credits + 1) } } else k
  else s

/-- The actions of one entry that are due, performed. -/
def State.actDue (n : CoreId) (entry : Nat) (s : State) : State :=
  let mine := (s.cores[n].xb.due.filter fun d => d.1 == entry)
  let s1 := s.coreUpd n fun k => { k with xb := { k.xb with due := k.xb.due.filter fun d => d.1 != entry } }
  mine.foldl (fun s d => s.act n d.2) s1

/-- Start credits of engines that no enabled entry names any more are cleared (R50). -/
def Core.dropCredits (was : Xbar) (k : Core) : Core :=
  { k with eng := vall k.eng fun e g => if was.gates e && !(k.xb.gates e) then { g with credits := 0 } else g }

/-- The completion pulses of a core's engines that belong to the context on the core, or to one saved record (R334). -/
def Core.pulses (k : Core) (mine : Nat × Nat → Bool) : BitVec 32 :=
  (List.finRange 27).foldl (fun a e => match (k.eng[e]).pulse with
    | some r => if mine r then a ||| bitAt 32 e.val else a
    | none => a) 0

/-- An enabled entry names the engine with a number. -/
def Xbar.gatesAt (x : Xbar) (i : Nat) : Bool := if h : i < 27 then x.gates ⟨i, h⟩ else false

/-- A saved context's crossbar (R334): its actions set flags, recorded against the context, or add its credits. -/
def Saved.xbTick (k : Core) (v : Saved) : Saved :=
  let v1 := v.xb.due.foldl (fun v d =>
    if d.2 < 0x40 then { v with recorded := { v.recorded with flags := v.recorded.flags ||| bitAt 64 d.2 } }
    else { v with credits := v.credits.mapIdx fun i c => if i = d.2 - 0x40 ∧ v.xb.gatesAt i then Nat.min 255 (c + 1) else c }) v
  let x := v1.xb.sample (v1.f ||| v1.recorded.flags) (k.pulses fun r => r == (v.run.lid, v.run.seq))
  { v1 with xb := x, credits := v1.credits.mapIdx fun i c => if v.xb.gatesAt i && !(x.gatesAt i) then 0 else c }

/-- One clk of a core's crossbar: the due actions take effect, then the inputs are sampled. -/
def State.xbTick (n : CoreId) (s : State) : State :=
  let s1 := (s.cores[n].xb.due.foldl (fun s d => s.act n d.2) s).coreUpd n Core.endCycle
  s1.coreUpd n fun k =>
    let mine (r : Nat × Nat) : Bool := !(k.saved.any fun v => v.run.lid == r.1 && v.run.seq == r.2)
    let k1 := { k with xb := k.xb.sample k.f (k.pulses mine), saved := k.saved.map (Saved.xbTick k) }
    let k2 := k1.dropCredits k.xb
    { k2 with eng := vall k2.eng fun _ g => { g with pulse := none } }

end Sys2Proof.Machine
end

