-- ==== Sys2Proof/Machine/EngineIssue.lean ====
section
/-!
DEFINITION. Engine issue from the M slot: commands, forks, the rendezvous, flags, wait entries and queue state (R250 to R255).
-/
namespace Sys2Proof.Machine

/-- The conditions of R294 on the two values of a command in the positions that its entry marks. -/
def rangesBad (e : Eng) (entry : Nat) (a b : Word) (s : State) : Bool := ((s.core.eng[e]).marked entry a b).any s.badHeader

/-- Room for one command on each of some engines (R42): a full queue holds the line or raises the queue-full trap. -/
def roomFor (es : List Eng) (wait : Bool) (s : State) (k : Res) : Res :=
  match es.find? s.queueFull with
  | none => k
  | some e =>
    if s.passed then k
    else if wait then holdLine .queueFull s
    else lineTrap { cause := 0x07, a0 := BitVec.ofNat 64 e.val } s

/-- Commands given to engines in order, as ENG and FORK give them (R41, R45, R250): legal engines and headers, a release at package
scope, room, and then all enqueued, through the engine command port (R37). -/
def giveCommands (cs : List (Eng × Nat)) (a b : Word) (reply : Option (Fin 64)) (wait : Bool) (s : State) (k : State → State) : Res :=
  if cs.any fun c => s.fenced c.1.val || rangesBad c.1 c.2 a b s then illegalOp 1 s
  else releaseAt .pkg s (roomFor (cs.map Prod.fst) wait s (
    .next (usePort 0 (k (cs.foldl (fun s c => s.enqueue c.1 c.2 a b reply) s)))))

/-- ENG (R250, R251); a reply to s0 is discarded (R44), so that nothing awaits it. -/
def execEng (e : Eng) (func : Fin 128) (a b : SReg) (r : Option SReg) (w : Bool) (s : State) : Res :=
  giveCommands [(e, func.val)] (srcS a s) (srcS b s) r w s fun t => match r with
    | some d => if d.val = 0 then t else t.awaitReply d
    | none => t

/-- A slot of FORK's list (R252): its engine and entry if it is used; `none` where it is malformed. -/
def forkSlot (x : Nat) : Option (Option (Nat × Nat)) :=
  if nbit 15 x then (if bits 14 12 x = 0 then some (some (bits 11 7 x, bits 6 0 x)) else none)
  else if x = 0 then some none else none

/-- An engine and an entry, where the id is one that R10 assigns. -/
def forkEng (p : Nat × Nat) : Option (Eng × Nat) := if h : p.1 < 27 then some (⟨p.1, h⟩, p.2) else none

/-- FORK's commands in increasing engine id (R45, R252); `none` where the list is illegal. -/
def forkList (w : Word) : Option (List (Eng × Nat)) :=
  let slots := (upto 4).map fun j => forkSlot (wf_ (16 * j + 15) (16 * j) w)
  let used := (slots.filterMap id).filterMap id
  let cs := used.filterMap forkEng
  if (slots.any Option.isNone) || used == [] || cs.length != used.length || ((cs.map Prod.fst).eraseDups).length != cs.length then none
  else some (sortBy (fun a b => decide (a.1.val ≤ b.1.val)) cs)

/-- FORK (R45, R252). -/
def execFork (l a b : SReg) (w : Bool) (s : State) : Res :=
  match forkList (srcS l s) with
  | none => illegalOp 1 s
  | some cs => giveCommands cs (srcS a s) (srcS b s) none w s id

/-- Every engine of a mask has its rendezvous mark (R45). -/
def allMarked (mask : Word) (s : State) : Bool := (List.finRange 27).all fun e => !(mask.getLsbD e.val) || (s.core.eng[e]).mark
/-- The marks of a mask's engines cleared (R45). -/
def clearMarks (mask : Word) (s : State) : State :=
  s.onCore fun k => { k with eng := vall k.eng fun e g => if mask.getLsbD e.val then { g with mark := false } else g }

/-- RDV (R45, R253): pending floating-point exceptions first (R81). -/
def execRdv (q : PReg) (a : SReg) (s : State) : Res :=
  whenQ 1 q s (
    if wf_ 63 27 (srcS a s) ≠ 0 then illegalOp 1 s
    else delivering s (waitFor (.rdv (srcS a s)) (allMarked (srcS a s) s) s (.next (usePort 0 (clearMarks (srcS a s) s)))))

/-- SETF (R47, R254): a release at core scope (R149). -/
def execSetf (q : PReg) (f : Fin 64) (s : State) : Res := whenQ 1 q s (releaseAt .core s (.next (usePort 0 (s.setFlag s.at_.core f.val))))
/-- CLRF (R47, R254). -/
def execClrf (q : PReg) (f : Fin 64) (s : State) : Res := whenQ 1 q s (.next (usePort 0 (s.clearFlag s.at_.core f.val)))

/-- WAITF (R47, R254); a fenced tile's queue takes nothing (R11, R255; log entry 40). -/
def execWaitf (q : PReg) (e : Eng) (f : Fin 64) (s : State) : Res :=
  whenQ 1 q s (
    if s.fenced e.val then illegalOp 1 s
    else roomFor [e] true s (.next (usePort 0 (s.engUpd s.at_.core e fun g => ({ g with queue := g.queue ++ [.wait f] } : Engine).settle s.core.f))))

/-- QSTAT's value (R255). -/
def qstatOf (g : Engine) (f : BitVec 64) : Word :=
  let w := g.headWait f
  BitVec.ofNat 64 (g.queue.length + (if g.cmd.isSome then 16 else 0) + (match w with | some k => 32 + k.val * 64 | none => 0) +
    (if g.mark then 4096 else 0))
/-- QSTAT (R255). -/
def execQstat (q : PReg) (d : SReg) (e : Eng) (s : State) : Res := whenQ 1 q s (.next (writeS d (qstatOf (s.core.eng[e]) s.core.f) s))

/-- The engines that a line will enqueue to (R34). -/
def lineEngines (m : Instr) (s : State) : List Eng :=
  match m with
  | .eng e _ _ _ _ _ => [e]
  | .fork l _ _ _ => (match forkList (srcS l s) with | some cs => cs.map Prod.fst | none => [])
  | .waitf q e _ => if qCond q s = some true then [e] else []
  | _ => []

end Sys2Proof.Machine
end

