-- ==== Sys2Proof/Machine/Issue.lean ====
section
/-!
DEFINITION. Issuing a line: fetch (R31, R208), the checks of the line (R136, R183, R184, R196, R226), its syllables tried one by one on
the state before it (R184), the order of events at a boundary (R331), the folio (R33 to R35, R211), boundary traps (R328, R140), the
points at which a pre-empted cluster halts (R333), and what a line leaves: latches, the next row, the mark that it issued.
`run` is the meaning of a syllable.
-/
namespace Sys2Proof.Machine

-- Fetch.
/-- What fetching a line comes to. -/
inductive Fetched where
  | line (w : Nat) (s : State)
  | stop (r : Res)

/-- The line of the acting cluster: 16 bytes at its row, in its own column (R31, R208), through a translation that allows execution. -/
def fetch (s : State) : Fetched :=
  let va := (signExt 56 (lineAddr s.at_.clu s.clu.pc).toNat).toNat
  match xlatePages {} .fetch s [va] with
  | .stop r => .stop r
  | .miss _ mig _ s1 => .stop (holdXlate {} va .fetch mig s1)
  | .ok ps s1 =>
    match entryOf ps va with
    | none => .stop (pageFault .translation va .fetch s1)
    | some t =>
      let places := (upto 16).map fun i => (placeIn t (va + i)).2
      if places.any s1.sealed then .stop (holdLine .sealed (s1.bounce ps))
      else match places.find? s1.badAt with
        | some p => .stop (lineGone (s1.consumed p))
        | none => .line (leNat ((upto 16).map fun i => s1.loadByte t (va + i))) (s1.correctAt places)

-- Reading a line.
/-- What the bits of a line come to (R196). -/
inductive LineRead where
  | ok (l : Line)
  | illegalLine
  | illegalOp (slot : Nat)
  deriving DecidableEq, Repr

/-- The opcodes of the memory instructions of R135. -/
def memOpcode (op : Nat) : Bool :=
  decide (1 ≤ op ∧ op ≤ 3) || decide (0x20 ≤ op ∧ op ≤ 0x28) || decide (0x60 ≤ op ∧ op ≤ 0x62) || decide (0x70 ≤ op ∧ op ≤ 0x72)

/-- A HOLD bit that R183 allows: the position reads a vector register, and its latch holds that register. In handler mode none is. -/
def holdOk (hm : Bool) (set : Bool) (src : Option VReg) (l : Latch) : Bool :=
  !set || (!hm && l.valid && src == some l.reg)

/-- The line read and checked for a cluster (R136, R182 to R184, R186, R196, R226): illegal lines first, then illegal operations in slot
order. -/
def readLine (w : Nat) (c : Cluster) : LineRead :=
  let x := (decodeSyl .x (sylX w)).toOption
  let m := (decodeSyl .m (sylM w)).toOption
  let v := (decodeSyl .v (sylV w)).toOption
  let l : Line := { sync := hdrBit 127 w, xpfx := hdrBit 126 w, holdA := hdrBit 125 w, holdB := hdrBit 124 w, holdC := hdrBit 123 w
                    x := x.getD .nop, m := m.getD .nop, v := v.getD .nop }
  let pfx := match x with | some (.mempfx _ _ _ _) => true | _ => false
  let pfxBad := (l.xpfx && !pfx) || (!l.xpfx && opOf (sylX w) == 0x90) || (l.xpfx && !(memOpcode (opOf (sylM w))))
  let (a, b, cc) := l.v.vsrc
  let holdBad := !(holdOk c.hm l.holdA a c.la && holdOk c.hm l.holdB b c.lb && holdOk c.hm l.holdC cc c.lc)
  if lineReserved w != 0 || pfxBad || holdBad || clash l.x l.m l.v || mtkHazard l.xpfx l.x l.m l.v || (l.x.ends && !l.sync) then .illegalLine
  else
    let body := c.inBody c.pc.toNat
    let bad (i : Option Instr) : Bool := match i with | none => true | some j => j.q == 8 && !body
    if bad x then .illegalOp 0 else if bad m then .illegalOp 1 else if bad v then .illegalOp 2 else .ok l

/-- The issue context of a line on the acting cluster. -/
def State.beginLine (w : Nat) (l : Line) (s : State) : State :=
  let attr := match l.x with | .mempfx o sc cp asp => if l.xpfx then some ⟨o, sc, cp, asp⟩ else none | _ => none
  { s with iss := { src := s.clu, sync := l.sync, holdA := l.holdA, holdB := l.holdB, holdC := l.holdC, attr := attr
                    bits := BitVec.ofNat 128 w, inBody := s.clu.inBody s.clu.pc.toNat, afterTrap := none, ending := false, ev := .done
                    ahead := [], spawns := 0, ports := 0 } }

/-- The scalars of a line that await a reply (R251). -/
def interlocked (l : Line) (replies : List (Fin 64)) : Bool :=
  let named := l.x.uses ++ l.m.uses ++ l.v.uses
  replies.any fun r => named.contains r || [l.x, l.m, l.v].any fun i => i.dests.contains (.s r)

-- Trying a line.
/-- What a line comes to before it issues: where it may, whether a trap follows it, and the shared ports that it requests (R37). -/
inductive Fate where
  | ready (after : Bool) (ports : BitVec 4)
  | trap (s : State)
  | held (s : State)
  | stop (r : Res)

/-- What one syllable, run by itself on the state before the line, comes to. -/
inductive Tried where
  | done (ports : BitVec 4)
  | after
  | trap (s : State)
  | fp (s : State)
  | held (s : State)
  | stop (r : Res)

/-- One syllable tried. -/
def trySyl (run : Instr → State → Res) (i : Instr) (s : State) : Tried :=
  match run i s with
  | .next t =>
    (match t.iss.ev with
    | .done => .done t.iss.ports
    | .held _ => .held t
    | .trap tr => if t.iss.afterTrap.isSome then .after else if tr.cause = 0x0C then .fp t else .trap t)
  | r => .stop r

/-- The first `some` of a list. -/
def firstSome {α : Type} : List (Option α) → Option α
  | [] => none
  | some a :: _ => some a
  | none :: as => firstSome as

def Tried.stops : Tried → Option Res
  | .stop r => some r
  | _ => none
def Tried.traps : Tried → Option State
  | .trap s => some s
  | _ => none
def Tried.fps : Tried → Option State
  | .fp s => some s
  | _ => none
def Tried.holds : Tried → Option State
  | .held s => some s
  | _ => none
def Tried.isAfter : Tried → Bool
  | .after => true
  | _ => false
def Tried.ports : Tried → BitVec 4
  | .done p => p
  | _ => 0
def Fate.stops : Fate → Option Res
  | .stop r => some r
  | _ => none
def Fate.isTrap : Fate → Bool
  | .trap _ => true
  | _ => false
def Fate.isHeld : Fate → Bool
  | .held _ => true
  | _ => false
def Fate.isAfter : Fate → Bool
  | .ready a _ => a
  | _ => false
/-- The shared ports that a line requests in this cycle (R37): where it may issue, or where an LWAIT of it begins to wait. -/
def Fate.ports : Fate → BitVec 4
  | .ready _ p => p
  | .held t => t.iss.ports
  | _ => 0

/-- A line tried (R331): synchronous faults in slot order X, M, V, then a floating-point trap, then a wait, else it may issue. What a YIELD or
EXIT waits for does not hold the line's other syllables (R226). -/
def tryLine (run : Instr → State → Res) (l : Line) (s : State) : Fate :=
  if interlocked l s.clu.replies then .held (s.onClu fun c => { c with hold := .reply })
  else
    let ts := [trySyl run l.x s, trySyl run l.m s, trySyl run l.v s]
    let waits := if l.x.ends then ts.drop 1 else ts
    match firstSome (ts.map Tried.stops), firstSome (ts.map Tried.traps), firstSome (ts.map Tried.fps), firstSome (waits.map Tried.holds) with
    | some r, _, _, _ => .stop r
    | _, some u, _, _ => .trap u
    | _, _, some u, _ => .trap u
    | _, _, _, some u => .held u
    | _, _, _, _ => .ready (l.x.traps && qCond l.x.q s == some true) (ts.foldl (fun p t => p ||| t.ports) 0)

-- Boundary traps.
/-- The order of boundary traps (R331). -/
def btRank (t : TrapRec) : Nat :=
  match t.cause.toNat with
  | 0x0A => 0
  | 0x09 => 1
  | 0x0B => 2
  | 0x08 => 3
  | 0x03 => 4
  | _ => 5
def BTrap.before (a b : BTrap) : Bool :=
  decide (btRank a.tr < btRank b.tr) || (btRank a.tr == btRank b.tr && a.tr.cause == 0x08 && decide (a.tr.a1.toNat < b.tr.a1.toNat))

/-- A promise miss as it stands when it is taken: its engine still runs the copy, with the revised promise, or nothing (R139, R140). -/
def State.revised (s : State) (t : TrapRec) : Option (Eng × Word) :=
  if h : t.a0.toNat < 27 then
    let e : Eng := ⟨t.a0.toNat, h⟩
    match (s.core.eng[e]).cmd with
    | some c => if c.owner.isNone ∧ BitVec.ofNat 64 c.spec.pos = t.a1 ∧ s.liveOn s.at_.core c.spec then some (e, c.revised s.cyc) else none
    | none => none
  else none

/-- The boundary trap to be taken next, and the rest; misses whose copy has completed are dropped, and a miss is not taken in handler mode,
so that several are taken one after another (R140; log entry 60). -/
def State.nextBoundary (s : State) : Option (BTrap × List BTrap) :=
  let live := s.clu.pendTrap.filter fun b => b.tr.cause != 0x08 || (s.revised b.tr).isSome
  let first := (live.filter fun b => b.tr.cause != 0x08 || !s.clu.hm).foldl (fun (m : Option BTrap) b => match m with
    | none => some b
    | some a => if b.before a then some b else some a) none
  first.map fun b => (b, live.erase b)

/-- A boundary trap taken: its record complete, the queue that its handler will let resume noted (R292, R330), and an armed promise
counted anew (R139). -/
def takeBoundary (b : BTrap) (rest : List BTrap) (s : State) : State :=
  let s1 := s.onClu fun c => { c with pendTrap := rest }
  let (tr, s2) := match (if b.tr.cause = 0x08 then s.revised b.tr else none) with
    | some (e, p) => ({ b.tr with a2 := p }, s1.engUpd s.at_.core e fun g => { g with cmd := g.cmd.map fun c => { c with promise := some p } })
    | none => (b.tr, s1)
  let hm := s.clu.hm
  let s3 := takeTrap tr (lineAddr s.at_.clu s.clu.pc) s2
  if hm then s3 else s3.onClu fun c => { c with stoppedEng := b.eng }

-- Pre-emption.
/-- The waits at which a pre-empted cluster halts (R333): none of those for a reply, for room in a queue, for an atomic's bytes, for a sealed
frame or for a shared port. -/
def Hold.halts : Hold → Bool
  | .none => false
  | .passed => false
  | .declined _ _ => false
  | .reply => false
  | .queueFull => false
  | .performing => false
  | .sealed => false
  | .port => false
  | _ => true

/-- A cluster that halts for a pending request (R333). -/
def haltHere (s : State) : State := s.onClu fun c => { c with halted := true, safeLive := none }

/-- A cluster that halts at its line, the masks of a SAFE there noted (R223). -/
def haltAtLine (l : Line) (s : State) : State :=
  match l.x with
  | .safe v m => s.onClu fun c => { c with halted := true, safeLive := some (v, m) }
  | _ => haltHere s

/-- A cluster that entered a handler halts there for a pending request (R333). -/
def haltAtEntry (s : State) : State := if s.core.preReq && s.clu.hm && s.core.run.isSome then haltHere s else s

/-- What is due at a boundary where no line issues: a boundary trap first, then a halt for a pending request (R331). -/
def atBoundary (canHalt : Bool) (s : State) : State :=
  match s.nextBoundary with
  | some (b, rest) => haltAtEntry (takeBoundary b rest s)
  | none => if s.core.preReq && canHalt then haltHere s else s

/-- The acting unit is a cluster of the same core. -/
def State.turnTo (c : CluId) (s : State) : State := { s with at_ := { s.at_ with clu := c } }

-- Issuing.
/-- Syllables run one after another, each from the same sources. -/
def runAll (run : Instr → State → Res) : List Instr → State → Res
  | [], s => .next s
  | i :: is, s => match run i s with
    | .next t => runAll run is t
    | r => r

/-- The latch of a position after a line (R183): loaded by a vector read without HOLD, never in handler mode. -/
def latched (hm held : Bool) (src : Option VReg) (old : Cluster) (l : Latch) : Latch :=
  match src with
  | some r => if held || hm then l else ⟨true, r, old.v[rotReg old.rrb r]⟩
  | none => l

/-- What a line leaves on the acting cluster once its syllables have acted: the latches; the next row, unless a trap was taken after the
line or the run ended; no wait; and the mark that the cluster has issued in this cycle. -/
def commitLine (l : Line) (src : Cluster) (after : Option TrapRec) (s : State) : State :=
  let (a, b, c) := l.v.vsrc
  let keep := l.x.calls
  let go (k : Cluster) : Cluster :=
    let k1 := { k with la := latched src.hm l.holdA a src k.la, lb := latched src.hm l.holdB b src k.lb, lc := latched src.hm l.holdC c src k.lc
                       hold := .none }
    match after, k1.forked with
    | some _, some t => { k1 with trappc := lineAddr s.at_.clu t, forked := none }
    | some _, none => k1
    | none, some t => { k1 with branch := some t, forked := none }.advance false
    | none, none => k1.advance (keep && k1.branch.isSome)
  let ends := if after.isNone && s.clu.branch.isNone && s.clu.forked.isNone then iterEnds s.clu.pc.toNat s.clu.loops else []
  let s1 := ends.foldl (fun s m => s.captureIn (some m) 6 s.at_.core.val s.at_.clu.val (BitVec.ofNat 64 (m.k - 1 - m.t))) s
  { s1.onClu go with issued := s.issued ++ [(s.at_.core.val, s.at_.clu.val)] }

/-- The syllables of a line in the order in which this model lets them act: M, V, then X. -/
def lineOrder (l : Line) : List Instr := [l.m, l.v, l.x]

/-- A line that issues alone. -/
def issueAlone (run : Instr → State → Res) (l : Line) (s : State) : Res :=
  match runAll run (lineOrder l) (s.onClu fun c => { c with hold := .passed }) with
  | .next t => .next (if t.iss.ending then t else if t.iss.afterTrap.isSome then haltAtEntry (commitLine l s.iss.src t.iss.afterTrap t)
    else commitLine l s.iss.src none t)
  | r => r

-- Shared ports (R37 to R40).
/-- The requests that a port grants in a clk (R37): 0 the engine command port, 1 the core scratchpad's, 2 the tile port, 3 the memory port
beyond the core. -/
def portGrants (p : Fin 4) : Nat := if p = 1 then 2 else 1

/-- LIMIT + 1, in clk (R38, R40). -/
def Core.ageLimit (k : Core) : Nat := Nat.max (bits 19 8 k.agectl.toNat) 15 + 1
/-- A cluster's role (R40): 0 loader, 1 arithmetic, 2 epilogue. -/
def Core.role (k : Core) (c : CluId) : Nat := Nat.min 2 (bits (2 * c.val + 1) (2 * c.val) k.agectl.toNat)
/-- The rank of a cluster's request at a port, lowest first (R38): the aged ones by index, then by role and index. -/
def Core.portRank (k : Core) (p : Fin 4) (c : CluId) : Nat :=
  if k.ageLimit ≤ (k.clu[c]).age[p] then c.val else 4 + 4 * k.role c + c.val

/-- The acting cluster's line is a SAFE. -/
def isSafe (l : Line) : Bool := match l.x with | .safe _ _ => true | _ => false

/-- The ports that a cluster's line without SYNC will request in this cycle, where it has not yet issued or been refused in it. -/
def wants (run : Instr → State → Res) (c : CluId) (s : State) : BitVec 4 :=
  let s1 := s.turnTo c
  let standing := match s1.clu.hold with | .translation _ _ _ _ => true | _ => false
  if s1.clu.halted || standing || s1.clu.refused != 0 || s.issued.contains (s.at_.core.val, c.val) then 0
  else match fetch s1 with
    | .stop _ => 0
    | .line w s2 => match readLine w s2.clu with
      | .ok l =>
        let f := tryLine run l (s2.beginLine w l)
        if l.sync || (s2.nextBoundary.isSome && !f.isAfter) || (s2.core.preReq && isSafe l) then 0 else f.ports
      | _ => 0

/-- A port can grant one more request in this clk, with `ahead` others to come first. -/
def Core.portFree (k : Core) (p : Fin 4) (ahead : Nat) : Bool := decide (k.granted[p] + ahead < portGrants p)

/-- The acting cluster's requests are granted (R38): each port has a grant left that no request of a better rank will take. -/
def mayTake (run : Instr → State → Res) (ports : BitVec 4) (s : State) : Bool :=
  (List.finRange 4).all fun p => !(ports.getLsbD p.val) ||
    s.core.portFree p (((List.finRange 4).filter fun c => decide (s.core.portRank p c < s.core.portRank p s.at_.clu) && (wants run c s).getLsbD p.val).length)

/-- Grants counted. -/
def takePorts (ports : BitVec 4) (s : State) : State :=
  s.onCore fun k => { k with granted := Vector.ofFn fun p => if ports.getLsbD p.val then k.granted[p] + 1 else k.granted[p] }

/-- The acting cluster holds its line for a port that has refused it in this clk (R38, R39). -/
def refusePorts (ports : BitVec 4) (s : State) : State := s.onClu fun c => { c with hold := .port, refused := c.refused ||| ports }

/-- A line without SYNC presented by the acting cluster (R33, R38, R331). -/
def present (run : Instr → State → Res) (l : Line) (s : State) : Res :=
  match tryLine run l s with
  | .stop r => r
  | .trap t => .next (haltAtEntry t)
  | .held t =>
    .next (if mayTake run t.iss.ports s then atBoundary t.clu.hold.halts (takePorts t.iss.ports t) else atBoundary false (refusePorts t.iss.ports s))
  | .ready after ports =>
    match (if after then none else s.nextBoundary) with
    | some (b, rest) => .next (haltAtEntry (takeBoundary b rest s))
    | none =>
      if s.core.preReq && isSafe l then .next (haltAtLine l s)
      else if mayTake run ports s then issueAlone run l (takePorts ports s)
      else .next (refusePorts ports s)

-- The folio.
/-- A line that a cluster presents for a folio. -/
structure Presented where
  clu : CluId
  line : Line
  bits : Nat

/-- A precise stop halts the acting cluster before its line (R412). -/
def State.stopsHere (s : State) : Bool := s.core.pstop && s.clu.stopPoint && s.nextBoundary.isNone

/-- The line that a cluster presents, if it is a good SYNC line outside handler mode and the cluster has issued none in this cycle (R33,
R343); the fetch may fill the translation cache. -/
def presentedBy (c : CluId) (s : State) : Option Presented × State :=
  let s1 := s.turnTo c
  if s1.clu.halted || s1.clu.hm || s.issued.contains (s.at_.core.val, c.val) || s1.stopsHere then (none, s)
  else match fetch s1 with
    | .line w s2 => (match readLine w s2.clu with
      | .ok l => (if l.sync then some ⟨c, l, w⟩ else none, s2)
      | _ => (none, s2))
    | .stop _ => (none, s)

/-- The lines of the four clusters, if all present one. -/
def presentedAll (s : State) : Option (List Presented) × State :=
  (List.finRange 4).foldl (fun (p : Option (List Presented) × State) c =>
    match p.1 with
    | none => p
    | some ls => match presentedBy c p.2 with
      | (some q, t) => (some (ls ++ [q]), t)
      | (none, t) => (none, t)) (some [], s)

/-- The issue context of one line of a folio. -/
def Presented.begin_ (p : Presented) (s : State) : State := (s.turnTo p.clu).beginLine p.bits p.line

/-- The line's issue context once the lines of lower clusters have named the engines they enqueue to and the records they push (R34). -/
def Presented.beginIn (ps : List Presented) (p : Presented) (s : State) : State :=
  let first := ps.filter fun o => decide (o.clu.val < p.clu.val)
  let es := first.flatMap fun o => lineEngines o.line.m (o.begin_ s)
  let pushes := (first.filter fun o => match o.line.x with | .spawn q _ _ => qCond q (o.begin_ s) == some true | _ => false).length
  let t := p.begin_ s
  { t with iss := { t.iss with ahead := es, spawns := pushes } }

/-- The clusters that a FORKC under a true condition names (R212). -/
def forkMask (p : Presented) (s : State) : BitVec 4 :=
  match p.line.x with
  | .forkc q mask _ => if qCond q (p.begin_ s) = some true then mask else 0
  | _ => 0

/-- The line holds a taken transfer (R211): a transfer whose condition, and cc bit, holds. -/
def transferTaken (p : Presented) (s : State) : Bool :=
  let s1 := p.begin_ s
  p.line.x.transfers && qCond p.line.x.q s1 == some true &&
    (match p.line.x with | .brcc _ n _ => s1.core.cc.getLsbD n.val | _ => true)

/-- What makes every line of a folio illegal (R35, R211, R226). -/
def folioIllegal (ps : List Presented) (s : State) : Bool :=
  let masks := ps.map fun p => (forkMask p s).toNat
  let twice := (upto 4).any fun i => decide ((masks.filter fun m => nbit i m).length > 1)
  let named (c : CluId) : Bool := masks.any fun m => nbit c.val m
  let enders := (ps.filter fun p => p.line.x.ends).length
  twice || (ps.any fun p => named p.clu && transferTaken p s) || decide (enders > 1) ||
    (decide (enders = 1) && ps.any fun p => p.line.x.traps)

/-- The syllables of a folio's line that act in its cluster's turn: a YIELD or EXIT acts after every line. -/
def Presented.body (p : Presented) : List Instr := if p.line.x.ends then [p.line.m, p.line.v] else lineOrder p.line

/-- The lines of a folio act, in cluster order, each from the issue context `ctx` gives it; and the trap that each is to take after it. -/
def folioActs (run : Instr → State → Res) (ctx : Presented → State → State) :
    List Presented → State → Host.Outcome (State × List (Presented × Option TrapRec)) Fault Refusal
  | [], t => .next (t, [])
  | p :: more, t =>
    match runAll run p.body (ctx p t) with
    | .fault f => .fault f
    | .refused r => .refused r
    | .next u =>
      match folioActs run ctx more u with
      | .next (v, marks) => .next (v, (p, u.iss.afterTrap) :: marks)
      | r => r

/-- What one line of a folio leaves on its cluster. -/
def folioCommit (s : State) (u : State) (m : Presented × Option TrapRec) : State :=
  let v := commitLine m.1.line (m.1.begin_ s).iss.src m.2 { u.turnTo m.1.clu with iss := (m.1.begin_ s).iss }
  if m.2.isSome then haltAtEntry v else v

/-- What a YIELD reads, as it stood before its line. -/
def Presented.operands (p : Presented) (s : State) : Word × Word := match p.line.x with
  | .yield _ a b => (srcS a (p.begin_ s), srcS b (p.begin_ s))
  | _ => (0, 0)

/-- A YIELD or EXIT whose condition has been met. -/
def condMet : Instr → Instr
  | .yield _ a b => .yield 0 a b
  | .exit _ => .exit 0
  | i => i

/-- A cluster of a folio that has acted but for its YIELD or EXIT: it stays at its line, with its loops, and no transfer stands. -/
def Presented.acted (p : Presented) (s : State) (c : Cluster) : Cluster :=
  let o := s.core.clu[p.clu]
  { c with acted := some (p.operands s), pc := o.pc, loops := o.loops, lctr := o.lctr, branch := none, forked := none, hold := .ending, got := 0 }

/-- The line holds a YIELD or EXIT under a true condition. -/
def Presented.ending (s : State) (p : Presented) : Bool := p.line.x.ends && qCond p.line.x.q (p.begin_ s) == some true

/-- Every cluster of the acting core halts for a pending request, but one that waits where none halts (R333). -/
def haltFolio (ps : List Presented) (s : State) : State :=
  ps.foldl (fun u p =>
    let v := u.turnTo p.clu
    if v.clu.hold == .queueFull || v.clu.hold == .reply then v else haltAtLine p.line v) s

/-- The issue context of a YIELD or EXIT whose folio has acted: its operands as they stood before the line. -/
def Presented.beginEnd (p : Presented) (s : State) : State :=
  let t := p.begin_ s
  match p.line.x, t.clu.acted with
  | .yield _ a b, some (x, y) => { t with iss := { t.iss with src := { t.iss.src with s := vput (vput t.iss.src.s a x) b y } } }
  | _, _ => t

/-- The YIELD or EXIT of a folio that has acted (R226, R331): its faults first, the floating-point exceptions that the folio itself has raised
among them, then a boundary trap that is due; it ends the run, or waits, where a request halts the clusters (R222). -/
def endFolio (run : Instr → State → Res) (ps : List Presented) (s : State) : Res :=
  let due := ps.filter fun p => (s.turnTo p.clu).nextBoundary.isSome
  match ps.find? fun p => p.line.x.ends with
  | none => .next s
  | some p =>
    match run (condMet p.line.x) (p.beginEnd (s.onCore Core.mergeEx)) with
    | .next t => .next (match t.iss.ev with
      | .trap _ => haltAtEntry t
      | _ =>
        if !due.isEmpty then due.foldl (fun t p => atBoundary false (t.turnTo p.clu)) s
        else match t.iss.ev with
          | .held _ => if s.core.preReq then ps.foldl (fun u p => haltHere (u.turnTo p.clu)) t else t
          | _ => t)
    | r => r

/-- Where the FORKCs of a folio redirect a cluster (R35, R211). -/
def forkTarget (ps : List Presented) (s : State) (c : CluId) : Option Word :=
  firstSome (ps.map fun p => match p.line.x with
    | .forkc _ _ off => if (forkMask p s).getLsbD c.val then some (rowOff (p.begin_ s).row off) else none
    | _ => none)

/-- The state in which the lines of a folio act: no wait stands, and every redirected cluster has its target (R211). -/
def folioStart (ps : List Presented) (s : State) : State :=
  s.onCore fun k => { k with
    folioNo := k.folioNo + 1
    clu := vall k.clu fun i c => { c with hold := .passed, got := 0, acted := none, forked := forkTarget ps s i } }

/-- The issue context in which a line of a folio acts. -/
def folioCtx (s : State) (p : Presented) (t : State) : State := { t.turnTo p.clu with iss := (p.begin_ s).iss }

/-- The folio issues (R33, R34): clusters act in index order, a YIELD or EXIT after everything else; then every cluster goes on. -/
def issueFolio (run : Instr → State → Res) (ps : List Presented) (s : State) : Res :=
  match folioActs run (folioCtx s) ps (folioStart ps s) with
  | .fault f => .fault f
  | .refused r => .refused r
  | .next (t, marks) =>
    if ps.any (Presented.ending s) then
      let u := ps.foldl (fun u p => u.cluUpd s.at_.core p.clu (p.acted s)) t
      endFolio run ps { u with issued := u.issued ++ ps.map fun p => (s.at_.core.val, p.clu.val) }
    else .next (marks.foldl (folioCommit s) t)

/-- A wait of a line for the accesses before it, or for a range for a handle that the folio itself has evicted. -/
def Hold.ordering (s : State) : Hold → Bool
  | .sideLog => true
  | .settling => true
  | .reload h => (s.reload s.at_.core s.asid h).isNone
  | _ => false

/-- What stops a folio in which every line could issue by itself (R34, R242): the first line that traps, or waits for its accesses, once the
lines of lower clusters have acted on the handles and queues that they share. Its other waits are for what stood before the folio (log entry
131). -/
def folioStop (run : Instr → State → Res) (s : State) : List Presented → State → Option (Presented × Fate)
  | [], _ => none
  | p :: more, t =>
    let u := (folioCtx s p t).onClu fun c => { c with hold := (s.core.clu[p.clu]).hold }
    let f := tryLine run p.line u
    let bites := match f with
      | .trap _ => true
      | .held v => v.clu.hold.ordering v
      | _ => false
    if bites then some (p, f)
    else match runAll run p.body (folioCtx s p t) with
      | .next v => folioStop run s more v
      | _ => none

/-- A folio stopped by one of its lines (R33, R34): its cluster takes the trap, or waits; none of the folio takes effect. -/
def stopFolio (ps : List Presented) (p : Presented) (f : Fate) (s : State) : State :=
  match f with
  | .trap u => (match u.iss.ev with
    | .trap tr => haltAtEntry (takeTrap tr (lineAddr p.clu (s.core.clu[p.clu]).pc) (p.begin_ s))
    | _ => s)
  | .held u =>
    let t := (s.turnTo p.clu).onClu fun c => { c with hold := u.clu.hold }
    if s.core.preReq then haltFolio ps t else t
  | _ => s

/-- The ports of a cluster's folio line that have not granted it yet, each asked once in a clk, in cluster order (R39). -/
def folioAsk (t : State) (f : Presented × Fate) : State :=
  let u := t.turnTo f.1.clu
  (List.finRange 4).foldl (fun (v : State) p =>
    let bit := BitVec.ofNat 4 (2 ^ p.val)
    if !(f.2.ports.getLsbD p.val) || v.clu.got.getLsbD p.val then v
    else if v.core.portFree p 0 then (takePorts bit v).onClu fun c => { c with got := c.got ||| bit }
    else refusePorts bit v) u

/-- Every port has granted what the lines of a folio request (R39). -/
def folioGranted (fates : List (Presented × Fate)) (s : State) : Bool :=
  fates.all fun f => (f.2.ports &&& ~~~(s.core.clu[f.1.clu]).got) == 0

/-- The waits of a folio's lines; one that requests ports waits for these first. -/
def folioWaits (run : Instr → State → Res) (fates : List (Presented × Fate)) (s : State) : State :=
  (fates.filter fun f => f.2.isHeld).foldl (fun t f =>
    let asked := folioAsk t f
    if folioGranted [f] asked then
      (match tryLine run f.1.line (f.1.beginIn (fates.map Prod.fst) asked) with
      | .held u => u
      | _ => asked)
    else asked) s

/-- The clusters of a folio whose lines trap take it, one after another. -/
def folioTraps (run : Instr → State → Res) (fates : List (Presented × Fate)) (s : State) : State :=
  (fates.filter fun f => f.2.isTrap).foldl (fun t f =>
    match tryLine run f.1.line (f.1.beginIn (fates.map Prod.fst) t) with
    | .trap u => haltAtEntry u
    | _ => t) s

/-- The four SYNC lines presented together (R33, R39, R184, R331). A trap in one line keeps all from issuing, and the clusters that raised one
take it; a wait of one, or a port that refuses one, holds all; a cluster's boundary trap is taken before the folio. -/
def presentFolio (run : Instr → State → Res) (ps : List Presented) (s : State) : Res :=
  if ps.all fun p => (s.core.clu[p.clu]).acted.isSome then endFolio run ps s
  else if folioIllegal ps s then
    .next (ps.foldl (fun t p => haltAtEntry (Res.orElse (illegalLine (p.begin_ t)) t)) s)
  else
    let fates := ps.map fun p => (p, tryLine run p.line (p.beginIn ps s))
    let due := fates.filter fun f => (s.turnTo f.1.clu).nextBoundary.isSome && !f.2.isAfter
    match firstSome (fates.map fun f => f.2.stops) with
    | some r => r
    | none =>
      if fates.any fun f => f.2.isTrap then .next (folioTraps run fates s)
      else if !due.isEmpty then .next (due.foldl (fun t f => atBoundary false (t.turnTo f.1.clu)) s)
      else if fates.any fun f => f.2.isHeld then
        let t := folioWaits run fates s
        .next (if s.core.preReq then haltFolio ps t else t)
      else if s.core.preReq && (ps.any fun p => isSafe p.line) && !(ps.any (Presented.ending s)) then .next (haltFolio ps s)
      else
        let t := fates.foldl folioAsk s
        if folioGranted fates t then (match folioStop run t ps (folioStart ps t) with
          | some (p, f) => .next (stopFolio ps p f t)
          | none => issueFolio run ps t)
        else .next t

/-- A cluster at a SYNC line: the folio, if all four present one, else a wait for the others, where a boundary trap or a halt may fall
(R33, R333). A SYNC line in handler mode is a double fault (R327). -/
def presentSync (run : Instr → State → Res) (s : State) : Res :=
  match presentedAll s with
  | (some ps, t) => presentFolio run ps { t with at_ := s.at_ }
  | (none, t) => .next (atBoundary true { t with at_ := s.at_ })

/-- FOLIO_ISSUE on the acting core: the folio issues if all four clusters present SYNC lines (R33). -/
def folioTurn (run : Instr → State → Res) (s : State) : Res :=
  if s.core.run.isNone || s.core.haltd then .next s
  else match presentedAll s with
    | (some ps, t) => presentFolio run ps { t with at_ := s.at_ }
    | (none, _) => .next s

/-- What the acting cluster does in its turn: nothing while it runs no strand or stands halted; a precise stop halts it (R412); a held translation waits for XRETRY
(R386); a cluster that a port has refused in this clk retries in the next (R39); a reload of its handle is tried; else it presents its line. -/
def clusterGo (run : Instr → State → Res) (s : State) : Res :=
  if s.core.run.isNone || s.core.haltd || s.clu.halted || s.clu.refused != 0 then .next s
  else if s.stopsHere then .next (haltHere s)
  else
    match s.clu.hold with
    | .translation _ _ _ _ => .next (atBoundary true s)
    | h =>
      let s0 := match h with
        | .passed => s.onClu fun c => { c with hold := .none }
        | .reload k => Res.orElse (run (.evHandleReload (Fin.ofNat 1024 k)) s) s
        | _ => s
      match fetch s0 with
      | .stop (.next t) =>
        (match t.iss.ev with
        | .held h => .next (atBoundary h.halts t)
        | _ => .next (haltAtEntry t))
      | .stop r => r
      | .line w s1 =>
        match readLine w s1.clu with
        | .illegalLine => .next (haltAtEntry (Res.orElse (illegalLine { s1 with iss := { s1.iss with bits := BitVec.ofNat 128 w } }) s1))
        | .illegalOp sl => .next (haltAtEntry (Res.orElse (illegalOp sl { s1 with iss := { s1.iss with bits := BitVec.ofNat 128 w } }) s1))
        | .ok l =>
          if l.sync then
            (if s1.clu.hm then illegalLine { s1 with iss := { s1.iss with bits := BitVec.ofNat 128 w } } else presentSync run s1)
          else present run l (s1.beginLine w l)

/-- A cluster's turn: a cluster that has issued in this cycle issues in the next (R343), so that a clk passes first. -/
def clusterTurn (run : Instr → State → Res) (clk : State → State) (n : CoreId) (c : CluId) (s : State) : Res :=
  let s0 := if s.issued.contains (n.val, c.val) then clk s else s
  clusterGo run { s0 with at_ := { s0.at_ with core := n, clu := c } }

end Sys2Proof.Machine
end

