-- ==== Sys2Proof/Machine/MemX.lean ====
section
/-!
DEFINITION. Scalar and vector loads and stores (R230 to R240).
-/
namespace Sys2Proof.Machine

/-- The addresses of `n` bytes from `ea`, modulo 2^64 (R230). -/
def span (ea n : Nat) : List Nat := (upto n).map fun i => (ea + i) % 18446744073709551616
/-- Bytes from `ea`, each with its address. -/
def spanBytes (ea : Nat) (bs : List Byte) : List (Nat × Byte) := (span ea bs.length).zip bs

/-- The attributes allow a load, or a store (R136). -/
def State.loadAttr (s : State) : Bool := s.aspAllowed s.attr && (s.attr.ord == .rlx || s.attr.ord == .acq || s.attr.ord == .sc)
def State.storeAttr (s : State) : Bool := s.aspAllowed s.attr && (s.attr.ord == .rlx || s.attr.ord == .rel || s.attr.ord == .sc)

/-- A list cut into pieces of `n`, `k` of them. -/
def pieces {α : Type} (n : Nat) : Nat → List α → List (List α)
  | 0, _ => []
  | k + 1, l => l.take n :: pieces n k (l.drop n)

/-- A load of `n` bytes at `ea`, aligned (R231): the rest of the meaning takes its bytes. -/
def loadAt (al ea n : Nat) (s : State) (k : List Byte → State → Res) : Res :=
  if !s.loadAttr then illegalOp 1 s
  else if ea % al ≠ 0 then pageFault .alignment ea .load s
  else match loadBytes .load (span ea n) s with
    | .ok bs t => k bs t
    | .stop r => r

/-- A load of elements of `sz` bytes at the addresses given, each aligned to its size (R237, R238): one access, which the side log answers or holds
as a whole (R232). -/
def loadElems (sz : Nat) (vas : List Nat) (s : State) (k : List (List Byte) → State → Res) : Res :=
  if !s.loadAttr then illegalOp 1 s
  else match vas.find? fun a => a % sz != 0 with
    | some a => pageFault .alignment a .load s
    | none => match loadBytes .load (vas.flatMap fun a => span a sz) s with
      | .ok bs t => k (pieces sz vas.length bs) t
      | .stop r => r

/-- A store of some bytes, after its alignment (R231). -/
def storeAt (f : StForm) (al : Nat) (vas : List Nat) (bs : List (Nat × Byte)) (s : State) : Res :=
  if !s.storeAttr then illegalOp 1 s
  else match vas.find? fun a => a % al != 0 with
    | some a => pageFault .alignment a .store s
    | none => storeBytes f bs s

-- Scalar accesses (R234).
/-- Bytes of an LD kind, and its value from them (R188, R234). -/
def ldBytes : LdKind → Nat
  | .n8 => 1
  | .i8 => 1
  | .n16 => 2
  | .i16 => 2
  | .n32 => 4
  | .i32 => 4
  | .d64 => 8
def ldValue (k : LdKind) (bs : List Byte) : Word :=
  match k with
  | .i8 => signExt 8 (leNat bs)
  | .i16 => signExt 16 (leNat bs)
  | .i32 => signExt 32 (leNat bs)
  | _ => BitVec.ofNat 64 (leNat bs)
/-- Bytes of an ST kind. -/
def stBytes : StKind → Nat
  | .b8 => 1
  | .h16 => 2
  | .w32 => 4
  | .d64 => 8

/-- The lattice page that an access of the line reaches, if its page translates to one. -/
def State.latticePage (va : Nat) (s : State) : Option Tlb :=
  match (xlatePage s.attr va s).1 with
  | .ok t => if t.tt = 4 then some t else none
  | _ => none

/-- A 64-bit LD of a lattice page, as a scalar LLD (R134, R160): the cell of an 8-byte type, the sum of a GCNT cell, which needs 64-byte
alignment; a VMAX cell is illegal. The bytes have been loaded, so the page translates and is readable. -/
def ldLattice (t : Tlb) (ea : Nat) (bs : List Byte) (s : State) (k : Word → Res) : Res :=
  let lt := t.ltype.toNat
  if lt = 6 then illegalOp 1 s
  else if lt = 7 then
    (if ea % 64 ≠ 0 then pageFault .alignment ea .load s
    else k (BitVec.ofNat 64 (gcntSum 16 (leNat ((span ea 64).map (s.loadByte t))))))
  else k (BitVec.ofNat 64 (leNat bs))

/-- LD (R234). -/
def execLd (q : PReg) (d : SDst) (m : MAddr) (k : LdKind) (s : State) : Res :=
  let ea := eaOf m (ldBytes k) s
  whenQ 1 q s (loadAt (ldBytes k) ea (ldBytes k) s fun bs t =>
    match k, s.latticePage ea with
    | .d64, some p => ldLattice p ea bs t fun x => .next (writeD d x t)
    | _, _ => .next (writeD d (ldValue k bs) t))

/-- ST (R234). -/
def execSt (q : PReg) (d : SReg) (m : MAddr) (k : StKind) (s : State) : Res :=
  let ea := eaOf m (stBytes k) s
  whenQ 1 q s (storeAt .scalar (stBytes k) [ea] (spanBytes ea (leBytes (stBytes k) (srcS d s).toNat)) s)

/-- PREF (R235): never a fault, never a value. An ASP that the line may not name stays illegal (R136). -/
def execPref (q : PReg) (_ : MAddr) (s : State) : Res := whenQ 1 q s (if s.aspAllowed s.attr then .next s else illegalOp 1 s)

-- Vector kinds (R188, R236).
/-- Bits of an element, as a vector load kind reads it. -/
def vkWidth : VKind → Nat
  | .w32 => 32
  | .h16z => 16
  | .h16s => 16
  | .b8z => 8
  | .b8s => 8
  | .h16h => 16
  | .n4z => 4
  | .n4s => 4
/-- A field sign-extended to a lane. -/
def laneSigned (w n : Nat) : Lane := BitVec.ofInt 32 (toSigned w n)
/-- The lane that an element gives. -/
def vkLane (k : VKind) (x : Nat) : Lane :=
  match k with
  | .h16s => laneSigned 16 x
  | .b8s => laneSigned 8 x
  | .n4s => laneSigned 4 x
  | .h16h => BitVec.ofNat 32 (x % 65536 * 65536)
  | k => BitVec.ofNat 32 (x % 2 ^ (vkWidth k))
/-- Bytes of an element of a strided or broadcast access: one for the nibble kinds. -/
def vkElem (k : VKind) : Nat := Nat.max 1 ((vkWidth k) / 8)
/-- Bits of an element, as a vector store kind writes it, and the element of a lane. -/
def vsWidth : VStKind → Nat
  | .w32 => 32
  | .h16 => 16
  | .b8 => 8
  | .h16h => 16
  | .n4 => 4
def vsPart (k : VStKind) (x : Lane) : Nat :=
  match k with
  | .h16h => x.toNat / 65536
  | k => x.toNat % 2 ^ (vsWidth k)
def vsElem (k : VStKind) : Nat := Nat.max 1 ((vsWidth k) / 8)

/-- The lanes that a stream of elements of `w` bits gives. -/
def lanesOf (w : Nat) (lane : Nat → Lane) (bs : List Byte) : VecReg :=
  let n := leNat bs
  Vector.ofFn fun i => lane (n / 2 ^ (w * i.val) % 2 ^ w)
/-- The bytes of a whole vector store (R236). -/
def storeVec (k : VStKind) (v : VecReg) : List Byte :=
  leBytes (16 * (vsWidth k)) ((vlist v).foldr (fun x a => vsPart k x + 2 ^ (vsWidth k) * a) 0)

-- The unpack unit (R126, R127).
/-- An unpack pattern. -/
structure Unpk where
  lsh : Nat
  sgn : Bool
  w : Nat
  step : Nat
  first : Nat
  cnt : Nat
  per : Nat
  deriving DecidableEq, Repr
def unpkOf (x : Word) : Unpk := ⟨wf_ 39 35 x, x.getLsbD 34, wf_ 33 29 x + 1, wf_ 28 22 x, wf_ 21 15 x, wf_ 14 8 x + 1, wf_ 6 0 x + 1⟩
def Unpk.legal (p : Unpk) : Bool := decide (p.first + (p.cnt - 1) * p.step + p.w ≤ p.per)
/-- The bit offset of lane i's field. -/
def Unpk.off (p : Unpk) (i : Nat) : Nat := i / p.cnt * p.per + p.first + i % p.cnt * p.step
/-- The bytes that the pattern reads. -/
def Unpk.bytes (p : Unpk) : Nat := ceilDiv (p.off 127 + p.w) 8
/-- The lanes that it gives. -/
def Unpk.lanes (p : Unpk) (bs : List Byte) : VecReg :=
  let n := leNat bs
  Vector.ofFn fun i =>
    let f := n / 2 ^ p.off i.val % 2 ^ p.w
    (if p.sgn then laneSigned p.w f else BitVec.ofNat 32 f) <<< p.lsh

/-- VLD (R236, R127). -/
def execVld (q : PReg) (d : VReg) (m : MAddr) (k : VLdKind) (s : State) : Res :=
  let ea := eaOf m 16 s
  whenQ 1 q s (match k with
    | .plain k => loadAt 16 ea (16 * (vkWidth k)) s fun bs t => .next (writeV d (lanesOf (vkWidth k) (vkLane k) bs) t)
    | .unpk n =>
      let p := unpkOf s.core.unpk[n]
      if !p.legal then illegalOp 1 s else loadAt 1 ea p.bytes s fun bs t => .next (writeV d (p.lanes bs) t))

/-- VLDU (R236). -/
def execVldu (q : PReg) (d : VReg) (m : MAddr) (k : VKind) (s : State) : Res :=
  whenQ 1 q s (loadAt 1 (eaOf m 16 s) (16 * (vkWidth k)) s fun bs t => .next (writeV d (lanesOf (vkWidth k) (vkLane k) bs) t))

/-- VST (R236). -/
def execVst (q : PReg) (d : VReg) (m : MAddr) (k : VStKind) (s : State) : Res :=
  let ea := eaOf m 16 s
  whenQ 1 q s (storeAt .vector 16 [ea] (spanBytes ea (storeVec k (srcV d s))) s)

/-- VSTM's address and mask (R240). -/
def vstmAddr (m : MAddrM) (s : State) : Nat × Mask :=
  match m with
  | .off b o => (eaOf (.off b o) 16 s, BitVec.allOnes 128)
  | .msk b r => ((srcS b s).toNat, srcM r s)
/-- The bytes that VSTM stores (R240). -/
def vstmBytes (ea : Nat) (mask : Mask) (v : VecReg) : List (Nat × Byte) :=
  (((spanBytes ea ((storeVec .w32 v).take 128)).zip (upto 128)).filter fun p => mask.getLsbD p.2).map Prod.fst

/-- VSTM (R240): a mask with no bit set performs nothing. -/
def execVstm (q : PReg) (d : VReg) (m : MAddrM) (s : State) : Res :=
  whenQ 1 q s (
    match vstmBytes (vstmAddr m s).1 (vstmAddr m s).2 (srcV d s) with
    | [] => if s.storeAttr then .next s else illegalOp 1 s
    | bs => storeAt .masked 1 [] bs s)

/-- The addresses of a strided access (R237). -/
def strided (b x : Word) : List Nat := (upto 128).map fun i => (b + BitVec.ofNat 64 i * x).toNat
/-- The addresses of a gather or scatter (R238). -/
def indexed (b : Word) (v : VecReg) : List Nat := (vlist v).map fun x => (b + x.signExtend 64).toNat

/-- A list of lanes as a register. -/
def vecOf (xs : List Lane) : VecReg := Vector.ofFn fun i => xs.getD i.val 0

/-- VLDS (R237). -/
def execVlds (q : PReg) (d : VReg) (base x : SReg) (k : VKind) (s : State) : Res :=
  whenQ 1 q s (loadElems (vkElem k) (strided (srcS base s) (srcS x s)) s fun bss t =>
    .next (writeV d (vecOf (bss.map fun bs => vkLane k (leNat bs % 2 ^ (vkWidth k)))) t))

/-- VGATH (R238). -/
def execVgath (q : PReg) (d : VReg) (base : SReg) (x : VReg) (s : State) : Res :=
  whenQ 1 q s (loadElems 4 (indexed (srcS base s) (srcV x s)) s fun bss t =>
    .next (writeV d (vecOf (bss.map fun bs => BitVec.ofNat 32 (leNat bs))) t))

/-- The bytes of elements stored one by one, lane 0 first, so that a higher lane's write is later (R233). -/
def elemStores (sz : Nat) (vas : List Nat) (xs : List Nat) : List (Nat × Byte) :=
  (vas.zip xs).flatMap fun p => spanBytes p.1 (leBytes sz p.2)

/-- VSTS (R237). -/
def execVsts (q : PReg) (d : VReg) (base x : SReg) (k : VStKind) (s : State) : Res :=
  let vas := strided (srcS base s) (srcS x s)
  whenQ 1 q s (storeAt (if k = .n4 then .nibbles else .elements) (vsElem k) vas
    (elemStores (vsElem k) vas ((vlist (srcV d s)).map (vsPart k))) s)

/-- VSCAT (R238). -/
def execVscat (q : PReg) (d : VReg) (base : SReg) (x : VReg) (s : State) : Res :=
  let vas := indexed (srcS base s) (srcV x s)
  whenQ 1 q s (storeAt .elements 4 vas (elemStores 4 vas ((vlist (srcV d s)).map BitVec.toNat)) s)

/-- VLDB (R239). -/
def execVldb (q : PReg) (d : VReg) (m : MAddr) (k : VKind) (s : State) : Res :=
  whenQ 1 q s (loadAt (vkElem k) (eaOf m 16 s) (vkElem k) s fun bs t =>
    .next (writeV d (Vector.replicate 128 (vkLane k (leNat bs % 2 ^ (vkWidth k)))) t))

end Sys2Proof.Machine
end

