-- ==== Sys2Proof/Machine/MemSync.lean ====
section
/-!
DEFINITION. Atomics, lattice operations, fences, and the replay of the side log (R129, R133, R145 to R162, R232, R244 to R249).
-/
namespace Sys2Proof.Machine

-- Atomics (R244 to R247).
/-- The operations of AMO on values of `w` bits (R244). -/
def amoOp (op : AmoOp) (w v b : Nat) : Nat :=
  match op with
  | .swap => b
  | .add => (v + b) % 2 ^ w
  | .and => v &&& b
  | .or => v ||| b
  | .xor => v ^^^ b
  | .min => if toSigned w v ≤ toSigned w b then v else b
  | .max => if toSigned w v ≤ toSigned w b then b else v
  | .minu => Nat.min v b
  | .maxu => Nat.max v b

/-- The target type supports the atomic (R129, R246): a host page takes swap, add and CAS, a lattice page none, CAS2 types 0 to 2. -/
def atomicOn (tt : Nat) (host : Bool) (wide : Bool) : Bool := tt != 4 && (tt != 5 || host) && (!wide || decide (tt ≤ 2))

/-- The record's run has performed what a rollback would repeat (R406). -/
def State.noteNidemOf (who : Option (Nat × Nat)) (s : State) : State := match who with
  | some r => s.onRec r.1 r.2 fun x => { x with nidem := true }
  | none => s
def State.noteNidem (s : State) : State := s.noteNidemOf s.runKey

/-- THE ATOMIC on `n` bytes at `va` of translated pages (R133, R145, R247): it waits while a store that comes before it to its bytes is in
flight, reads the latest value in coherence order, and puts the new one, if any, in flight: no other write comes between the two. -/
def atomicDo (n : CoreId) (c : CluId) (o : Origin) (a : Attr) (ps : List (Nat × Tlb)) (va : Nat) (len : Nat) (f : Nat → Option Nat) (s : State) :
    Option (Nat × State) :=
  let places := (span va len).filterMap fun x => (entryOf ps x).map fun t => placeIn t x
  if s.contested n c o.who (places.map Prod.snd) then none
  else
    let v := leNat (places.map fun p => s.atomicByte o.who p.1 p.2)
    match f v with
    | none => some (v, s)
    | some x =>
      let w := (places.headD (0, 0)).1
      let (bs, s1) := dropBad s ((places.map Prod.snd).zip (leBytes len x))
      some (v, if bs = [] then s1 else s1.launchStore n c w bs a { o with kind := .rmw })

/-- An atomic instruction (R244 to R247, R231, R232): checked, translated, and performed; `k` takes the old value. With `log` it side-logs
on a translation miss, else it holds. -/
def atomic (al len : Nat) (host : Bool) (va : Nat) (log : Option Access) (f : Nat → Option Nat) (s : State) (k : Nat → State → Res) : Res :=
  let a := s.attr
  let vas := span va len
  if !(s.aspAllowed a) then illegalOp 1 s
  else if va % al ≠ 0 then pageFault .alignment va .atomic s
  else match s.accessWaits true a.releases with
  | some h => holdLine h s
  | none => match xlatePages a .atomic s (pagesOf vas) with
    | .stop r => r
    | .miss x mig _ t => (match log with
      | some acc => logStore acc a x mig t
      | none => if s.meetsLog vas then holdLine .sideLog s else holdXlate a x .atomic mig t)
    | .ok ps t =>
      if ps.any fun p => !(atomicOn p.2.tt host (len == 16)) then pageFault .accessType va .atomic t
      else if t.meetsLog vas then holdLine .sideLog t
      else if (placesOf ps vas).any t.sealed then holdLine .sealed (t.bounce ps)
      else match (placesOf ps vas).find? t.badAt with
        | some p => lineGone (t.consumed p)
        | none =>
          if a.releases && !(t.settled t.at_.core t.at_.clu a.scope) || hostOrdered a ps && t.posting t.at_.core t.at_.clu then holdLine .settling t
          else match atomicDo t.at_.core t.at_.clu (t.origin ps vas) a ps va len f (t.correctAt (placesOf ps vas)) with
            | none => holdLine .performing t
            | some (v, u) => k v (usePages ps u.noteNidem)

/-- The bytes of an atomic of size .w32 or .w64. -/
def amoBytes (w64 : Bool) : Nat := if w64 then 8 else 4
/-- The low bytes of an operand. -/
def lowBytes (n : Nat) (x : Word) : Nat := x.toNat % 256 ^ n

/-- AMO (R244). With a discarded destination it is a reduction, and side-logs (R232). -/
def execAmo (q : PReg) (op : AmoOp) (w64 : Bool) (d : SDst) (a b : SReg) (s : State) : Res :=
  let n := amoBytes w64
  let va := (srcS a s).toNat
  whenQ 1 q s (atomic n n (op = .swap ∨ op = .add) va (if d.isNone then some (.amo va op w64 (srcS b s)) else none)
    (fun v => some (amoOp op (8 * n) v (lowBytes n (srcS b s)))) s fun v t => .next (writeD d (BitVec.ofNat 64 v) t))

/-- CAS (R245). -/
def execCas (q : PReg) (w64 : Bool) (d a b : SReg) (s : State) : Res :=
  let n := amoBytes w64
  whenQ 1 q s (atomic n n true (srcS a s).toNat none
    (fun v => if v = lowBytes n (srcS d s) then some (lowBytes n (srcS b s)) else none) s fun v t => .next (writeS d (BitVec.ofNat 64 v) t))

/-- Two scalars as one 128-bit value (R246). -/
def pairVal (r : SReg) (s : State) : Nat := (srcS (r + 1) s).toNat * 2 ^ 64 + (srcS r s).toNat

/-- CAS2 (R246). -/
def execCas2 (q : PReg) (d a b : SReg) (s : State) : Res :=
  ifWf 1 (.cas2 q d a b) s (whenQ 1 q s (atomic 16 16 false (srcS a s).toNat none
    (fun v => if v = pairVal d s then some (pairVal b s) else none) s fun v t =>
      .next (writeS (d + 1) (BitVec.ofNat 64 (v / 2 ^ 64)) (writeS d (BitVec.ofNat 64 v) t))))

-- Lattice operations (R155 to R162, R248).
/-- Where a cell lies: slot, offset in its page, and type, of a lattice page's entry. -/
def cellAt (t : Tlb) (va : Nat) : Nat × Nat × Nat :=
  let pa := (placeIn t va).2
  ((pa - latBase) / 65536, (pa - latBase) % 65536, t.ltype.toNat)

/-- The value that a source joins into a cell of a type (R158); `none` where the form is illegal. -/
def joinValue (lt : Nat) (vec : Bool) (n : Nat) : Option Nat :=
  if vec then (if latSize lt = 64 then some n else none)
  else if lt = 6 then none
  else if lt = 7 then (if n / 2 ^ 36 ≠ 0 then none else some (n % 2 ^ 32 * 2 ^ (32 * (n / 2 ^ 32))))
  else some n

/-- A value joined into the cell at an address (R158). -/
def joinAt (t : Tlb) (va v : Nat) (s : State) : State :=
  let (slot, off, lt) := cellAt t va
  joinCell slot off lt false v s

/-- A join of a record at an address (R158, R162). -/
def joinFor (who : Option (Nat × Nat)) (t : Tlb) (va : Nat) (a : Attr) (v : Nat) (s : State) : State :=
  let (slot, off, lt) := cellAt t va
  joinOrDefer who a slot off lt v s

/-- What stops a join or a read of a cell once its page is known (R158, R160, R231). -/
inductive CellStop where
  | access
  | form
  | align
  deriving DecidableEq, Repr

/-- The checks on a cell's page, its form and its alignment. -/
def cellCheck (t : Tlb) (va : Nat) (formOk : Nat → Bool) : Option CellStop :=
  if t.tt ≠ 4 then some .access
  else if !formOk t.ltype.toNat then some .form
  else if va % latSize t.ltype.toNat ≠ 0 then some .align
  else none

/-- The stop as the trap it raises at the line. -/
def CellStop.raise (c : CellStop) (va : Nat) (k : AccKind) (s : State) : Res :=
  match c with
  | .access => pageFault .accessType va k s
  | .form => illegalOp 1 s
  | .align => pageFault .alignment va k s

/-- The bytes of an LJOIN's source: a scalar's eight, or lanes 0 to 15 of a vector (R158). -/
def joinBytes (src : VOrS) (s : State) : List Byte :=
  match src with
  | .s r => leBytes 8 (srcS r s).toNat
  | .v r => (storeVec .w32 (srcV r s)).take 64
/-- The source is a vector. -/
def isVec : VOrS → Bool
  | .v _ => true
  | .s _ => false

/-- LJOIN (R158, R162, R248). -/
def execLjoin (q : PReg) (src : VOrS) (m : MAddr) (s : State) : Res :=
  let vec := isVec src
  let a := s.attr
  let va := eaOf m (if vec then 16 else 1) s
  let bs := joinBytes src s
  whenQ 1 q s (
    if !(s.aspAllowed a) then illegalOp 1 s
    else if va % (if vec then 64 else 8) ≠ 0 then pageFault .alignment va .store s
    else match s.accessWaits true a.releases with
    | some h => holdLine h s
    | none => match xlatePages a .store s [va] with
      | .stop r => r
      | .miss x mig _ t => logStore (.join va vec bs) a x mig t
      | .ok ps t => match entryOf ps va with
        | none => .next t
        | some e => match cellCheck e va (fun lt => (joinValue lt vec (leNat bs)).isSome) with
          | some c => c.raise va .store t
          | none =>
            if t.meetsLog (span va bs.length) then holdLine .sideLog t
            else if a.releases && !(t.settled t.at_.core t.at_.clu a.scope) then holdLine .settling t
            else .next (match joinValue e.ltype.toNat vec (leNat bs) with
              | some v => joinFor t.runKey e va a v (usePages ps t)
              | none => t))

/-- A read of a cell at the local replica (R160, R161, R153): checked, translated, and given to `k` with its type. -/
def readCell (al va : Nat) (formOk : Nat → Bool) (s : State) (k : Nat → Nat → State → Res) : Res :=
  let a := s.attr
  if !s.loadAttr then illegalOp 1 s
  else if va % al ≠ 0 then pageFault .alignment va .load s
  else match s.accessWaits true (a.ord == .sc) with
  | some h => holdLine h s
  | none =>
    if s.meetsLog (span va al) then holdLine .sideLog s
    else if a.ord == .sc && !(s.settled s.at_.core s.at_.clu a.scope) then holdLine .settling s
    else match xlatePages a .load s [va] with
    | .stop r => r
    | .miss x mig _ t => holdXlate a x .load mig t
    | .ok ps t => match entryOf ps va with
      | none => .next t
      | some e => match cellCheck e va formOk with
        | some c => c.raise va .load t
        | none => let (slot, off, lt) := cellAt e va; k lt (t.cellSeen slot off lt) (usePages ps t)

/-- The scalar value of a cell (R160). -/
def cellScalar (lt v : Nat) : Word := BitVec.ofNat 64 (if lt = 7 then gcntSum 16 v else v)

/-- LLD (R160, R248). A discarded read takes the scalar form (log entry 21). -/
def execLld (q : PReg) (d : VSDst) (m : MAddr) (s : State) : Res :=
  whenQ 1 q s (match d with
    | .v r => readCell 64 (eaOf m 16 s) (fun lt => latSize lt == 64) s fun _ v t =>
        .next (writeV r (Vector.ofFn fun i => BitVec.ofNat 32 (v / 2 ^ (32 * i.val))) t)
    | .s r => readCell 8 (eaOf m 1 s) (fun lt => lt != 6) s fun lt v t => .next (writeS r (cellScalar lt v) t)
    | .discard => readCell 8 (eaOf m 1 s) (fun lt => lt != 6) s fun _ _ t => .next t)

/-- The deadline of an LWAIT that issues now (R161). -/
def lwaitDeadline (timeout : Word) (s : State) : Nat := Nat.min (2 ^ 64 - 1) (s.datum.toNat + timeout.toNat)

/-- The wait is over at a deadline; one of 2^64 − 1 never comes (R161). -/
def deadlinePassed (d : Nat) (s : State) : Bool := decide (d < 2 ^ 64 - 1) && decide (d ≤ s.datum.toNat)

/-- A walk of a waiting LWAIT holds until XRETRY: the space, and whether the page is migrating; of one that found no entry a request is posted
(R386). -/
def lwaitHeld (a : Attr) (va : Nat) (mig : Bool) (s : State) : Option (Nat × Bool) × State :=
  (some ((s.spaceOf a.asp).val, mig), if mig then s else s.postRequest (s.spaceOf a.asp) va AccKind.load.code)

/-- One test of a waiting LWAIT at the local replica, reached with the LWAIT's attributes (R161): whether its threshold is passed, and the walk
that holds, if any. While its page does not translate the test fails (log entry 101). -/
def lwaitLook (a : Attr) (va thr : Nat) (held : Option (Nat × Bool)) (s : State) : Bool × Option (Nat × Bool) × State :=
  match held with
  | some h => (false, some h, s)
  | none => match xlatePage a va s with
    | (.ok t, u) => let (slot, off, lt) := cellAt t va; (t.tt == 4 && t.r && latPassed lt (u.cellSeen slot off lt) thr, none, u)
    | (.unmapped, u) => (false, lwaitHeld a va false u)
    | (.migrating _, u) => (false, lwaitHeld a va true u)
    | (_, u) => (false, none, u)

/-- What one test of an LWAIT decides, if anything, and the CYC at which the LWAIT then completes, two clk on (R368). -/
def lwaitTest (deadline : Nat) (ok : Bool) (s : State) : Option (Bool × Word) :=
  if ok || deadlinePassed deadline s then some (ok, s.cyc + 2) else none

/-- The test of a waiting LWAIT of a cluster in this clk, once everything else in it has been done: every cluster that waits sees the joins of one
clk together (R368). -/
def State.lwaitTick (n : CoreId) (c : CluId) (s : State) : State :=
  match ((s.cores[n]).clu[c]).hold with
  | .lwait d va thr a held none =>
    let (ok, h, t) := lwaitLook a va thr held { s with at_ := { s.at_ with core := n, clu := c } }
    { t with at_ := s.at_ }.cluUpd n c fun k => { k with hold := .lwait d va thr a h (lwaitTest d ok s) }
  | _ => s
/-- The tests of a clk (R368). -/
def State.lwaitTicks (s : State) : State := (List.finRange 32).foldl (fun s n => (List.finRange 4).foldl (fun s c => s.lwaitTick n c) s) s

/-- LWAIT (R161, R248, R368, R81): it tests when it issues and in every clk from then on, and completes two clk after the test that decides
it. -/
def execLwait (q : PReg) (pd : PReg) (a b c : SReg) (s : State) : Res :=
  let va := (srcS a s).toNat
  let thr := (srcS b s).toNat
  whenQ 1 q s (match s.iss.src.hold with
    | .lwait d x y at_ h (some (ok, due)) =>
      if wle due s.cyc then .next ((writeP pd ok s).capture 7 s.at_.core.val s.at_.clu.val (BitVec.ofNat 64 va))
      else holdLine (.lwait d x y at_ h (some (ok, due))) s
    | .lwait d x y at_ h none => holdLine (.lwait d x y at_ h none) s
    | _ => readCell 8 va (fun _ => true) s fun lt v t =>
        let d := lwaitDeadline (srcS c s) s
        delivering t (holdLine (.lwait d va thr s.attr none (lwaitTest d (latPassed lt v thr) s)) t))

-- Fences (R148, R249).
/-- A fence under its condition (R249): pending exceptions first, then what it waits for. -/
def fenceX (q : PReg) (s : State) (k : Res) : Res := whenQ 1 q s (delivering s k)

/-- A release fence: what the acting cluster stores from now on follows what its record has staged until now (R148, R403). -/
def State.markFence (s : State) : State := s.onClu fun c => { c with relAt := s.ids }
/-- FENCE (R148). Loads perform at issue, so an acquire fence waits for the side log only (R153). -/
def execFence (q : PReg) (o : FenceOrd) (sc : Scope) (s : State) : Res :=
  fenceX q s (match o with
    | .acq => afterLog s (.next s)
    | _ => releaseAt sc s (.next s.markFence))
/-- FENCESC (R148): it orders the two HBM windows too. -/
def execFencesc (q : PReg) (sc : Scope) (s : State) : Res := fenceX q s (releaseAt sc s (.next (s.joinWindows s.at_.core s.at_.clu sc).markFence))

/-- The cluster's stores in flight through either HBM window are visible to the groups of a scope (R148). -/
def State.hbmSettled (s : State) (sc : Scope) : Bool :=
  s.inflight.all fun f => !(f.core == s.at_.core && f.clu == s.at_.clu && decide (f.window ≤ 1)) || (f.seen &&& scopeGroups sc) == scopeGroups sc
/-- FENCEA (R148, R153): the accesses before it are performed at the scope as seen through both windows. -/
def execFencea (q : PReg) (sc : Scope) (s : State) : Res :=
  fenceX q s (afterLog s (waitFor .settling (s.hbmSettled sc) s (.next (s.joinWindows s.at_.core s.at_.clu sc))))
/-- IFENCE (R148, R153): a fetch always sees what is visible to the cluster's group (log entry 7). -/
def execIfence (q : PReg) (s : State) : Res := fenceX q s (afterLog s (.next s))

-- The side log's replay (R232).
/-- For whom an entry is replayed: its record, its context, and whether the record has taken EXIT. -/
structure Replayer where
  who : Option (Nat × Nat)
  wid : Word
  asid : Fin 64
  left : Bool

/-- That record as a walker. -/
def Replayer.walker (p : Replayer) (s : State) : Walker := ⟨p.wid, match p.who with | some r => s.tagOf r.1 | none => 0⟩

/-- A fault of a replayed access (R232): a boundary trap; with no handler installed it is reported and the launch fails; after EXIT it is
reported (R228, R325). -/
def Replayer.fault (p : Replayer) (t : TrapRec) (s : State) : State :=
  if p.left then
    s.faultRec p.asid t.cause.toNat t.sub.toNat s.at_.core.val s.at_.clu.val 0xFF p.wid (p.walker s).tag
      t.a0 t.a1 t.a2 t.a3
  else if s.core.tvec.getLsbD 0 then s.onClu fun c => { c with pendTrap := c.pendTrap ++ [{ tr := t }] }
  else (s.reportTrap t).failLaunch

/-- The page fault of a replayed access, with the replay mark (R232, R328). -/
def Replayer.pageFault (p : Replayer) (r : PfReason) (va : Nat) (k : AccKind) (s : State) : State :=
  p.fault { cause := 0x03, sub := BitVec.ofNat 8 r.code, a0 := BitVec.ofNat 64 va, a1 := BitVec.ofNat 64 (k.code + 256) } s

/-- How the translation of a replayed access ends. -/
inductive Replay where
  | ok (ps : List (Nat × Tlb)) (s : State)
  | wait (va : Nat) (mig : Bool) (s : State)
  | stop (r : PfReason) (va : Nat) (s : State)
  | aliased (va : Nat) (s : State)

/-- The pages of a replayed access (R232): no cluster holds for them. -/
def replayPages (p : Replayer) (a : Attr) (s : State) : List Nat → Replay
  | [] => .ok [] s
  | va :: vas =>
    match (match a.asp with | .phys => (physXlate s.ctxs[p.asid] va s, s) | .drv => xlate s.unit (p.walker s) 0 va s | .ctx => xlate s.unit (p.walker s) p.asid va s) with
    | (.ok t, s1) =>
      if !t.w then .stop .permission va s1
      else if t.tt > 5 then .stop .accessType va s1
      else match replayPages p a s1 vas with
        | .ok qs s2 => .ok ((va / 65536, t) :: qs) s2
        | r => r
    | (.aliased, s1) => .aliased va s1
    | (.nowhere, s1) => .stop .translation va s1
    | (.migrating _, s1) => .wait va true s1
    | (.unmapped, s1) => .wait va false s1

/-- Where a replayed store comes from. -/
def Replayer.origin (p : Replayer) (d : Word) (a : Attr) (ps : List (Nat × Tlb)) (vas : List Nat) : Origin :=
  originOf p.who d (a.space p.asid.val) .replay ps vas

/-- A refusal of a replayed store as the fault that it raises. -/
def Replayer.refused (p : Replayer) (r : Refused) (s : State) : State :=
  match r with
  | .notMonotone va old new => p.fault { cause := 0x06, a0 := BitVec.ofNat 64 va, a1 := BitVec.ofNat 64 old, a2 := BitVec.ofNat 64 new } s
  | .access va => p.pageFault .accessType va .store s
  | .align va => p.pageFault .alignment va .store s

/-- A logged store replayed (R232, R159): one that its pages' types refuse performs none of its bytes; else they go where they would have
gone, and on a lattice page it is a checked store (log entry 34). -/
def replayStore (p : Replayer) (d : Word) (f : StForm) (a : Attr) (ps : List (Nat × Tlb)) (bs : List (Nat × Byte)) (s : State) : State :=
  match formRefused f ps bs with
  | some r => p.refused r s
  | none => match performPages s.at_.core s.at_.clu (p.origin d a ps (bs.map Prod.fst)) f a ps bs s with
    | (s2, none) => s2
    | (s2, some r) => p.refused r s2

/-- The addresses whose pages a logged access needs. -/
def SideEntry.span (e : SideEntry) : List Nat := match e.acc with
  | .store _ bs => bs.map Prod.fst
  | .join va _ _ => [va]
  | .amo va _ w64 _ => Machine.span va (amoBytes w64)

/-- The space that a replayed access uses. -/
def Replayer.space (p : Replayer) (a : Attr) : Fin 64 := if a.asp == .drv then 0 else p.asid

/-- The request of a replay that meets the translation reason again (R386). -/
def Replayer.request (p : Replayer) (e : SideEntry) (va : Nat) (s : State) : State :=
  s.post ⟨p.space e.attr, s.at_.core.val, s.at_.clu.val, 0xFF, p.wid, (p.walker s).tag, va,
    match e.acc with | .amo _ _ _ _ => 2 | _ => 1⟩

/-- THE REPLAY of an entry of the acting cluster's side log, once its pages are mapped (R232); `pop` takes it from the log, and `wait` marks
it where it waits again for a page, until XRETRY (R386). A release or SC entry waits for the accesses before it, and each for the acquires
before it; one that reaches a sealed frame walks again (R387); an atomic waits while its bytes are contested, and consumes an uncorrectable
one (R402). -/
def replayEntry (p : Replayer) (pop : State → State) (wait : Nat × Bool → State → State) (e : SideEntry) (s : State) : State :=
  match replayPages p e.attr s (pagesOf e.span) with
  | .wait va mig t => wait (va, mig) (if mig then t else p.request e va t)
  | .stop r va t => p.pageFault r va (match e.acc with | .amo _ _ _ _ => .atomic | _ => .store) (pop t)
  | .aliased va t => p.fault { cause := 0x04, a0 := BitVec.ofNat 64 va } (pop t)
  | .ok ps t =>
    if (placesOf ps e.span).any t.sealed then t.bounce ps
    else if (e.attr.releases && !(t.settled t.at_.core t.at_.clu e.attr.scope)) || t.acquiring t.at_.core t.at_.clu || t.clu.scOut != [] then t
    else match e.acc with
      | .store f bs => replayStore p e.datum f e.attr ps bs (pop t)
      | .join va vec bs => (match entryOf ps va with
        | none => t
        | some q => match cellCheck q va (fun lt => (joinValue lt vec (leNat bs)).isSome), joinValue q.ltype.toNat vec (leNat bs) with
          | none, some v => joinFor p.who q va e.attr v (pop t)
          | some .align, _ => p.pageFault .alignment va .store (pop t)
          | _, _ => p.pageFault .accessType va .store (pop t))
      | .amo va op w64 b =>
        let n := amoBytes w64
        if ps.any fun q => !(atomicOn q.2.tt (op = .swap ∨ op = .add) false) then p.pageFault .accessType va .atomic (pop t)
        else match (placesOf ps e.span).find? t.badAt with
        | some k => (pop t).consumedFor p.who p.wid k
        | none => match atomicDo t.at_.core t.at_.clu (p.origin e.datum e.attr ps e.span) e.attr ps va n
            (fun v => some (amoOp op (8 * n) v (lowBytes n b))) (t.correctAt (placesOf ps e.span)) with
          | none => t
          | some (_, u) => pop (u.noteNidemOf p.who)

/-- The oldest entry of the acting cluster's log is replayed, unless it waits for a page: one left by a record that took EXIT first, then the running strand's. -/
def replayOne (s : State) : State :=
  match s.core.left.find? fun x => x.clu == s.at_.clu with
  | some x =>
    let mark (h : Nat × Bool) (y : Left) : Left := if y == x then { y with entry := { y.entry with held := some h } } else y
    if x.entry.held.isSome then s
    else replayEntry ⟨some (x.lid, x.seq), x.wid, Fin.ofNat 64 x.asid, true⟩ (State.onCore fun k => { k with left := k.left.erase x })
      (fun h => State.onCore fun k => { k with left := k.left.map (mark h) }) x.entry s
  | none =>
    match s.clu.slog with
    | [] => s
    | e :: es =>
      if s.core.run.isSome && e.held.isNone then
        replayEntry ⟨s.runKey, s.runWid, s.asid, false⟩ (State.onClu fun c => { c with slog := c.slog.drop 1 })
          (fun h => State.onClu fun c => { c with slog := { e with held := some h } :: es }) e s
      else s

end Sys2Proof.Machine
end

