-- ==== Sys2Proof/Machine/System.lean ====
section
/-!
DEFINITION. The k-space, time and place, software traps and the return from a handler, and waiting for engines (R321 to R332).
-/
namespace Sys2Proof.Machine

-- The k-space (R321, R322).
/-- TRAPC (R326). -/
def Cluster.trapc (c : Cluster) : Word := BitVec.ofNat 64 (c.tcause.toNat + 256 * c.tsub.toNat + (if c.hm then 8388608 else 0))
/-- LCn as a register (R219). -/
def LoopCtr.word (l : LoopCtr) : Word := BitVec.ofNat 64 (l.count.toNat + (if l.act then 2 ^ 63 else 0))
/-- A queue-head counter (R408). -/
def Core.counter (k : Core) (addr : Nat) : Word := match k.qctr.find? fun p => p.1 == addr with
  | some p => p.2
  | none => 0

/-- A k-register as MFK reads it (R321); `none` for an address that is unassigned or the host's. -/
def kRead (k : Core) (c : Cluster) (a : Nat) : Option Word :=
  if a = 0 then some k.numctl
  else if a = 1 then some k.fpstatRead
  else if a = 2 then some k.memdef
  else if a = 3 then some k.agectl
  else if 8 ≤ a ∧ a < 12 then some k.unpk[Fin.ofNat 4 (a - 8)]
  else if a = 0x10 then some (c.rrb.setWidth 64)
  else if 0x18 ≤ a ∧ a < 0x20 then some c.lctr[Fin.ofNat 8 (a - 0x18)].word
  else if a = 0x20 then some k.tvec
  else if a = 0x21 then some c.trapc
  else if a = 0x22 then some c.trappc
  else if 0x24 ≤ a ∧ a < 0x28 then some c.trapa[Fin.ofNat 4 (a - 0x24)]
  else if 0x28 ≤ a ∧ a < 0x30 then some c.trapit[Fin.ofNat 8 (a - 0x28)]
  else if 0x40 ≤ a ∧ a < 0x60 then some k.xb.evx[Fin.ofNat 32 (a - 0x40)]
  else if a = 0x2C0 then some (if k.frz then 1 else 0)
  else if 0x100 ≤ a ∧ a < 0x400 then some (k.counter a)
  else none

/-- MFK (R322). -/
def execMfk (q : PReg) (d : SReg) (k : BitVec 12) (s : State) : Res :=
  whenQ 0 q s (match kRead s.core s.iss.src k.toNat with
    | some x => .next (writeS d x s)
    | none => illegalOp 0 s)

/-- A value that NUMCTL refuses: a reserved RM, or in a deterministic launch a write from a split cluster (R68). -/
def numctlRefused (w : Word) (s : State) : Bool :=
  decide (wf_ 10 8 w > 5) || (!s.iss.sync && s.myLaunch.any fun l => !l.dyn)
/-- A value that MEMDEF refuses (R137). -/
def memdefRefused (w : Word) (s : State) : Bool :=
  (wf_ 9 7 w != 0 && wf_ 9 7 w != 4) || wf_ 4 3 w == 3 || wf_ 2 1 w == 3 || (wf_ 2 1 w != 0 && !s.iss.src.hm)

/-- A write to a shared k-register, in effect from the next cycle (R322). -/
def mtkShared (a : Nat) (w : Word) (s : State) : State := s.onCore fun k => { k with kpend := k.kpend ++ [(a, w)] }
/-- The writable bits of a counter and of a term register (R49, R50). -/
def evxMask (n : Nat) : Word := if n < 16 then 0xC0FFFF00FFFFFFFF#64 else 0xCFFFFFFFFFFF0000#64
/-- A write to EVXn, in effect from the next cycle (R322). -/
def mtkEvx (n : Nat) (w : Word) (s : State) : State :=
  s.onCore fun k => { k with xb := { k.xb with pend := k.xb.pend ++ [(n, w &&& evxMask n)] } }
/-- A value written to NUMCTL enters the strand's signature (R83). -/
def signMtk (w : Word) (s : State) : State := match s.core.run with
  | some r => s.onRec r.lid r.seq fun x => { x with sig := { x.sig with curMtk := x.sig.curMtk ++ [w &&& 0x0000FFFF0000FF1F#64] } }
  | none => s

/-- TRAPPC written; another row than the one at which a folio has acted leaves that folio (R226). -/
def Cluster.setTrappc (w : Word) (c : Cluster) : Cluster :=
  { c with trappc := w, acted := if bits 55 6 w.toNat = bits 55 6 c.trappc.toNat then c.acted else none }

/-- MTK (R322) and its refusals (R68, R137, R215, R219, R322). -/
def execMtk (q : PReg) (k : BitVec 12) (a : SReg) (s : State) : Res :=
  let n := k.toNat
  let w := srcS a s
  let c := s.iss.src
  whenQ 0 q s (
    if n = 0 then (if numctlRefused w s then illegalOp 0 s else .next (signMtk w (mtkShared 0 w s)))
    else if n = 2 then (if memdefRefused w s then illegalOp 0 s else .next (mtkShared 2 w s))
    else if n = 1 ∨ n = 3 ∨ (8 ≤ n ∧ n < 12) ∨ n = 0x20 then .next (mtkShared n w s)
    else if n = 0x10 then (if c.inPiped then illegalOp 0 s else .next (s.onClu fun c => { c with rrb := w.setWidth 5 }))
    else if 0x18 ≤ n ∧ n < 0x20 then
      (if c.lctr[Fin.ofNat 8 (n - 0x18)].act then illegalOp 0 s
      else .next (s.onClu fun c => { c with lctr := vmod c.lctr (Fin.ofNat 8 (n - 0x18)) fun l => { l with count := w.setWidth 33 } }))
    else if n = 0x22 then (if c.hm then .next (s.onClu (Cluster.setTrappc w)) else illegalOp 0 s)
    else if 0x40 ≤ n ∧ n < 0x60 then .next (mtkEvx (n - 0x40) w s)
    else if 0x100 ≤ n ∧ n < 0x400 then .next (if n = 0x2C0 then mtkShared n w s else s)
    else illegalOp 0 s)

-- Time and place (R323, R324).
/-- RDCYC (R323). -/
def execRdcyc (q : PReg) (d : SDst) (s : State) : Res := whenQ 0 q s (.next (writeD d s.cyc s))
/-- RDDATUM (R323). -/
def execRddatum (q : PReg) (d : SDst) (s : State) : Res := whenQ 0 q s (.next (writeD d s.datum s))

/-- The channel and die of a byte that translates (R324). -/
def chDie (t : Tlb) (va : Nat) : Nat × Nat :=
  let k := (placeIn t va).2
  match t.tt with
  | 0 => (chanOf k, dieOf k)
  | 1 => (chanOf k, dieOf k)
  | 3 => (0xFF, dieOf k)
  | 5 => (0xFF, 0xF)
  | _ => (0xFF, 0)

/-- LOCALITY's value for an address (R324); a page of a target type that R129 gives no place has none (log entry 112). -/
def localityOf (va : Nat) (s : State) : Word :=
  let chip := match s.myLaunch with
    | some l => if l.chipset = 0xFFFF then 0 else l.chipPos
    | none => 0
  let (v, tt, ch, die) := match (xlatePage s.attr va s).1 with
    | .ok t => if t.tt ≤ 5 then (1, t.tt, (chDie t va).1, (chDie t va).2) else (0, 0, 0xFF, 0xF)
    | _ => (0, 0, 0xFF, 0xF)
  BitVec.ofNat 64 (chip * 2 ^ 46 + s.at_.core.val * 2 ^ 41 + s.at_.clu.val * 2 ^ 39 + v * 2 ^ 23 + tt * 2 ^ 20 + ch * 2 ^ 12 + die * 2 ^ 8)

/-- LOCALITY (R323, R324): no access, no fault, no change of state. -/
def execLocality (q : PReg) (d : SDst) (a : SReg) (s : State) : Res := whenQ 0 q s (.next (writeD d (localityOf (srcS a s).toNat s) s))

-- Traps (R329, R330).
/-- Where a cluster goes after a line that holds a TRAP or BRKPT (R211, R329): on, or to where a FORKC of the folio redirects it, which is a
taken transfer from the line. -/
def Cluster.leaveLine (c : Cluster) : Cluster := match c.forked with
  | some t => ({ c with branch := some t, forked := none }).advance false
  | none => c.advance false

/-- A trap taken after the line (R328, R329): the line goes on to its next row, which the trap saves. -/
def afterLine (t : TrapRec) (s : State) : State :=
  let s1 := s.onClu Cluster.leaveLine
  let s2 := takeTrap t (lineAddr s1.at_.clu s1.clu.pc) s1
  { s2 with iss := { s2.iss with afterTrap := some t } }

/-- TRAP (R329). -/
def execTrap (q : PReg) (code : BitVec 16) (a : SReg) (s : State) : Res :=
  whenQ 0 q s (.next (afterLine { cause := 0x0E, a0 := code.setWidth 64, a1 := srcS a s } s))

/-- BRKPT (R329): a breakpoint trap, or, where the context's debug-halt bit is set, a halt of the core for the debugger: its own cluster
halts after the line. -/
def execBrkpt (q : PReg) (code : BitVec 16) (s : State) : Res :=
  whenQ 0 q s (.next (
    if s.pkg.dbghalt.getLsbD s.asid.val then (s.onCore fun k => { k with preReq := true, dbgHalted := true }).onClu fun c => { c with halted := true }
    else afterLine { cause := 0x0F, a0 := code.setWidth 64 } s))

/-- ERET (R330). -/
def execEret (q : PReg) (s : State) : Res := whenQ 0 q s (if s.iss.src.hm then .next (leaveTrap s) else illegalOp 0 s)

/-- Every engine of a mask is idle with an empty queue, and none has ended a command in this clk (R332, R370). -/
def enginesIdle (mask : Word) (s : State) : Bool :=
  (List.finRange 27).all fun e => !(mask.getLsbD e.val) ||
    ((s.core.eng[e]).cmd.isNone && (s.core.eng[e]).queue == [] && (s.core.eng[e]).pulse.isNone)
/-- WIDLE (R332). -/
def execWidle (q : PReg) (a : SReg) (s : State) : Res :=
  whenQ 0 q s (if wf_ 63 27 (srcS a s) ≠ 0 then illegalOp 0 s else waitFor (.widle (srcS a s)) (enginesIdle (srcS a s) s) s (.next s))

/-- MEMPFX gives the line's memory instruction its attributes (R135), which the line takes as it begins. -/
def execMempfx (_ : Ord) (_ : Scope) (_ : CPol) (_ : Asp) (s : State) : Res := .next s

end Sys2Proof.Machine
end

