-- ==== Sys2Proof/Machine/TileOps.lean ====
section
/-!
DEFINITION. Tile handles in the M slot: allocation, freeing, pinning, owner flips, and moves between a register and a tile (R113 to R125,
R241 to R243).
-/
namespace Sys2Proof.Machine

/-- The handle that a syllable names (R185, R242): `none` for a scalar beyond 1,023. -/
def handleOf (h : HRef) (s : State) : Option Nat :=
  match h with
  | .num n => some n.val
  | .reg r => if (srcS r s).toNat < 1024 then some (srcS r s).toNat else none

/-- The entry of a handle of the context on the acting core. -/
def State.tileEnt (s : State) (h : Nat) : Option TileEnt := s.core.tile s.core.asid h
/-- That entry changed. -/
def State.onTileH (h : Nat) (g : TileEnt → TileEnt) (s : State) : State := s.onEnt s.at_.core s.core.asid h g

/-- An instruction on an allocated handle (R242): a free one is an illegal operation. -/
def withTile (q : PReg) (h : HRef) (s : State) (k : Nat → TileEnt → Res) : Res :=
  whenQ 1 q s (match handleOf h s with
    | none => illegalOp 1 s
    | some n => match s.tileEnt n with
      | none => illegalOp 1 s
      | some t => k n t)

/-- TALLOC's request (R241). -/
structure TReq where
  rowsm1 : Nat
  colsm1 : Nat
  esz : Nat
  level : Nat
  home : Nat
  deriving DecidableEq, Repr
def reqOf (a b : Word) : TReq := ⟨wf_ 15 0 a, wf_ 27 16 a, wf_ 29 28 a, wf_ 1 0 b, if wf_ 1 0 b = 0 then 0 else wf_ 7 4 b⟩

/-- An entry as TALLOC leaves it (R117, R118), at a place of its level. -/
def TReq.entry (r : TReq) (h place slot last stamp : Nat) (mine : Option (Nat × Nat)) : TileEnt where
  h := h
  rowsm1 := r.rowsm1
  colsm1 := r.colsm1
  esz := r.esz
  level := r.level
  home := r.home
  owner := false
  res := true
  infl := false
  pins := 0
  swz := 0
  ptag := 0xFF
  place := place
  slot := slot
  last := last
  stamp := stamp
  flips := []
  mine := mine
  cells := []
  acc := []

/-- The footprint in granules of the level (R116). -/
def TReq.granules (r : TReq) : Nat := (r.entry 0 0 0 0 0 none).granules

/-- What R117 and R241 call illegal. -/
def tallocBad (a b : Word) (s : State) : Bool :=
  let r := reqOf a b
  wf_ 63 30 a != 0 || wf_ 63 8 b != 0 || wf_ 3 2 b != 0 || r.level == 3 || (r.level != 0 && s.fenced r.home) ||
    (r.level == 2 && (r.esz != 2 || (r.colsm1 + 1) % 16 != 0 || decide (r.colsm1 ≥ 256) || decide (r.rowsm1 ≥ 256))) ||
    decide (r.granules > levelTotal s.ctxs[s.asid] r.level)

/-- What TALLOC finds for a request on a core (R117): the handle, its backing slot, its place, and the victims to evict, none of them among the
handles to keep. -/
def tallocFind (r : TReq) (n : CoreId) (asid : Fin 64) (s : State) (keep : List Nat := []) : Option (Nat × Nat × Nat × List Nat) :=
  let k := s.cores[n]
  let c := s.ctxs[asid]
  let rivals := k.rivals asid.val r.level r.home
  let slot := if r.level = 2 then some 0 else lowestFit (c.backsize / 4096) r.granules (s.slotsUsed asid.val)
  match k.freeHandle asid.val, slot, makeRoom (levelTotal c r.level) r.granules rivals (victims (rivals.filter fun t => !(keep.contains t.h))) with
  | some h, some sl, some (p, gone) => some (h, sl, p, gone)
  | _, _, _ => none

/-- The allocation performed (R116, R117, R122, R123). -/
def tallocDo (r : TReq) (n : CoreId) (asid : Fin 64) (f : Nat × Nat × Nat × List Nat) (mine : Option (Nat × Nat)) (s : State) : State :=
  let s1 := f.2.2.2.foldl (fun s v => s.evict n asid v) s
  { s1 with ids := s1.ids + 1, fresh := s1.fresh + 1 }.coreUpd n fun k =>
    { k with tiles := k.tiles ++ [(1024 * asid.val + f.1, r.entry f.1 f.2.2.1 f.2.1 s1.ids s1.fresh mine)] }

/-- TALLOC (R241, R117). -/
def execTalloc (q : PReg) (d : SDst) (a b : SReg) (pd : PReg) (s : State) : Res :=
  whenQ 1 q s (
    if tallocBad (srcS a s) (srcS b s) s then illegalOp 1 s
    else
      let r := reqOf (srcS a s) (srcS b s)
      match tallocFind r s.at_.core s.asid s with
      | none => .next (writeP pd false (writeD d 0xFFFF s))
      | some f => .next (writeP pd true (writeD d (BitVec.ofNat 64 f.1) (tallocDo r s.at_.core s.asid f s.runKey s))))

/-- TFREE (R119). -/
def execTfree (q : PReg) (h : HRef) (s : State) : Res :=
  withTile q h s fun n t =>
    if t.owner || t.pins != 0 || t.infl then ownerFault 1 n s
    else .next (s.onCore fun k => { k with tiles := k.tiles.filter fun x => x.1 != 1024 * k.asid + n })

/-- A handle must be resident: an evicted one is reloaded first, which holds the cluster (R124); in a folio that issues, where an earlier line
has just evicted it, it comes back within the folio. -/
def resident (n : Nat) (t : TileEnt) (s : State) (k : TileEnt → State → Res) : Res :=
  if t.res then k t s
  else if s.passed then
    match s.reload s.at_.core s.asid n with
    | some u => (match u.tileEnt n with
      | some v => k v u
      | none => holdLine (.reload n) s)
    | none => holdLine (.reload n) s
  else holdLine (.reload n) s

/-- The owner flips (R53): every command enqueued so far comes before it (R52; log entry 130). -/
def flipOwner (n : Nat) (eng : Bool) (s : State) : State := s.onTileH n fun t => { t with owner := eng, flips := s.core.stamps :: t.flips.erase s.core.stamps }

/-- TGIVE (R53, R124, R153). -/
def execTgive (q : PReg) (h : HRef) (s : State) : Res :=
  withTile q h s fun n t =>
    if t.owner then .next s
    else afterLog s (resident n t s fun _ u => .next (flipOwner n true (u.touch s.at_.core s.core.asid n)))

/-- A command enqueued up to a stamp that names a handle of the core's context has not ended (R53). -/
def State.named (s : State) (n : CoreId) (asid h stamp : Nat) : Bool :=
  (s.cores[n].cmds).any fun p => decide (p.2.stamp ≤ stamp) && s.cmdAsid p.2 == asid && (s.ranges n p.1 p.2).any fun r => r.h == h

/-- The command stamp at which the cluster's TTAKE was issued. -/
def ttakeStamp (n : Nat) (s : State) : Nat := match s.clu.hold with
  | .ttake m k => if m = n then k else s.core.stamps
  | _ => s.core.stamps

/-- TTAKE (R53). -/
def execTtake (q : PReg) (h : HRef) (s : State) : Res :=
  withTile q h s fun n t =>
    if !t.owner then .next s
    else waitFor (.ttake n (ttakeStamp n s)) (!(s.named s.at_.core s.core.asid n (ttakeStamp n s))) s (.next (flipOwner n false s))

/-- HANDLE_RELOAD (R124): a handle of the context on the acting core comes back, where a range can be had. -/
def execEvHandleReload (h : Fin 1024) (s : State) : Res :=
  match s.reload s.at_.core s.asid h.val with
  | some t => .next t
  | none => .next s

-- TLD and TST (R243).
/-- Bytes that a kind moves. -/
def tkBytes : TKind → Nat
  | .b512 => 512
  | .b256 => 256
  | .b128 => 128

/-- The first byte within the handle, and the bytes left in the row, of an access (R243): `none` where it is illegal. -/
def tileSpan (t : TileEnt) (x : Word) : Option (Nat × Nat) :=
  let row := wf_ 31 0 x
  let start := 512 * wf_ 47 32 x
  if wf_ 63 48 x ≠ 0 ∨ t.level = 2 ∨ t.rows ≤ row ∨ t.rowBytes ≤ start then none
  else some (row * t.rowBytes + start, t.rowBytes - start)

/-- An access to a tile (R125, R243): its span, once the handle is the core's and resident. -/
def tileAccess (q : PReg) (h : HRef) (row : SReg) (s : State) (k : Nat → TileEnt → Nat × Nat → State → Res) : Res :=
  withTile q h s fun n t =>
    match tileSpan t (srcS row s) with
    | none => illegalOp 1 s
    | some sp => if t.owner then ownerFault 0 n s else resident n t s fun v u => k n v sp u

/-- TLD (R243), through the tile port (R37); it consumes an uncorrectable word of the handle's SRAM (R402). -/
def execTld (q : PReg) (d : VReg) (h : HRef) (row : SReg) (k : TKind) (s : State) : Res :=
  tileAccess q h row s fun n t sp u =>
    let len := Nat.min (tkBytes k) sp.2
    let lo := t.sram s.at_.core sp.1
    match u.badIn lo (lo + len) with
    | some p => lineGone (u.consumed p)
    | none => .next (usePort 2 (writeV d (lanesOfBytes (t.read sp.1 len)) ((u.correctIn lo (lo + len)).touch s.at_.core s.core.asid n)))
where
  /-- Bytes as lanes; lanes beyond them are zero. -/
  lanesOfBytes (bs : List Byte) : VecReg :=
    let x := leNat bs
    Vector.ofFn fun i => BitVec.ofNat 32 (x / 2 ^ (32 * i.val))

/-- TST (R243, R120), through the tile port (R37); what it writes to an uncorrectable word in part is lost (R402). -/
def execTst (q : PReg) (d : VReg) (h : HRef) (row : SReg) (k : TKind) (s : State) : Res :=
  tileAccess q h row s fun n t sp u =>
    let bs := leBytes (Nat.min (tkBytes k) sp.2) ((vlist (srcV d s)).foldr (fun x a => x.toNat + 4294967296 * a) 0)
    .next (usePort 2 (((u.touch s.at_.core s.core.asid n).putHandle s.at_.core s.core.asid n t sp.1 bs).onTileH n fun t => { t with swz := 0 }))

/-- TINFO (R118, R242): a free handle has LEVEL 0b11 and nothing else. -/
def execTinfo (q : PReg) (d : SReg) (h : HRef) (s : State) : Res :=
  whenQ 1 q s (match handleOf h s with
    | none => illegalOp 1 s
    | some n => .next (writeS d (match s.tileEnt n with
      | some t => t.info
      | none => 0x300000000#64) s))

/-- THOLD (R119). -/
def execThold (q : PReg) (h : HRef) (s : State) : Res :=
  withTile q h s fun n t => if t.pins = 255 then illegalOp 1 s else .next (s.onTileH n fun t => { t with pins := t.pins + 1 })
/-- TRELS (R119). -/
def execTrels (q : PReg) (h : HRef) (s : State) : Res :=
  withTile q h s fun n t => if t.pins = 0 then illegalOp 1 s else .next (s.onTileH n fun t => { t with pins := t.pins - 1 })

end Sys2Proof.Machine
end

