-- ==== Sys2Proof/Machine/ClusterEvents.lean ====
section
/-!
DEFINITION. The steps that end a cluster's wait (R36, R45, R53, R161, R221, R332), its boundary traps (R331), safe-point drought (R333,
R348), the replay of its side log (R232), a store that becomes visible (R143), and the crossbar's entries (R48 to R50).
-/
namespace Sys2Proof.Machine

/-- A wait that has ended: the line goes on where it stands. -/
def released (met : Bool) (s : State) : State := if met then s.onClu fun c => { c with hold := .none } else s

/-- CCWAIT_RELEASE (R36): every bit that the cluster waits for is set. -/
def execEvCcwaitRelease (s : State) : Res := match s.clu.hold with
  | .ccwait mask => .next (released (ccAll mask s) s)
  | _ => .next s
/-- SLEEPUNTIL_WAKE (R221): CYC has reached the operand. -/
def execEvSleepuntilWake (s : State) : Res := match s.clu.hold with
  | .sleep t => .next (released (wle t s.cyc) s)
  | _ => .next s
/-- WIDLE_COMPLETE (R332, R370): every named engine has an empty queue and no command. -/
def execEvWidleComplete (s : State) : Res := match s.clu.hold with
  | .widle mask => .next (released (enginesIdle mask s) s)
  | _ => .next s
/-- RDV_COMPLETE (R45): every named engine has its mark. The marks are cleared as the line completes. -/
def execEvRdvComplete (s : State) : Res := match s.clu.hold with
  | .rdv mask => .next (released (allMarked mask s) s)
  | _ => .next s
/-- TTAKE_COMPLETE (R53): every command that names the handle and was enqueued before the TTAKE has executed END. -/
def execEvTtakeComplete (s : State) : Res := match s.clu.hold with
  | .ttake h stamp => .next (released (!(s.named s.at_.core s.core.asid h stamp)) s)
  | _ => .next s

/-- LWAIT_PASS (R161, R368): a join has made the threshold pass. -/
def execEvLwaitPass (s : State) : Res := match s.clu.hold with
  | .lwait d va thr a held none => .next (match lwaitLook a va thr held s with
    | (true, h, t) => t.onClu fun c => { c with hold := .lwait d va thr a h (some (true, s.cyc + 2)) }
    | _ => s)
  | _ => .next s
/-- LWAIT_TIMEOUT (R161): the datum has reached the deadline, with the threshold not passed. -/
def execEvLwaitTimeout (s : State) : Res := match s.clu.hold with
  | .lwait d va thr a held none => .next (if deadlinePassed d s && !(lwaitLook a va thr held s).1 then
      s.onClu fun c => { c with hold := .lwait d va thr a held (some (false, s.cyc + 2)) } else s)
  | _ => .next s

/-- The acting cluster runs a strand and does not stand halted. -/
def State.runs (s : State) : Bool := s.core.run.isSome && !s.core.haltd && !s.clu.halted

/-- BOUNDARY_TRAP (R331): the pending trap that ranks first is taken before the next line issues. -/
def execEvBoundaryTrap (s : State) : Res :=
  match s.nextBoundary with
  | some (b, rest) => .next (if s.runs then haltAtEntry (takeBoundary b rest s) else s)
  | none => .next s

/-- SAFE_POINT_DROUGHT (R333, R348): the count has reached 8,192 clk; the trap is raised once until a SAFE restarts the count. -/
def execEvSafePointDrought (s : State) : Res :=
  if s.runs && decide (8192 ≤ s.clu.drought) && !s.clu.dfired then
    let t : TrapRec := { cause := 0x0D, a0 := BitVec.ofNat 64 s.clu.drought }
    .next (if s.core.tvec.getLsbD 0 then s.onClu fun c => { c with dfired := true, pendTrap := c.pendTrap ++ [{ tr := t }] }
      else (s.reportTrap t).failLaunch)
  else .next s

/-- SIDE_LOG_REPLAY (R232): the oldest entry of the cluster's side log is replayed once its pages are mapped. -/
def execEvSideLogReplay (s : State) : Res := .next (replayOne s)

/-- ACCESS_PERFORMED (R143, R145): a store in flight becomes visible to a visibility group. -/
def execEvAccessPerformed (id : Nat) (group : Fin 10) (s : State) : Res := .next (s.showTo id group.val)

/-- EVX_COUNTER_EVENT (R48, R49): the action of a counter that reached zero, where it is due. -/
def execEvEvxCounterEvent (k : Fin 16) (s : State) : Res := .next (s.actDue s.at_.core k.val)
/-- EVX_TERM_EDGE (R48, R50): the action of a term whose output rose, where it is due. -/
def execEvEvxTermEdge (k : Fin 16) (s : State) : Res := .next (s.actDue s.at_.core (16 + k.val))

end Sys2Proof.Machine
end

