-- ==== Sys2Proof/Machine/Engine.lean ====
section
/-!
DEFINITION. What every stream word shares (R288 to R296): engine faults and the abandonment of a command, the word's frame (engine kind,
stack), operand headers in use, and the bytes of a handle as a word sees them.
-/
namespace Sys2Proof.Machine

/-- The engine faults' sub-causes (R328). -/
inductive EFault where
  | illegalWord | stack | page (reason va : Nat) | owner | precision | swizzle | overlap
  deriving DecidableEq, Repr
def EFault.sub : EFault → BitVec 8
  | .illegalWord => 1
  | .stack => 2
  | .page _ _ => 3
  | .owner => 4
  | .precision => 5
  | .swizzle => 6
  | .overlap => 7
/-- TRAPA3 of an engine fault: the reason and the address of a page fault (R328). -/
def EFault.a3 : EFault → Word
  | .page r va => BitVec.ofNat 64 (r * 2 ^ 56 + va % 2 ^ 56)
  | _ => 0

/-- TRAPA2 of an engine fault (R292, R328). -/
def faultWhere (idx word depth : Nat) (issue : Bool) : Word :=
  BitVec.ofNat 64 (word % 65536 + idx % 65536 * 65536 + depth % 16 * 2 ^ 32 + (if issue then 2 ^ 36 else 0))

/-- The running CRC of a copy channel goes to the saved context whose command ends there (R414). -/
def keepCrc (n : CoreId) (e : Eng) (c : CmdSpec) (s : State) : State :=
  let mine := (s.cores[n].eng[e]).crc.filter fun p => p.1 == s.cmdAsid c
  s.coreUpd n fun k => { k with saved := k.saved.map fun v =>
    if v.run.lid == c.lid && v.run.seq == c.seq then { v with crcs := v.crcs.set e.val mine } else v }

/-- What an ending command leaves on its tile (R300): its descriptor and banks stay for the next command of its run, go with a saved
context, and are discarded when its record has left the core. -/
def endArrays (n : CoreId) (e : Eng) (c : CmdSpec) (s : State) : State :=
  if s.liveOn n c then s
  else
    let g := s.cores[n].eng[e]
    let s1 := (keepCrc n e c s).coreUpd n fun k => { k with saved := k.saved.map fun v =>
      if v.run.lid == c.lid && v.run.seq == c.seq then
        { v with arrays := v.arrays.set e.val (g.desc, g.bank0, g.bank1, g.active) } else v }
    s1.engUpd n e fun g => { g with desc := none, active := none }

/-- A command abandoned (R58, R292): a reply not yet written becomes 0, the engine is free, and its cluster is told. -/
def State.abandon (n : CoreId) (e : Eng) (c : CmdSpec) (replied : Bool) (t : TrapRec) (s : State) : State :=
  let s1 := if replied then s else s.writeReply n c 0
  ((endArrays n e c s1).vacate n e).tellCluster n e c t true

/-- The command of a rolled-back record stops (R405): its engine is free, and nothing is told. -/
def State.stopKilled (n : CoreId) (e : Eng) (c : CmdSpec) (s : State) : State := (endArrays n e c s).vacate n e

/-- What TRAPA2 says of a fault of a running command (R292): its word, or, for a copy that a helper placed, the word that placed it. -/
def Cmd.where_ (c : Cmd) (g : Engine) : Word := match c.owner, c.job with
  | some _, some (.copy j) => j.where_
  | _, _ => faultWhere c.ip (g.bitsAt c.ip) c.stk.length false

/-- AN ENGINE FAULT of the running command, taken before its word has any effect (R292). One of a copy that a helper placed is the helper's: it ends
the helper's command, or, where a helper strand has executed END, it is reported for its record alone (R23). -/
def engFault (f : EFault) (s : State) : State :=
  let n := s.at_.core
  let e := s.at_.eng
  match s.eng.cmd with
  | none => s
  | some c =>
    let h := c.owner.getD e
    let tr : TrapRec := { cause := 0x0A, sub := f.sub, a0 := BitVec.ofNat 64 h.val, a1 := BitVec.ofNat 64 c.spec.pos, a2 := c.where_ s.eng, a3 := f.a3 }
    let s1 := if c.owner.isSome then s.engUpd n e fun g => { g with cmd := none } else s
    match (s1.cores[n].eng[h]).cmd with
    | some d =>
      if d.spec.stamp = c.spec.stamp then (if d.killed then s1.stopKilled n h d.spec else s1.abandon n h d.spec d.replied tr)
      else if c.killed then s1 else s1.tellCluster n h c.spec tr false
    | none => if c.killed then s1 else s1.tellCluster n h c.spec tr false

/-- An engine fault found when the head of the queue issues (R292): the command leaves the queue and carries the issue mark. -/
def issueFault (f : EFault) (c : CmdSpec) (s : State) : State :=
  let n := s.at_.core
  let e := s.at_.eng
  let entry := s.eng.entryAt c.entry
  let (idx, word) := if entry = 0xFFFF then (0xFFFF, 0) else (entry % 4096, s.eng.bitsAt (entry % 4096))
  (s.popHead e).abandon n e c false
    { cause := 0x0A, sub := f.sub, a0 := BitVec.ofNat 64 e.val, a1 := BitVec.ofNat 64 c.pos
      a2 := faultWhere idx word 2 true, a3 := f.a3 }

/-- A word's fault as an outcome. -/
def wordFault (f : EFault) (s : State) : Res := .next (engFault f s)

/-- The running command replaced. -/
def setCmd (c : Cmd) (s : State) : State := s.onEng fun e => { e with cmd := some c }

/-- THE FRAME OF A WORD (R290, R291): nothing where no command runs or a longer word is in progress; a word of another engine kind is the
illegal-word fault, and too shallow a stack the stack fault. -/
def inWord (i : Instr) (need : Nat) (s : State) (k : Cmd → Res) : Res :=
  match s.eng.cmd with
  | none => .next s
  | some c =>
    if c.job.isSome then .next s
    else if !(kindRuns s.at_.eng.val (encodeWord i)) then wordFault .illegalWord s
    else if c.stk.length < need then wordFault .stack s
    else k c

/-- The word is done: the stack is replaced, and the next word is the one after it. More than eight entries is the stack fault. -/
def nextWith (c : Cmd) (stk : List Word) (s : State) : Res :=
  if stk.length > 8 then wordFault .stack s else .next (setCmd { c with stk := stk, ip := c.ip + 1 } s)

/-- A word that only changes the stack (R297): the top `need` entries, top first, become others. -/
def stackWord (i : Instr) (need : Nat) (f : List Word → List Word) (s : State) : Res :=
  inWord i need s fun c => nextWith c (f (c.stk.take need) ++ c.stk.drop need) s

/-- A longer word begins: its job stands until it ends, and the word is not left yet. -/
def startJob (c : Cmd) (j : Job) (s : State) : State := setCmd { c with job := some j } s

/-- A longer word ends: its operands leave the stack, results are pushed, and the next word follows. -/
def endJob (pops : Nat) (push : List Word) (s : State) : State :=
  s.onEng fun e => { e with cmd := e.cmd.map fun c => { c with job := none, stk := push ++ c.stk.drop pops, ip := c.ip + 1 } }

/-- The bound of a running command has passed at this word boundary or wait (R58). -/
def Cmd.overrun (c : Cmd) (now : Word) : Bool := match c.bound with
  | some b => decide ((now - c.issued).toNat > b)
  | none => false

/-- A word boundary, or a wait within a word (R58): no longer word is in progress, or it is a copy that is held or a collective that
waits. -/
def Cmd.atBoundary (c : Cmd) : Bool := match c.job with
  | none => true
  | some .coll => true
  | some (.copy j) => c.stall != .none || j.again.isSome || j.sent.isSome || j.tile.isSome
  | _ => false

-- Headers in use (R295, R296).
/-- What a word asks of an operand: whether it writes it, the level of its handle, and the layout code it expects, if any. -/
structure Want where
  write : Bool
  level : Nat
  code : Option Nat
  deriving DecidableEq, Repr

/-- The context of the acting engine's running command. -/
def State.engAsid (s : State) : Nat := match s.eng.cmd with | some c => s.cmdAsid c.spec | none => s.core.asid

/-- An operand in use: its header and the handle's entry, or the fault it raises (R295, R296). -/
def useHdr (w : Want) (x : Word) (s : State) : Except EFault (Hdr × TileEnt) :=
  match hdrOf x, s.eng.cmd with
  | some h, some c =>
    let declared := s.ranges s.at_.core s.at_.eng c.spec
    let inside := declared.any fun d => d.h == h.h && decide (d.row0 ≤ h.row0) && decide (h.row0 + h.rows ≤ d.row0 + d.rows) && (!w.write || d.w)
    if 5 ≤ h.swz ∧ h.swz ≤ 0xFE then .error .illegalWord
    else if !inside || (w.write && !h.w) then .error .owner
    else match s.core.tile s.engAsid h.h with
      | none => .error .owner
      | some t =>
        if t.level ≠ w.level then .error .illegalWord
        else match w.code with
          | some k => if h.swz ≠ 0xFF ∧ h.swz ≠ k then .error .swizzle else .ok (h, t)
          | none => .ok (h, t)
  | _, _ => .error .illegalWord

/-- The first byte of a region within its handle, and its length (R295). -/
def Hdr.base (h : Hdr) (t : TileEnt) : Nat := h.row0 * t.rowBytes
def Hdr.size (h : Hdr) (t : TileEnt) : Nat := h.rows * t.rowBytes

/-- The scale array starts at the next 64-byte boundary (R295). -/
def align64 (n : Nat) : Nat := ceilDiv n 64 * 64

/-- Bytes of an operand from an offset in its region. -/
def opBytes (h : Hdr) (t : TileEnt) (off n : Nat) : List Byte := t.read (h.base t + off) n

/-- The `i`-th little-endian value of `k` bytes of an operand. -/
def opVal (h : Hdr) (t : TileEnt) (k i : Nat) : Nat := leNat (opBytes h t (k * i) k)

/-- The `i`-th field of `w` bits of a dense bit stream that starts at an offset of an operand (R62). -/
def opField (h : Hdr) (t : TileEnt) (off w i : Nat) : Nat :=
  let first := w * i / 8
  leNat (opBytes h t (off + first) ((w * i + w - 1) / 8 + 1 - first)) / 2 ^ (w * i % 8) % 2 ^ w

/-- The first uncorrectable place of an operand's region, if any (R402). -/
def State.regionBad (s : State) (h : Hdr) (t : TileEnt) : Option Nat :=
  let lo := t.sram s.at_.core (h.base t)
  s.badIn lo (lo + h.size t)

/-- Operands that a word of the acting engine reads (R123): accessed now, with what the code corrects in them corrected (R402). -/
def State.touchOps (hs : List Hdr) (s : State) : State := hs.foldl (fun s h =>
  (match s.core.tile s.engAsid h.h with
  | some t => let lo := t.sram s.at_.core (h.base t)
    s.correctIn lo (lo + h.size t)
  | none => s).touch s.at_.core s.engAsid h.h) s

/-- Bytes written into a handle of the acting engine's context from an offset. -/
def State.putTile (hn : Nat) (t : TileEnt) (off : Nat) (bs : List Byte) (s : State) : State := s.putHandle s.at_.core s.engAsid hn t off bs

/-- Bytes written into an operand's region from an offset; its handle is accessed now (R123). -/
def State.writeOp (h : Hdr) (t : TileEnt) (off : Nat) (bs : List Byte) (s : State) : State :=
  (s.touch s.at_.core s.engAsid h.h).putTile h.h t (h.base t + off) bs

/-- Rows of an accumulator operand written whole (R303, R402). -/
def State.clearedOp (h : Hdr) (t : TileEnt) (s : State) : State :=
  let lo := t.sram s.at_.core (h.base t)
  s.freshCode lo (lo + h.size t)

/-- Fields of `w` bits laid out as a dense bit stream (R62), as bytes. -/
def packFields (w : Nat) (xs : List Nat) : List Byte :=
  let n := xs.foldr (fun x a => x % 2 ^ w + 2 ^ w * a) 0
  leBytes (ceilDiv (w * xs.length) 8) n

/-- The captured NUMCTL as the arithmetic reads it. -/
def Cmd.cfg (c : Cmd) : NumCfg := numCfg c.spec.numctl

end Sys2Proof.Machine
end

