-- ==== Sys2Proof/Machine/EngMem.lean ====
section
/-!
DEFINITION. Memory as engines reach it (R141, R150 to R152, R167, R313): the stream translations with their holds, faults and invalidation
markers, reads in an engine's visibility group, and the writes of copies.
-/
namespace Sys2Proof.Machine

/-- A marker stands ahead of the acting engine's command (R152): in a copy or helper queue by the order of enqueuing, and on a race tile
between commands. -/
def State.behind (s : State) (c : Cmd) (m : Marker) : Bool :=
  let stamp := match c.owner, c.job with
    | some _, some (.copy j) => j.placed
    | _, _ => c.spec.stamp
  m.asid == s.cmdAsid c.spec &&
    (if s.at_.eng.val < 16 then decide (m.cyc.toNat ≤ c.issued.toNat) else decide (m.stamps.getD s.at_.core.val 0 < stamp))

/-- Translations of a marker's range that were granted before it are dropped from the stream TLB by a command behind it (R152). -/
def State.takeMarkers (c : Cmd) (s : State) : State :=
  let u := engUnit s.at_.core s.at_.eng
  let old (asid va size : Nat) (granted : Word) : Bool := s.pkg.marks.any fun m =>
    s.behind c m && asid == m.asid && decide (va < m.hi) && decide (m.lo < va + size) && decide (granted.toNat < m.since.toNat)
  { s with
    tlb := s.tlb.filter fun t => !(t.unit == u && old t.asid t.va t.size t.granted)
    wcache := s.wcache.filter fun w => !(w.unit == u && old w.asid w.va (tableSpan w.level) w.granted) }

/-- What the pages of a word come to: their entries, or a state in which the word has had no effect, held or abandoned. -/
inductive EPages where
  | ok (ps : List (Nat × Tlb)) (s : State)
  | stop (s : State)

/-- The stream holds on a walk (R386): a request is posted unless the page is migrating. -/
def holdStream (c : Cmd) (va : Nat) (mig : Bool) (s : State) : State :=
  let a := Fin.ofNat 64 (s.cmdAsid c.spec)
  let s1 := if mig then s else s.post ⟨a, s.at_.core.val, 0xFF, s.at_.eng.val, c.spec.wid, s.tagOf c.spec.lid, va, 4⟩
  s1.onEng fun g => { g with cmd := g.cmd.map fun c => { c with stall := .held a.val va mig } }

/-- Every page translated at the first byte there and checked for permission and for a reserved target type (R129, R231, R292, R313). A failure of the alias check is a page
fault with the access-type reason (log entry 44). -/
def engPages (c : Cmd) (write : Bool) : List Nat → State → EPages
  | [], s => .ok [] s
  | va :: vas, s =>
    match xlate (engUnit s.at_.core s.at_.eng) ⟨c.spec.wid, s.tagOf c.spec.lid⟩ (Fin.ofNat 64 (s.cmdAsid c.spec)) va s with
    | (.ok t, s1) =>
      if !(if write then t.w else t.r) then .stop (engFault (.page 1 va) s1)
      else if t.tt > 5 then .stop (engFault (.page 2 va) s1)
      else match engPages c write vas s1 with
        | .ok ps s2 => .ok ((va / 65536, t) :: ps) s2
        | r => r
    | (.unmapped, s1) => .stop (holdStream c va false s1)
    | (.migrating _, s1) => .stop (holdStream c va true s1)
    | (.aliased, s1) => .stop (engFault (.page 2 va) s1)
    | (.nowhere, s1) => .stop s1

/-- An uncorrectable error that an engine consumes (R402): logged, reported for the record that enqueued the command, and recovered. -/
def State.consumedEng (c : CmdSpec) (p : Nat) (s : State) : State :=
  let s1 := s.uncorrectable p 1
  if s.killed s.at_.core c then s1
  else (s1.faultRec (Fin.ofNat 64 (s1.cmdAsid c)) 0x11 (errSub p) s1.at_.core.val c.clu.val s1.at_.eng.val c.wid (s1.tagOf c.lid) (BitVec.ofNat 64 p) 0 0 0).recover
    c.lid c.seq 0x11

/-- The addresses that a word reads and writes, translated (R313): nothing while its stream is held; markers first; then the reads and the
writes. An access that reaches a sealed frame walks again (R387), and one that reads an uncorrectable place consumes it (R402). -/
def engAccess (c : Cmd) (reads writes : List Nat) (s : State) (k : List (Nat × Tlb) → List (Nat × Tlb) → State → State) : State :=
  match c.stall with
  | .held _ _ _ => s
  | .none =>
    match engPages c false (pagesOf reads) (s.takeMarkers c) with
    | .stop t => t
    | .ok ps s1 =>
      match engPages c true (pagesOf writes) s1 with
      | .stop t => t
      | .ok qs s2 =>
        if ((placesOf ps reads) ++ (placesOf qs writes)).any s2.sealed then
          { s2 with tlb := s2.tlb.filter fun t => !(t.unit == engUnit s.at_.core s.at_.eng && (ps ++ qs).any fun p => p.2 == t) }
        else match (placesOf ps reads).find? s2.badAt with
          | some p => s2.consumedEng c.spec p
          | none => k ps qs (s2.correctAt (placesOf ps reads))

/-- A byte as an engine in a visibility group reads it (R141, R167): what is staged is seen by loads of its record alone (R403). -/
def engByte (group : Nat) (ps : List (Nat × Tlb)) (s : State) (va : Nat) : Byte :=
  match entryOf ps va with
  | none => blank
  | some t =>
    let p := placeIn t va
    if t.tt = 4 then s.latByte group t p.2 else s.readByte { group := group } p.1 p.2

/-- Bytes written so that every group sees them, where no uncorrectable codeword takes them (R143, R402). -/
def State.putNow (bs : List (Nat × Nat × Byte)) (s : State) : State :=
  let (ys, t) := dropBad s (bs.map fun b => (b.2.1, b.2.2))
  t.putSeen (bs.filter fun b => ys.contains (b.2.1, b.2.2))

/-- A copy's bytes performed: staged for its record in a staged launch (R403), unless the record was rolled back (R405), else written so that every group sees them, after every
store that some group has seen (R143, R151). -/
def State.copyPut (c : CmdSpec) (sc : Scope) (o : Origin) (bs : List (Nat × Nat × Byte)) (s : State) : State :=
  let here (b : Nat × Nat × Byte) : Bool := s.stages (some (c.lid, c.seq)) b.1 || s.asideAt s.at_.core (some (c.lid, c.seq)) b.2.1
  let s1 := if s.killed s.at_.core c then s else s.stageBytes s.at_.core c.clu o .rlx sc (bs.filter here)
  s1.putNow (bs.filter fun b => !(here b))

/-- The lattice cells of a copy's writes, joined at the die-0 replica (R167; log entry 142). -/
def State.copyJoin (qs : List (Nat × Tlb)) (bs : List (Nat × Byte)) (s : State) : State :=
  qs.foldl (fun s q =>
    if q.2.tt = 4 then
      (cellsOf (latSize q.2.ltype.toNat) (bs.filter fun b => b.1 / 65536 == q.1)).foldl (fun s c => match c.2 with
        | some v => joinAt q.2 c.1 v s
        | none => s) s
    else s) s

/-- The first cell of a lattice page that some addresses cover only in part (R167). -/
def partCell (ps : List (Nat × Tlb)) (vas : List Nat) : Option Nat :=
  firstSomeNat (ps.map fun p =>
    if p.2.tt = 4 then ((cellsOf (latSize p.2.ltype.toNat) ((vas.filter fun a => a / 65536 == p.1).map fun a => (a, blank))).find? fun c => c.2.isNone).map Prod.fst
    else none)
where
  /-- The first that is there. -/
  firstSomeNat : List (Option Nat) → Option Nat
    | [] => none
    | some a :: _ => some a
    | none :: as => firstSomeNat as

/-- The bytes of some addresses as a race tile reads them (R141, R300). -/
def tileRead (c : Cmd) (vas : List Nat) (s : State) (k : List Byte → State → State) : State :=
  engAccess c vas [] s fun ps _ t => k (vas.map (engByte (1 + t.at_.core.val / 4) ps t)) t

end Sys2Proof.Machine
end

