-- ==== Sys2Proof/Machine/StreamCtl.lean ====
section
/-!
DEFINITION. The control words of class 0x4 (R299): END, REPLY, WAITF, SETF, BOUND, JOIN, CALLS, RETS, and DESC with the legality of a layer
descriptor (R101, R102, R300).
-/
namespace Sys2Proof.Machine

-- END.
/-- The saved context that a command belongs to, if its record is saved on the core (R334). -/
def Core.savedFor (k : Core) (c : CmdSpec) : Option Saved := k.saved.find? fun v => v.run.lid == c.lid && v.run.seq == c.seq

/-- Flags and exceptions of a command that ends (R80, R81): into FPSTAT and its cluster's pending exceptions; recorded for a saved context
(R334); after EXIT, into the launch's completion flags, with a report of an enabled exception (R228). -/
def flagsFor (n : CoreId) (c : CmdSpec) (fl : FpFlags) (pend : List PendEx) (s : State) : State :=
  if s.liveOn n c then
    (s.coreUpd n fun k => { k with fpstat := k.fpstat ||| fl.setWidth 64, fpSetNow := k.fpSetNow ||| fl }).cluUpd n c.clu fun k =>
      { k with pendEx := k.pendEx ++ pend }
  else if s.savedOn n c then
    s.coreUpd n fun k => { k with saved := k.saved.map fun v =>
      if v.run.lid == c.lid && v.run.seq == c.seq then
        { v with recorded := { v.recorded with fp := v.recorded.fp ||| fl }
                 clusters := vmod v.clusters c.clu fun k => { k with pendEx := k.pendEx ++ pend } }
      else v }
  else
    let s1 := s.onRec c.lid c.seq fun r => { r with fp := r.fp ||| fl }
    match lowest pend with
    | some p =>
      let t := fpTrapRec pend p
      s1.faultRec (Fin.ofNat 64 (s1.cmdAsid c)) 0x0C 0 n.val c.clu.val 0xFF c.wid (s1.tagOf c.lid) t.a0 t.a1 t.a2 t.a3
    | none => s1

/-- The flags of the command that ends. -/
def endFlags (n : CoreId) (c : Cmd) (s : State) : State := flagsFor n c.spec c.flags c.pend s

/-- THE END of the running command of an engine (R41, R44, R48, R51, R80): the reply not yet written becomes 0, the flags are raised, the
engine is free, and its completion pulse is true in this cycle. -/
def endCommand (n : CoreId) (e : Eng) (c : Cmd) (s : State) : State :=
  let s1 := if c.replied then s else s.writeReply n c.spec 0
  let s2 := (endArrays n e c.spec (endFlags n c s1)).capture 4 n.val (128 + e.val) (BitVec.ofNat 64 (e.val + 256 * c.spec.pos)) (some c.spec.seq)
  let s3 := if 16 ≤ e.val ∧ e.val < 20 then s2.capture 8 n.val (128 + e.val) s2.cores[n].eng[e].lastPromise (some c.spec.seq) else s2
  (s3.vacate n e).engUpd n e fun g => { g with pulse := some (c.spec.lid, c.spec.seq) }

/-- The completion word of a helper's command (R315): the top of the stack, or 0, at the address in sB. Another place than its core's
scratchpad, and an address that is not a multiple of 8, are engine page faults (log entry 41). -/
def completionWord (c : Cmd) (s : State) (k : State → State) : State :=
  let va := c.spec.b.toNat
  if va % 8 ≠ 0 then engFault (.page 3 va) s
  else engAccess c [] (upto 8 |>.map fun i => va + i) s fun _ qs t =>
    match entryOf qs va with
    | none => t
    | some e =>
      let p := placeIn e va
      if p.1 ≠ 2 ∨ (p.2 - coreBase) / 8388608 ≠ t.at_.core.val then engFault (.page 2 va) t
      else k (t.copyPut c.spec .pkg (originOf (some (c.spec.lid, c.spec.seq)) t.datum (t.cmdAsid c.spec) .line qs ((upto 8).map fun i => va + i)) ((atAddr p.2 (leBytes 8 (c.stk.headD 0).toNat)).map fun b => (p.1, b.1, b.2)))

/-- END (R299, R23, R315). -/
def execWEnd (s : State) : Res :=
  inWord .wEnd 0 s fun c =>
    let n := s.at_.core
    let e := s.at_.eng
    if s.isHelperStrand c.spec then
      .next (((endCommand n e c s).capture 2 n.val (128 + e.val) 0 (some c.spec.seq)).onRec c.spec.lid c.spec.seq fun r => { r with state := .draining })
    else if c.copies ≠ 0 then .next s
    else if 20 ≤ e.val ∧ e.val ≤ 23 then .next (completionWord c s (endCommand n e c))
    else .next (endCommand n e c s)

-- The other control words.
/-- REPLY (R44, R299): a copy channel's reply is its promise, and a helper strand has none. -/
def execWReply (s : State) : Res :=
  inWord .wReply 1 s fun c =>
    let silent := c.replied || (decide (16 ≤ s.at_.eng.val) && decide (s.at_.eng.val < 20)) || s.isHelperStrand c.spec
    let s1 := if silent then s else s.writeReply s.at_.core c.spec (c.stk.headD 0)
    nextWith { c with replied := true } c.stk s1

/-- A flag as a command sees it: of its own context, saved or not (R334). -/
def State.cmdFlag (s : State) (n : CoreId) (c : CmdSpec) (f : Fin 64) : Bool := match s.cores[n].savedFor c with
  | some v => (v.f ||| v.recorded.flags).getLsbD f.val
  | none => s.cores[n].f.getLsbD f.val

/-- WAITF (R299): the word holds until the flag is set. -/
def execWWaitf (f : Fin 64) (s : State) : Res :=
  inWord (.wWaitf f) 0 s fun c => if s.cmdFlag s.at_.core c.spec f then nextWith c c.stk s else .next s

/-- SETF (R47, R299, R334): it waits for the copies that a helper's command has placed; every other write of the earlier words is performed
when the word is reached. -/
def execWSetf (f : Fin 64) (s : State) : Res :=
  inWord (.wSetf f) 0 s fun c =>
    if c.copies ≠ 0 then .next s
    else nextWith c c.stk (if s.savedOn s.at_.core c.spec then s.recordFor s.at_.core c.spec fun r => { r with flags := r.flags ||| bitAt 64 f.val }
      else s.setFlag s.at_.core f.val)

/-- BOUND (R58, R299). -/
def execWBound (s : State) : Res :=
  inWord .wBound 1 s fun c => nextWith { c with bound := some (c.stk.headD 0).toNat } (c.stk.drop 1) s

/-- JOIN (R45, R299, R334). -/
def execWJoin (s : State) : Res :=
  inWord .wJoin 0 s fun c =>
    nextWith c c.stk (if s.savedOn s.at_.core c.spec then
      s.recordFor s.at_.core c.spec fun r => { r with marks := r.marks ||| bitAt 32 s.at_.eng.val }
      else s.onEng fun g => { g with mark := true })

/-- CALLS (R290, R299). -/
def execWCalls (e : Fin 128) (s : State) : Res :=
  inWord (.wCalls e) 0 s fun c =>
    let t := s.eng.entryAt e.val
    if t = 0xFFFF then wordFault .illegalWord s
    else if c.rstk.length ≥ 4 then wordFault .stack s
    else .next (setCmd { c with rstk := (c.ip + 1) :: c.rstk, ip := t % 4096 } s)

/-- RETS (R290, R299). -/
def execWRets (s : State) : Res :=
  inWord .wRets 0 s fun c => match c.rstk with
    | [] => wordFault .stack s
    | t :: ts => .next (setCmd { c with rstk := ts, ip := t } s)

-- DESC.
/-- The fields of a layer descriptor that the words read (R101). -/
structure Desc where
  trow : Nat
  timg : Nat
  split : Bool
  sparse : Nat
  path : Bool
  ornd : Nat
  ofmt : Nat
  afmt : Nat
  wfmt : Nat
  deriving DecidableEq, Repr

/-- A descriptor's fields (R101). -/
def descOf (d : Vector Word 4) : Desc :=
  let w := d[0]
  ⟨wf_ 63 48 w, wf_ 41 32 w, w.getLsbD 18, wf_ 17 16 w, w.getLsbD 15, wf_ 14 12 w, wf_ 11 8 w, wf_ 7 4 w, wf_ 3 0 w⟩

/-- The classes of R102. -/
inductive DClass where
  | c4 | c6or8 | c8 | table
  deriving DecidableEq, Repr

/-- The class of a descriptor; `none` for a combination that R102 does not list. -/
def Desc.cls (d : Desc) : Option DClass :=
  if d.path then (if (d.wfmt = 3 ∨ d.wfmt = 4 ∨ d.wfmt = 5) ∧ (d.afmt = 0 ∨ d.afmt = 2) ∧ d.sparse = 0 ∧ !d.split then some .table else none)
  else if d.wfmt = 0 ∧ d.afmt = 0 then some .c4
  else if (d.wfmt = 1 ∨ d.wfmt = 2) ∧ d.afmt = 0 then some .c6or8
  else if d.wfmt = 2 ∧ d.afmt = 2 ∧ d.sparse = 0 then some .c8
  else none

/-- A descriptor that DESC accepts (R101, R102): reserved fields zero, no reserved code, a listed combination. -/
def descLegal (d : Vector Word 4) : Bool :=
  let f := descOf d
  wf_ 47 42 d[0] == 0 && wf_ 31 19 d[0] == 0 && d[1] == 0 && d[3] == 0 && f.ornd != 6 && decide (1 ≤ f.ofmt) && decide (f.ofmt ≤ 5) &&
    f.cls.isSome && (f.path || (f.trow == 0 && f.timg == 0))

/-- The descriptor that a command loads enters the strand's signature (R83). -/
def signDesc (c : CmdSpec) (d : List Word) (s : State) : State :=
  s.onRec c.lid c.seq fun r => { r with sig := { r.sig with curDesc := r.sig.curDesc ++ [(c.stamp, d)] } }

/-- DESC (R299, R300). -/
def execWDesc (s : State) : Res :=
  inWord .wDesc 1 s fun c =>
    let va := (c.stk.headD 0).toNat
    if va % 32 ≠ 0 then wordFault (.page 3 va) s
    else .next (tileRead c (upto 32 |>.map fun i => va + i) s fun bs t =>
      let d : Vector Word 4 := Vector.ofFn fun i => BitVec.ofNat 64 (leNat ((bs.drop (8 * i.val)).take 8))
      if !(descLegal d) then engFault .illegalWord t
      else
        let t1 := signDesc c.spec (vlist d) (t.onEng fun g => { g with desc := some d })
        setCmd { c with stk := c.stk.drop 1, ip := c.ip + 1 } t1)

end Sys2Proof.Machine
end

