-- ==== Sys2Proof/Machine/Matrix.lean ====
section
/-!
DEFINITION. The matrix words (R301 to R306) and what stands behind them: slices, quills and conversions (R85 to R92, R94 to R100), the
accumulator (R64, R65, R103, R105), its output (R66, R106), quantization (R107), and the random words of an engine (R306).
-/
namespace Sys2Proof.Machine

-- The accumulator.
/-- A group of an accumulator handle; what nothing has written is undefined (R117; log entry 13). -/
def TileEnt.accGet (t : TileEnt) (row grp : Nat) : AccGroup :=
  match t.acc.find? fun g => g.row == row && g.grp == grp with
  | some g => g
  | none => ⟨row, grp, (Config.newAccExp t.stamp row grp).toNat, Config.newAccSticky t.stamp row grp,
      (upto 16).map fun i => (Config.newAccMant t.stamp row (16 * grp + i)).toInt⟩

/-- A group replaced; groups stand in rising order. -/
def accPut (g : AccGroup) : List AccGroup → List AccGroup
  | [] => [g]
  | h :: hs =>
    if h.row < g.row ∨ (h.row = g.row ∧ h.grp < g.grp) then h :: accPut g hs
    else if h.row = g.row ∧ h.grp = g.grp then g :: hs
    else g :: h :: hs
def TileEnt.accSet (g : AccGroup) (t : TileEnt) : TileEnt := { t with acc := accPut g t.acc }

/-- Rows cleared with their exponents and SG bits, and the tag NONE (R64, R103, R303). -/
def TileEnt.accClear (row0 rows : Nat) (t : TileEnt) : TileEnt :=
  (upto rows).foldl (fun t r => (upto (ceilDiv t.cols 16)).foldl (fun t g => t.accSet ⟨row0 + r, g, 0, false, List.replicate 16 0⟩) t)
    { t with ptag := 0xFF }

/-- RoundShift of R65: m ÷ 2^k rounded half to even for k > 0, else m × 2^(−k). -/
def roundShift (m k : Int) : Int :=
  if k ≤ 0 then m * 2 ^ (-k).toNat
  else
    let d : Int := 2 ^ k.toNat
    let q := m / d
    let r := m % d
    if 2 * r > d ∨ (2 * r = d ∧ q % 2 = 1) then q + 1 else q

/-- AccAdd (R65): one contribution to column `j` of a group, and the flags it raises. -/
def accAdd (g : AccGroup) (j : Nat) (m : Int) (e : Int) (nan : Bool) : AccGroup × FpFlags :=
  if g.e = 255 then (g, 0)
  else if nan then ({ g with e := 255 }, flNV)
  else
    let et : Int := if e < 254 then e else 254
    let up := decide (et > g.e)
    let ms := if up then g.m.map fun x => roundShift x (et - g.e) else g.m
    let e' : Int := if up then et else g.e
    let s := ms.getD j 0 + roundShift m (e' - e)
    let v := sat (-2147483648) 2147483647 s
    ({ g with e := e'.toNat, m := ms.set j v, sg := g.sg || v != s }, if v = s then 0 else flSAT)

-- Shapes and banks (R99 to R101).
/-- A shape: class, M, N, K. -/
structure Shape where
  cls : DClass
  m : Nat
  n : Nat
  k : Nat
  deriving DecidableEq, Repr
/-- The delay-path shapes (R99). -/
def shapeOf (code : Nat) : Shape :=
  match code with
  | 0 => ⟨.c4, 64, 256, 512⟩
  | 1 => ⟨.c4, 128, 256, 512⟩
  | 2 => ⟨.c4, 256, 256, 512⟩
  | 3 => ⟨.c6or8, 64, 128, 512⟩
  | 4 => ⟨.c6or8, 128, 128, 512⟩
  | 5 => ⟨.c6or8, 256, 128, 512⟩
  | 6 => ⟨.c8, 64, 64, 256⟩
  | 7 => ⟨.c8, 128, 128, 256⟩
  | _ => ⟨.c8, 256, 128, 256⟩

/-- The weights that MLOAD takes: K and N of a class (R301). -/
def bankDims : DClass → Nat × Nat
  | .c4 => (512, 256)
  | .c6or8 => (512, 128)
  | .c8 => (256, 128)
  | .table => (0, 0)

/-- Bits of a weight code and of an activation code. -/
def weightBits (w : Nat) : Nat := if w = 0 then 4 else if w = 1 then 6 else 8
def actBits (a : Nat) : Nat := if a = 0 then 4 else 8
/-- Kept weights of a group of 12 (R98); 0 for a dense layer. -/
def keptOf (sparse : Nat) : Nat := if sparse = 0 then 0 else 2 + 2 * sparse
/-- The K of a layer's activations: a sparse layer multiplies it by 12/N (R98, R99). -/
def effectiveK (k sparse : Nat) : Nat := if sparse = 0 then k else k * 12 / keptOf sparse
/-- What a bank records of the descriptor under which it was filled (R100). -/
def Desc.bankFmt (d : Desc) : BitVec 32 := BitVec.ofNat 32 (d.wfmt + 16 * d.afmt + 256 * d.sparse + (if d.split then 1024 else 0))
/-- The descriptor's precision tag (R103). -/
def Desc.tag (d : Desc) : BitVec 8 := BitVec.ofNat 8 (d.wfmt + 16 * d.afmt)

/-- The descriptor in force; without one a word that needs it raises the precision-mismatch fault (R300). -/
def needDesc (s : State) (k : Desc → Res) : Res := match s.eng.desc with
  | some d => k (descOf d)
  | none => wordFault .precision s

/-- An operand of a word in use, or the fault that refuses it. -/
def use0 (w : Want) (x : Word) (s : State) (k : Hdr → TileEnt → Res) : Res := match useHdr w x s with
  | .ok (h, t) => k h t
  | .error f => wordFault f s

/-- An operand of a word in use; of one that is read, as an accumulator is also where it is written, an uncorrectable word is consumed (R402). -/
def use1 (w : Want) (x : Word) (s : State) (k : Hdr → TileEnt → Res) : Res := use0 w x s fun h t =>
  match s.eng.cmd, s.regionBad h t with
  | some c, some p => if w.write && w.level != 2 then k h t else .next (s.consumedEng c.spec p)
  | _, _ => k h t

/-- The operands of a word in use, or the fault of the first that is refused. -/
def use2 (w : Want) (x : Word) (v : Want) (y : Word) (s : State) (k : Hdr → TileEnt → Hdr → TileEnt → Res) : Res :=
  use1 w x s fun h t => use1 v y s fun g u => k h t g u

/-- What the words ask of their operands: weights, activations, accumulators and outputs on the tile. -/
def wantW : Want := ⟨false, 1, some 2⟩
def wantAct : Want := ⟨false, 1, some 1⟩
def wantAccR : Want := ⟨false, 2, none⟩
def wantAccW : Want := ⟨true, 2, none⟩
def wantOut : Want := ⟨true, 1, none⟩

/-- The activations and the accumulator of a word that accumulates; one that clears the accumulator does not read it (R103, R402). -/
def useAcc (aclr : Bool) (x y : Word) (s : State) (k : Hdr → TileEnt → Hdr → TileEnt → Res) : Res :=
  use1 wantAct x s fun h t => (if aclr then use0 wantAccW y s else use1 wantAccW y s) fun g u => k h t g u

-- MLOAD.
/-- Bytes of a layer's weights before the scale array: kept codes, and for a sparse layer the index stream (R100; log entry 47). -/
def weightBytes (d : Desc) (k n : Nat) : Nat := k * n * weightBits d.wfmt / 8 + (if d.sparse = 0 then 0 else k * n / 2)

/-- MLOAD (R301): the checks, and its 64 clk begin. -/
def execWMload (s : State) : Res :=
  inWord .wMload 1 s fun c => needDesc s fun d =>
    if d.path then wordFault .precision s
    else use1 wantW (c.stk.headD 0) s fun h t =>
      let (k, n) := bankDims (d.cls.getD .table)
      if align64 (weightBytes d k n) + k * n / 32 > h.size t then wordFault .illegalWord s
      else .next (startJob c (.mload (c.stk.headD 0)) s)

/-- The bank that MLOAD fills (R100, R301): codes column by column, index stream, scales. -/
def bankOf (d : Desc) (h : Hdr) (t : TileEnt) : Bank :=
  let (k, n) := bankDims (d.cls.getD .table)
  let w := weightBits d.wfmt
  { fmt := d.bankFmt
    codes := (upto (k * n)).map fun i => toSigned w (opField h t 0 w i)
    index := if d.sparse = 0 then [] else (upto (k * n)).map fun i => opField h t (k * n * w / 8) 4 i
    scales := opBytes h t (align64 (weightBytes d k n)) (k * n / 32) }

/-- MLOAD_BANK_ACTIVATE (R100, R301; log entry 134): the filled bank becomes active, and the word is done. -/
def execEvMloadBankActivate (s : State) : Res :=
  match s.eng.cmd with
  | some c => match c.job with
    | some (.mload w) => needDesc s fun d => use1 wantW w s fun h t =>
        let b := bankOf d h t
        .next (endJob 1 [] ((s.touchOps [h]).onEng fun g =>
          if g.active = some false then { g with bank1 := some b, active := some true } else { g with bank0 := some b, active := some false }))
    | _ => .next s
  | none => .next s

/-- The active bank. -/
def Engine.bank (g : Engine) : Option Bank := match g.active with
  | some false => g.bank0
  | some true => g.bank1
  | none => none

-- Slices and strokes (R85 to R88, R94 to R98).
/-- A slice: sign and magnitude; a magnitude of 0 carries sign 0 (R85). -/
structure Slice where
  neg : Bool
  mag : Nat
  deriving DecidableEq, Repr
/-- Which slice of a code (R87). -/
inductive Part where
  | whole | hi | lo
  deriving DecidableEq, Repr
/-- A slice of a code (R87). -/
def sliceOf (p : Part) (c : Int) : Slice :=
  let x := match p with
    | .whole => c
    | .hi => c / 16
    | .lo => c % 16
  ⟨decide (x < 0), x.natAbs⟩

/-- A stroke: the layer, its bank, the activation codes, the first activation row, and which half of K it takes in split mode (R97). -/
structure Stroke where
  d : Desc
  sh : Shape
  bank : Bank
  act : Hdr
  actT : TileEnt
  m : Nat
  kh : Nat

/-- The class places both slices of an 8-bit activation. -/
def Stroke.wide (x : Stroke) : Bool := x.sh.cls == .c8
/-- An activation code of a row (R100). -/
def Stroke.actCode (x : Stroke) (row k : Nat) : Int :=
  let b := actBits x.d.afmt
  toSigned b (opField x.act x.actT 0 b (row * effectiveK x.sh.k x.d.sparse + k))
/-- The weights of an output column in the bank. -/
def Stroke.bankK (x : Stroke) : Nat := (bankDims x.sh.cls).1
/-- The activation that meets kept weight `t` of an output column (R98). -/
def Stroke.actFor (x : Stroke) (row j t : Nat) : Int :=
  if x.d.sparse = 0 then x.actCode row t
  else
    let i := x.bank.index.getD (j * x.bankK + t) 15
    if i > 11 then 0 else x.actCode row (12 * (t / keptOf x.d.sparse) + i)

/-- The slices of activation and weight at a stage: quill row, physical column, half, stage (R94, R96, R97). -/
def Stroke.stage (x : Stroke) (q col half st : Nat) : Slice × Slice :=
  let t := if x.d.split then 256 * x.kh + 4 * q + st else if x.wide then 8 * (q % 32) + st else 8 * q + st
  let row := if x.d.split && !x.wide then x.m + half else x.m
  let ap : Part := if !x.wide then .whole else if (if x.d.split then half == 0 else decide (q < 32)) then .hi else .lo
  let j := if x.sh.cls = .c4 then col else col / 2
  let wp : Part := if x.sh.cls = .c4 then .whole else if col % 2 = 0 then .hi else .lo
  (sliceOf ap (x.actFor row j t), sliceOf wp (x.bank.codes.getD (j * x.bankK + t) 0))

/-- The exact sum of a rail, the negative one where `neg` (R85, R86). -/
def Stroke.railSum (x : Stroke) (q col half : Nat) (neg : Bool) : Nat :=
  (upto (if x.d.split then 4 else 8)).foldl (fun n st =>
    let (a, w) := x.stage q col half st
    if (a.neg != w.neg) == neg then n + a.mag * w.mag else n) 0

/-- The halves of a quill. -/
def Stroke.halves (x : Stroke) : Nat := if x.d.split then 2 else 1
/-- The place of a conversion in its stroke (R90). -/
def Stroke.conv (x : Stroke) (q col half : Nat) (neg : Bool) : Nat := ((q * 256 + col) * x.halves + half) * 2 + (if neg then 1 else 0)
/-- The conversions of a stroke. -/
def Stroke.convs (x : Stroke) : Nat := 64 * 256 * x.halves * 2
/-- The exact rail sum of a conversion by its place. -/
def Stroke.sumAt (x : Stroke) (i : Nat) : Nat := x.railSum (i / 2 / x.halves / 256) (i / 2 / x.halves % 256) (i / 2 % x.halves) (i % 2 == 1)

/-- A reading and its SAT (R86). -/
def readingOf (s : Nat) : Nat × Bool := if s < 1024 then (s, false) else (1023, true)

/-- The rails' difference of a quill and whether either reading is SAT; `wrong` holds readings that passed every check (R89). -/
def Stroke.diff (x : Stroke) (wrong : List (Nat × Nat)) (q col half : Nat) : Int × Bool :=
  let get (neg : Bool) : Nat × Bool := readingOf (match wrong.find? fun p => p.1 == x.conv q col half neg with
    | some p => p.2
    | none => x.railSum q col half neg)
  let p := get false
  let n := get true
  ((p.1 : Int) - n.1, p.2 || n.2)

/-- The sum over some quill rows of one column and half. -/
def Stroke.rows (x : Stroke) (wrong : List (Nat × Nat)) (q0 nq col half : Nat) : Int × Bool :=
  (upto nq).foldl (fun a i => let d := x.diff wrong (q0 + i) col half; (a.1 + d.1, a.2 || d.2)) (0, false)

/-- D of output column j and the stroke's block b for one half, ganged (R95, R96), and whether a conversion feeding it is SAT. -/
def Stroke.block (x : Stroke) (wrong : List (Nat × Nat)) (half j b : Nat) : Int × Bool :=
  let nq := if x.d.split then 8 else 4
  match x.sh.cls with
  | .c4 => x.rows wrong (nq * b) nq j half
  | .c8 =>
    let hh := x.rows wrong (nq * b) nq (2 * j) 0
    let hl := x.rows wrong (nq * b) nq (2 * j + 1) 0
    let lh := if x.d.split then x.rows wrong (nq * b) nq (2 * j) 1 else x.rows wrong (32 + nq * b) nq (2 * j) 0
    let ll := if x.d.split then x.rows wrong (nq * b) nq (2 * j + 1) 1 else x.rows wrong (32 + nq * b) nq (2 * j + 1) 0
    (256 * hh.1 + 16 * (hl.1 + lh.1) + ll.1, hh.2 || hl.2 || lh.2 || ll.2)
  | _ =>
    let h := x.rows wrong (nq * b) nq (2 * j) half
    let l := x.rows wrong (nq * b) nq (2 * j + 1) half
    (16 * h.1 + l.1, h.2 || l.2)

/-- The blocks that a stroke completes for each output column, and the first of them. -/
def Stroke.nblocks (x : Stroke) : Nat := if x.d.split || x.wide then 8 else 16
def Stroke.block0 (x : Stroke) : Nat := if x.d.split then 8 * x.kh else 0
/-- The activation rows of a stroke, each with its half (R97). -/
def Stroke.actRows (x : Stroke) : List (Nat × Nat) := if x.d.split && !x.wide then [(x.m, 0), (x.m + 1, 1)] else [(x.m, 0)]

/-- Where an activation operand's scale array starts, and where it ends (R98, R100, R295). -/
def actScales (d : Desc) (sh : Shape) : Nat := align64 (sh.m * effectiveK sh.k d.sparse * actBits d.afmt / 8)
def actEnd (d : Desc) (sh : Shape) : Nat := actScales d sh + (if d.sparse = 0 then sh.m * (sh.k / 32) else sh.m)
/-- The activation scale of a block (R98, R100). -/
def actScale (d : Desc) (sh : Shape) (h : Hdr) (t : TileEnt) (row b : Nat) : Nat :=
  (t.byte (h.base t + actScales d sh + (if d.sparse = 0 then row * (sh.k / 32) + b else row))).toNat
/-- fa and fw of R95. -/
def Desc.fa (d : Desc) : Int := actBits d.afmt - 2
def Desc.fw (d : Desc) : Int := if d.path then 0 else weightBits d.wfmt - 2

/-- One AccAdd of a row: column, exact integer, scales and the SAT of its conversions (R95, R105). -/
def accStep (d : Desc) (row j : Nat) (dd : Int) (sat_ : Bool) (xa xw : Nat) (p : TileEnt × List (Nat × FpFlags)) : TileEnt × List (Nat × FpFlags) :=
  let (g, fl) := accAdd (p.1.accGet row (j / 16)) (j % 16) dd ((xa : Int) + xw - 97 - d.fa - d.fw) (xa == 255 || xw == 255)
  let g1 := if sat_ then { g with sg := true } else g
  let fl1 := if sat_ then fl ||| flSAT else fl
  (p.1.accSet g1, if fl1 = 0 then p.2 else p.2 ++ [(j, fl1)])

/-- The accumulator after a stroke (R95): row by row, column by column, block by block. -/
def Stroke.accumulate (x : Stroke) (wrong : List (Nat × Nat)) (row0 : Nat) (t : TileEnt) : TileEnt × List (Nat × FpFlags) :=
  x.actRows.foldl (fun p r => (upto x.sh.n).foldl (fun p j => (upto x.nblocks).foldl (fun p b =>
    let (dd, sat_) := x.block wrong r.2 j b
    let gb := x.block0 + b
    accStep x.d (row0 + r.1) j dd sat_ (actScale x.d x.sh x.act x.actT r.1 gb)
      (x.bank.scales.getD (j * (x.bankK / 32) + gb) 0).toNat p) p) p) (t, [])

-- The resolver and the spot-checks (R89 to R92, R396).
/-- The spot-check sequence after some conversions, and how many of them it selected (R90). -/
def spotSteps : Nat → BitVec 32 → BitVec 32 × Nat
  | 0, x => (x, 0)
  | k + 1, x =>
    let y := lfsrStep x
    let r := spotSteps k y
    (r.1, if y.toNat % 4096 = 0 then r.2 + 1 else r.2)
/-- The conversion at a place is selected (R90). -/
def spotted (i : Nat) (x : BitVec 32) : Bool := (lfsrSteps (i + 1) x).toNat % 4096 == 0

/-- What becomes of one conversion that is read with another value, or with too small a margin (R89). -/
inductive Check where
  | recomputed
  | silent
  | passes
  deriving DecidableEq, Repr
/-- The checks of R89 on a reading `r` of a rail whose exact sum is `e`; a reading equal to the exact one stands for a margin below
0.15 τ. -/
def checkRead (e r : Nat) (sel : Bool) : Check :=
  if readingOf r = readingOf e then .recomputed
  else if r < 1024 ∧ r % 3 ≠ e % 3 then .recomputed
  else if sel then .silent else .passes

/-- The conversions among `n` that are read with another value or too small a margin, in conversion order, each with its reading and what becomes
of it; `exact` gives their exact sums. -/
def checksOf (exact : Nat → Nat) (n : Nat) (spot : BitVec 32) (misread : List (Nat × Nat)) : List (Nat × Nat × Check) :=
  let first := misread.foldl (fun l p => if p.1 < n && !(l.any fun q => q.1 == p.1) then l ++ [p] else l) []
  (sortBy (fun a b => decide (a.1 ≤ b.1)) first).map fun p => (p.1, p.2, checkRead (exact p.1) p.2 (spotted p.1 spot))
/-- The recomputed ones among them by their places, those whose wrong reading is used, and those that are silent errors. -/
def usesIn (l : List (Nat × Nat × Check)) : List Nat := (l.filter fun x => x.2.2 == .recomputed).map Prod.fst
def wrongIn (l : List (Nat × Nat × Check)) : List (Nat × Nat) := (l.filter fun x => x.2.2 == .passes).map fun x => (x.1, x.2.1)
def silentIn (l : List (Nat × Nat × Check)) : List (Nat × Nat) := (l.filter fun x => x.2.2 == .silent).map fun x => (x.1, x.2.1)

/-- Some conversions pass on a tile: where a window ends among them, a new one begins (R396). -/
def TileRegs.pass (w k : Nat) (r : TileRegs) : TileRegs :=
  if r.convs + k < w then { r with convs := r.convs + k } else { r with convs := (r.convs + k) % w, winStart := r.rescnt }

/-- A conversion recomputed on a tile: the resolver's use against the threshold within its window (R396). -/
def resolverUse (t : TileId) (s : State) : State :=
  let s1 := s.onTile t fun r => { r with rescnt := r.rescnt + 1 }
  let r := s1.tile[t]
  if decide ((r.rescnt - r.winStart).toNat ≥ (s.rdie[Fin.ofNat 8 (t.val / 64)]).ruthr.toNat) then
    ((s1.onTile t fun r => { r with winStart := r.rescnt }).requestLevel t).relLog 5 0 (1 + t.val / 64) (t.val % 64) r.rescnt.toNat 0 0 0
  else s1

/-- Conversions counted on a tile (R396), `at_` of them so far: the resolver uses among them, by their places in rising order, each in its window,
and the window in which they end. -/
def passConvs (t : TileId) (w convs : Nat) : Nat → List Nat → State → State
  | at_, [], s => s.onTile t (TileRegs.pass w (convs - at_))
  | at_, i :: is, s => passConvs t w convs i is (resolverUse t (s.onTile t (TileRegs.pass w (i - at_))))

/-- Conversions counted on a tile, with its spot-checks (R396). -/
def State.countConvs (t : TileId) (convs : Nat) (uses : List Nat) (spots : Nat) (s : State) : State :=
  passConvs t (2 ^ (s.rdie[Fin.ofNat 8 (t.val / 64)]).ruwin.toNat) convs 0 uses
    (s.onTile t fun r => { r with spotcnt := r.spotcnt + BitVec.ofNat 48 spots })

/-- A mismatch of a spot-check (R92, R396): counted and logged, and reported as cause 0x12 unless its record was rolled back already. -/
def silentNote (c : Cmd) (exact : Nat → Nat) (s : State) (p : Nat × Nat) : State :=
  let t := s.tileId
  let s1 := (s.onTile t fun x => { x with spoterr := x.spoterr + 1 }).relLog 6 0 (1 + t.val / 64) (t.val % 64) (c.conv + p.1) p.2 (exact p.1) 0
  if c.killed then s1
  else s1.faultRec (Fin.ofNat 64 (s.cmdAsid c.spec)) 0x12 0 s.at_.core.val c.spec.clu.val s.at_.eng.val c.spec.wid (s.tagOf c.spec.lid)
    (BitVec.ofNat 64 t.val) (BitVec.ofNat 64 (c.conv + p.1)) 0 0

/-- The data-path silent errors of a stroke (R92): noted, the record recovered once, and the tile stopped at the end of the stroke. -/
def silentErrors (c : Cmd) (exact : Nat → Nat) (ps : List (Nat × Nat)) (s : State) : State :=
  let s1 := ps.foldl (silentNote c exact) s
  let s2 := if c.killed then s1 else s1.recover c.spec.lid c.spec.seq 0x12
  if s2.eng.cmd.any Cmd.killed then s2.stopKilled s2.at_.core s2.at_.eng c.spec else s2

/-- Rows of an accumulator handle left undefined (R92; log entry 14). -/
def TileEnt.accLose (stamp row0 rows : Nat) (t : TileEnt) : TileEnt :=
  (upto rows).foldl (fun t r => (upto (ceilDiv t.cols 16)).foldl (fun t g =>
    t.accSet (({ t with stamp := stamp, acc := [] } : TileEnt).accGet (row0 + r) g)) t) t

-- MMA.
/-- The region's tag as an MMA or TBL leaves it before its first stroke, cleared under ACLR; `none` for the fault of R103. -/
def TileEnt.ready (t : TileEnt) (h : Hdr) (d : Desc) (aclr : Bool) : Option TileEnt :=
  if aclr then some { t.accClear h.row0 h.rows with ptag := d.tag }
  else if t.ptag = 0xFF ∨ t.ptag = d.tag then some { t with ptag := d.tag }
  else none

/-- MMA (R302, R103): the checks before any stroke; then its strokes begin. -/
def execWMma (shape : Fin 9) (aclr : Bool) (s : State) : Res :=
  inWord (.wMma shape aclr) 2 s fun c => needDesc s fun d =>
    let sh := shapeOf shape.val
    let act := c.stk.getD 1 0
    let acc := c.stk.headD 0
    match s.eng.bank with
    | none => wordFault .precision s
    | some b =>
      if d.cls ≠ some sh.cls ∨ b.fmt ≠ d.bankFmt then wordFault .precision s
      else useAcc aclr act acc s fun h t g u =>
        if g.rows < sh.m ∨ u.cols < sh.n ∨ actEnd d sh > h.size t then wordFault .illegalWord s
        else match u.ready g d aclr with
          | none => wordFault .precision s
          | some v => .next (startJob c (.mma act acc shape.val 0 0)
              ((if aclr then s.clearedOp g u else s).onEnt s.at_.core s.engAsid g.h fun _ => v))

/-- The stroke after one of an MMA (R97): the other half of K, or the next rows. -/
def nextStroke (d : Desc) (sh : Shape) (m kh : Nat) : Nat × Nat :=
  if d.split ∧ sh.cls ≠ .c8 then (if kh = 0 then (m, 1) else (m + 2, 0)) else (m + 1, 0)

/-- STROKE (R88 to R92): one stroke of the MMA in progress. `misread` gives the places of the conversions that the checks of R89 look at, each with
its reading (log entry 8). -/
def execEvStroke (misread : List (Nat × Nat)) (s : State) : Res :=
  match s.eng.cmd with
  | none => .next s
  | some c => match c.job, s.eng.bank with
    | some (.mma act acc shape m kh), some b =>
      needDesc s fun d => useAcc false act acc s fun h t g u =>
        let sh := shapeOf shape
        let x : Stroke := ⟨d, sh, b, h, t, m, kh⟩
        let chk := checksOf x.sumAt x.convs c.spot misread
        let (spot, sel) := spotSteps x.convs c.spot
        let (u1, fs) := x.accumulate (wrongIn chk) g.row0 u
        let s1 := raiseCols fs (((s.onEnt s.at_.core s.engAsid g.h fun _ => u1).touchOps [h, g]).countConvs s.tileId x.convs (usesIn chk) sel)
        if silentIn chk ≠ [] then
          .next (silentErrors c x.sumAt (silentIn chk) ({ s1 with fresh := s1.fresh + 1 }.onEnt s.at_.core s.engAsid g.h
            (TileEnt.accLose s1.fresh g.row0 g.rows)))
        else
          let (m1, kh1) := nextStroke d sh m kh
          let s2 := s1.onEng fun e => { e with cmd := e.cmd.map fun c =>
            { c with spot := spot, conv := c.conv + x.convs, job := some (.mma act acc shape m1 kh1) } }
          .next (if m1 ≥ sh.m then endJob 2 [] s2 else s2)
    | _, _ => .next s

-- ACCZ.
/-- ACCZ (R303). -/
def execWAccz (s : State) : Res :=
  inWord .wAccz 1 s fun c => use0 wantAccW (c.stk.headD 0) s fun h t =>
    nextWith c (c.stk.drop 1) ((s.clearedOp h t).onEnt s.at_.core s.engAsid h.h (TileEnt.accClear h.row0 h.rows))

-- Random words (R306).
/-- The random word of an element of a word's output: its generator has drawn for every earlier word that held the element. -/
def Cmd.rnd (c : Cmd) (e : Eng) (col : Nat) : Nat :=
  let seed := srSeed c.spec.wid ((e.val + 1) * 65536 + col) (wf_ 47 32 c.spec.numctl)
  let k := (c.drawn.filter fun d => decide (col < d.1)).foldl (fun a d => a + d.2) 0
  (rndAfter (k + 1) seed).toNat
where
  /-- The k-th word of a generator. -/
  rndAfter : Nat → BitVec 32 → BitVec 32
    | 0, x => x
    | k + 1, x => rndAfter k (nextWord x)
/-- A word that rounds under SR has drawn for each of its elements. -/
def Cmd.drew (c : Cmd) (rm : RMode) (n draws : Nat) : Cmd := if rm = .sr then { c with drawn := c.drawn ++ [(n, draws)] } else c

/-- NUMCTL's fields with the descriptor's output rounding (R101). -/
def Desc.out (d : Desc) (c : NumCfg) : NumCfg := if d.ornd = 7 then c else { c with rm := rmodeOf d.ornd }
/-- Bits of an MXINT output format (R101). -/
def mxBits (ofmt : Nat) : Option Nat := if ofmt = 3 then some 8 else if ofmt = 4 then some 6 else if ofmt = 5 then some 4 else none

-- ACCOUT.
/-- The value of an accumulator column (R64, R66). -/
def accValue (t : TileEnt) (row j : Nat) : FV :=
  let g := t.accGet row (j / 16)
  if g.e = 255 then .nan false true (2 ^ 22)
  else let m := g.m.getD (j % 16) 0; .fin (decide (m < 0)) m.natAbs ((g.e : Int) - 157)

/-- One column in FP32 or BF16 (R66). -/
def accRound (c : NumCfg) (f : Fmt) (rnd : Nat) (x : FV) : FpRes := match x with
  | .nan _ _ _ => (f.nanBits, 0)
  | .fin n m e => if m = 0 then (0, 0) else roundPos c f rnd n m e
  | x => roundFV c f rnd x

/-- The elements of a row in FP32 or BF16, each with its column and flags. -/
def accRowFp (c : Cmd) (cfg : NumCfg) (f : Fmt) (e : Eng) (t : TileEnt) (row i : Nat) : List (Nat × FpRes) :=
  (upto t.cols).map fun j => (j, accRound cfg f (c.rnd e (i * t.cols + j)) (accValue t row j))

/-- A block of a row in MX (R63, R66, R106): scale, and each code with its column and flags; padding zeros complete the last block. -/
def accBlock (c : Cmd) (cfg : NumCfg) (b : Nat) (e : Eng) (t : TileEnt) (row i blk : Nat) : Nat × List (Nat × Int × FpFlags) :=
  let vals := (upto 32).map fun k => if 32 * blk + k < t.cols then accValue t row (32 * blk + k) else .fin false 0 0
  let (x, cs) := mxBlock cfg.rm b (fun k => c.rnd e (32 * (i * ceilDiv t.cols 32 + blk) + k)) vals
  (x, cs.mapIdx fun k q => (32 * blk + k, q))

/-- The SAT that a set SG bit raises again (R105). -/
def sgFlags (t : TileEnt) (h : Hdr) : List (Nat × FpFlags) :=
  (upto h.rows).flatMap fun r => (upto (ceilDiv t.cols 16)).filterMap fun g => if (t.accGet (h.row0 + r) g).sg then some (16 * g, flSAT) else none

/-- Bytes of ACCOUT's output and of its scale array, and the flags that its elements raise (R304, R106). -/
def accOut (c : Cmd) (d : Desc) (e : Eng) (h : Hdr) (t : TileEnt) : List Byte × List Byte × List (Nat × FpFlags) :=
  let cfg := d.out c.cfg
  match mxBits d.ofmt with
  | none =>
    let f := if d.ofmt = 1 then fp32 else bf16
    let els := (upto h.rows).flatMap fun i => accRowFp c cfg f e t (h.row0 + i) i
    (els.flatMap fun p => leBytes (f.width / 8) p.2.1, [], els.map fun p => (p.1, p.2.2))
  | some b =>
    let blks := (upto h.rows).flatMap fun i => (upto (ceilDiv t.cols 32)).map fun k => accBlock c cfg b e t (h.row0 + i) i k
    (blks.flatMap fun p => packFields b (p.2.map fun q => ofSigned b q.2.1), blks.map fun p => BitVec.ofNat 8 p.1,
      blks.flatMap fun p => p.2.map fun q => (q.1, q.2.2))

/-- The elements of ACCOUT's output (R106, R306): in MX the padding that completes each row's last block counts. -/
def accElems (d : Desc) (rows cols : Nat) : Nat := if (mxBits d.ofmt).isSome then rows * (32 * ceilDiv cols 32) else rows * cols

/-- Bytes that ACCOUT's output takes. -/
def accOutSize (d : Desc) (rows cols : Nat) : Nat := match mxBits d.ofmt with
  | none => rows * cols * (if d.ofmt = 1 then 4 else 2)
  | some b => align64 (rows * ceilDiv cols 32 * 4 * b) + rows * ceilDiv cols 32

/-- ACCOUT (R304, R106): the region is not changed; the output's handle takes the layout's code. -/
def execWAccout (s : State) : Res :=
  inWord .wAccout 2 s fun c => needDesc s fun d =>
    use2 wantAccR (c.stk.getD 1 0) wantOut (c.stk.headD 0) s fun h t g u =>
      if accOutSize d h.rows t.cols > g.size u then wordFault .illegalWord s
      else
        let (bs, xs, fs) := accOut c d s.at_.eng h t
        let s1 := raiseCols (sgFlags t h ++ fs.filter fun f => f.2 != 0) (((s.touchOps [h]).writeOp g u 0 bs).writeOp g u (align64 bs.length) xs)
        let s2 := s1.onEnt s.at_.core s.engAsid g.h fun u => { u with swz := if (mxBits d.ofmt).isSome then 1 else 0 }
        .next (s2.onEng fun e => { e with cmd := e.cmd.map fun c => { (c.drew (d.out c.cfg).rm (accElems d h.rows t.cols) 1) with stk := c.stk.drop 2, ip := c.ip + 1 } })

-- QNT.
/-- QNT's block length (R107). -/
def qntLen : QntLen → Nat
  | .l32 => 32
  | .l768 => 768
  | .l1024 => 1024
  | .l1536 => 1536

/-- One copy of QNT (R107): blocks of input elements, given by their places, quantized in order; output element `i` draws word `i`. The
codes, the scales, and the flags by place. -/
def qntCopy (cfg : NumCfg) (b : Nat) (rnd : Nat → Nat) (val : Nat → FV) (len : Nat) (places : List (List Nat)) (first : Nat) :
    List Byte × List Byte × List (Nat × FpFlags) :=
  let blks := places.mapIdx fun i ps => let r := mxBlock cfg.rm b (fun k => rnd (first + i * len + k)) (ps.map val); (r.1, ps.zip r.2)
  (blks.flatMap fun p => packFields b (p.2.map fun q => ofSigned b q.2.1), blks.map fun p => BitVec.ofNat 8 p.1,
    blks.flatMap fun p => p.2.map fun q => (q.1, q.2.2))

/-- Bytes of one copy of QNT. -/
def qntSize (b elems len : Nat) : Nat := align64 (elems * b / 8) + elems / len

/-- The places, in the input's row-major order, of the row-blocked and of the column-blocked blocks (R107). -/
def rowBlocks (m c len : Nat) : List (List Nat) :=
  (upto m).flatMap fun r => (upto (c / len)).map fun b => (upto len).map fun k => r * c + b * len + k
def colBlocks (m c len : Nat) : List (List Nat) :=
  (upto c).flatMap fun j => (upto (m / len)).map fun b => (upto len).map fun k => (b * len + k) * c + j

/-- The flags of both copies, raised once for each element, with the element's column (R107). -/
def pairFlags (n c : Nat) (xs ys : List (Nat × FpFlags)) : List (Nat × FpFlags) :=
  (upto n).filterMap fun i =>
    let fl := (xs ++ ys).foldl (fun a p => if p.1 = i then a ||| p.2 else a) (0 : FpFlags)
    if fl = 0 then none else some (i % c, fl)

/-- QNT (R305, R107). An output format that is no MXINT code is a precision mismatch (log entry 48). -/
def execWQnt (l : QntLen) (s : State) : Res :=
  inWord (.wQnt l) 2 s fun c => needDesc s fun d =>
    use2 ⟨false, 1, some 0⟩ (c.stk.getD 1 0) wantOut (c.stk.headD 0) s fun h t g u =>
      match mxBits d.ofmt with
      | none => wordFault .precision s
      | some b =>
        let len := qntLen l
        let cols := t.cols
        let n := h.rows * cols
        let off := align64 (qntSize b n len)
        if (t.esz ≠ 1 ∧ t.esz ≠ 2) ∨ h.rows % len ≠ 0 ∨ cols % len ≠ 0 ∨ off + qntSize b n len > g.size u then wordFault .illegalWord s
        else
          let cfg := d.out c.cfg
          let f := if t.esz = 1 then bf16 else fp32
          let val (i : Nat) : FV := operand cfg f (opVal h t (2 ^ t.esz) i)
          let (cx, sx, fx) := qntCopy cfg b (c.rnd s.at_.eng) val len (rowBlocks h.rows cols len) 0
          let (cy, sy, fy) := qntCopy cfg b (c.rnd s.at_.eng) val len (colBlocks h.rows cols len) n
          let s1 := raiseCols (pairFlags n cols fx fy) (((((s.touchOps [h]).writeOp g u 0 cx).writeOp g u (align64 cx.length) sx).writeOp g u off cy).writeOp g u (off + align64 cy.length) sy)
          .next (s1.onEng fun e => { e with cmd := e.cmd.map fun c => { (c.drew cfg.rm (2 * n) 1) with stk := c.stk.drop 2, ip := c.ip + 1 } })

end Sys2Proof.Machine
end

