-- ==== Sys2Proof/Machine/Collective.lean ====
section
/-!
DEFINITION. Collectives on the scan port (R309 to R311): the group of a participant, its arrival at the combiner, the Brent–Kung order over
participants, and what each receives.
-/
namespace Sys2Proof.Machine

-- The combinations (R310).
/-- The padding leaf and the empty result of an operation (R78), each as a pair. -/
def collLeaf (op : CollOp) (rm : RMode) : Nat × Nat :=
  let z := if rm = .rdn then 0 else 0x80000000
  match op with
  | .add => (z, 0)
  | .max => (0xFF800000, 0)
  | .affine => (0x3F800000, z)
def collEmpty : CollOp → Nat × Nat
  | .add => (0, 0)
  | .max => (0xFF800000, 0)
  | .affine => (0x3F800000, 0)

/-- One combination, the lower participant first, with the flags it raises. A pair's two roundings share the combination's one random word
(log entry 50). -/
def collOp (c : NumCfg) (op : CollOp) (rnd : Nat) (x y : Nat × Nat) : (Nat × Nat) × FpFlags :=
  match op with
  | .add => let r := fpAdd c fp32 rnd false x.1 y.1; ((r.1, 0), r.2)
  | .max => let r := fpMinMax c fp32 true false x.1 y.1; ((r.1, 0), r.2)
  | .affine =>
    let p := fpMul c fp32 rnd y.1 x.1
    let f := fpFma c fp32 rnd false false y.1 x.2 y.2
    ((p.1, f.1), p.2 ||| f.2)

/-- The combinations over 2^k participants in order, each as the index it writes and the distance to the one it takes (R310). -/
def collUp (k : Nat) : List (Nat × Nat) :=
  (upto k).flatMap fun l => (upto (2 ^ (k - l - 1))).map fun j => (2 ^ (l + 1) * (j + 1) - 1, 2 ^ l)
def collDown (k : Nat) : List (Nat × Nat) :=
  (upto (k - 1)).flatMap fun l =>
    let st := 2 ^ (k - 1 - l)
    (upto (2 ^ (l + 1) - 1)).map fun j => (st + st / 2 - 1 + st * j, st / 2)

/-- The values of one element after some combinations, the generator, and the flags raised. -/
structure Sweep where
  ys : List (Nat × Nat)
  gen : BitVec 32
  fl : FpFlags
def sweep (c : NumCfg) (op : CollOp) (steps : List (Nat × Nat)) (x : Sweep) : Sweep :=
  steps.foldl (fun x st =>
    let g := nextWord x.gen
    let (v, f) := collOp c op g.toNat (x.ys.getD (st.1 - st.2) (0, 0)) (x.ys.getD st.1 (0, 0))
    ⟨x.ys.set st.1 v, g, x.fl ||| f⟩) x

-- The group (R309).
/-- The size of a group below a level, the group that a WID belongs to, and its index there (R309). -/
def groupTotal (l : Launch) (level : Nat) : Nat := (l.fields.drop level).foldl (fun a f => a * f.extent) 1
def groupHi (l : Launch) (level : Nat) (wid : Word) : Nat := ((fieldVals l.fields wid.toNat).take level).foldl (fun a f => a * f.1.extent + f.2) 0
def groupIdx (l : Launch) (level : Nat) (wid : Word) : Nat := ((fieldVals l.fields wid.toNat).drop level).foldl (fun a f => a * f.1.extent + f.2) 0
/-- The group spans chips. -/
def groupSpans (l : Launch) (level : Nat) : Bool :=
  decide (l.nchips > 1) && (l.fields.drop level).any fun f => f.scope == 0 && decide (f.extent > 1)

-- At the combiner (R311).
/-- Two participants' words agree. -/
def Contrib.agrees (a b : Contrib) : Bool :=
  a.scan == b.scan && a.op == b.op && a.excl == b.excl && a.xs.length == b.xs.length && a.spec.numctl == b.spec.numctl
/-- The same command of the same core. -/
def Contrib.isOf (p : Contrib) (n : CoreId) (c : CmdSpec) : Bool := p.core == n && p.spec.stamp == c.stamp

/-- Element `i` of a collective after both its sweeps, absent participants standing as padding leaves (R78, R310). -/
def Coll.element (g : Coll) (i : Nat) : Sweep :=
  match g.parts with
  | [] => ⟨[], 0, 0⟩
  | q :: _ =>
    let c := numCfg q.spec.numctl
    let k := log2Nat 64 (pow2Above 64 g.total)
    let wid := match g.parts.find? fun p => p.idx == 0 with | some p => p.spec.wid | none => 0
    let leaf := collLeaf q.op c.rm
    let xs := (upto (2 ^ k)).map fun p => match g.parts.find? fun a => a.idx == p with
      | some a => a.xs.getD i leaf
      | none => leaf
    sweep c q.op (collUp k ++ collDown k) ⟨xs, srSeed wid (27 * 65536 + i) (wf_ 47 32 q.spec.numctl), 0⟩

/-- What a participant receives (R310). -/
def Coll.result (g : Coll) (p : Contrib) : List (Nat × Nat) :=
  (upto p.xs.length).map fun i =>
    let ys := (g.element i).ys
    if !p.scan then ys.getD (ys.length - 1) (0, 0)
    else if !p.excl then ys.getD p.idx (0, 0)
    else if p.idx = 0 then collEmpty p.op
    else ys.getD (p.idx - 1) (0, 0)

/-- The values that a participant needs have arrived (R311). -/
def Coll.arrived (g : Coll) (p : Contrib) : Bool :=
  (upto (if p.scan then p.idx + 1 else g.total)).all fun i => g.parts.any fun q => q.idx == i

/-- Every participant has arrived: the flags of all combinations are raised for each, at its END, or at once where it has ended (R310). -/
def collFlags (g : Coll) (s : State) : State :=
  match g.parts with
  | [] => s
  | q :: _ =>
    let fs := (upto q.xs.length).filterMap fun i => let f := (g.element i).fl; if f = 0 then none else some (i, f)
    if fs = [] then s
    else
      let all := fs.foldl (fun a p => a ||| p.2) (0 : FpFlags)
      g.parts.foldl (fun s p =>
        let pend := pendingOf p.spec.wid p.spec.iter true (trapEnables p.spec.numctl) fs
        match (s.cores[p.core].eng[(26 : Eng)]).cmd with
        | some c => if c.spec.stamp = p.spec.stamp then
            s.engUpd p.core 26 fun e => { e with cmd := some { c with flags := c.flags ||| all, pend := c.pend ++ pend } }
          else flagsFor p.core p.spec all pend s
        | none => flagsFor p.core p.spec all pend s) s

/-- A participant arrives: at the first collective of its group that it has not joined, or at a new one (R311). -/
def collArrive (lid level hi total : Nat) (p : Contrib) (s : State) : State :=
  let open_ (g : Coll) : Bool := g.lid == lid && g.level == level && g.hi == hi && !(g.parts.any fun q => q.idx == p.idx)
  let join (g : Coll) : Coll := { g with bad := g.bad || g.parts.any fun q => !(q.agrees p), parts := g.parts ++ [p] }
  match s.coll.find? open_ with
  | none =>
    let g : Coll := ⟨lid, level, hi, total, false, [p]⟩
    let s1 := { s with coll := s.coll ++ [g] }
    if total = 1 then collFlags g s1 else s1
  | some g =>
    let g1 := join g
    let s1 := { s with coll := (s.coll.takeWhile fun x => !(open_ x)) ++ [g1] ++ ((s.coll.dropWhile fun x => !(open_ x)).drop 1) }
    if g1.parts.length = total ∧ !g1.bad then collFlags g1 s1 else s1

/-- A participant's word is done; a collective that all have left is forgotten. -/
def collLeave (n : CoreId) (c : CmdSpec) (s : State) : State :=
  let mark (g : Coll) : Coll := { g with parts := g.parts.map fun p => if p.isOf n c then { p with done := true } else p }
  { s with coll := (s.coll.map mark).filter fun g => !(g.parts.length == g.total && g.parts.all Contrib.done) }

-- The words.
/-- Bytes of a value. -/
def collSize (op : CollOp) : Nat := if op = .affine then 8 else 4
/-- A value read, and written. -/
def collRead (op : CollOp) (h : Hdr) (t : TileEnt) (i : Nat) : Nat × Nat :=
  if op = .affine then (opVal h t 4 (2 * i), opVal h t 4 (2 * i + 1)) else (opVal h t 4 i, 0)
def collBytes (op : CollOp) (x : Nat × Nat) : List Byte := leBytes 4 x.1 ++ if op = .affine then leBytes 4 x.2 else []

/-- What the scan port asks of its operands (R309). -/
def wantSrcC : Want := ⟨false, 0, none⟩
def wantDstC : Want := ⟨true, 0, none⟩

/-- A participant that waits: ended by a mismatch, done where its values have arrived, else still waiting (R311). -/
def collWait (c : Cmd) (s : State) : Res :=
  let n := s.at_.core
  match s.coll.find? fun g => g.parts.any fun p => p.isOf n c.spec && !p.done with
  | none => .next s
  | some g => match g.parts.find? fun p => p.isOf n c.spec with
    | none => .next s
    | some p =>
      if g.bad then wordFault .illegalWord (collLeave n c.spec s)
      else if !(g.arrived p) then .next s
      else use1 wantDstC (c.stk.getD 1 0) s fun h t =>
        .next (endJob 3 [] (collLeave n c.spec (s.writeOp h t 0 ((g.result p).flatMap (collBytes p.op)))))

/-- SCAN and REDUCE (R309): the operands and the group within their limits; then the participant arrives and waits. -/
def collWord (i : Instr) (scan : Bool) (op : CollOp) (excl : Bool) (s : State) : Res :=
  match s.eng.cmd with
  | none => .next s
  | some c =>
    if c.job = some .coll then collWait c s
    else inWord i 3 s fun c =>
      let cnt := c.stk.headD 0
      let e := wf_ 11 0 cnt + 1
      let level := wf_ 15 12 cnt
      match s.launch c.spec.lid with
      | none => wordFault .illegalWord s
      | some l => use2 wantSrcC (c.stk.getD 2 0) wantDstC (c.stk.getD 1 0) s fun h t g u =>
          if wf_ 63 16 cnt ≠ 0 ∨ level ≥ l.fields.length ∨ groupTotal l level > 512 ∨ groupSpans l level ∨ e * collSize op > h.size t ∨
              e * collSize op > g.size u then wordFault .illegalWord s
          else
            let p : Contrib := ⟨s.at_.core, c.spec, groupIdx l level c.spec.wid, scan, op, excl, (upto e).map (collRead op h t), false⟩
            .next (collArrive c.spec.lid level (groupHi l level c.spec.wid) (groupTotal l level) p (startJob c .coll (s.touchOps [h])))

/-- SCAN (R309 to R311). -/
def execWScan (op : CollOp) (excl : Bool) (s : State) : Res := collWord (.wScan op excl) true op excl s
/-- REDUCE (R309 to R311). -/
def execWReduce (op : CollOp) (s : State) : Res := collWord (.wReduce op) false op false s

end Sys2Proof.Machine
end

