-- ==== Sys2Proof/Machine/Island.lean ====
section
/-!
DEFINITION. The transit island's packets: routing (R420, R421, R429), admission of class 0 (R425, R426), ABSENT answers (R419), the copy
writes of other chips (R312 to R314, R341, R407), and system exchange's cells as they arrive (R165, R166, R428).
-/
namespace Sys2Proof.Machine

def State.onIsland (g : Island → Island) (s : State) : State := { s with island := g s.island }
def State.onPort (k : PortId) (g : Port → Port) (s : State) : State := s.onIsland fun i => { i with ports := vmod i.ports k g }

-- Routing.
/-- A coordinate by dimension. -/
def coordAt (c : Coord) (d : Fin 4) : Nat := if d.val = 0 then c.x else if d.val = 1 then c.y else if d.val = 2 then c.z else c.w

/-- The port towards +d or −d (R420). -/
def portOf (d : Fin 4) (minus : Bool) : PortId := Fin.ofNat 8 (2 * d.val + (if minus then 1 else 0))

/-- The direction that a packet takes in a dimension where it has to move: the one it keeps to, else the shorter, else + (R420, R421). -/
def Island.minusIn (i : Island) (p : Packet) (d : Fin 4) : Bool :=
  let n := coordAt i.ext d
  let a := coordAt i.me d
  let b := coordAt p.dst d
  if p.turned.contains (portOf d false) then false
  else if p.turned.contains (portOf d true) then true
  else n != 2 && decide ((a + n - b) % n < (b + n - a) % n)

/-- The neighbour of a coordinate through a port (R420). -/
def Island.neighbour (i : Island) (k : PortId) : Coord :=
  let m (n x : Nat) : Nat := if k.val % 2 = 0 then (x + 1) % n else (x + n - 1) % n
  match k.val / 2 with
  | 0 => { i.me with x := m i.ext.x i.me.x }
  | 1 => { i.me with y := m i.ext.y i.me.y }
  | 2 => { i.me with z := m i.ext.z i.me.z }
  | _ => { i.me with w := m i.ext.w i.me.w }

/-- The next hop of a packet, and the packet as it goes there (R421, R429): the dimensions in order, those skipped before last; in each the
direction of `minusIn`, else the other way around. -/
def Island.route (i : Island) (p : Packet) : Option (PortId × Packet) :=
  let open_ := (List.finRange 4).filter fun d => coordAt i.me d != coordAt p.dst d
  let order := open_.filter (fun d => !(p.skipped.contains d)) ++ open_.filter (fun d => p.skipped.contains d)
  let up (k : PortId) : Bool := i.ports[k].lstate == 2
  let rec go (passed : List (Fin 4)) : List (Fin 4) → Option (PortId × Packet)
    | [] => none
    | d :: ds =>
      let m := i.minusIn p d
      let keep := p.turned.filter fun k => k.val / 2 != d.val
      let skipped := (p.skipped.filter fun e => e != d) ++ passed
      if up (portOf d m) then some (portOf d m, { p with skipped := skipped })
      else if up (portOf d (!m)) then some (portOf d (!m), { p with skipped := skipped, turned := portOf d (!m) :: keep })
      else go (passed ++ [d]) ds
  go [] order

-- Admission.
/-- Bytes of a payload, in whole flits of 64 (R425; log entry 52). -/
def payloadBytes : Payload → Nat
  | .timing _ => 64
  | .copyWrite _ _ _ bs _ _ _ => bs.length
  | .cells cs => (cs.map fun c => c.2.length).foldl (· + ·) 0
  | _ => 0
def flitsOf (p : Packet) : Nat := Nat.max 1 (ceilDiv (payloadBytes p.body) 64)

/-- A packet leaves by a port, or waits at class-0 admission (R425, R426). -/
def State.emit (k : PortId) (p : Packet) (s : State) : State :=
  let q := s.island.ports[k]
  let cost := 192 * flitsOf p
  if !p.class0 then s.onPort k fun q => { q with sent := q.sent ++ [p] }
  else if q.wait0 = [] ∧ cost ≤ q.bucket then s.onPort k fun q => { q with sent := q.sent ++ [p], bucket := q.bucket - cost }
  else (s.onPort k fun q => { q with wait0 := q.wait0 ++ [p] }).onIsland fun i => { i with c0wait := i.c0wait + 1 }

/-- CLASS0_ADMISSION (R426): the first waiting packet of the port leaves once its link is up and the bucket holds enough for it. -/
def execEvClass0Admission (s : State) : Res :=
  let k := s.at_.port
  match (s.island.ports[k]).wait0 with
  | p :: ps => .next (if (s.island.ports[k]).lstate = 2 ∧ 192 * flitsOf p ≤ (s.island.ports[k]).bucket then
      s.onPort k fun q => { q with wait0 := ps, sent := q.sent ++ [p], bucket := q.bucket - 192 * flitsOf p } else s)
  | [] => .next s

-- Answers.
/-- The copy in progress under a packet's number. -/
def State.copyUnder (s : State) (n : CoreId) (e : Eng) (id : Nat) : Option (Cmd × CopyJob) :=
  match (s.cores[n].eng[e]).cmd with
  | some c => match c.job with
    | some (.copy j) => if j.sent = some id then some (c, j) else none
    | _ => none
  | none => none

/-- A copy job replaced. -/
def State.setCopy (n : CoreId) (e : Eng) (j : CopyJob) (s : State) : State :=
  s.engUpd n e fun g => { g with cmd := g.cmd.map fun c => { c with job := some (.copy j) } }

/-- ABSENT received by the copy that sent the packet: it is held, and resends 21,000 clk later (R341, R419). -/
def State.copyAbsent (n : CoreId) (e : Eng) (id : Nat) (s : State) : State :=
  match s.copyUnder n e id with
  | some (_, j) => s.setCopy n e { j with sent := none, again := some (s.cyc + 21000) }
  | none => s

/-- The payload of an answer or of cells. -/
def answerPayload : Answer → Payload
  | .ack id n e run => .copyAck id n e run
  | .fault id n e r va => .copyFault id n e r va
  | .cells cs => .cells cs
/-- The payloads that are answers or cells. -/
def payloadAnswer : Payload → Option Answer
  | .copyAck id n e run => some (.ack id n e run)
  | .copyFault id n e r va => some (.fault id n e r va)
  | .cells cs => some (.cells cs)
  | _ => none

/-- The answer ABSENT to a packet, in its class (R419); none to an ABSENT, nor to what passes between neighbours (log entry 137). -/
def absentFor (me : Coord) (p : Packet) (reason : Nat) : Option Packet :=
  match p.body with
  | .copyWrite id _ _ _ n e _ => some ⟨me, p.src, p.class0, [], [], .absent id n e reason⟩
  | b => (payloadAnswer b).map fun a => ⟨me, p.src, p.class0, [], [], .bounced reason a⟩

/-- Cells that a neighbour has not taken are dirty again with respect to it (R166, R428). -/
def State.redirty (to_ : Coord) (cs : List (Nat × List Byte)) (s : State) : State :=
  match (List.finRange 8).find? fun k => s.island.ports[k].lstate == 2 && s.island.neighbour k == to_ with
  | none => s
  | some k =>
    let again := cs.map fun c => (k.val, (c.1 - latBase) / 65536, (c.1 - latBase) % 65536)
    { s with sysDirty := s.sysDirty ++ again.filter fun x => !(s.sysDirty.contains x) }

/-- A packet of this chip that finds no way or no endpoint is held and sent again 10 µs on (R419, R429): a copy's by its copy, cells as dirty
ones, any other as it stands. -/
def State.holdBack (p : Packet) (s : State) : State :=
  match p.body with
  | .copyWrite id _ _ _ n e _ => s.copyAbsent n e id
  | .cells cs => s.redirty p.dst cs
  | .timing _ => s
  | _ => s.onIsland fun i => { i with resend := i.resend ++ [(s.datum + 10000, p)] }

/-- A packet sent on its route; one without an up port answers its sender ABSENT with reason 3 (R429); this chip's own, and an ABSENT, are held
back here. -/
def State.sendPacket (p : Packet) (s : State) : State :=
  match s.island.route p with
  | some (k, q) => s.emit k q
  | none =>
    if p.src = s.island.me then s.holdBack p
    else match absentFor s.island.me p 3 with
      | some a => (match s.island.route a with | some (k, q) => s.emit k q | none => s.holdBack a)
      | none => s.holdBack p

/-- A packet answered ABSENT. -/
def State.answerAbsent (p : Packet) (reason : Nat) (s : State) : State :=
  match absentFor s.island.me p reason with
  | some a => s.sendPacket a
  | none => s

/-- The packets held back that are due, sent again (R419). -/
def State.resendDue (s : State) : State :=
  if s.island.state = .off then s
  else
    let due (x : Word × Packet) : Bool := decide (x.1.toNat ≤ s.datum.toNat)
    (s.island.resend.filter due).foldl (fun t x => t.sendPacket x.2) (s.onIsland fun i => { i with resend := i.resend.filter fun x => !(due x) })

/-- The reason for which an island that is not ATTACHED answers ABSENT (R419). -/
def Island.away (i : Island) : Option Nat := match i.state with
  | .attached => none
  | .draining => some 2
  | _ => some 0

-- The running CRC (R314).
/-- CRC-32C, reflected, least significant bit first. -/
def crcBits : Nat → BitVec 32 → BitVec 32
  | 0, x => x
  | k + 1, x => crcBits k (if x.getLsbD 0 then (x >>> 1) ^^^ 0x82F63B78#32 else x >>> 1)
def crcFold (c : BitVec 32) (bs : List Byte) : BitVec 32 := bs.foldl (fun c b => crcBits 8 (c ^^^ b.setWidth 32)) c

/-- The armed fault injection strikes the first byte delivered at its address (R407). -/
def State.inject (asid : Nat) (bs : List (Nat × Byte)) (s : State) : List (Nat × Byte) × State :=
  let w := s.mc.inj.toNat
  let hit (b : Nat × Byte) : Bool := b.1 % 2 ^ 56 == s.mc.injva.toNat % 2 ^ 56
  if nbit 63 w ∧ bits 61 56 w = asid ∧ bs.any hit then
    let rec flip : List (Nat × Byte) → List (Nat × Byte)
      | [] => []
      | b :: bs => if hit b then (b.1, b.2 ^^^ BitVec.ofNat 8 (2 ^ (w % 8))) :: bs else b :: flip bs
    (flip bs, { s with mc := { s.mc with inj := s.mc.inj &&& 0x7FFFFFFFFFFFFFFF#64 } })
  else (bs, s)

-- Delivery.
/-- The unit that translates for the island. -/
def islandUnit : Nat := 896

/-- The pages of a write that arrives, translated and checked: `some` of the entries, or of the reason of a failure (R129, R231); `none` while it
waits. -/
def islandPages (a : Fin 64) (s : State) : List Nat → Option (Except (Nat × Nat) (List (Nat × Tlb))) × State
  | [] => (some (.ok []), s)
  | va :: vas =>
    match xlate islandUnit {} a va s with
    | (.ok t, s1) =>
      if !t.w then (some (.error (1, va)), s1)
      else if t.tt > 5 then (some (.error (2, va)), s1)
      else match islandPages a s1 vas with
        | (some (.ok ps), s2) => (some (.ok ((va / 65536, t) :: ps)), s2)
        | r => r
    | (.unmapped, s1) => (none, s1.post ⟨a, 0xFF, 0xFF, 0xFF, 0, 0, va, 4⟩)
    | (.migrating _, s1) => (none, s1)
    | (.aliased, s1) => (some (.error (2, va)), s1)
    | (.nowhere, s1) => (none, s1)

/-- A copy write for this chip's ATTACHED island (R312, R313, R341): answered ABSENT, performed and acknowledged, refused by its translation, or left in the
inbox until its page is mapped. -/
def State.deliver (p : Packet) (s : State) : State :=
  match p.body with
  | .copyWrite id asid va bs n e run =>
    let answer (b : Payload) (s : State) : State := s.sendPacket ⟨s.island.me, p.src, p.class0, [], [], b⟩
    if !(s.ctxs[Fin.ofNat 64 asid]).active then s.answerAbsent p 1
    else
      let cells := atAddr va bs
      match islandPages (Fin.ofNat 64 asid) s (pagesOf (cells.map Prod.fst)) with
      | (none, s1) => s1.onIsland fun i => { i with inbox := i.inbox ++ [p] }
      | (some (.error (r, x)), s1) => answer (.copyFault id n e r x) s1
      | (some (.ok ps), s1) =>
        match partCell ps (cells.map Prod.fst) with
        | some x => answer (.copyFault id n e 2 x) s1
        | none =>
          if (plainBytes ps cells).any fun b => s1.sealed b.2.1 then
            { s1 with tlb := s1.tlb.filter fun t => t.unit != islandUnit }.onIsland fun i => { i with inbox := i.inbox ++ [p] }
          else
            let (got, s2) := s1.inject asid cells
            answer (.copyAck id n e (run.map fun c => crcFold c (got.map Prod.snd))) ((s2.putNow (plainBytes ps got)).copyJoin ps got)
  | _ => s

/-- The writes that wait in the inbox, tried again. -/
def State.redeliver (s : State) : State := s.island.inbox.foldl (fun s p => match s.island.away with
  | some r => s.answerAbsent p r
  | none => s.deliver p) (s.onIsland fun i => { i with inbox := [] })

/-- Cells of system exchange joined at die 0 (R165, R166): of slots whose recorded scope is the system. -/
def State.joinCells (k : PortId) (cs : List (Nat × List Byte)) (s : State) : State :=
  cs.foldl (fun s c =>
    let slot := (c.1 - latBase) / 65536
    let off := (c.1 - latBase) % 65536
    match s.slotRec slot with
    | some r => if r.lscope then
        let t := s.latJoinAt 0 slot off r.ltype.toNat (leNat c.2)
        { t with sysDirty := t.sysDirty.filter fun x => x != (k.val, slot, off) || s.sysDirty.contains x }
      else s
    | none => s) s

/-- Every cell above bottom of a system-scope slot is dirty for a port (R166, R419). -/
def State.dirtyAll (k : PortId) (s : State) : State :=
  let all := (s.lat.filter fun c => c.die == 0 && (match s.slotRec c.slot with | some r => r.lscope | none => false)).map fun c => (k.val, c.slot, c.off)
  { s with sysDirty := s.sysDirty ++ all.filter fun x => !(s.sysDirty.contains x) }

/-- A packet for an endpoint of this chip is received: by an island that is not ATTACHED it is answered ABSENT (R419). -/
def State.receive (k : PortId) (p : Packet) (s : State) : State :=
  match p.body, s.island.away with
  | .copyWrite _ _ _ _ _ _ _, some r => s.answerAbsent p r
  | .copyAck _ _ _ _, some r => s.answerAbsent p r
  | .copyFault _ _ _ _ _, some r => s.answerAbsent p r
  | .cells _, some r => s.answerAbsent p r
  | b, _ => match b with
  | .copyWrite _ _ _ _ _ _ _ => s.deliver p
  | .copyAck id n e run =>
    (match s.copyUnder n e id with
    | some (c, j) =>
      let s1 := s.setCopy n e { j with sent := none, acked := j.acked + packetBytes j }
      (match run with
      | some x => s1.engUpd n e fun g => { g with crc := (s1.cmdAsid c.spec, x) :: g.crc.filter fun q => q.1 != s1.cmdAsid c.spec }
      | none => s1)
    | none => s)
  | .copyFault id n e r va =>
    (match s.copyUnder n e id with
    | some _ =>
      let t := engFault (.page r va) { s with at_ := { s.at_ with core := n, eng := e } }
      { t with at_ := s.at_ }
    | none => s)
  | .absent id n e _ => s.copyAbsent n e id
  | .bounced _ was => s.holdBack ⟨s.island.me, p.src, p.class0, [], [], answerPayload was⟩
  | .timing reply => if reply then s else s.emit k ⟨s.island.me, p.src, true, [], [], .timing true⟩
  | .cells cs => s.joinCells k cs
  | .status b =>
    let s1 := s.onPort k fun q => { q with ncpres := b }
    if b && !(s.island.ports[k]).ncpres then s1.dirtyAll k else s1
where
  /-- The bytes of the packet under way: up to the next multiple of 256 of the destination address. -/
  packetBytes (j : CopyJob) : Nat :=
    match j.pieces with
    | ⟨_, .va d, n⟩ :: _ => Nat.min (n - j.acked) (256 - (d + j.acked) % 256)
    | _ => 0

/-- PACKET_ARRIVAL (R421, R419): at an up port of an island that runs, a packet is received here, forwarded, or answered ABSENT; an island
in TRAIN forwards nothing and answers with reason 3 (log entry 53). -/
def execEvPacketArrival (p : Packet) (s : State) : Res :=
  let k := s.at_.port
  if s.island.state = .off ∨ (s.island.ports[k]).lstate ≠ 2 then .next s
  else
    let here := match p.body with | .status _ => true | .timing _ => true | _ => decide (p.dst = s.island.me)
    if here then .next (s.receive k p)
    else if s.island.state = .train then .next (s.answerAbsent p 3)
    else .next (s.sendPacket p)

end Sys2Proof.Machine
end

