-- ==== Sys2Proof/Machine/StreamAlu.lean ====
section
/-!
DEFINITION. The stream words that act on the stack alone: literals, stack moves, arithmetic and branches (R297, R298).
-/
namespace Sys2Proof.Machine

-- What each does to the stack, top first (R297).
def topLit (i : BitVec 12) (st : List Word) : List Word := i.signExtend 64 :: st
def topLitx (i : BitVec 12) : List Word → List Word
  | x :: st => ((x <<< 12) ||| i.setWidth 64) :: st
  | st => st
def topDup : List Word → List Word
  | a :: st => a :: a :: st
  | st => st
def topDrop : List Word → List Word
  | _ :: st => st
  | st => st
def topSwap : List Word → List Word
  | b :: a :: st => a :: b :: st
  | st => st
def topOver : List Word → List Word
  | b :: a :: st => a :: b :: a :: st
  | st => st
def topRot : List Word → List Word
  | c :: b :: a :: st => a :: c :: b :: st
  | st => st
def topPick (n : Nat) (st : List Word) : List Word := st.getD n 0 :: st
/-- A word of two operands a and b, b on top. -/
def top2 (f : Word → Word → Word) : List Word → List Word
  | b :: a :: st => f a b :: st
  | st => st
/-- A word of one operand. -/
def top1 (f : Word → Word) : List Word → List Word
  | a :: st => f a :: st
  | st => st
def minS (a b : Word) : Word := if a.toInt ≤ b.toInt then a else b
def maxS (a b : Word) : Word := if a.toInt ≤ b.toInt then b else a
def eqz (a : Word) : Word := if a = 0 then 1 else 0

/-- A word of this file that leaves the index alone: what it needs, and what it does to the stack; `none` for other words. -/
def stackEffect : Instr → Option (Nat × (List Word → List Word))
  | .wLit i => some (0, topLit i)
  | .wLitx i => some (1, topLitx i)
  | .wDup => some (1, topDup)
  | .wDrop => some (1, topDrop)
  | .wSwap => some (2, topSwap)
  | .wOver => some (2, topOver)
  | .wRot => some (3, topRot)
  | .wPick n => some (n.val + 1, topPick n.val)
  | .wAdd => some (2, top2 (· + ·))
  | .wSub => some (2, top2 (· - ·))
  | .wAnd => some (2, top2 (· &&& ·))
  | .wOr => some (2, top2 (· ||| ·))
  | .wXor => some (2, top2 (· ^^^ ·))
  | .wShl n => some (1, top1 (· <<< n.val))
  | .wShr n => some (1, top1 (· >>> n.val))
  | .wInc => some (1, top1 (· + 1))
  | .wDec => some (1, top1 (· - 1))
  | .wNeg => some (1, top1 (- ·))
  | .wMin => some (2, top2 minS)
  | .wMax => some (2, top2 maxS)
  | .wEqz => some (1, top1 eqz)
  | _ => none

/-- LIT (R297). -/
def execWLit (i : BitVec 12) (s : State) : Res := stackWord (.wLit i) 0 (topLit i) s
/-- LITX (R297). -/
def execWLitx (i : BitVec 12) (s : State) : Res := stackWord (.wLitx i) 1 (topLitx i) s
/-- DUP (R297). -/
def execWDup (s : State) : Res := stackWord .wDup 1 topDup s
/-- DROP (R297). -/
def execWDrop (s : State) : Res := stackWord .wDrop 1 topDrop s
/-- SWAP (R297). -/
def execWSwap (s : State) : Res := stackWord .wSwap 2 topSwap s
/-- OVER (R297). -/
def execWOver (s : State) : Res := stackWord .wOver 2 topOver s
/-- ROT (R297). -/
def execWRot (s : State) : Res := stackWord .wRot 3 topRot s
/-- PICK (R297). -/
def execWPick (n : Fin 8) (s : State) : Res := stackWord (.wPick n) (n.val + 1) (topPick n.val) s
/-- ADD (R297). -/
def execWAdd (s : State) : Res := stackWord .wAdd 2 (top2 (· + ·)) s
/-- SUB (R297). -/
def execWSub (s : State) : Res := stackWord .wSub 2 (top2 (· - ·)) s
/-- AND (R297). -/
def execWAnd (s : State) : Res := stackWord .wAnd 2 (top2 (· &&& ·)) s
/-- OR (R297). -/
def execWOr (s : State) : Res := stackWord .wOr 2 (top2 (· ||| ·)) s
/-- XOR (R297). -/
def execWXor (s : State) : Res := stackWord .wXor 2 (top2 (· ^^^ ·)) s
/-- SHL (R297). -/
def execWShl (n : Fin 64) (s : State) : Res := stackWord (.wShl n) 1 (top1 (· <<< n.val)) s
/-- SHR (R297). -/
def execWShr (n : Fin 64) (s : State) : Res := stackWord (.wShr n) 1 (top1 (· >>> n.val)) s
/-- INC (R297). -/
def execWInc (s : State) : Res := stackWord .wInc 1 (top1 (· + 1)) s
/-- DEC (R297). -/
def execWDec (s : State) : Res := stackWord .wDec 1 (top1 (· - 1)) s
/-- NEG (R297). -/
def execWNeg (s : State) : Res := stackWord .wNeg 1 (top1 (- ·)) s
/-- MIN (R297). -/
def execWMin (s : State) : Res := stackWord .wMin 2 (top2 minS) s
/-- MAX (R297). -/
def execWMax (s : State) : Res := stackWord .wMax 2 (top2 maxS) s
/-- EQZ (R297). -/
def execWEqz (s : State) : Res := stackWord .wEqz 1 (top1 eqz) s

-- Branches (R298).
/-- The target of a branch at an index: `none` outside 0 to 4,095. -/
def branchTo (ip : Nat) (off : BitVec 10) : Option Nat :=
  let t : Int := ip + 1 + off.toInt
  if 0 ≤ t ∧ t ≤ 4095 then some t.toNat else none
/-- A branch word (R298): an impossible target is the illegal-word fault, taken or not; else the stack is replaced and the command goes on
at the target, where it branches. -/
def branchWord (i : Instr) (need : Nat) (off : BitVec 10) (f : List Word → Bool × List Word) (s : State) : Res :=
  match s.eng.cmd with
  | some c =>
    if c.job.isNone && (branchTo c.ip off).isNone then wordFault .illegalWord s
    else inWord i need s fun c =>
      let (taken, st) := f c.stk
      .next (setCmd { c with stk := st, ip := if taken then (branchTo c.ip off).getD 0 else c.ip + 1 } s)
  | none => .next s

/-- What JZ and JNZ take off the stack, and whether they branch. -/
def popTest (zero : Bool) : List Word → Bool × List Word
  | a :: st => ((a == 0) == zero, st)
  | st => (false, st)
/-- LOOPN's count (R298). -/
def loopCount : List Word → Bool × List Word
  | n :: st => if n.toNat > 1 then (true, (n - 1) :: st) else (false, st)
  | st => (false, st)

/-- JMP (R298). -/
def execWJmp (off : BitVec 10) (s : State) : Res := branchWord (.wJmp off) 0 off (fun st => (true, st)) s
/-- JZ (R298). -/
def execWJz (off : BitVec 10) (s : State) : Res := branchWord (.wJz off) 1 off (popTest true) s
/-- JNZ (R298). -/
def execWJnz (off : BitVec 10) (s : State) : Res := branchWord (.wJnz off) 1 off (popTest false) s
/-- LOOPN (R298). -/
def execWLoopn (off : BitVec 10) (s : State) : Res := branchWord (.wLoopn off) 1 off loopCount s

/-- A branch of this file in a stack alone: what it needs, its offset, and what it does. -/
def branchEffect : Instr → Option (Nat × BitVec 10 × (List Word → Bool × List Word))
  | .wJmp off => some (0, off, fun st => (true, st))
  | .wJz off => some (1, off, popTest true)
  | .wJnz off => some (1, off, popTest false)
  | .wLoopn off => some (1, off, loopCount)
  | _ => none

end Sys2Proof.Machine
end

