-- ==== Sys2Proof/Machine/Copy.lean ====
section
/-!
DEFINITION. The copy words (R312 to R315): their operands, the promise of a command (R313), helper placement, a copy's bytes as they are
performed (R141, R151, R167), the running CRC (R314), and remote copies with their packets (R341, R419).
-/
namespace Sys2Proof.Machine

-- Chip sets (R420).
/-- The coordinates that a list entry of a chip set holds. -/
def coordOf (w : Nat) : Coord := ⟨bits 3 0 w, bits 7 4 w, bits 11 8 w, bits 16 12 w⟩
/-- The number of chips of a set, and its chip at a position; set 0xFFFF is this chip alone (R377). -/
def State.chipCount (s : State) (set : Nat) : Nat := if set = 0xFFFF then 1 else s.getPhysN (s.pkg.csetbase.toNat + 16 * set) 4
def State.chipAt (s : State) (set pos : Nat) : Option Coord :=
  if pos ≥ s.chipCount set then none
  else if set = 0xFFFF then some s.island.me
  else some (coordOf (s.getPhysN (s.getPhysN (s.pkg.csetbase.toNat + 16 * set + 8) 8 + 4 * pos) 4))

/-- The reads of a chip set's entry and list: what the code corrects there counts (R401). -/
def State.readsSet (set : Nat) (s : State) : State :=
  if s.weak = [] ∨ set = 0xFFFF then s
  else
    let entry := s.pkg.csetbase.toNat + 16 * set
    (s.readsPhys entry 16).readsPhys (s.getPhysN (entry + 8) 8) (4 * s.chipCount set)

-- Operands (R312).
/-- A copy that is local and folds nothing. -/
def CopyJob.plain (sc : Scope) (pops : Nat) (ps : List Piece) : CopyJob :=
  { pieces := ps.filter fun p => p.n != 0, scope := sc, remote := none, class0 := false, fold := false, init := none, exp := none, tile := none
    pops := pops, acked := 0, sent := none, again := none, placed := 0, where_ := 0 }

/-- CPY and CRCC: the length word, its chip and its class. -/
def planLinear (sc : Scope) (pops : Nat) (src dst len : Word) (c : CmdSpec) (s : State) : Except EFault CopyJob :=
  let n := wf_ 31 0 len
  let pos := wf_ 63 46 len
  let set := match s.launch c.lid with | some l => l.chipset | none => 0xFFFF
  let chip := if pos = 0x3FFFF then some s.island.me else s.chipAt set pos
  match chip with
  | none => .error .illegalWord
  | some d =>
    let away := d != s.island.me
    let class0 := len.getLsbD 45
    if wf_ 44 32 len ≠ 0 ∨ (away ∧ sc ≠ .sys) ∨ (class0 ∧ (!away ∨ n > 4096)) then .error .illegalWord
    else .ok { CopyJob.plain sc pops [⟨.va src.toNat, .va dst.toNat, n⟩] with remote := if away then some d else none, class0 := class0 }

/-- CPY2D: row after row. -/
def planRows (sc : Scope) (src dst geom : Word) : CopyJob :=
  CopyJob.plain sc 3 ((upto (wf_ 63 48 geom + 1)).map fun r =>
    ⟨.va ((src.toNat + 64 * r * wf_ 31 16 geom) % 2 ^ 64), .va ((dst.toNat + 64 * r * wf_ 15 0 geom) % 2 ^ 64), wf_ 47 32 geom + 1⟩)

/-- CPYX: the whole region of a header, of a handle of level C or T. A helper strand owns none (R23). -/
def planTile (sc : Scope) (hdr va dir : Word) (c : CmdSpec) (s : State) : Except EFault CopyJob :=
  let fill := dir == 0
  if dir.toNat > 1 ∨ s.isHelperStrand c then .error .illegalWord
  else match hdrOf hdr with
  | none => .error .illegalWord
  | some h =>
    if (s.core.tile s.engAsid h.h).any fun t => t.level == 2 then .error .illegalWord
    else
      let level := match s.core.tile s.engAsid h.h with | some t => t.level | none => 0
      match useHdr ⟨fill, level, none⟩ hdr s with
      | .error f => .error f
      | .ok (h, t) =>
        if fill && h.swz == 0xFF then .error .illegalWord
        else
          let tile := CopyEnd.tile h.h (h.base t)
          .ok { CopyJob.plain sc 3 [if fill then ⟨.va va.toNat, tile, h.size t⟩ else ⟨tile, .va va.toNat, h.size t⟩] with tile := some (hdr, fill) }

/-- What a copy word moves, from its stack (R312): its job with the bytes that it counts in the promise; CPYG's pieces come with its
table. `none` for another word. -/
def planOf (i : Instr) (c : CmdSpec) (st : List Word) (s : State) : Option (Except EFault (CopyJob × Nat)) :=
  let total (j : CopyJob) : Nat := (j.pieces.map Piece.n).foldl (· + ·) 0
  let sized (r : Except EFault CopyJob) : Except EFault (CopyJob × Nat) := match r with
    | .ok j => .ok (j, total j)
    | .error f => .error f
  let at_ (k : Nat) : Word := st.getD k 0
  let need (k : Nat) (r : Except EFault (CopyJob × Nat)) : Option (Except EFault (CopyJob × Nat)) := some (if st.length < k then .error .stack else r)
  match i with
  | .wCpy sc => need 3 (sized (planLinear sc 3 (at_ 2) (at_ 1) (at_ 0) c s))
  | .wCpy2d sc => need 3 (sized (.ok (planRows sc (at_ 2) (at_ 1) (at_ 0))))
  | .wCpyx sc => need 3 (sized (planTile sc (at_ 2) (at_ 1) (at_ 0) c s))
  | .wCpyg sc =>
    let n := (at_ 0).toNat
    need 3 (if n = 0 ∨ n > 4096 then .error .illegalWord else .ok (CopyJob.plain sc 3 [], 256 * n))
  | .wCrci => need 1 (if wf_ 63 32 (at_ 0) ≠ 0 then .error .illegalWord
      else .ok ({ CopyJob.plain .cl 1 [] with init := some ((at_ 0).setWidth 32) }, 0))
  | .wCrcc sc last =>
    let k := if last then 4 else 3
    need k (match planLinear sc k (at_ (k - 1)) (at_ (k - 2)) (at_ (k - 3)) c s with
      | .ok j => let j1 : CopyJob := { j with fold := true, exp := if last then some ((at_ 0).setWidth 32) else none }; .ok (j1, total j1)
      | .error f => .error f)
  | _ => none

-- The promise (R313).
/-- How far a dry run looks for its own steps: the point that it compares the next ones with, how many more it compares with that point, and how
many it will compare with the next. -/
structure Round where
  at_ : Nat × List Word × List Nat
  left : Nat
  next : Nat

/-- The next step compared; `none` where it stands at the same point again, and so comes round for ever. -/
def Round.step (p : Nat × List Word × List Nat) (m : Round) : Option Round :=
  if m.at_ == p then none
  else if m.left = 0 then some ⟨p, m.next, 2 * m.next⟩
  else some { m with left := m.left - 1 }

/-- The bytes and hops of a command, found by running its words that act on the stack alone from an index of its program, to the end or, where
they come round for ever, for some rounds (log entry 45). -/
def dryRun (g : Engine) (c : CmdSpec) (s : State) : Nat → Round → Nat → List Word → List Nat → Nat × Nat → Nat × Nat
  | 0, _, _, _, _, r => r
  | k + 1, m0, ip, st, rs, r =>
    match Round.step (ip, st, rs) m0, g.wordAt ip with
    | none, _ => r
    | _, none => r
    | some m, some i =>
      match planOf i c st s with
      | some (.ok (j, n)) => dryRun g c s k m (ip + 1) (st.drop j.pops) rs (r.1 + n, Nat.max r.2 (s.copyHops j))
      | some (.error _) => r
      | none =>
        match stackEffect i, branchEffect i with
        | some (need, f), _ => if st.length < need then r else
            let st1 := f (st.take need) ++ st.drop need
            if st1.length > 8 then r else dryRun g c s k m (ip + 1) st1 rs r
        | none, some (need, off, f) => if st.length < need then r else
            let (taken, st1) := f st
            (match branchTo ip off with
            | some t => dryRun g c s k m (if taken then t else ip + 1) st1 rs r
            | none => r)
        | none, none =>
          (match i with
          | .wReply => if st = [] then r else dryRun g c s k m (ip + 1) st rs r
          | .wBound => if st = [] then r else dryRun g c s k m (ip + 1) (st.drop 1) rs r
          | .wWaitf _ => dryRun g c s k m (ip + 1) st rs r
          | .wSetf _ => dryRun g c s k m (ip + 1) st rs r
          | .wJoin => dryRun g c s k m (ip + 1) st rs r
          | .wCalls e => if g.entryAt e.val = 0xFFFF ∨ rs.length ≥ 4 then r else dryRun g c s k m (g.entryAt e.val % 4096) st ((ip + 1) :: rs) r
          | .wRets => (match rs with
            | t :: ts => dryRun g c s k m t st ts r
            | [] => r)
          | _ => r)

/-- The bytes and hops of a command that starts at an index of its program with a stack (R313). -/
def bytesAndHops (g : Engine) (c : CmdSpec) (s : State) (ip : Nat) (st : List Word) : Nat × Nat :=
  dryRun g c s (2 ^ 64) ⟨(65536, [], []), 1, 2⟩ ip st [] (0, 0)

/-- The promise of a command that its channel accepts now, from its bytes and hops (R313). -/
def promiseOf (now last : Word) (bytes hops : Nat) : Word :=
  BitVec.ofNat 64 (Nat.max now.toNat last.toNat + 96 + ceilDiv bytes 64 + 1400 * hops)

-- The running CRC.
/-- A context's running CRC on a channel (R314). -/
def Engine.crcOf (g : Engine) (asid : Nat) : BitVec 32 := match g.crc.find? fun q => q.1 == asid with
  | some q => q.2
  | none => 0xFFFFFFFF
def Engine.setCrc (asid : Nat) (x : BitVec 32) (g : Engine) : Engine := { g with crc := (asid, x) :: g.crc.filter fun q => q.1 != asid }

-- Completion.
/-- The handle that a copy fills, changed (R118, R120). -/
def State.onFill (j : CopyJob) (g : Hdr → TileEnt → TileEnt) (s : State) : State := match j.tile with
  | some (w, true) => (match hdrOf w with
    | some h => s.onEnt s.at_.core s.engAsid h.h (g h)
    | none => s)
  | _ => s

/-- The bytes of a copy word are performed: it leaves the command's count of bytes, and the word, or the placed copy, is done. -/
def copyDone (c : Cmd) (j : CopyJob) (s : State) : State :=
  let n := s.at_.core
  let total := (j.pieces.map Piece.n).foldl (· + ·) 0
  match c.owner with
  | none => endJob j.pops [] (s.onEng fun g => { g with cmd := g.cmd.map fun c => { c with left := c.left - total } })
  | some h =>
    let s0 := s.capture 8 n.val (128 + s.at_.eng.val) s.eng.lastPromise (some c.spec.seq)
    let s1 := (keepCrc n s.at_.eng c.spec s0).onEng fun g => { g with cmd := none }
    s1.engUpd n h fun g => { g with cmd := g.cmd.map fun d => if d.spec.stamp = c.spec.stamp then { d with copies := d.copies - 1 } else d }

/-- COMPLETION OF A COPY (R120, R151, R314): the handle's SWZ, the comparison of LAST with its copy-integrity trap, and the word's end. -/
def finishCopy (c : Cmd) (j : CopyJob) (s : State) : State :=
  let e := s.at_.eng
  let s1 := s.onFill j fun h t => { t with swz := BitVec.ofNat 8 h.swz, infl := false }
  let got := (s1.eng.crcOf s1.engAsid) ^^^ 0xFFFFFFFF#32
  let s2 := copyDone c j s1
  match j.exp with
  | some x => if got = x then s2 else
      let who := c.owner.getD e
      s2.tellCluster s2.at_.core who c.spec { cause := 0x0B, a0 := BitVec.ofNat 64 who.val, a1 := BitVec.ofNat 64 c.spec.pos
                                              a2 := x.setWidth 64, a3 := got.setWidth 64 } true
  | none => s2

-- Performing (R141, R151, R167).
/-- The addresses of a piece's end, where it is in memory. -/
def CopyEnd.vas (n : Nat) : CopyEnd → List Nat
  | .va a => (upto n).map fun i => (a + i) % 2 ^ 64
  | .tile _ _ => []

/-- The visibility group of a byte of a copy: the die of its destination granule (R141). -/
def copyGroup (s : State) (qs : List (Nat × Tlb)) (d : CopyEnd) (i : Nat) : Nat :=
  match d with
  | .va a => (match entryOf qs ((a + i) % 2 ^ 64) with
    | some t => dieOf (placeIn t ((a + i) % 2 ^ 64)).2
    | none => 0)
  | .tile h _ => (match s.core.tile s.engAsid h with
    | some t => if t.level = 0 then 0 else 1 + s.at_.core.val / 4
    | none => 0)

/-- The bytes that a piece moves. -/
def pieceBytes (ps qs : List (Nat × Tlb)) (s : State) (p : Piece) : List Byte :=
  match p.src with
  | .va a => (upto p.n).map fun i => engByte (copyGroup s qs p.dst i) ps s ((a + i) % 2 ^ 64)
  | .tile h off => (match s.core.tile s.engAsid h with
    | some t => t.read off p.n
    | none => [])

/-- A piece's bytes at its destination. -/
def putPiece (c : Cmd) (j : CopyJob) (qs : List (Nat × Tlb)) (s : State) (p : Piece × List Byte) : State :=
  match p.1.dst with
  | .tile h off => (match s.core.tile s.engAsid h with
    | some t => s.putTile h t off p.2
    | none => s)
  | .va a =>
    let (bs, s1) := s.inject s.engAsid (p.2.mapIdx fun i b => ((a + i) % 2 ^ 64, b))
    let s2 := if j.fold then s1.onEng (fun g => g.setCrc s1.engAsid (crcFold (g.crcOf s1.engAsid) (bs.map Prod.snd))) else s1
    (s2.copyPut c.spec j.scope (originOf (some (c.spec.lid, c.spec.seq)) s2.datum (s2.cmdAsid c.spec) .line qs (bs.map Prod.fst)) (plainBytes qs bs)).copyJoin qs bs

/-- A local copy: every byte is read, then every byte is written, in increasing destination address (log entry 54). A handle that is not
resident is reloaded first (R124); an uncorrectable word of its contents is consumed (R402). -/
def localCopy (c : Cmd) (j : CopyJob) (s : State) : State :=
  let home := match j.tile with | some (w, _) => hdrOf w | none => none
  let ready := match home with | some h => (s.reload s.at_.core (Fin.ofNat 64 s.engAsid) h.h).map (State.touchOps [h]) | none => some s
  let spoilt (t : State) : Option Nat := match j.tile, home with
    | some (_, false), some h => (t.core.tile t.engAsid h.h).bind fun e => t.regionBad h e
    | _, _ => none
  match ready with
  | none => s
  | some s => match spoilt s with
    | some p => s.consumedEng c.spec p
    | none =>
    let reads := j.pieces.flatMap fun p => p.src.vas p.n
    let writes := j.pieces.flatMap fun p => p.dst.vas p.n
    engAccess c reads writes s fun ps qs t =>
      match partCell ps reads, partCell qs writes with
      | some a, _ => engFault (.page 2 a) t
      | none, some a => engFault (.page 2 a) t
      | none, none =>
        let moved := j.pieces.map fun p => (p, pieceBytes ps qs t p)
        let t1 := moved.foldl (putPiece c j qs) t
        finishCopy c j (match j.init with | some x => t1.onEng (Engine.setCrc t1.engAsid x) | none => t1)

/-- The next packet of a remote copy (R312, R341): up to the next multiple of 256 of the destination address. One is under way at a time. -/
def sendPiece (c : Cmd) (j : CopyJob) (d : Coord) (a b n : Nat) (s : State) : State :=
  let reads := CopyEnd.vas n (.va a)
  engAccess c reads [] s fun ps _ t =>
    match partCell ps reads with
    | some x => engFault (.page 2 x) t
    | none =>
      let k := Nat.min (n - j.acked) (256 - (b + j.acked) % 256)
      let bs := (upto k).map fun i => engByte 0 ps t ((a + j.acked + i) % 2 ^ 64)
      let t1 := { t with ids := t.ids + 1 }.setCopy t.at_.core t.at_.eng { j with sent := some t.ids, again := none }
      let p : Packet := ⟨t.island.me, d, j.class0, [], [], .copyWrite t.ids t.engAsid ((b + j.acked) % 2 ^ 64) bs t.at_.core t.at_.eng
        (if j.fold then some (t.eng.crcOf t.engAsid) else none)⟩
      if t.island.state ≠ .attached ∨ (t.island.route p).isNone then t1.copyAbsent t.at_.core t.at_.eng t.ids
      else (t1.onRec c.spec.lid c.spec.seq fun r => { r with nidem := true }).sendPacket p

/-- A remote copy sends what is left of it, or completes. -/
def remoteCopy (c : Cmd) (j : CopyJob) (d : Coord) (s : State) : State :=
  match j.pieces with
  | ⟨.va a, .va b, n⟩ :: _ =>
    if j.acked ≥ n then finishCopy c j s
    else if j.sent.isSome || j.again.isSome then s
    else sendPiece c j d a b n s
  | _ => finishCopy c j s

/-- COPY_COMPLETE (R151, R313): the copy in progress is performed, with every write at its scope; a remote copy sends its next packet, or
completes when every byte is acknowledged. -/
def execEvCopyComplete (s : State) : Res :=
  match s.eng.cmd with
  | some c => match c.job with
    | some (.copy j) => .next (match j.remote with
      | some d => remoteCopy c j d s
      | none => localCopy c j s)
    | _ => .next s
  | none => .next s

/-- COPY_RESEND (R341, R419): 21,000 clk after ABSENT the copy sends again. -/
def execEvCopyResend (s : State) : Res :=
  match s.eng.cmd with
  | some c => match c.job with
    | some (.copy j) => (match j.again, j.remote with
      | some t, some d => if t.toNat ≤ s.cyc.toNat then
          .next (remoteCopy { c with job := some (.copy { j with again := none }) } { j with again := none } d
            (s.setCopy s.at_.core s.at_.eng { j with again := none }))
        else .next s
      | _, _ => .next s)
    | _ => .next s
  | none => .next s

-- The words.
/-- The copies in flight of a core (R46). -/
def Core.copiesInFlight (k : Core) : Nat :=
  ((List.finRange 27).map fun e => if 16 ≤ e.val ∧ e.val < 20 then
    (if (k.eng[e]).cmd.isSome then 1 else 0) + ((k.eng[e]).queue.filter fun q => match q with | .placed _ _ _ => true | _ => false).length else 0).foldl (· + ·) 0

/-- The copy channel with the fewest queued commands, the lowest id first (R315). -/
def Core.channel (k : Core) : Eng :=
  let load (e : Eng) : Nat := (k.eng[e]).queue.length
  let better (a b : Eng) : Eng := if load b < load a then b else a
  [17, 18, 19].foldl better (16 : Eng)

/-- A copy whose operands are in order begins: on its channel, or placed by a helper (R315), which waits for room there. A zero length
completes at once. -/
def beginCopy (c : Cmd) (j : CopyJob) (s : State) : Res :=
  let s := match j.remote, s.launch c.spec.lid with | some _, some l => s.readsSet l.chipset | _, _ => s
  let n := s.at_.core
  if j.pieces = [] ∧ !j.fold ∧ j.init.isNone then nextWith c (c.stk.drop j.pops) s
  else if 20 ≤ s.at_.eng.val then
    let ch := s.core.channel
    if (s.core.eng[ch]).queue.length ≥ 8 ∨ s.core.copiesInFlight ≥ 64 then .next s
    else
      let stamp := s.core.stamps + 1
      let s1 := s.onCore fun k => { k with stamps := stamp }
      nextWith { c with copies := c.copies + 1 } (c.stk.drop j.pops)
        (s1.engUpd n ch fun g => ({ g with queue := g.queue ++ [.placed c.spec s.at_.eng { j with placed := stamp, where_ := c.where_ s.eng }] } : Engine).settle s1.core.f)
  else .next (startJob c (.copy j) (s.onFill j fun _ t => { t with infl := true }))

/-- A copy word (R312). -/
def copyWord (i : Instr) (s : State) : Res :=
  inWord i 0 s fun c => match planOf i c.spec c.stk s with
    | some (.ok (j, _)) => beginCopy c j s
    | some (.error f) => wordFault f s
    | none => .next s

/-- CPY (R312). -/
def execWCpy (sc : Scope) (s : State) : Res := copyWord (.wCpy sc) s
/-- CPY2D (R312). -/
def execWCpy2d (sc : Scope) (s : State) : Res := copyWord (.wCpy2d sc) s
/-- CPYX (R312). -/
def execWCpyx (sc : Scope) (s : State) : Res := copyWord (.wCpyx sc) s
/-- CRCI (R312, R314). -/
def execWCrci (s : State) : Res := copyWord .wCrci s
/-- CRCC (R312, R314). -/
def execWCrcc (sc : Scope) (last : Bool) (s : State) : Res := copyWord (.wCrcc sc last) s

/-- CPYG (R312): the table of granule addresses is read, and then its granules move. -/
def execWCpyg (sc : Scope) (s : State) : Res :=
  inWord (.wCpyg sc) 3 s fun c =>
    let tab := (c.stk.getD 2 0).toNat
    let dst := (c.stk.getD 1 0).toNat
    let n := (c.stk.headD 0).toNat
    if n = 0 ∨ n > 4096 then wordFault .illegalWord s
    else
      let reads := (upto (8 * n)).map fun i => (tab + i) % 2 ^ 64
      let table (ps : List (Nat × Tlb)) (t : State) : List Nat :=
        (upto n).map fun k => leNat ((upto 8).map fun i => engByte 0 ps t ((tab + 8 * k + i) % 2 ^ 64))
      let go := engAccess c reads [] s fun ps _ t =>
        let from_ := table ps t
        if from_.any fun a => a % 256 != 0 then engFault .illegalWord t
        else match beginCopy c (CopyJob.plain sc 3 (from_.mapIdx fun k a => ⟨.va a, .va ((dst + 256 * k) % 2 ^ 64), 256⟩)) t with
          | .next u => u
          | _ => t
      .next go

end Sys2Proof.Machine
end

