-- ==== Sys2Proof/Machine/LatticeEvents.lean ====
section
/-!
DEFINITION. The exchange of lattice cells between dies (R164) and between chips (R165, R166, R428), the schedule that the driver writes
(R379), CLRSLOT (R381), and the host's lattice window (R375, R376).
-/
namespace Sys2Proof.Machine

-- Package exchange.
/-- EXCHANGE_ROUND (R164): every pair of the round swaps its dirty cells, and each side joins what it receives; after the last round of the
cycle an accepted schedule takes effect (R379). -/
def execEvExchangeRound (s : State) : Res :=
  if !s.island.cpres then .next s
  else
    let s1 := (pairsOf s.pkg.xsched[Fin.ofNat 8 s.pkg.round]).foldl (fun t p => State.exchangeHalf s p.2 p.1 (State.exchangeHalf s p.1 p.2 t)) s
    let last := decide (s.pkg.round ≥ bits 2 0 s.pkg.xctl.toNat)
    let load (g : PkgRegs) : PkgRegs :=
      let h := g.xpend.foldl (fun (g : PkgRegs) w => if w.1 = 8 then { g with xctl := w.2 } else { g with xsched := vput g.xsched (Fin.ofNat 8 w.1) w.2 }) g
      { h with xpend := [], round := 0 }
    .next { s1 with pkg := if last then load s1.pkg else { s1.pkg with round := s1.pkg.round + 1 } }

/-- A schedule register that R379 allows: dies up to 9, no pair of a die with itself, no die twice in the round. -/
def schedOk (v : Word) : Bool :=
  let ds := (pairsOf v).flatMap fun p => [p.1, p.2]
  ds.all (fun d => decide (d ≤ 9)) && ds.eraseDups.length == ds.length

/-- XSCHED_WRITE (R379): XSCHEDr, or with no r XSCHEDCTL; in effect from the next schedule cycle. -/
def execEvXschedWrite (r : Option (Fin 8)) (v : BitVec 64) (s : State) : Res :=
  let put (k : Nat) (w : Word) : Res := .next { s with pkg := { s.pkg with xpend := s.pkg.xpend ++ [(k, w)] } }
  match r with
  | some i => if schedOk v then put i.val (v &&& 0xFFFFFFFFFF#64) else .next (s.refusedWrite (regOff 40 (0x821 + i.val)) v.toNat)
  | none => if wf_ 15 8 v = 0 then .next (s.refusedWrite (regOff 40 0x820) v.toNat) else put 8 (v &&& 0xFF07#64)

-- System exchange.
/-- Cells taken in order while they fit in a number of bytes. -/
def takeCells : Nat → List (Nat × List Byte) → List (Nat × List Byte)
  | _, [] => []
  | room, c :: cs => if c.2.length ≤ room then c :: takeCells (room - c.2.length) cs else []

/-- The cells in packets of at most 256 bytes (R425). -/
def cellPackets : Nat → List (Nat × List Byte) → List (List (Nat × List Byte))
  | 0, _ => []
  | k + 1, cs => match takeCells 256 cs with
    | [] => []
    | now => now :: cellPackets k (cs.drop now.length)

/-- SYSTEM_EXCHANGE_ROUND (R428, R419): on the acting port, up, the status flit, and up to 2,048 bytes of the system-scope cells that are
dirty with respect to the neighbour, when its compute is present. -/
def execEvSystemExchangeRound (s : State) : Res :=
  let k := s.at_.port
  let p := s.island.ports[k]
  if s.island.state = .off ∨ p.lstate ≠ 2 then .next s
  else
    let here := s.island.state == .attached && s.island.cpres
    let dest := s.island.neighbour k
    let s1 := s.onPort k fun q => { q with sent := q.sent ++ [⟨s.island.me, dest, false, [], [], .status here⟩] }
    if !here || !p.ncpres then .next s1
    else
      let mine := byCell (fun x : Nat × Nat × Nat => (x.2.1, x.2.2)) (s.sysDirty.filter fun x => x.1 == k.val)
      let cells := mine.filterMap fun x => (s.slotRec x.2.1).map fun r =>
        (latBase + 65536 * x.2.1 + x.2.2, leBytes (latSize r.ltype.toNat) (s.latGet 0 x.2.1 x.2.2 r.ltype.toNat))
      let go := takeCells 2048 cells
      let gone (x : Nat × Nat × Nat) : Bool := x.1 == k.val && go.any fun c => c.1 == latBase + 65536 * x.2.1 + x.2.2
      let s2 : State := { s1 with sysDirty := s1.sysDirty.filter fun x => !(gone x) }
      .next ((cellPackets go.length go).foldl (fun t cs => t.emit k ⟨s.island.me, dest, true, [], [], .cells cs⟩) s2)

-- CLRSLOT.
/-- CLRSLOT (R381, R157): a slot's cells go to bottom on every die, and its type and scope are recorded; a reserved type is refused. The
command's ASID field, the acting one, names nothing but is logged with it. -/
def execEvClrslot (j : Fin 64) (ltype : BitVec 4) (lscope : Bool) (s : State) : Res :=
  let arg := j.val + ltype.toNat * 64 + (if lscope then 1024 else 0)
  ctxCmd 3 s.at_.asid.val arg s (
    if ltype.toNat > 7 then ctxRefuse 3 s.at_.asid.val arg s
    else .next { s.ctxDone 0 with
      lat := s.lat.filter fun c => c.slot != j.val
      dirty := s.dirty.filter fun x => x.2.2.1 != j.val
      carried := s.carried.filter fun x => x.2.2.1 != j.val
      sysDirty := s.sysDirty.filter fun x => x.2.1 != j.val
      slots := (s.slots.filter fun r => r.slot != j.val) ++ [⟨j.val, ltype, lscope⟩] })

-- The lattice window.
/-- The unit that translates for the host's windows (log entry 22). -/
def hostUnit : Nat := 898

/-- A host access that reaches a register or cell window (R372): 8 bytes aligned, or in the lattice window 64 bytes aligned to 64. -/
def hostShape (off len : Nat) : Bool := (len == 8 && off % 8 == 0) || (len == 64 && off % 64 == 0)
/-- How a host-access error names its place (R390; log entry 55): the BAR above the offset. -/
def hostLoc (bar off : Nat) : Nat := bar * 2 ^ 56 + off
/-- What a host read returns. -/
def State.hostReads (bs : List Byte) (s : State) : State := { s with hostOut := bs }

/-- A refused lattice write (R167, R375, R390), in the context's fault queue, or ASID 0's where it is not active. -/
def State.refusedCell (a : Fin 64) (off cell offered : Nat) (s : State) : State :=
  s.faultRec (if (s.ctxs[a]).active then a else 0) 0x25 0 0xFF 0xFF 0xFF 0 0 (BitVec.ofNat 64 off) (BitVec.ofNat 64 cell) (BitVec.ofNat 64 offered) 0

/-- What a host access to a window slot comes to: the lattice page that the slot is bound to, a refusal, or a wait for XRETRY. -/
inductive WindowPage where
  | page (t : Tlb) (s : State)
  | refused (s : State)
  | held (s : State)

/-- The lattice page that a window slot is bound to (R375, R380), if it translates and allows the access (R383). A walk that finds none posts a
request, and the host's access waits for XRETRY, as it does for a migrating page and behind an access that waits (R386; log entry 104). -/
def windowPage (a : Fin 64) (slot : Nat) (write : Bool) (i : Instr) (s : State) : WindowPage :=
  let va := (s.ctxs[a]).lwin.getD (slot - 1) 0
  let keep (mig : Bool) (s : State) : WindowPage := .held { s with hostHeld := s.hostHeld ++ [(a.val, mig, i)] }
  if va = 0 then .refused s
  else if s.hostHeld.any fun h => h.1 == a.val then keep true s
  else match xlate hostUnit {} a va s with
    | (.ok t, s1) => if t.tt = 4 ∧ (if write then t.w else t.r) then .page t s1 else .refused s1
    | (.unmapped, s1) => keep false (s1.post ⟨a, 0xFF, 0xFF, 0xFF, 0, 0, va, if write then 1 else 0⟩)
    | (.migrating _, s1) => keep true s1
    | (_, s1) => .refused s1

/-- A host write to a cell of a context's launch page (R376): a checked store to LSEQ or LDONE; every other cell refuses it. -/
def storeLaunchCell (a : Fin 64) (woff i v : Nat) (s : State) : State :=
  let c := s.ctxs[a]
  let old := (launchCell c (8 * i)).toNat
  if i ≥ 2 ∨ v < old then s.refusedCell a woff old v
  else s.onCtx a fun c => if i = 0 then { c with lseq := BitVec.ofNat 64 v } else { c with ldone := BitVec.ofNat 64 v }

/-- A host write to a cell of a lattice page: a checked store at die 0's replica, at system scope (R167, R375). -/
def storeHostCell (a : Fin 64) (t : Tlb) (woff off v : Nat) (s : State) : State :=
  let lt := t.ltype.toNat
  let slot := (t.pa - latBase) / 65536
  let old := s.latGet 0 slot off lt
  if latJoin lt old v = v then (if old = v then s else (s.latPut 0 slot off lt v).markDirty 0 slot off)
  else s.refusedCell a woff (old % 2 ^ 64) (v % 2 ^ 64)

/-- LATTICE_WINDOW_WRITE (R375, R376): whole cells, one or eight. -/
def execEvLatticeWindowWrite (off : BitVec 26) (bytes : List Byte) (s : State) : Res :=
  let o := off.toNat
  let a : Fin 64 := Fin.ofNat 64 (bits 25 20 o)
  let slot := bits 19 16 o
  let at0 := bits 15 0 o
  let cell (size i : Nat) : Nat := leNat ((bytes.drop (size * i)).take size)
  let refuse (s : State) : Res := .next (s.refusedCell a o 0 (cell 8 0))
  if !s.hostUp then .next s
  else if !(hostShape o bytes.length) then .next (s.hostError (hostLoc 2 o) true)
  else if !((s.ctxs[a]).active) then refuse s
  else if slot = 0 then .next ((upto (bytes.length / 8)).foldl (fun s i => storeLaunchCell a (o + 8 * i) (at0 / 8 + i) (cell 8 i) s) s)
  else match windowPage a slot true (.evLatticeWindowWrite off bytes) s with
    | .refused s1 => refuse s1
    | .held s1 => .next s1
    | .page t s1 =>
      let size := latSize t.ltype.toNat
      if bytes.length < size then refuse s1
      else .next ((upto (bytes.length / size)).foldl (fun s i => storeHostCell a t (o + size * i) (at0 + size * i) (cell size i) s) s1)

/-- LATTICE_WINDOW_READ (R375): the bytes of die 0's replica; a refused read returns zeros and is logged. -/
def execEvLatticeWindowRead (off : BitVec 26) (len : Nat) (s : State) : Res :=
  let o := off.toNat
  let a : Fin 64 := Fin.ofNat 64 (bits 25 20 o)
  let slot := bits 19 16 o
  let at0 := bits 15 0 o
  if !s.hostUp then .next s
  else if !(hostShape o len) then .next ((s.hostError (hostLoc 2 o) false).hostReads (List.replicate len 0xFF))
  else if !((s.ctxs[a]).active) then .next ((s.refusedCell a o 0 0).hostReads (List.replicate len 0))
  else if slot = 0 then
    .next (s.hostReads ((upto (len / 8)).flatMap fun i => leBytes 8 (launchCell s.ctxs[a] (at0 + 8 * i)).toNat))
  else match windowPage a slot false (.evLatticeWindowRead off len) s with
    | .refused s1 => .next ((s1.refusedCell a o 0 0).hostReads (List.replicate len 0))
    | .held s1 => .next s1
    | .page t s1 => .next (s1.hostReads ((upto len).map fun i => s1.latByte 0 t (t.pa + at0 + i)))

end Sys2Proof.Machine
end

