-- ==== Sys2Proof/Machine/Image.lean ====
section
/-!
DEFINITION. The launch unit's reads of virtual memory, kernel images (R363, R364), the loading of engine programs (R366, R367), and the
handles of the TILE section (R365, R337).
-/
namespace Sys2Proof.Machine

/-- What a read by the launch unit comes to: its result; nothing, since it faults or is refused; a walk that finds no page at an address, or one in
migration; or a wait for a sealed page. -/
inductive Got (α : Type) where
  | ok (a : α)
  | bad
  | miss (va : Nat)
  | mig
  | wait

/-- A read, and what follows where it has a result. -/
def Got.andThen {α β : Type} (g : Got α × State) (k : α → State → Got β × State) : Got β × State :=
  match g with
  | (.ok a, t) => k a t
  | (.bad, t) => (.bad, t)
  | (.miss va, t) => (.miss va, t)
  | (.mig, t) => (.mig, t)
  | (.wait, t) => (.wait, t)

/-- The unit that translates for the launch unit (log entry 22). -/
def launchUnit : Nat := 897

/-- The pages of an access by the launch unit for a launch, translated and checked (R129, R383). -/
def unitPages (a : Fin 64) (tag : Word) (write : Bool) : List Nat → State → Got (List (Nat × Tlb)) × State
  | [], s => (.ok [], s)
  | va :: vas, s =>
    match xlate launchUnit { tag := tag } a va s with
    | (.ok t, s1) =>
      if !(if write then t.w else t.r) || decide (t.tt > 5) then (.bad, s1)
      else Got.andThen (unitPages a tag write vas s1) fun ps s2 => (.ok ((va / 65536, t) :: ps), s2)
    | (.migrating _, s1) => (.mig, s1)
    | (.unmapped, s1) => (.miss va, s1)
    | (_, s1) => (.bad, s1)

/-- The pages of an access by the launch unit, which walks again where they reach a sealed frame (R387). -/
def unitAccess (a : Fin 64) (tag : Word) (write : Bool) (vas : List Nat) (s : State) : Got (List (Nat × Tlb)) × State :=
  Got.andThen (unitPages a tag write (pagesOf vas) s) fun ps t =>
    if (placesOf ps vas).any t.sealed then (.wait, { t with tlb := t.tlb.filter fun e => e.unit != launchUnit }) else (.ok ps, t)

/-- A byte as a unit on die 0 reads it. -/
def State.unitByte (s : State) (t : Tlb) (va : Nat) : Byte :=
  let p := placeIn t va
  if t.tt = 4 then s.latByte 0 t p.2 else s.readByte { group := 0 } p.1 p.2

/-- `n` bytes read from a virtual address of a context for a launch; what the code corrects there counts (R401). -/
def State.readVirt (a : Fin 64) (tag : Word) (va n : Nat) (s : State) : Got (List Byte) × State :=
  let vas := (upto n).map fun i => (va + i) % 2 ^ 64
  Got.andThen (unitAccess a tag false vas s) fun ps t =>
    (.ok (vas.map fun x => match entryOf ps x with | some e => t.unitByte e x | none => blank),
      if t.weak = [] then t else t.correctAt (placesOf ps vas))

/-- A request for a page that the launch unit misses (R386), for a launch. -/
def State.postUnit (a : Fin 64) (tag : Word) (va kind : Nat) (s : State) : State := s.post ⟨a, 0xFF, 0xFF, 0xFF, 0, tag, va, kind⟩

-- Images.
/-- A section entry (R363). -/
structure Sec where
  ty : Nat
  align : Nat
  engines : Nat
  off : Nat
  size : Nat
  deriving DecidableEq, Repr

/-- The section entry in 32 bytes. -/
def secOf (bs : List Byte) : Sec :=
  let f (o n : Nat) : Nat := leNat ((bs.drop o).take n)
  ⟨f 0 1, f 1 1, f 4 4, f 8 8, f 16 8⟩

/-- The section table of an image, with its MAGIC, VERSION and NSEC checked (R363, R378). -/
def State.sections (a : Fin 64) (tag : Word) (img : Nat) (s : State) : Got (List Sec) × State :=
  Got.andThen (s.readVirt a tag img 32) fun h s1 =>
    let nsec := leNat ((h.drop 6).take 2)
    if leNat (h.take 4) ≠ 0x494A584B ∨ leNat ((h.drop 4).take 2) ≠ 1 ∨ nsec = 0 ∨ nsec > 64 then (.bad, s1)
    else Got.andThen (s1.readVirt a tag (img + 32) (32 * nsec)) fun bs s2 => (.ok ((upto nsec).map fun i => secOf (bs.drop (32 * i))), s2)

/-- The least ALIGN of a section type (R364). -/
def leastAlign (ty : Nat) : Nat :=
  match ty with
  | 1 => 6
  | 2 => 1
  | 3 => 1
  | 4 => 4
  | 5 => 5
  | 6 => 16
  | _ => 3

/-- The sections meet their alignments, and CODE, LAUNCH and DATA stand there once, TILE and DESC at most once (R364, R378). -/
def secsOk (img : Nat) (ss : List Sec) : Bool :=
  let count (ty : Nat) : Nat := (ss.filter fun x => x.ty == ty).length
  (ss.all fun x => decide (1 ≤ x.ty) && decide (x.ty ≤ 7) && decide (leastAlign x.ty ≤ x.align) && (img + x.off) % 2 ^ x.align == 0) &&
    count 1 == 1 && count 6 == 1 && count 7 == 1 && decide (count 4 ≤ 1) && decide (count 5 ≤ 1)

/-- The section of a type. -/
def secOfType (ty : Nat) (ss : List Sec) : Option Sec := ss.find? fun x => x.ty == ty

-- Programs.
/-- A section's halfwords. -/
def halfwordsOf (bs : List Byte) : List (BitVec 16) := (upto (bs.length / 2)).map fun k => BitVec.ofNat 16 (leNat ((bs.drop (2 * k)).take 2))

/-- The halfwords of the STREAM and ENTRY sections of an image (R366). -/
def readPrograms (a : Fin 64) (tag : Word) (img : Nat) : List Sec → State → Got (List (Sec × List (BitVec 16))) × State
  | [], s => (.ok [], s)
  | x :: xs, s =>
    if x.ty ≠ 2 ∧ x.ty ≠ 3 then readPrograms a tag img xs s
    else Got.andThen (s.readVirt a tag (img + x.off) (if x.ty = 3 then 256 else Nat.min x.size 8192)) fun bs t =>
      Got.andThen (readPrograms a tag img xs t) fun ps u => (.ok ((x, halfwordsOf bs) :: ps), u)

/-- An entry of an entry table that R288 refuses. -/
def entryBad (w : BitVec 16) : Bool := w != 0xFFFF && bits 13 12 w.toNat != 0

/-- A program section put into the engines that it names (R366). -/
def State.putProgram (n : CoreId) (s : State) (p : Sec × List (BitVec 16)) : State :=
  let put (g : Engine) : Engine := if p.1.ty = 2 then { g with prog := p.2 } else { g with entries := p.2 }
  s.coreUpd n fun k => { k with eng := vall k.eng fun e g => if nbit e.val p.1.engines then put g else g }

/-- No command runs on any engine of a core (R367). -/
def Core.enginesFree (k : Core) : Bool := (List.finRange 27).all fun e => (k.eng[e]).cmd.isNone

/-- The programs of an image. -/
def State.programs (a : Fin 64) (tag : Word) (img : Nat) (s : State) : Got (List (Sec × List (BitVec 16))) × State :=
  Got.andThen (s.sections a tag img) fun ss t => readPrograms a tag img ss t

/-- The programs and entry tables of a core's engines replaced by those of an image, and the core tagged with it (R366, R367). -/
def State.loadPrograms (n : CoreId) (a : Fin 64) (img : Nat) (ps : List (Sec × List (BitVec 16))) (s : State) : State :=
  (ps.foldl (State.putProgram n) (s.coreUpd n fun k => { k with eng := vall k.eng fun _ g => { g with prog := [], entries := [] } })).coreUpd n fun k =>
    { k with imgTag := some (img, a.val) }

-- Static handles.
/-- A record of the TILE section (R364): the handle and what it asks for; `none` for one that TALLOC would refuse in every state. -/
def tileRecOf (bs : List Byte) : Option (Nat × TReq) :=
  let f (o n : Nat) : Nat := leNat ((bs.drop o).take n)
  let x := f 6 1
  let r : TReq := ⟨f 2 2, f 4 2, bits 1 0 x, bits 3 2 x, if bits 3 2 x = 0 then 0 else bits 7 4 x⟩
  let badAcc : Bool := r.level == 2 && (r.esz != 2 || (r.colsm1 + 1) % 16 != 0 || decide (r.colsm1 ≥ 256) || decide (r.rowsm1 ≥ 256))
  if f 0 2 > 1023 ∨ r.colsm1 > 4095 ∨ r.level = 3 ∨ f 7 9 ≠ 0 ∨ badAcc then none else some (f 0 2, r)

/-- The records of the TILE section of an image; none where it has no such section. -/
def State.tileRecs (a : Fin 64) (tag : Word) (img : Nat) (ss : List Sec) (s : State) : Got (List (Option (Nat × TReq))) × State :=
  match secOfType 4 ss with
  | none => (.ok [], s)
  | some x => Got.andThen (s.readVirt a tag (img + x.off) (Nat.min x.size 16384)) fun bs t =>
    (.ok ((upto (bs.length / 16)).map fun i => tileRecOf ((bs.drop (16 * i)).take 16)), t)

/-- The static handles of a launch allocated on a core, in record order, beside those already allocated (R365, R337): `none` where TALLOC would
refuse one, or it is in use. -/
def allocStatics (n : CoreId) (a : Fin 64) : List Nat → List (Nat × TReq) → State → Option State
  | _, [], s => some s
  | done, (h, r) :: rs, s =>
    let fenced := r.level != 0 && (s.tile[tileOf n r.home]).fenced
    if fenced || decide (r.granules > levelTotal s.ctxs[a] r.level) || ((s.cores[n]).tile a.val h).isSome then none
    else match tallocFind r n a s done with
      | some f => allocStatics n a (h :: done) rs (tallocDo r n a (h, f.2) none s)
      | none => none

/-- A launch fault (R378, R390): its record, ARG0 the kind, ARG1 the packet's index. -/
def State.launchFault (a : Fin 64) (tag : Word) (kind idx : Nat) (s : State) : State :=
  s.faultRec a 0x20 0 0xFF 0xFF 0xFF 0 tag (BitVec.ofNat 64 kind) (BitVec.ofNat 64 idx) 0 0

/-- A launch fails with a launch fault (R365, R390). -/
def State.failImage (a : Fin 64) (l : Launch) (kind : Nat) (s : State) : State := (s.launchFault a l.tag kind l.idx).abortLaunch l.lid

/-- A launch's read of its image: what follows where it has its bytes; a launch fault where it faults, or the driver declines its page; else the
launch waits, for XRETRY where a page is not mapped or is migrating (R365, R378, R386). -/
def State.withImageRead {α : Type} (a : Fin 64) (l : Launch) (kind : Nat) (g : Got α × State) (k : α → State → State) : State :=
  match g with
  | (.ok x, t) => k x t
  | (.bad, t) => t.failImage a l kind
  | (.miss va, t) => if l.declined then t.failImage a l kind else (t.postUnit a l.tag va 0).onLaunch l.lid fun l => { l with held := true, asked := true }
  | (.mig, t) => t.onLaunch l.lid fun l => { l with held := true }
  | (.wait, t) => t

/-- The static handles of a launch stand on a core before its first strand starts there (R365): allocated, or the launch fails. -/
def State.placeStatics (n : CoreId) (l : Launch) (s : State) : State :=
  let a : Fin 64 := Fin.ofNat 64 l.asid
  State.withImageRead a l 4 (Got.andThen (s.sections a l.tag l.img) fun ss t => t.tileRecs a l.tag l.img ss) fun rs u =>
    match (if rs.all Option.isSome then allocStatics n a [] (rs.filterMap id) u else none) with
    | some v => v.onLaunch l.lid fun l => { l with statics := l.statics ++ [(n.val, (rs.filterMap id).map Prod.fst)] }
    | none => u.failImage a l 4

/-- The static handles of a launch freed on every core (R365). -/
def State.freeStatics (l : Launch) (s : State) : State :=
  { s with cores := vall s.cores fun n k => { k with tiles := k.tiles.filter fun t =>
      !(l.statics.any fun p => p.1 == n.val && t.1 / 1024 == l.asid && p.2.contains (t.1 % 1024)) } }

end Sys2Proof.Machine
end

