-- ==== Sys2Proof/Machine/Saving.lean ====
section
/-!
DEFINITION. A core's context saved at a halt and put back (R223, R333 to R335, R388, R389, R414): what is taken from the core, the bytes of
the save area, the scratchpad given up to another context, and the context as it resumes.
-/
namespace Sys2Proof.Machine

-- Live and dead registers (R223).
/-- A scalar that the halt's SAFE marks dead; s0 never is. -/
def Cluster.deadS (c : Cluster) (r : Nat) : Bool := match c.safeLive with
  | none => false
  | some (_, m) => r != 0 && !(m.getLsbD (r / 8))
/-- A vector register that the halt's SAFE marks dead: under the name that reaches it at that line. -/
def Cluster.deadV (c : Cluster) (p : Nat) : Bool := match c.safeLive with
  | none => false
  | some (m, _) => (List.finRange 48).any fun r => (rotReg c.rrb r).val == p && !(m.getLsbD (r.val / 2))

/-- What a resumed cluster waits for: a held translation or a refused port is tried anew with its line, and an LWAIT tests anew against its
deadline (R161, R335). -/
def Hold.wake : Hold → Hold
  | .translation _ _ _ _ => .none
  | .port => .none
  | .lwait d va thr a _ _ => .lwait d va thr a Option.none Option.none
  | h => h

/-- A cluster as it resumes (R223, R335, R344, R348): its dead registers are undefined, its drought count starts again, its return stack is
empty, and it presents its line. -/
def Cluster.wake (stamp : Nat) (c : Cluster) : Cluster :=
  { c with
    s := Vector.ofFn fun i => if c.deadS i.val then Config.deadReg stamp i.val else c.s[i]
    v := Vector.ofFn fun i => if c.deadV i.val then Vector.ofFn fun l : Fin 128 => Config.deadLane stamp i.val l.val else c.v[i]
    halted := false, safeLive := none, drought := 0, dfired := false, hold := c.hold.wake, rstk := [], age := Vector.replicate 4 0, refused := 0, got := 0 }

-- The save area (R388).
/-- The bytes of a save area (R388). -/
def Ctx.saveSize (c : Ctx) : Nat := if c.flags.getLsbD 0 then 0x2C78000 else 0x478000
/-- The save area of a priority on a core. -/
def Ctx.saveAddr (c : Ctx) (n pri : Nat) : Nat := c.savebase + (4 * n + pri) * c.saveSize

/-- Registers of 8 bytes, or longer values, at their places. -/
def State.putAt (base : Nat) (xs : List (Nat × List Byte)) (s : State) : State := xs.foldl (fun s x => s.putPhys (base + x.1) x.2) s

/-- A vector register's bytes. -/
def vecBytes (v : VecReg) : List Byte := (vlist v).flatMap fun x => leBytes 4 x.toNat

/-- A cluster's part of the save area, where R388 fixes the place of a value; dead registers are not written (log entry 29). -/
def Cluster.saved (c : Cluster) : List (Nat × List Byte) :=
  ((List.finRange 64).filter fun r => !(c.deadS r.val)).map (fun r => (8 * r.val, leBytes 8 (c.s[r]).toNat)) ++
  (List.finRange 8).map (fun r => (0x300 + 16 * r.val, leBytes 16 (c.m[r]).toNat)) ++
  [(0x400, vecBytes c.la.val), (0x600, vecBytes c.lb.val), (0x800, vecBytes c.lc.val)] ++
  ((List.finRange 48).filter fun r => !(c.deadV r.val)).map (fun r => (0x5200 + 512 * r.val, vecBytes c.v[r])) ++
  (List.finRange 128).map (fun l => (0xB200 + 4 * l.val, leBytes 4 (c.sr[l]).toNat))

/-- A queue's entries that leave with a record's context (R334): its commands, and wait entries; the copies that a running helper's
command placed stay. -/
def QEnt.saves (lid seq : Nat) : QEnt → Bool
  | .wait _ => true
  | .cmd c => c.lid == lid && c.seq == seq
  | .placed _ _ _ => false

/-- The parts of the save area whose contents R388 names without fixing their layout (log entry 29): the header, the bits and events, a
cluster's small registers, its side-log entries, the replay buffer, and the queued commands that are there. -/
def Core.openParts (k : Core) (r : Run) : List (Nat × Nat) :=
  [(0, 256), (0x900, 1792), (0x31000, 0x21000)] ++
  ((List.finRange 4).flatMap fun i => [(0x1000 + 0xC000 * i.val + 0x200, 256), (0x1000 + 0xC000 * i.val + 0xA00, 576 * (k.clu[i]).slog.length)]) ++
  (List.finRange 27).map fun e => (0x52000 + 256 * e.val, 32 * ((k.eng[e]).queue.filter (QEnt.saves r.lid r.seq)).length)

/-- Parts of a save area written with free values (log entry 29). -/
def State.writeOpen (base : Nat) (parts : List (Nat × Nat)) (s : State) : State :=
  ({ s with fresh := s.fresh + 1 } : State).putAt base (parts.map fun p => (p.1, (upto p.2).map fun i => Config.saveByte s.fresh (p.1 + i)))

/-- The save area of a core's context written (R388, R389): its values at the places that R388 fixes, free values in the rest, up to the tile
table. -/
def State.writeSave (base : Nat) (k : Core) (r : Run) (s : State) : State :=
  let ks := (upto 256).filterMap fun a => (kRead k k.clu[(0 : Fin 4)] a).map fun w => (0x100 + 8 * a, leBytes 8 w.toNat)
  let cs := (List.finRange 4).flatMap fun i => (k.clu[i]).saved.map fun x => (0x1000 + 0xC000 * i.val + x.1, x.2)
  (s.writeOpen base (k.openParts r)).putAt base (ks ++ cs)

-- Taking the context from the core.
/-- What is saved of a core's context (R334, R388, R414). -/
def Core.context (k : Core) (r : Run) (pri : Nat) (debug : Bool) : Saved where
  run := r
  pri := pri
  asid := k.asid
  clusters := k.clu
  numctl := k.numctl
  fpstat := k.fpstat
  memdef := k.memdef
  agectl := k.agectl
  unpk := k.unpk
  tvec := k.tvec
  xb := k.xb
  cc := k.cc
  cck := k.cck
  f := k.f
  marks := (vlist k.eng).map Engine.mark
  credits := (vlist k.eng).map Engine.credits
  queues := (vlist k.eng).map fun g => g.queue.filter (QEnt.saves r.lid r.seq)
  posns := (vlist k.eng).map Engine.posn
  crcs := (vlist k.eng).map fun g => g.crc.filter fun p => p.1 == k.asid
  arrays := (vlist k.eng).map fun g => (g.desc, g.bank0, g.bank1, g.active)
  recorded := ⟨0, 0, [], 0, []⟩
  debug := debug
  given := false

/-- The core once its context is saved: no strand, queues without the record's entries, no queue stopped (R334). -/
def Core.without (k : Core) (r : Run) : Core :=
  { k with
    clu := Vector.replicate 4 Cluster.reset, run := none, preReq := false, pstop := false, dbgHalted := false, haltd := k.dbgHalted
    xb := Xbar.reset
    eng := vall k.eng fun _ g => { g with
      queue := g.queue.filter fun q => !(q.saves r.lid r.seq), stopped := false, mark := false, credits := 0 } }

-- Giving up the scratchpad to another context (R389).
/-- The offset of a byte of a core's exposed scratchpad in the save area's last section. -/
def exposedOff (n : CoreId) (c : Ctx) (k : Nat) : Option Nat :=
  let core := coreBase + 8388608 * n.val
  let tile := tileBase + 33554432 * n.val
  if core ≤ k ∧ k < core + 8388608 then (if k - core ≥ 8388608 - c.cexp * 1048576 then some (k - core) else none)
  else if tile ≤ k ∧ k < tile + 33554432 then
    (if (k - tile) % 2097152 ≥ 2097152 - c.texp * 262144 then some (8388608 + (k - tile)) else none)
  else none

/-- The scratchpad byte of such an offset. -/
def exposedAt (n : CoreId) (off : Nat) : Nat :=
  if off < 8388608 then coreBase + 8388608 * n.val + off else tileBase + 33554432 * n.val + (off - 8388608)

/-- The offset of a place in a range of physical addresses, of either HBM window. -/
def placeOff (base size k : Nat) : Option Nat :=
  let pa := if base < linTop then k else linTop + ilOfPlace k
  if k < linTop ∧ base ≤ pa ∧ pa < base + size then some (pa - base) else none

/-- The exposed scratchpad of a context copied to its save area. -/
def State.saveExposed (n : CoreId) (c : Ctx) (pri : Nat) (s : State) : State :=
  let base := c.saveAddr n.val pri + 0x478000
  let cells : List (Nat × Byte) := s.mem.filterMap fun x => (exposedOff n c x.1).map fun o => (o, x.2)
  cells.foldl (fun (s : State) (x : Nat × Byte) => s.putPhys (base + x.1) [x.2]) { s with mem := s.mem.filter fun x => (placeOff base 0x2800000 x.1).isNone }

/-- The same copied back. -/
def State.restoreExposed (n : CoreId) (c : Ctx) (pri : Nat) (s : State) : State :=
  let base := c.saveAddr n.val pri + 0x478000
  let cells : List (Nat × Byte) := (s.mem.filterMap fun (x : Nat × Byte) => (placeOff base 0x2800000 x.1).map fun o => (o, x.2)).filter fun (x : Nat × Byte) => (exposedOff n c (exposedAt n x.1)).isSome
  ({ s with mem := s.mem.filter fun x => (exposedOff n c x.1).isNone } : State).putBytes (cells.map fun x => (exposedAt n x.1, x.2))

/-- The scratchpad given up by one saved context: its resident C and T handles are evicted, its tile table and accumulator images written to
the save area, its exposed bytes saved under SAVEX. -/
def State.giveUp (n : CoreId) (s : State) (v : Saved) : State :=
  let a : Fin 64 := Fin.ofNat 64 v.asid
  let hs := ((s.cores[n]).tiles.filter fun t => t.1 / 1024 == v.asid && t.2.res && decide (t.2.level < 2)).map fun t => t.2.h
  let s1 := (hs.foldl (fun s h => s.evict n a h) s).writeOpen ((s.ctxs[a]).saveAddr n.val v.pri) [(0x54000, 0x4000), (0x58000, 16 * 0x42000)]
  let s2 := if (s.ctxs[a]).flags.getLsbD 0 then s1.saveExposed n s.ctxs[a] v.pri else s1
  s2.coreUpd n fun k => { k with saved := k.saved.map fun w => if w.run.lid == v.run.lid && w.run.seq == v.run.seq then { w with given := true } else w }

/-- Before a run of a context, every saved context of another one gives its scratchpad up (R389). -/
def State.makeWay (n : CoreId) (asid : Nat) (s : State) : State :=
  ((s.cores[n]).saved.filter fun v => v.asid != asid && !v.given).foldl (State.giveUp n) s

/-- The handles that must stand before a context's first line (R389): those that engines own; `none` while one finds no room. -/
def restoreHandles (n : CoreId) (a : Fin 64) : List Nat → State → Option State
  | [], s => some s
  | h :: hs, s => match s.reload n a h with
    | some t => restoreHandles n a hs t
    | none => none

/-- A context's scratchpad given back. -/
def State.giveBack (n : CoreId) (v : Saved) (s : State) : Option State :=
  if !v.given then some s
  else
    let a : Fin 64 := Fin.ofNat 64 v.asid
    let s1 := if (s.ctxs[a]).flags.getLsbD 0 then s.restoreExposed n s.ctxs[a] v.pri else s
    let hs := ((s1.cores[n]).tiles.filter fun t => t.1 / 1024 == v.asid && !t.2.res && t.2.owner && decide (t.2.level < 2)).map fun t => t.2.h
    restoreHandles n a hs s1

-- Putting the context back.
/-- What was recorded for a cluster merged into it (R335): replies with their interlocks, and pending traps. -/
def Cluster.merge (ci : CluId) (e : Recorded) (c : Cluster) : Cluster :=
  let c1 := (e.replies.filter fun r => r.1 == ci).foldl (fun (c : Cluster) r =>
    { c with s := if r.2.1.val = 0 then c.s else vput c.s r.2.1 r.2.2, replies := c.replies.filter fun d => d != r.2.1 }) c
  { c1 with pendTrap := c1.pendTrap ++ (e.traps.filter fun t => t.1 == ci).map Prod.snd }

/-- The engines that a context's pending and running handlers hold stopped (R292). -/
def Cluster.stops (c : Cluster) : List Eng := c.stoppedEng.toList ++ c.pendTrap.filterMap BTrap.eng

/-- A context back on its core, the events recorded for it merged, its queued commands ahead of those that stand there (R335). An engine
that still runs one of its commands keeps that command's arrays and CRC. -/
def Core.restore (v : Saved) (stamp : Nat) (k : Core) : Core :=
  let clu := vall v.clusters fun i c => (c.wake (stamp + i.val)).merge i v.recorded
  let stopped := (vlist clu).flatMap Cluster.stops
  let mine (g : Engine) : Bool := match g.cmd with | some c => c.spec.lid == v.run.lid && c.spec.seq == v.run.seq | none => false
  let back (e : Eng) (g : Engine) : Engine :=
    let (d, b0, b1, act) := v.arrays.getD e.val (none, none, none, none)
    let g1 := { g with
      queue := v.queues.getD e.val [] ++ g.queue
      stopped := stopped.contains e
      mark := v.marks.getD e.val false || v.recorded.marks.getLsbD e.val
      credits := v.credits.getD e.val 0
      posn := v.posns.getD e.val 0 }
    if mine g then g1
    else { g1 with desc := d, bank0 := b0, bank1 := b1, active := act
                   crc := v.crcs.getD e.val [] ++ g.crc.filter fun p => p.1 != v.asid }
  { k with
    clu := clu, run := some v.run, asid := v.asid, numctl := v.numctl, fpstat := v.fpstat ||| v.recorded.fp.setWidth 64
    memdef := v.memdef, agectl := v.agectl, unpk := v.unpk, tvec := v.tvec, xb := v.xb, cc := v.cc, cck := v.cck
    f := v.f ||| v.recorded.flags, fSet := 0, fClr := 0, ccSet := 0, ccClr := 0, fpSetNow := 0, kpend := []
    eng := vall k.eng back
    saved := k.saved.filter fun w => !(w.run.lid == v.run.lid && w.run.seq == v.run.seq) }

end Sys2Proof.Machine
end

