-- ==== Sys2Proof/Machine/Dump.lean ====
section
/-!
DEFINITION. DUMP once its cores have halted (R391): the dump buffer's header, the save areas, and the pending-store section.
-/
namespace Sys2Proof.Machine

/-- A store that is not performed at package scope, as the pending-store section shows it (R391). -/
structure PendStore where
  datum : Word
  core : Nat
  clu : CluId
  kind : Nat
  ord : Ord
  scope : Scope
  seq : Nat
  bytes : List (Nat × Byte)
  store : Nat := 0

/-- The order of the section: by datum, then core, then cluster; program order within. -/
def PendStore.le (a b : PendStore) : Bool :=
  decide (a.datum.toNat < b.datum.toNat) ||
    (a.datum == b.datum && (decide (a.core < b.core) || (a.core == b.core && decide (a.clu.val ≤ b.clu.val))))

/-- One entry for each aligned 8-byte piece of a store, in 32 bytes. -/
def PendStore.entries (p : PendStore) : List (List Byte) :=
  let piece (a : Nat) : List Byte :=
    let at_ (i : Nat) : Option Byte := lastWrite (8 * a + i) p.bytes
    let mask := (upto 8).foldl (fun m i => if (at_ i).isSome then m + 2 ^ i else m) 0
    leBytes 8 p.datum.toNat ++ leBytes 8 (8 * a) ++ (upto 8).map (fun i => (at_ i).getD blank) ++ leBytes 1 mask ++ leBytes 1 p.core ++
      leBytes 1 (p.clu.val + 16 * p.kind) ++ leBytes 1 (ordCode p.ord + 8 * scopeCode p.scope) ++ leBytes 4 (p.seq % 65536)
  (p.bytes.map fun b => b.1 / 8).eraseDups.map piece

/-- The stores that a cluster's side log holds. -/
def logged (n : Nat) (c : CluId) (seq : Nat) (log : List SideEntry) : List PendStore :=
  log.filterMap fun e => match e.acc with
    | .store _ bs => some ⟨e.datum, n, c, 0, e.attr.ord, e.attr.scope, seq, bs, 0⟩
    | _ => none

/-- The context of a launch. -/
def State.launchAsid (s : State) (lid : Nat) : Option Nat := (s.launch lid).map Launch.asid

/-- What a core holds of a context: side-logged stores, of saved contexts, of the running strand and of records that took EXIT, and the
staged bytes of records not retired. -/
def State.pendOn (s : State) (a : Nat) (n : CoreId) : List PendStore :=
  let k := s.cores[n]
  let ofClus (seq : Nat) (cs : Vector Cluster 4) : List PendStore := (List.finRange 4).flatMap fun c => logged n.val c seq (cs[c]).slog
  ((k.saved.filter fun v => v.asid == a).flatMap fun v => ofClus v.run.seq v.clusters) ++
  (match k.run with | some r => if k.asid = a then ofClus r.seq k.clu else [] | none => []) ++
  ((k.left.filter fun x => x.asid == a).flatMap fun x => logged n.val x.clu x.seq [x.entry]) ++
  (k.staging.filter fun b => s.launchAsid b.lid == some a).map fun b => ⟨b.datum, n.val, b.clu, 1, b.ord, b.scope, b.seq, [(b.va, b.byte)], b.store⟩

/-- A context's stores in flight. -/
def State.pendFlight (s : State) (a : Nat) : List PendStore :=
  s.inflight.filterMap fun f => match f.who with
    | some r => if s.launchAsid r.1 = some a then
        some ⟨f.datum, f.core.val, f.clu, 2, f.ord, f.scope, r.2, f.bytes.filterMap fun b => (f.names.find? fun p => p.1 == b.1).map (fun p => (p.2, b.2)), f.id⟩
      else none
    | none => none

/-- Staged bytes of one store together. -/
def joinStaged : List PendStore → List PendStore
  | [] => []
  | p :: ps => match joinStaged ps with
    | q :: qs =>
      if p.kind = 1 ∧ q.kind = 1 ∧ p.store = q.store then
        { p with bytes := p.bytes ++ q.bytes } :: qs
      else p :: q :: qs
    | [] => [p]

/-- The pending-store section of a context. -/
def State.pendSection (s : State) (a : Nat) : List Byte :=
  ((sortBy PendStore.le (joinStaged ((List.finRange 32).flatMap (s.pendOn a)) ++ s.pendFlight a)).flatMap PendStore.entries).flatten

/-- The areas of the dumped cores from a place in the buffer on: of each core the area of the record that DUMP halted, if it did not end first,
up to offset 0x5_8000, with the tile table as it stands, whose entries have no stated layout (log entry 29), then the references to the save
slots of the other pre-empted records; where the next section begins. -/
def dumpAreas (a : Fin 64) (buf stamp : Nat) : List (Nat × Nat × Nat) → Nat → State → Nat × State
  | [], at_, s => (at_, s)
  | (n, lid, seq) :: ns, at_, s =>
    let mine := (s.cores[Fin.ofNat 32 n]).saved.filter fun v => v.asid == a.val
    let refsAt (at_ count : Nat) (s : State) : Nat × State :=
      let refs := count * Config.dumpRefSize
      (at_ + refs, s.putPhys (buf + at_) ((upto refs).map fun i => Config.dumpByte stamp (at_ + i)))
    match mine.find? fun v => v.run.lid == lid && v.run.seq == seq with
    | none => let (next, t) := refsAt at_ mine.length s; dumpAreas a buf stamp ns next t
    | some v =>
      let base := (s.ctxs[a]).saveAddr n v.pri
      let cells : List (Nat × Byte) := s.mem.filterMap fun (x : Nat × Byte) => (placeOff base 0x58000 x.1).map fun o => (o, x.2)
      let s1 : State := { s with mem := s.mem.filter fun x => (placeOff (buf + at_) 0x58000 x.1).isNone }
      let s2 := cells.foldl (fun (t : State) (x : Nat × Byte) => t.putPhys (buf + at_ + x.1) [x.2]) s1
      let s3 := s2.putPhys (buf + at_ + 0x54000) ((upto 0x4000).map fun i => Config.dumpByte stamp (at_ + 0x54000 + i))
      let (next, t) := refsAt (at_ + 0x58000) (mine.length - 1) s3
      dumpAreas a buf stamp ns next t

/-- A DUMP whose cores have all halted, or have ended their strands, writes its buffer and is done (R391): the header, whose fields after
the magic stand at no stated place (log entry 56), the areas, and the pending-store section. -/
def State.finishDump (s : State) : State :=
  match s.pkg.dump with
  | none => s
  | some j =>
    if j.cores.any fun n => let k := s.cores[Fin.ofNat 32 n.1]; k.preReq && k.run.any fun r => r.lid == n.2.1 && r.seq == n.2.2 then s
    else
      let stamp := s.fresh
      let head := leBytes 4 0x504D5544 ++ (upto 252).map fun i => Config.dumpByte stamp (4 + i)
      let pend := s.pendSection j.asid.val
      let (at_, s1) := dumpAreas j.asid j.buf stamp j.cores 256 (({ s with fresh := s.fresh + 1 } : State).putPhys j.buf head)
      let s2 := s1.putPhys (j.buf + at_) pend
      ({ s2 with pkg := { s2.pkg with dump := none } } : State).ctxDone 0

/-- A core that a DUMP waits for, or has halted: it resumes nothing until the dump is written (R391). -/
def State.dumping (s : State) (n : CoreId) : Bool := match s.pkg.dump with
  | some j => j.cores.any fun m => m.1 == n.val
  | none => false

end Sys2Proof.Machine
end

