-- ==== Sys2Proof/Machine/EngineEvents.lean ====
section
/-!
DEFINITION. The steps of engine queues: the head that issues, with the checks of R52, R54, R55, R120, R121 and R294 (R43); wait entries
(R369); the cycle bound (R58); a copy's missed promise (R139, R140).
-/
namespace Sys2Proof.Machine

/-- The seed of a command's spot-check sequence (R90). -/
def spotSeed (wid : Word) (n : CoreId) (e : Eng) (pos : Nat) : BitVec 32 :=
  let z := wid.setWidth 32 ^^^ (wid >>> 32).setWidth 32 ^^^ BitVec.ofNat 32 ((16 * n.val + e.val) * 0x9E3779B9) ^^^ BitVec.ofNat 32 (pos * 0x85EBCA6B)
  if z = 0 then 1 else z

/-- A command as it starts (R289). -/
def freshCmd (c : CmdSpec) (n : CoreId) (e : Eng) (ip : Nat) (now : Word) : Cmd where
  spec := c
  ip := ip
  stk := [c.b, c.a]
  rstk := []
  bound := none
  issued := now
  replied := false
  flags := 0
  pend := []
  job := none
  spot := spotSeed c.wid n e c.pos
  conv := 0
  drawn := []
  promise := none
  left := 0
  hops := 0
  copies := 0
  stall := .none
  owner := none
  killed := false

/-- The check of one declared header at issue (R54, R120, R121, R294): the fault it raises, if any. -/
def issueCheck (s : State) (n : CoreId) (e : Eng) (c : CmdSpec) (x : Word) : Option EFault :=
  match hdrOf x with
  | none => some .illegalWord
  | some h =>
    match s.cores[n].tile (s.cmdAsid c) h.h with
    | none => some .owner
    | some t =>
      if !t.owner || (decide (e.val < 16) && decide (0 < t.level) && t.home != e.val) then some .owner
      else if h.row0 + h.rows > t.rows then some .illegalWord
      else if h.swz ≠ 0xFF ∧ !(decide (5 ≤ h.swz) && decide (h.swz ≤ 0xFE)) ∧ t.swz.toNat ≠ h.swz then some .swizzle
      else none

/-- The first fault that a command raises at issue. -/
def issueFaultOf (s : State) (n : CoreId) (e : Eng) (c : CmdSpec) : Option EFault :=
  let g := s.cores[n].eng[e]
  if g.entryAt c.entry = 0xFFFF then some .illegalWord
  else if s.isHelperStrand c then none
  else ((g.marked c.entry c.a c.b).filterMap (issueCheck s n e c)).head?

/-- An earlier overlapping command is not mutually ordered with this one, in a deterministic launch (R52). -/
def State.unordered (s : State) (n : CoreId) (e : Eng) (c : CmdSpec) : Bool :=
  s.detLaunch c && (s.overlapped n e c).any fun p => !(s.ordered n p.2 p.1 c || s.killed n p.1)

/-- One start credit is taken where the engine's gate is controlled (R50). -/
def State.takeCredit (n : CoreId) (e : Eng) (s : State) : State :=
  s.coreUpd n fun k => if k.xb.gates e then { k with eng := vmod k.eng e fun g => { g with credits := g.credits - 1 } } else k

/-- The command at the head leaves the queue and occupies its engine (R41, R289); a copy channel accepts it with its promise (R313). -/
def issueHead (c : CmdSpec) (s : State) : State :=
  let n := s.at_.core
  let e := s.at_.eng
  let cmd := freshCmd c n e (s.eng.entryAt c.entry % 4096) s.cyc
  let s1 := ((s.takeCredit n e).popHead e).onEng fun g => { g with cmd := some cmd }
  let s2 := s1.capture 3 n.val (128 + e.val) (BitVec.ofNat 64 (e.val + 256 * c.pos)) (some c.seq)
  if 16 ≤ e.val ∧ e.val < 20 then
    let (bytes, hops) := bytesAndHops s2.eng c s2 cmd.ip cmd.stk
    let p := promiseOf s2.cyc s2.eng.lastPromise bytes hops
    let s3 := s2.onEng fun g => { g with lastPromise := p, cmd := some { cmd with left := bytes, hops := hops
                                                                                  promise := if c.reply.isSome then some p else none, replied := true } }
    s3.writeReply n c p
  else s2

/-- QUEUE_HEAD_ISSUE (R43). A copy that a helper placed carries no promise, and counts with the one that it would have had (R313). `plumbOk` says that the plumb core's command matches (log entry 8). A mismatch does not issue (R55); a check that
fails raises its fault, and the command does not issue (R292); an earlier overlap that R52 does not order is the unordered-overlap fault. -/
def execEvQueueHeadIssue (plumbOk : Bool) (s : State) : Res :=
  let n := s.at_.core
  let e := s.at_.eng
  match s.headState n e, s.eng.queue with
  | .ready c, _ =>
    if !plumbOk then
      .next ((s.faultRec (Fin.ofNat 64 (s.cmdAsid c)) 0x10 0 n.val c.clu.val e.val c.wid (s.tagOf c.lid) (BitVec.ofNat 64 e.val)
        (BitVec.ofNat 64 c.pos) 0 0).recover c.lid c.seq 0x10)
    else match issueFaultOf s n e c with
      | some f => .next (issueFault f c s)
      | none => .next (issueHead c s)
  | .readyCopy c h j, _ =>
    let total := (j.pieces.map Piece.n).foldl (· + ·) 0
    let s1 := ((s.takeCredit n e).popHead e).onEng fun g => { g with
      lastPromise := promiseOf s.cyc g.lastPromise total (s.copyHops j)
      cmd := some { freshCmd c n e 0 s.cyc with stk := [], job := some (.copy j), replied := true, owner := some h } }
    .next (s1.onFill j fun _ t => { t with infl := true })
  | .busy 0, .cmd c :: _ => .next (if s.eng.cmd.isNone && s.unordered n e c then issueFault .overlap c s else s)
  | _, _ => .next s

/-- WAIT_ENTRY_RELEASE (R254, R369): a wait entry at the head of a queue leaves when its flag is set, and those behind it with theirs. -/
def execEvWaitEntryRelease (s : State) : Res :=
  match s.eng.queue with
  | .wait _ :: _ => .next (s.onEng (Engine.settle s.core.f))
  | _ => .next s

/-- ENGINE_OVERRUN (R58): the command's count exceeds its bound; it is abandoned, its queue stops, and its cluster takes the trap. -/
def execEvEngineOverrun (s : State) : Res :=
  match s.eng.cmd with
  | some c =>
    let flag : Nat := match s.eng.wordAt c.ip with
      | some (.wWaitf f) => if s.cmdFlag s.at_.core c.spec f then 0xFF else f.val
      | _ => 0xFF
    .next (if c.overrun s.cyc && c.atBoundary && c.owner.isNone then
      s.abandon s.at_.core s.at_.eng c.spec c.replied
        { cause := 0x09, a0 := BitVec.ofNat 64 s.at_.eng.val, a1 := BitVec.ofNat 64 c.spec.pos, a2 := BitVec.ofNat 64 flag }
      else s)
  | none => .next s

/-- PROMISE_MISS (R139): CYC has reached the promise of a copy command that has bytes to perform; its cluster takes the trap at its next
boundary, which forms the revised promise anew; with no handler installed it is reported with the one of now. After EXIT nothing is raised. -/
def execEvPromiseMiss (s : State) : Res :=
  match s.eng.cmd with
  | some c => match c.promise with
    | some p =>
      let missed := p.toNat ≤ s.cyc.toNat && (c.unperformed != 0 || c.job.isSome)
      if !missed then .next s
      else
        let s1 := setCmd { c with promise := none } s
        .next (if s.liveOn s.at_.core c.spec || s.savedOn s.at_.core c.spec then
          s1.tellCluster s.at_.core s.at_.eng c.spec {
            cause := 0x08, a0 := BitVec.ofNat 64 s.at_.eng.val, a1 := BitVec.ofNat 64 c.spec.pos, a2 := c.revised s.cyc } false
          else s1)
    | none => .next s
  | none => .next s

end Sys2Proof.Machine
end

