-- ==== Sys2Proof/Machine/Strands.lean ====
section
/-!
DEFINITION. The launch unit's work on records: READY (R17), popping (R22 to R24, R27 to R29), image loads (R365 to R367), the start of a
strand (R30, R360), retirement (R404), pre-emption, halts and resumption (R333 to R335).
-/
namespace Sys2Proof.Machine

-- Readiness and popping.
/-- RECORD_READY (R17): a PENDING record whose JCNT is 0 and whose predecessors have retired becomes READY. -/
def execEvRecordReady (s : State) : Res :=
  match s.recOf s.at_.lid s.at_.seq with
  | some r => .next (if r.state == .pending && s.eligible r then s.toReady r.lid r.seq else s)
  | none => .next s

/-- A READY record that a core may take, or a helper sequencer of it once the core holds its launch's image (R22, R23, R28, R29). -/
def State.suits (s : State) (n : CoreId) (helper : Bool) (r : Rec) : Bool :=
  r.state == .ready && r.helper == helper && (match s.launch r.lid with | some l => l.cmask.getLsbD n.val | none => false) &&
    (helper || !r.det || r.core == some n.val)

/-- A READY record that a core, or a helper sequencer of it, may take (R22): a helper strand under its launch's image only (R23). -/
def State.placeable (s : State) (n : CoreId) (helper : Bool) (r : Rec) : Bool :=
  s.suits n helper r && (!helper || (match s.launch r.lid with | some l => (s.cores[n]).imgTag == some (l.img, l.asid) | none => false))

/-- The order of READY records (R22): by priority, then in the order in which they became READY. -/
def Rec.first (a b : Rec) : Bool := decide (a.pri < b.pri) || (a.pri == b.pri && decide (a.readyStamp < b.readyStamp))

/-- The first of some records. -/
def firstRec (l : List Rec) : Option Rec := l.foldl (fun m r => match m with
    | none => some r
    | some q => if r.first q then some r else some q) none

/-- The READY record that is next on a core, for its class. -/
def State.nextRec (s : State) (n : CoreId) (helper : Bool) : Option Rec := firstRec (s.recs.filter (s.placeable n helper))

/-- A core runs nothing, holds nothing for a debugger, and is present. -/
def State.free (s : State) (n : CoreId) : Bool :=
  let k := s.cores[n]
  s.island.cpres && k.run.isNone && k.popped.isNone && !k.haltd

/-- R24: a core that holds pre-empted records pops only records of a higher priority. -/
def Core.admits (k : Core) (pri : Nat) : Bool := k.saved.all fun v => decide (pri < v.pri)

/-- A core's helper sequencer takes a helper strand (R23): its entry, F and W, W on top, at position 0, since it has no place among the
commands of a core strand (R58). An unset entry is the illegal-word fault. -/
def startHelper (r : Rec) (l : Launch) (n : CoreId) (e : Eng) (s : State) : State :=
  let g := s.cores[n].eng[e]
  let spec : CmdSpec := {
    entry := r.code / 64 % 128, a := BitVec.ofNat 64 r.frame, b := r.wid, clu := 0, reply := none, numctl := l.numctl, iter := [], pos := 0
    wid := r.wid, lid := r.lid, seq := r.seq, run := 0, folio := 0, stamp := (s.cores[n]).stamps + 1, enq := s.cyc, known := [], notAfter := [] }
  let s2 := (s.onRec r.lid r.seq fun r => { r with state := .running, core := some n.val }).coreUpd n fun k => { k with stamps := k.stamps + 1 }
  if g.entryAt spec.entry = 0xFFFF then
    s2.abandon n e spec true { cause := 0x0A, sub := 1, a0 := BitVec.ofNat 64 e.val, a1 := BitVec.ofNat 64 spec.pos, a2 := faultWhere 0xFFFF 0 2 true }
  else
    let s3 := s2.engUpd n e fun g => { g with cmd := some (freshCmd spec n e (g.entryAt spec.entry % 4096) s.cyc) }
    s3.capture 1 n.val (128 + e.val) 0 (some r.seq)

/-- RECORD_POP (R22, R24): the acting core takes the next READY record of its class, or one of its helper sequencers a helper strand, whose
image the core must hold (R23). -/
def execEvRecordPop (helper : Option (Fin 4)) (s : State) : Res :=
  let n := s.at_.core
  match helper with
  | none =>
    (match s.nextRec n false with
    | some r => .next (if s.free n && (s.cores[n]).admits r.pri then
        (s.onRec r.lid r.seq fun r => { r with state := .running, core := some n.val }).coreUpd n fun k => { k with popped := some (r.lid, r.seq) }
        else s)
    | none => .next s)
  | some i =>
    let e : Eng := Fin.ofNat 27 (20 + i.val)
    (match s.nextRec n true with
    | some r => (match s.launch r.lid with
      | some l =>
        let g := s.cores[n].eng[e]
        .next (if s.island.cpres && g.cmd.isNone && g.queue == [] && (s.cores[n]).imgTag == some (l.img, l.asid) then startHelper r l n e s else s)
      | none => .next s)
    | none => .next s)

-- Images.
/-- The launch whose image a core needs next (R367): of the record that it has popped, of the context that it will resume, or, idle, of a
helper strand that waits for it. -/
def State.wantedLaunch (s : State) (n : CoreId) : Option Launch :=
  let k := s.cores[n]
  match k.popped with
  | some p => s.launch p.1
  | none =>
    if k.run.isSome || k.haltd then none
    else match (k.saved.filter fun v => !v.debug && k.saved.all fun w => decide (v.pri ≤ w.pri)).head? with
      | some v => s.launch v.run.lid
      | none => (firstRec (s.recs.filter (s.suits n true))).bind fun r => s.launch r.lid

/-- IMAGE_LOAD (R365 to R367): once no command runs on the core, the programs of the image that it needs are loaded; then the static handles
of the launch are allocated, before its first strand there. -/
def execEvImageLoad (s : State) : Res :=
  let n := s.at_.core
  match s.wantedLaunch n with
  | none => .next s
  | some l =>
    if l.held then .next s
    else if (s.cores[n]).imgTag == some (l.img, l.asid) then
      .next (if (s.cores[n]).popped.isSome && !(l.statics.any fun p => p.1 == n.val) then s.placeStatics n l else s)
    else
      let a : Fin 64 := Fin.ofNat 64 l.asid
      .next (if (s.cores[n]).enginesFree && s.island.cpres then State.withImageRead a l 3 (s.programs a l.tag l.img) (fun ps t => t.loadPrograms n a l.img ps) else s)

-- The start of a strand.
/-- The datum allows a strand to start (R30): a dynamic one from the launch's start datum on; a deterministic one at the first time-step
boundary at or after that, its readiness and the end of the core's last run, or just after a step of the datum past it (R424). -/
def State.mayStart (s : State) (l : Launch) (r : Rec) (lastEnd : Word) : Bool :=
  let d := s.datum.toNat
  if !r.det then decide (l.start.toNat ≤ d)
  else
    let b := d / 2 ^ l.k * 2 ^ l.k
    let least := Nat.max (Nat.max l.start.toNat r.readyDatum.toNat) lastEnd.toNat
    decide (least ≤ b) && (d == b || (match s.island.jumped with
      | some (f, t) => t == s.datum && decide (f.toNat < b)
      | none => false))

/-- For each field of a launch, whether the field above it carries the gang bit and it spreads over this chip (R27). -/
def gangFields : Bool → List LField → List Bool
  | _, [] => []
  | g, f :: fs => (g && f.scope != 0) :: gangFields f.gang fs

/-- The values that the members of one gang share. -/
def Launch.gangKey (l : Launch) (wid : Word) : List Nat :=
  ((fieldVals l.fields wid.toNat).zip (gangFields false l.fields)).filterMap fun p => if p.2 then none else some p.1.2

/-- The members of a gang. -/
def Launch.gangSize (l : Launch) : Nat := ((l.fields.zip (gangFields false l.fields)).filterMap fun p => if p.2 then some p.1.extent else none).foldl (· * ·) 1

/-- What a core has popped and may start now (R30, R365, R367). -/
def State.startable (s : State) (n : CoreId) : Option (Launch × Rec) :=
  let k := s.cores[n]
  match k.popped with
  | none => none
  | some p =>
    match s.launch p.1, s.recOf p.1 p.2 with
    | some l, some r =>
      if s.island.cpres && k.run.isNone && k.imgTag == some (l.img, l.asid) && (l.statics.any fun q => q.1 == n.val) && s.mayStart l r k.lastEnd
      then some (l, r) else none
    | _, _ => none

/-- The cores that start together with one (R27): those of its gang, once every member of the gang is popped and may start, or has started
before; only itself outside a gang. -/
def State.startGroup (s : State) (n : CoreId) : List CoreId :=
  match s.startable n with
  | none => []
  | some (l, r) =>
    if l.gangSize = 1 ∨ !r.member ∨ r.sig.start.isSome then [n]
    else
      let key := l.gangKey r.wid
      let gang := s.recs.filter fun q => q.lid == l.lid && q.member && l.gangKey q.wid == key
      let ready := (List.finRange 32).filter fun m => match s.startable m with
        | some (_, q) => gang.any fun x => x.seq == q.seq && x.lid == q.lid
        | none => false
      let started := (gang.filter fun q => q.sig.start.isSome).length
      if gang.length = l.gangSize ∧ started + ready.length = gang.length then ready else []

/-- A cluster at the start of a run (R360, R72). -/
def startCluster (n : CoreId) (l : Launch) (r : Rec) (numctl : Word) (ci : CluId) : Cluster :=
  let w (i : Fin 64) : Nat := match i.val with
    | 1 => r.frame
    | 2 => r.wid.toNat
    | 3 => r.seq % 65536
    | 4 => l.descBase
    | 5 => l.codeBase
    | 62 => l.stk + n.val * l.sz + (ci.val + 1) * (l.sz / 4)
    | _ => 0
  { Cluster.reset with
    s := Vector.ofFn fun i => BitVec.ofNat 64 (w i)
    pc := BitVec.ofNat 64 r.code
    sr := Vector.ofFn fun lane => srSeed r.wid (lane.val + 128 * ci.val) (wf_ 47 32 numctl) }

/-- An engine at the start of a run (R300, R228): no mark, no credit, no descriptor and no active bank, unless a command of an earlier record
still runs; positions count from where the strand's earlier runs left them (R58; log entry 140). -/
def Engine.begin_ (posn : Nat) (g : Engine) : Engine :=
  let g1 := { g with mark := false, credits := 0, posn := posn, stopped := false }
  if g.cmd.isSome then g1 else { g1 with desc := none, active := none }

/-- THE START OF A RUN on a core (R360, R32, R69): every register at its value, NUMCTL and FPSTAT kept after a YIELD. -/
def startRun (n : CoreId) (l : Launch) (r : Rec) (s : State) : State :=
  let numctl := match r.held with | some h => h.1 | none => l.numctl
  let fp := match r.held with | some h => h.2 | none => 0
  let s1 := (s.makeWay n l.asid).coreUpd n fun k => { k with
    clu := Vector.ofFn fun ci => startCluster n l r numctl ci
    eng := vall k.eng fun e g => g.begin_ (r.posns.getD e.val 0)
    numctl := numctl, fpstat := fp, memdef := 0x40, agectl := 0x0FF55, unpk := Vector.replicate 4 0, tvec := l.tvec, xb := Xbar.reset
    cc := 0, ccSet := 0, ccClr := 0, cck := Vector.replicate 16 (Vector.replicate 4 0), fpSetNow := 0, exNow := [], kpend := []
    asid := l.asid, popped := none, runs := k.runs + 1
    run := some { lid := r.lid, seq := r.seq, wid := r.wid, runId := k.runs + 1, startDatum := s.datum
                  notAfter := k.saved.map fun v => v.run.runId } }
  let s2 := s1.onRec r.lid r.seq fun r => { r with
    state := .running, core := some n.val, sig := if r.sig.start.isNone then { r.sig with start := some numctl } else r.sig }
  let s3 := s2.onLaunch l.lid fun l => { l with started := (match l.started with | some d => some d | none => some s.datum) }
  s3.capture 1 n.val 0 0

/-- STRAND_START (R30): the acting core, and the cores of its gang with it, begin the runs that they have popped. -/
def execEvStrandStart (s : State) : Res :=
  .next ((s.startGroup s.at_.core).foldl (fun t n => match s.startable n with
    | some (l, r) => startRun n l r t
    | none => t) s)

-- Launches feed their members (R15, R22, R29).
/-- Members of a launch: the values of its system-scope fields are spread over the chips of its set (R28, R29). -/
def sysTotal (fs : List LField) : Nat := ((fs.filter fun f => f.scope == 0).map LField.extent).foldl (· * ·) 1
def localTotal (fs : List LField) : Nat := ((fs.filter fun f => f.scope != 0).map LField.extent).foldl (· * ·) 1

/-- The members that run on this chip: those whose system-scope value leaves the chip's position, modulo the chips (R28). -/
def memberCount (fs : List LField) (nchips pos : Nat) : Nat := ceilDiv (sysTotal fs - pos) nchips * localTotal fs

/-- The WID whose field values have a mixed-radix value (R25). -/
def widOf : List LField → Nat → Nat
  | [], _ => 0
  | f :: fs, m =>
    let rest := (fs.map LField.extent).foldl (· * ·) 1
    m / rest % f.extent * 2 ^ (fs.map LField.width).foldl (· + ·) 0 + widOf fs (m % rest)

/-- The m-th member of this chip, in increasing order. -/
def Launch.memberWid (l : Launch) (m : Nat) : Word :=
  let t := localTotal l.fields
  BitVec.ofNat 64 (widOf l.fields ((l.chipPos + l.nchips * (m / t)) * t + m % t))

/-- The image of a launch-created member (R377). -/
def Launch.memberImage (l : Launch) (m : Nat) : Image where
  w0 := l.memberWid m
  w1 := BitVec.ofNat 64 (l.code0 / 64 * 16384)
  w2 := BitVec.ofNat 64 (l.frame / 64 * 16384)
  w3 := BitVec.ofNat 64 (bits 1 0 l.flags.toNat * 64)
  ext := []

/-- A launch may push (R376): it has members left; every earlier launch of its ASID has started a strand here, or has none here to start,
and with SERIAL has completed. -/
def State.mayFeed (s : State) (l : Launch) : Bool :=
  !l.done && decide (l.nextMember < l.members) &&
    s.launches.all fun e => e.asid != l.asid || decide (l.idx ≤ e.idx) || e.done || (!(l.flags.getLsbD 3) && (e.started.isSome || e.members == 0))

/-- Members of a launch pushed while the window and the ring take them, at most `fuel` (R15, R379). -/
def feed (lid : Nat) : Nat → State → State
  | 0, s => s
  | k + 1, s => match s.launch lid with
    | some l => if s.mayFeed l && s.mayPush l (bits 1 0 l.flags.toNat) then
        feed lid k ((s.pushRec l (l.memberImage l.nextMember) (!l.dyn) true).onLaunch lid fun l => { l with nextMember := l.nextMember + 1 })
      else s
    | none => s

/-- Every launch, in ring order, pushes what it may. -/
def State.feedAll (s : State) : State :=
  s.launches.foldl (fun t l => feed l.lid 1024 t) { s with iss := { s.iss with spawns := 0 } }

-- Retirement.
/-- Something of a record is still outstanding on a core (R17, R21, R23, R232): commands, copies, side-logged accesses, stores in flight. -/
def State.outstanding (s : State) (n : CoreId) (lid seq : Nat) : Bool :=
  let k := s.cores[n]
  k.hasQueued lid seq || k.hasRunning lid seq || (k.left.any fun x => x.lid == lid && x.seq == seq) ||
    (List.finRange 27).any fun e => (k.eng[e]).queue.any fun q => match q with
      | .placed c _ _ => c.lid == lid && c.seq == seq
      | _ => false

/-- A CRC-64 with the XZ parameters over 64-bit words (R83). -/
def crc64Bits : Nat → BitVec 64 → BitVec 64
  | 0, x => x
  | k + 1, x => crc64Bits k (if x.getLsbD 0 then (x >>> 1) ^^^ 0xC96C5795D7870F42#64 else x >>> 1)
def crc64 (ws : List Word) : Word :=
  (ws.flatMap fun w => leBytes 8 w.toNat).foldl (fun c b => crc64Bits 8 (c ^^^ b.setWidth 64)) (BitVec.allOnes 64) ^^^ BitVec.allOnes 64

/-- RECORD_RETIRE (R404, R21): a DRAINING record with nothing outstanding puts its staged writes in flight, and once its last store has
performed it retires: the release LJOINs that waited are applied, its launch keeps its flags, counts a member with its signature, and records
that have become READY note it (R80, R83, R381, R406). -/
def execEvRecordRetire (s : State) : Res :=
  let lid := s.at_.lid
  let seq := s.at_.seq
  match s.recOf lid seq with
  | none => .next s
  | some r =>
    let n : CoreId := Fin.ofNat 32 (r.core.getD 0)
    if r.state != .draining || ((List.finRange 32).any fun m => s.outstanding m lid seq) then .next s
    else if (s.cores[n]).staging.any fun b => b.lid == lid && b.seq == seq then .next (s.drainStaged n lid seq)
    else if s.inflight.any fun f => f.who == some (lid, seq) then .next s
    else
      let s1 := s.applyJoins n lid seq
      let note (x : Rec) : Rec :=
        if x.lid == lid && x.seq == seq then { x with state := .retired }
        else if x.lid == lid && x.state != .pending && x.state != .retired && x.state != .lost then
          { x with retiredSince := x.retiredSince ++ [seq] }
        else x
      let s2 : State := { s1 with recs := s1.recs.map note }
      let s3 := s2.onLaunch lid fun l => { l with
        nret := l.nret + (if r.member then 1 else 0), ended := if r.member then s.datum else l.ended, fp := l.fp ||| r.fp
        sigs := if r.member then l.sigs ++ [(r.wid, crc64 r.sig.words)] else l.sigs }
      .next s3.feedAll

-- Pre-emption.
/-- PREEMPTION_REQUEST (R333): the launch unit asks for the acting core when a record of a higher priority than the running one is ready
for it. -/
def execEvPreemptionRequest (s : State) : Res :=
  let n := s.at_.core
  match s.core.run with
  | none => .next s
  | some r =>
    match s.recOf r.lid r.seq, s.nextRec n false with
    | some x, some y => .next (if y.pri < x.pri then s.onCore fun k => { k with preReq := true } else s)
    | _, _ => .next s

/-- CORE_HALT (R333, R334): all four clusters have halted; the context is saved, its area written, and the record is PREEMPTED. A halt for
the debugger holds the core until CCTL.RESUME (R329). A DUMP that waited for this halt is written (R391). -/
def execEvCoreHalt (s : State) : Res :=
  let n := s.at_.core
  let k := s.core
  match k.run with
  | none => .next s.finishDump
  | some r =>
    if !((List.finRange 4).all fun c => (k.clu[c]).halted) then .next s.finishDump
    else match s.recOf r.lid r.seq with
      | none => .next s
      | some x =>
        let s1 := s.drainAll.coreUpd n Core.endCycle
        let k1 := s1.cores[n]
        let s2 := s1.writeSave ((s.ctxs[s.asid]).saveAddr n.val x.pri) k1 r
        let s3 := s2.coreUpd n fun k => { k.without r with saved := k.saved ++ [k1.context r x.pri k.dbgHalted] }
        .next (s3.onRec r.lid r.seq fun r => { r with state := .preempted }).finishDump

/-- RESUME (R24, R335, R389): the acting core, idle, resumes its pre-empted record of the highest priority when no record of a higher one
is placeable on it, under the image of its launch. -/
def execEvResume (s : State) : Res :=
  let n := s.at_.core
  let k := s.core
  match (k.saved.filter fun v => k.saved.all fun w => decide (v.pri ≤ w.pri)).head? with
  | none => .next s
  | some v =>
    let tag := match s.launch v.run.lid with | some l => some (l.img, l.asid) | none => none
    let higher := match s.nextRec n false with | some r => decide (r.pri < v.pri) | none => false
    if !(s.free n) || s.dumping n || v.debug || higher || tag != k.imgTag then .next s
    else match (s.makeWay n v.asid).giveBack n v with
      | none => .next s
      | some t =>
        let t1 := { t with fresh := t.fresh + 4 }.coreUpd n (Core.restore v t.fresh)
        .next (t1.onRec v.run.lid v.run.seq fun r => { r with state := .running })

end Sys2Proof.Machine
end

