-- ==== Sys2Proof/Machine/LaunchUnit.lean ====
section
/-!
DEFINITION. Launches (R376 to R378, R381): reading and checking a packet, its image and its header (R25 to R27, R358, R364), its chip set
(R420), and the completion record with its signature (R83).
-/
namespace Sys2Proof.Machine

-- The header (R358).
/-- A field of the header, from its doubleword. -/
def lfieldOf (w : Word) : LField := ⟨wf_ 63 59 w + 1, wf_ 32 0 w, wf_ 58 57 w, w.getLsbD 56⟩

/-- Scopes in the order system, package, core (R26). -/
def scopesRise : List LField → Bool
  | f :: g :: fs => decide (f.scope ≤ g.scope) && scopesRise (g :: fs)
  | _ => true

/-- A gang bit on the last field, or above a field of core scope (R27). -/
def gangBad : List LField → Bool
  | [] => false
  | [f] => f.gang
  | f :: g :: fs => (f.gang && g.scope == 2) || gangBad (g :: fs)

/-- The members of a gang over the fields of a scope (R27). -/
def gangOver (scope : Nat) (fs : List LField) : Nat :=
  let vary : Bool → List LField → List Nat := fun g fs => ((fs.zip (g :: fs.map LField.gang)).filterMap fun p =>
    if p.2 && p.1.scope == scope then some p.1.extent else none)
  (vary false fs).foldl (· * ·) 1

/-- A header that R358, R26 or R27 refuses. -/
def headerBad (h : List Word) (cores chips : Nat) : Bool :=
  let d := h.headD 0
  let nf := wf_ 2 0 d
  let k := wf_ 11 7 d
  let dyn := d.getLsbD 6
  let fs := ((h.drop 1).take nf).map lfieldOf
  wf_ 63 12 d != 0 || wf_ 5 3 d != 0 || nf == 0 || nf == 7 || (if dyn then k != 0 else decide (k < 6) || decide (k > 16)) ||
    ((h.drop (1 + nf)).any fun w => w != 0) || (((h.drop 1).take nf).any fun w => wf_ 55 33 w != 0) ||
    (fs.any fun f => f.scope == 3 || f.extent == 0 || decide (f.extent > 2 ^ f.width)) ||
    decide ((fs.map LField.width).foldl (· + ·) 0 > 64) || !(scopesRise fs) || gangBad fs ||
    decide (gangOver 1 fs > cores) || decide (gangOver 0 fs > chips)

-- The packet (R377, R378).
/-- The chip set that a packet names: its chips and this chip's position; `none` where there is no such set (R378, R420). -/
def State.chipSet (s : State) (set : Nat) : Option (Nat × Nat) :=
  if set = 0xFFFF then some (1, 0)
  else
    let n := s.chipCount set
    if s.pkg.csetbase = 0 ∨ n = 0 ∨ n > 131072 ∨ s.getPhysN (s.pkg.csetbase.toNat + 16 * set + 4) 4 ≠ 0 then none
    else
      let cs := (upto n).filterMap fun i => s.chipAt set i
      if cs.eraseDups.length ≠ n then none
      else match cs.findIdx? fun c => c = s.island.me with
        | some i => some (n, i)
        | none => none

/-- A core of the pane holds a tile that is not fenced (R2, R378). -/
def State.coreHasTile (s : State) (n : Nat) : Bool := (upto 16).any fun e => !((s.tile[tileOf (Fin.ofNat 32 n) e]).fenced)

/-- A field of a packet's bytes. -/
def pField (bs : List Byte) (o n : Nat) : Nat := leNat ((bs.drop o).take n)

/-- The packet itself is refused (R378). -/
def packetBad (bs : List Byte) (s : State) : Bool :=
  let f := pField bs
  let numctl : Word := BitVec.ofNat 64 (f 32 8)
  let tvec : Word := BitVec.ofNat 64 (f 40 8)
  let cores := maskCores (BitVec.ofNat 32 (f 28 4))
  ((bs.drop 80).any fun b => b != 0) || decide (f 78 2 ≥ 32) || f 28 4 == 0 || f 24 4 == 0 || f 24 4 % 256 != 0 ||
    decide (wf_ 10 8 numctl > 5) || tvec &&& 0x00FFFFFFFFFFFFC1#64 != tvec || (s.chipSet (f 76 2)).isNone ||
    (cores.any fun n => !(s.coreHasTile n)) || wf_ 4 0 (s.pkg.pqring[Fin.ofNat 4 (f 78 2)]) == 0

/-- A launch as its packet gives it, not yet checked further. -/
def launchOf (bs : List Byte) (lid idx asid : Nat) (chips : Nat × Nat) : Launch :=
  let f := pField bs
  { lid := lid, asid := asid, idx := idx, img := f 0 8, frame := f 8 8, stk := f 16 8, sz := f 24 4, cmask := BitVec.ofNat 32 (f 28 4)
    numctl := BitVec.ofNat 64 (f 32 8) &&& 0x0000FFFF0000FF1F#64, tvec := BitVec.ofNat 64 (f 40 8), start := BitVec.ofNat 64 (f 48 8)
    compl := f 56 8, tag := BitVec.ofNat 64 (f 64 8), chipset := f 76 2, flags := BitVec.ofNat 16 (f 78 2), code0 := f 72 4
    codeBase := 0, descBase := 0, hdr := [], fields := [], k := 0, dyn := false, nchips := chips.1, chipPos := chips.2
    nextMember := 0, members := 0, nextSeq := 0, started := none, ended := 0, nret := 0, lost := 0, fp := 0, status := 0, done := false
    held := false, asked := false, declined := false, peers := none, statics := [], sigs := [] }

/-- The doublewords of a header. -/
def headerWords (bs : List Byte) : List Word := (upto 8).map fun i => BitVec.ofNat 64 (leNat ((bs.drop (8 * i)).take 8))

/-- A launch with its image and header (R358, R364, R377). -/
def Launch.withImage (l : Launch) (ss : List Sec) (h : List Word) : Launch :=
  let base (ty : Nat) : Nat := match secOfType ty ss with | some x => l.img + x.off | none => 0
  let d := h.headD 0
  let fs := ((h.drop 1).take (wf_ 2 0 d)).map lfieldOf
  { l with
    codeBase := base 1, descBase := base 5, code0 := base 1 + 64 * l.code0, frame := if l.frame = 0 then base 6 else l.frame
    hdr := h, fields := fs, k := wf_ 11 7 d, dyn := d.getLsbD 6, members := memberCount fs l.nchips l.chipPos }

/-- What reading a packet comes to: a launch, a refusal with its kind (R390), a wait for a page that is not mapped or is migrating,
or one for a sealed page. -/
inductive Packaged where
  | ok (l : Launch) (s : State)
  | refused (kind : Nat) (s : State)
  | miss (va : Nat) (s : State)
  | mig (s : State)
  | wait

/-- A read of the image, whose fault refuses the packet (R378). -/
def Packaged.afterRead {α : Type} (g : Got α × State) (k : α → State → Packaged) : Packaged :=
  match g with
  | (.ok a, t) => k a t
  | (.bad, t) => .refused 3 t
  | (.miss va, t) => .miss va t
  | (.mig, t) => .mig t
  | (.wait, _) => .wait

/-- A packet checked (R378): packet, image, entry tables (R288), header, and TILE records, which every core of the mask must be able to take as it
stands (R365). -/
def checkPacket (l : Launch) (bs : List Byte) (s : State) : Packaged :=
  let a : Fin 64 := Fin.ofNat 64 l.asid
  if packetBad bs s then .refused 1 s
  else Packaged.afterRead (s.sections a l.tag l.img) fun ss t =>
    if !(secsOk l.img ss) then .refused 3 t
    else Packaged.afterRead (readPrograms a l.tag l.img ss t) fun ps t1 =>
      if ps.any fun p => p.1.ty == 3 && p.2.any entryBad then .refused 3 t1
      else Packaged.afterRead (t1.readVirt a l.tag (l.img + (match secOfType 7 ss with | some x => x.off | none => 0)) 64) fun hb u =>
        if headerBad (headerWords hb) (maskCores l.cmask).length l.nchips then .refused 2 u
        else Packaged.afterRead (u.tileRecs a l.tag l.img ss) fun rs v =>
          let hs := (rs.filterMap id).map Prod.fst
          let room := (maskCores l.cmask).all fun n => (allocStatics (Fin.ofNat 32 n) a [] (rs.filterMap id) v).isSome
          if rs.all Option.isSome && hs.eraseDups.length == hs.length && room then .ok (l.withImage ss (headerWords hb)) v else .refused 4 v

/-- CONS advances, and is mirrored in the descriptor (R376, R380). -/
def State.consume (a : Fin 64) (s : State) : State :=
  let n := (s.ctxs[a]).cons + 1
  (s.onCtx a fun c => { c with cons := n, pktDeclined := false }).putPhys (s.ctxAddr a + 24) (leBytes 8 n)

/-- LAUNCH_PACKET (R376): while CONS is below LSEQ the launch unit takes the acting context's next packet; a refused one has a launch fault
and a completion record of STATUS 3; one whose image has a page that is not mapped or is migrating waits for XRETRY (R386). Launches push what members they may (R15, R29). -/
def execEvLaunchPacket (s : State) : Res :=
  let a := s.at_.asid
  let c := s.ctxs[a]
  if !c.active || !s.island.cpres then .next s
  else if c.lseq.toNat ≤ c.cons ∨ c.pktHeld then .next s.feedAll
  else
    let slot := c.ringbase + 128 * (c.cons % 2 ^ c.rlog)
    let bs := s.getPhys slot 128
    let l := launchOf bs (s.ids + 1) c.cons a.val ((s.chipSet (pField bs 76 2)).getD (1, 0))
    let refuse (kind : Nat) (t : State) : Res :=
      let u := t.launchFault a l.tag kind c.cons
      .next ({ u with launches := u.launches ++ [{ l with status := 3 }] }.consume a).feedAll
    match checkPacket l bs (({ s with ids := s.ids + 1 }.readsPhys slot 128).readsSet (pField bs 76 2)) with
    | .wait => .next s
    | .miss va t => if c.pktDeclined then refuse 3 t else .next ((t.postUnit a l.tag va 0).onCtx a fun c => { c with pktHeld := true, pktAsked := true }).feedAll
    | .mig t => .next (t.onCtx a fun c => { c with pktHeld := true }).feedAll
    | .refused kind t => refuse kind t
    | .ok m t => .next ({ t with launches := t.launches ++ [m] }.consume a).feedAll

-- Completion (R381).
/-- The signature of a launch (R83): over its retired members here. -/
def Launch.signature (l : Launch) : Word :=
  let members := (sortBy (fun (a b : Word × Word) => decide (a.1.toNat ≤ b.1.toNat)) l.sigs).map Prod.snd
  crc64 ([1#64] ++ l.hdr ++ [BitVec.ofNat 64 l.k, BitVec.ofNat 64 l.nchips, BitVec.ofNat 64 (maskCores l.cmask).length] ++ members)

/-- The bytes of the completion record. -/
def Launch.record (l : Launch) (status : Nat) : List Byte :=
  leBytes 4 status ++ leBytes 4 l.lost ++ leBytes 8 l.fp.toNat ++ leBytes 8 (if status = 3 then 0 else l.signature.toNat) ++
    leBytes 8 l.tag.toNat ++ leBytes 8 (l.started.getD 0).toNat ++ leBytes 8 l.ended.toNat ++ leBytes 8 l.nret ++ leBytes 8 0

/-- A launch as its completion record counts it: with the members that other packages have lost (R340; log entry 107). -/
def Launch.tally (l : Launch) : Launch := { l with lost := l.lost + l.peers.getD 0 }
/-- STATUS of a launch that ends (R381). -/
def Launch.finalStatus (l : Launch) : Nat := if l.status ≠ 0 then l.status else if l.lost = 0 then 1 else 2

/-- Bytes written by the part to a virtual address, seen by every group at once. -/
def State.writeVirt (a : Fin 64) (tag : Word) (va : Nat) (bs : List Byte) (s : State) : Got State × State :=
  let cells := (upto bs.length).map fun i => ((va + i) % 2 ^ 64, bs.getD i 0)
  Got.andThen (unitAccess a tag true (cells.map Prod.fst) s) fun ps t =>
    (.ok ((t.putNow (plainBytes ps cells)).copyJoin ps cells), t)

/-- The members of a launch on the other packages have all retired or are lost (R340; log entry 107). -/
def State.peersDone (lid lost : Nat) (s : State) : State :=
  s.onLaunch lid fun l => if l.nchips = 1 then l else { l with peers := some (l.peers.getD lost) }

/-- Every record of a launch has retired or is lost, and it has none left to push; of one over several chips, those on the other packages too
(R340). -/
def State.launchOver (s : State) (l : Launch) : Bool :=
  !l.done && (l.status == 3 || ((l.nchips == 1 || l.peers.isSome) && decide (l.members ≤ l.nextMember) && s.recs.all fun r => r.lid != l.lid || r.state == .retired || r.state == .lost))

/-- LDONE after a launch has completed (R376): joined with n once launches 0 to n − 1 have. -/
def State.joinDone (a : Fin 64) (s : State) : State :=
  let open_ := (s.launches.filter fun l => l.asid == a.val && !l.done).map Launch.idx
  let n := open_.foldl Nat.min (s.ctxs[a]).cons
  s.onCtx a fun c => { c with ldone := BitVec.ofNat 64 (Nat.max c.ldone.toNat n) }

/-- A launch completed: what it held is freed, LDONE is joined, and MSI follows when the packet asks for it (R365, R377, R381). -/
def completeLaunch (l : Launch) (s : State) : State :=
  let a : Fin 64 := Fin.ofNat 64 l.asid
  let s1 := (s.freeStatics l).onLaunch l.lid fun l => { l with done := true, statics := [], sigs := [] }
  let s2 : State := { s1 with recs := s1.recs.filter fun r => r.lid != l.lid, coll := s1.coll.filter fun c => c.lid != l.lid }
  let s3 := s2.joinDone a
  if l.flags.getLsbD 4 then { s3 with msi := s3.msi ++ [bits 13 8 (s.ctxs[a]).flags.toNat] } else s3

/-- LAUNCH_COMPLETE (R381): the completion record of the acting context's first launch that is over is written, and the launch completes.
While the record's page does not translate, a request is posted, unless the page is migrating, and the launch waits for XRETRY (R386). -/
def execEvLaunchComplete (s : State) : Res :=
  let a := s.at_.asid
  match s.launches.find? fun l => l.asid == a.val && s.launchOver l && !l.held with
  | none => .next s
  | some l =>
    let hold (asked : Bool) (s : State) : State := s.onLaunch l.lid fun l => { l with held := true, asked := asked }
    match s.writeVirt a l.tag l.compl (l.tally.record l.tally.finalStatus) with
    | (.ok t, _) => .next (completeLaunch l t).feedAll
    | (.miss va, t) => .next (hold true (t.postUnit a l.tag va 1))
    | (.bad, t) => .next (hold true (t.postUnit a l.tag l.compl 1))
    | (.mig, t) => .next (hold false t)
    | (.wait, t) => .next t

end Sys2Proof.Machine
end

