-- ==== Sys2Proof/Machine/Driver.lean ====
section
/-!
DEFINITION. What the driver does to contexts and translations: ACTIVATE and RETIRE with their cooling (R380, R381), DUMP (R391), INVAL and
leases (R385), XRETRY (R386), seals (R387), pre-emption and debug halts (R24, R379), and the memory window (R374).
-/
namespace Sys2Proof.Machine

-- Contexts.
/-- A context descriptor that R380 allows: every field in its range, every reserved byte zero. -/
def descriptorOk (bs : List Byte) : Bool :=
  let f := pField bs
  let ring := f 8 8
  let lease := f 20 4
  decide (f 0 8 % 2048 = 0) && decide (ring % 4096 = 0) && decide (linTop ≤ ring) && decide (4 ≤ f 16 4) && decide (f 16 4 ≤ 16) &&
    decide (ring + 128 * 2 ^ f 16 4 ≤ coreBase) && (lease == 0 || (decide (4 ≤ lease) && decide (lease ≤ 64))) && decide (f 32 8 % 4096 = 0) &&
    decide (6 ≤ f 40 4) && decide (f 40 4 ≤ 20) && decide (f 56 8 % 65536 = 0) && decide (f 72 8 % 65536 = 0) && decide (f 80 4 ≤ 8) &&
    decide (f 84 4 ≤ 8) && (BitVec.ofNat 32 (f 88 4) &&& ~~~0x3F03#32) == 0 && f 92 4 == 0 && (bs.drop 216).all fun b => b == 0

/-- The context that a descriptor gives. -/
def ctxOf (bs : List Byte) : Ctx :=
  let f := pField bs
  { active := true, cooling := none, ptroot := f 0 8, ringbase := f 8 8, rlog := f 16 4, lease := f 20 4, cons := 0, fqbase := f 32 8
    fqlog := f 40 4, fqtail := f 48 4, fqovf := f 52 4, backbase := f 56 8, backsize := f 64 8, savebase := f 72 8, cexp := f 80 4, texp := f 84 4
    flags := BitVec.ofNat 32 (f 88 4), lwin := (upto 15).map fun i => f (96 + 8 * i) 8, lseq := 0, ldone := 0
    pktHeld := false, pktAsked := false, pktDeclined := false }

/-- The running CRC of a context starts afresh on every engine (R414). -/
def State.freshCrc (a : Fin 64) (s : State) : State :=
  { s with cores := vall s.cores fun _ k => { k with eng := vall k.eng fun _ g => { g with crc := g.crc.filter fun p => p.1 != a.val } } }

/-- A context activated from its descriptor, with CONS from 0 (R376), or refused (R380). -/
def activate (a : Fin 64) (s : State) : Res :=
  let bs := s.getPhys (s.ctxAddr a) 256
  let s := s.readsPhys (s.ctxAddr a) 256
  if descriptorOk bs then .next ((((s.onCtx a fun _ => ctxOf bs).freshCrc a).putPhys (s.ctxAddr a + 24) (leBytes 8 0)).ctxDone 0) else ctxRefuse 1 a.val 0 s

/-- The datum at which a cooling identifier is free again (R381). -/
def cooled (dr : Word) (now : Word) : Bool := decide (dr.toNat + 64000 ≤ now.toNat)

/-- ACTIVATE (R380, R381, R414): of the acting context; while its identifier cools, the command stays BUSY. -/
def execEvActivate (s : State) : Res :=
  let a := s.at_.asid
  ctxCmd 1 a.val 0 s (
    if (s.ctxs[a]).active then ctxRefuse 1 a.val 0 s
    else match (s.ctxs[a]).cooling with
      | some dr =>
        if cooled dr s.datum then activate a (s.onCtx a fun c => { c with cooling := none })
        else .next { s with pkg := { s.pkg with ctxBusy := true, ctxResult := 2, stalled := some a.val } }
      | none => activate a s)

/-- RETIRE (R381): refused for ASID 0, an inactive context, or one with a launch or a record that is not finished; else the launch page is
cleared and the identifier cools. -/
def execEvRetire (s : State) : Res :=
  let a := s.at_.asid
  let c := s.ctxs[a]
  let open_ := s.launches.any fun l => l.asid == a.val && (!l.done || s.recs.any fun r => r.lid == l.lid && r.state != .retired)
  ctxCmd 2 a.val 0 s (
    if a = 0 ∨ !c.active ∨ open_ ∨ c.cons < c.lseq.toNat then ctxRefuse 2 a.val 0 s
    else .next ((({ s with launches := s.launches.filter fun l => l.asid != a.val } : State).onCtx a fun _ =>
      { Ctx.reset with cooling := some s.datum }).ctxDone 0))

/-- COOLING_END (R381): the acting identifier has cooled; an ACTIVATE that waits for it completes. -/
def execEvCoolingEnd (s : State) : Res :=
  let a := s.at_.asid
  match (s.ctxs[a]).cooling with
  | some dr =>
    if !(cooled dr s.datum) then .next s
    else
      let s1 := s.onCtx a fun c => { c with cooling := none }
      if s.pkg.stalled = some a.val then activate a { s1 with pkg := { s1.pkg with stalled := none } } else .next s1
  | none => .next s

/-- DUMP (R391): the cores that run a record of the acting context halt as for pre-emption, held for the debugger where DBGHALT says so;
the buffer, at 64 · `buf`, is written once they have. -/
def execEvDump (buf : Nat) (s : State) : Res :=
  let a := s.at_.asid
  let ns := (List.finRange 32).filter fun n => (s.cores[n]).run.isSome && (s.cores[n]).asid == a.val
  let halt (k : Core) : Core := { k with preReq := true, dbgHalted := k.dbgHalted || s.pkg.dbghalt.getLsbD a.val }
  ctxCmd 4 a.val buf s (
    let job : DumpJob := ⟨a, 64 * (buf % 2 ^ 46), ns.filterMap fun n => (s.cores[n]).run.map fun r => (n.val, r.lid, r.seq)⟩
    let s1 : State := { s with
      cores := vall s.cores fun n k => if ns.contains n then halt k else k
      pkg := { s.pkg with ctxBusy := true, dump := some job } }
    .next s1.finishDump)

-- Invalidation.
/-- INVAL (R385, R152): refused while one is in progress; else the leases phase begins, with a marker in the queues of the context. -/
def execEvInval (v : BitVec 64) (s : State) : Res :=
  if !s.hostUp then .next s
  else if s.pkg.invPhase = 1 ∨ s.pkg.invPhase = 2 then .next (s.refusedWrite (regOff 40 0x804) v.toNat)
  else
    let lo := wf_ 55 16 v * 65536
    let m : Marker := ⟨wf_ 63 58 v, lo, lo + (wf_ 15 0 v + 1) * 65536, s.datum, s.cyc, (vlist s.cores).map Core.stamps⟩
    .next { s with pkg := { s.pkg with invPhase := 1, inv := v, invStart := s.datum, marks := s.pkg.marks ++ [m] } }

/-- The lease of a context in datum ticks (R380, R385). -/
def Ctx.leaseTicks (c : Ctx) : Nat := (if c.lease = 0 then 16 else c.lease) * 1000

/-- INVAL_LEASE_EXPIRY (R385): the datum has reached d0 + LEASE. -/
def execEvInvalLeaseExpiry (s : State) : Res :=
  let c := s.ctxs[Fin.ofNat 64 (wf_ 63 58 s.pkg.inv)]
  if s.pkg.invPhase = 1 ∧ s.pkg.invStart.toNat + c.leaseTicks ≤ s.datum.toNat then .next { s with pkg := { s.pkg with invPhase := 2 } }
  else .next s

/-- An access to the range of the INVAL, under a lease granted before it, is still on its way, in flight or staged (R385, R403). -/
def State.olderAccess (s : State) : Bool :=
  let a := wf_ 63 58 s.pkg.inv
  let lo := wf_ 55 16 s.pkg.inv * 65536
  let hi := lo + (wf_ 15 0 s.pkg.inv + 1) * 65536
  let older (asid va : Nat) (granted : Word) : Bool :=
    asid == a && decide (lo ≤ va % 2 ^ 56) && decide (va % 2 ^ 56 < hi) && decide (granted.toNat < s.pkg.invStart.toNat)
  (s.inflight.any fun f => f.names.any fun p => f.grants.any fun g => g.1 == p.2 / 65536 && older f.asid p.2 g.2) ||
    (vlist s.cores).any fun k => k.staging.any fun b => older b.asid b.va b.granted

/-- INVAL_DONE (R385): every such access has performed; INVDONE takes the datum. The marker's leases are all over. -/
def execEvInvalDone (s : State) : Res :=
  if s.pkg.invPhase = 2 ∧ !s.olderAccess then
    .next { s with pkg := { s.pkg with invPhase := 3, invdone := s.datum, marks := s.pkg.marks.filter fun m => m.since != s.pkg.invStart } }
  else .next s

/-- LEASE_EXPIRY (R385): the cached translation at an index is dropped once its lease has expired, and with it the walk-cache entries whose
lease is over. -/
def execEvLeaseExpiry (idx : Nat) (s : State) : Res :=
  match s.tlb[idx]? with
  | some t => .next (if t.expiry.toNat ≤ s.datum.toNat then
      { s with tlb := s.tlb.eraseIdx idx, wcache := s.wcache.filter fun w => decide (s.datum.toNat < w.expiry.toNat) } else s)
  | none => .next s

-- Translation requests.
/-- A held line, or a waiting LWAIT, walks again, or, where the driver declines its request, is presented to take the page fault (R386). -/
def Hold.retry (a : Nat) (decline : Bool) : Hold → Hold
  | .translation asid va mig fetching =>
    if asid ≠ a then .translation asid va mig fetching else if decline && !mig then .declined asid va else .none
  | .lwait d va thr attr (some (asid, mig)) Option.none =>
    if asid ≠ a then .lwait d va thr attr (some (asid, mig)) Option.none
    else if decline && !mig then .declined asid va else .lwait d va thr attr Option.none Option.none
  | h => h

/-- A side-log entry of a context: whether the driver has declined its request, and as it walks again (R386). -/
def SideEntry.declined (a own : Nat) (e : SideEntry) : Option Nat := match e.held with
  | some (va, false) => if (if e.attr.asp == .drv then 0 else own) = a then some va else none
  | _ => none
def SideEntry.retry (a own : Nat) (e : SideEntry) : SideEntry :=
  if (if e.attr.asp == .drv then 0 else own) = a then { e with held := none } else e

/-- The page fault of a declined side-logged access. -/
def SideEntry.refusal (e : SideEntry) (va : Nat) : TrapRec :=
  { cause := 0x03, a0 := BitVec.ofNat 64 va, a1 := BitVec.ofNat 64 ((match e.acc with | .amo _ _ _ _ => AccKind.atomic.code | _ => AccKind.store.code) + 256) }

/-- A cluster as XRETRY leaves it; a declined side-logged access is freed, and its page fault is pending (R232, R386). -/
def Cluster.retry (a own : Nat) (decline : Bool) (c : Cluster) : Cluster :=
  let gone := if decline then c.slog.filterMap fun e => (e.declined a own).map fun va => (⟨e.refusal va, none⟩ : BTrap) else []
  let kept := if decline then c.slog.filter fun e => (e.declined a own).isNone else c.slog
  { c with hold := c.hold.retry a decline, slog := kept.map (SideEntry.retry a own), pendTrap := c.pendTrap ++ gone }

/-- The records' side-logged accesses that outlive them: declined ones are reported (R228, R386). -/
def State.retryLeft (a : Nat) (decline : Bool) (n : CoreId) (s : State) : State :=
  let report (s : State) (x : Left) : State := match (if decline then x.entry.declined a x.asid else none) with
    | some va =>
      let t := x.entry.refusal va
      (s.faultRec (Fin.ofNat 64 x.asid) t.cause.toNat 0 n.val x.clu.val 0xFF x.wid (s.tagOf x.lid) t.a0 t.a1 0 0).coreUpd n fun k =>
        { k with left := k.left.erase x }
    | none => s
  ((s.cores[n]).left.foldl report s).coreUpd n fun k => { k with left := k.left.map fun x => { x with entry := x.entry.retry a x.asid } }

/-- The streams of a core's engines (R386): they walk again, or, declined, take the engine page fault. -/
def State.retryEngine (a : Nat) (decline : Bool) (n : CoreId) (s : State) (e : Eng) : State :=
  let clear (s : State) : State := s.engUpd n e fun g => { g with cmd := g.cmd.map fun c => { c with stall := .none } }
  match ((s.cores[n]).eng[e]).cmd with
  | some c => match c.stall with
    | .held asid va mig =>
      if asid ≠ a then s
      else if decline && !mig then { engFault (.page 0 va) { clear s with at_ := { s.at_ with core := n, eng := e } } with at_ := s.at_ }
      else clear s
    | .none => s
  | none => s

/-- A core as XRETRY leaves it. -/
def State.retryCore (a : Nat) (decline : Bool) (s : State) (n : CoreId) : State :=
  let own := (s.cores[n]).asid
  let s1 := s.coreUpd n fun k => { k with
    clu := vall k.clu fun _ c => c.retry a own decline
    saved := k.saved.map fun v => { v with clusters := vall v.clusters fun _ c => c.retry a v.asid decline } }
  (List.finRange 27).foldl (State.retryEngine a decline n) (s1.retryLeft a decline n)

/-- The page of a copy write in the inbox whose request the driver declines. -/
def State.inboxMiss (s : State) (a : Nat) (p : Packet) : Option Nat :=
  match p.body with
  | .copyWrite _ asid va bs _ _ _ =>
    if asid ≠ a then none
    else ((upto bs.length).map fun i => (va + i) % 2 ^ 64).find? fun x => match (xlate islandUnit {} (Fin.ofNat 64 asid) x s).1 with
      | .unmapped => true
      | _ => false
  | _ => none

/-- The copy writes that the declined context keeps in the inbox are refused to their senders with the translation reason (R292, R386). -/
def State.refuseInbox (a : Nat) (s : State) : State :=
  s.island.inbox.foldl (fun (s : State) p => match p.body, s.inboxMiss a p with
    | .copyWrite id _ _ _ n e _, some va =>
      (s.onIsland fun i => { i with inbox := i.inbox.erase p }).sendPacket ⟨s.island.me, p.src, p.class0, [], [], .copyFault id n e 0 va⟩
    | _, _ => s) s

/-- The host's accesses that wait for a context's lattice page: each is made again in order, or, where the driver declines its request, is
refused (R386). -/
def State.retryHost (a : Nat) (decline : Bool) (s : State) : State :=
  (s.hostHeld.filter fun h => h.1 == a).foldl (fun s h =>
    match h.2.2 with
    | .evLatticeWindowWrite off bytes => if decline && !h.2.1 then s.refusedCell (Fin.ofNat 64 a) off.toNat 0 (leNat (bytes.take 8))
      else Res.orElse (execEvLatticeWindowWrite off bytes s) s
    | .evLatticeWindowRead off len => if decline && !h.2.1 then (s.refusedCell (Fin.ofNat 64 a) off.toNat 0 0).hostReads (List.replicate len 0)
      else Res.orElse (execEvLatticeWindowRead off len s) s
    | _ => s) { s with hostHeld := s.hostHeld.filter fun h => h.1 != a }

/-- XRETRY (R386): every held walk of the context walks again; with DECLINE every held request fails instead, but for walks held on a
migrating page. The launch unit's held reads and the host's held accesses are among them. -/
def execEvXretry (v : BitVec 64) (s : State) : Res :=
  if !s.hostUp then .next s
  else
    let a := wf_ 63 58 v
    let decline := v.getLsbD 0
    let s1 := (List.finRange 32).foldl (State.retryCore a decline) s
    let s2 := (if decline then s1.refuseInbox a else s1).redeliver
    let s3 : State := { s2 with launches := s2.launches.map fun l => if l.asid == a then { l with held := false, asked := false, declined := decline && l.held && l.asked } else l }
    .next ((s3.onCtx (Fin.ofNat 64 a) fun c => { c with pktHeld := false, pktAsked := false, pktDeclined := decline && c.pktHeld && c.pktAsked }).retryHost a decline)

/-- SEAL_WRITE (R379, R387). -/
def execEvSealWrite (n : Fin 16) (v : BitVec 64) (s : State) : Res :=
  if !s.hostUp then .next s
  else .next { s with pkg := { s.pkg with seals := vput s.pkg.seals n (v &&& 0x800FFFFFFFFFFFFF#64) } }

-- Pre-emption and debug.
/-- PREEMPT (R24, R333): CCTL.PREEMPT of the acting core. -/
def execEvPreempt (s : State) : Res :=
  .next (if s.core.run.isSome then s.onCore fun k => { k with preReq := true } else s)

/-- CCTL_RESUME (R379, R391, R412): a debug halt of the acting core is released. -/
def execEvCctlResume (s : State) : Res :=
  .next (if s.core.haltd then s.onCore fun k => { k with haltd := false, saved := k.saved.map fun v => { v with debug := false } } else s)

-- The memory window.
/-- The physical address that a memory-window offset reaches (R374). -/
def State.windowAddr (s : State) (off : Nat) : Nat := linTop + s.pkg.mwbase.toNat + off

/-- A write through the memory window (R374): at system scope, seen at once by every group; one to a sealed frame, or beyond the interleaved
window, is refused and logged. -/
def windowWrite (off : Nat) (bytes : List Byte) (s : State) : State :=
  let pa := s.windowAddr off
  let bs := (atAddr pa bytes).map fun b => (ilPlace (b.1 - linTop), b.2)
  if pa + bytes.length > coreBase ∨ (bs.any fun b => s.sealed b.1) then s.hostError (hostLoc 4 off) true
  else s.putNow (bs.map fun b => (1, b.1, b.2))

/-- MEMORY_WINDOW_READ (R374, R402): what is visible to die 0; an uncorrectable codeword reads as all ones, and its consumption is logged. -/
def windowRead (off len : Nat) (s : State) : State :=
  let pa := s.windowAddr off
  let ks := (upto len).map fun i => ilPlace (pa + i - linTop)
  if pa + len > coreBase then (s.hostError (hostLoc 4 off) false).hostReads (List.replicate len 0xFF)
  else match ks.find? s.badAt with
    | some k => (s.uncorrectable k 2).hostReads (List.replicate len 0xFF)
    | none => (s.correctAt ks).hostReads (ks.map fun k => s.readByte { group := 0 } 1 k)

end Sys2Proof.Machine
end

