-- ==== Sys2Proof/Machine/RaceDie.lean ====
section
/-!
DEFINITION. The race dies' own work: the slew limiter (R351 to R353), levelling (R393 to R395, R355) with its registers (R392), the patrol
of the HBM channels and the table of corrected errors (R399 to R402), and tile temperatures.
-/
namespace Sys2Proof.Machine

/-- The race die of the acting unit: the one whose pane holds its core. -/
def State.dieId (s : State) : RaceDie := Fin.ofNat 8 (s.at_.core.val / 4)
/-- The die that holds a tile. -/
def dieOfTile (t : TileId) : RaceDie := Fin.ofNat 8 (t.val / 64)
/-- The tiles of a die, in (core index, engine id) order. -/
def tilesOf (d : RaceDie) : List TileId := (upto 64).map fun i => Fin.ofNat 512 (64 * d.val + i)
/-- The core and the engine of a tile. -/
def coreOfTile (t : TileId) : CoreId := Fin.ofNat 32 (t.val / 16)
def engOfTile (t : TileId) : Eng := Fin.ofNat 27 (t.val % 16)

-- The slew limiter.
/-- An entry of a die's ramp table (R351). -/
def rampOf (l h : Word) (i : Nat) : Nat := if i < 8 then bits (8 * i + 7) (8 * i) l.toNat else bits (8 * (i - 8) + 7) (8 * (i - 8)) h.toNat

/-- A ramp table that R351 allows. -/
def rampOk (l h : Word) : Bool :=
  (upto 16).all (fun i => decide (1 ≤ rampOf l h i) && decide (rampOf l h i ≤ 64)) &&
    (upto 15).all (fun i => decide (rampOf l h i ≤ rampOf l h (i + 1))) && rampOf l h 15 == 64

/-- SLEW_REGISTER_WRITE (R351): SLEWRAMPL, SLEWRAMPH or SLEWCTL of the acting die, refused, or pending until the level is zero. -/
def execEvSlewRegisterWrite (r : Fin 3) (v : BitVec 64) (s : State) : Res :=
  let d := s.dieId
  let x := s.rdie[d]
  let l := x.pendL.getD x.rampl
  let h := x.pendH.getD x.ramph
  let refuse : Res := .next (s.refusedWrite (regOff (32 + d.val) (0x800 + r.val)) v.toNat)
  match r.val with
  | 0 => if rampOk v h then .next (s.onRDie d fun x => { x with pendL := some v }) else refuse
  | 1 => if rampOk l v then .next (s.onRDie d fun x => { x with pendH := some v }) else refuse
  | _ => if 1 ≤ v.toNat % 128 ∧ v.toNat % 128 ≤ 64 then .next (s.onRDie d fun x => { x with pendD := some (v.setWidth 7) }) else refuse

/-- The writes that wait take effect (R351). -/
def RDie.settle (x : RDie) : RDie :=
  { x with rampl := x.pendL.getD x.rampl, ramph := x.pendH.getD x.ramph, down := x.pendD.getD x.down, pendL := none, pendH := none, pendD := none }

/-- A granted tile whose command has gone without being started or ended: rollback removed it (R352, R405). -/
def State.orphaned (s : State) (t : TileId) : Bool :=
  let n := coreOfTile t
  let e := engOfTile t
  s.tile[t].granted && (s.cores[n].eng[e]).cmd.isNone && (match s.headState n e with | .ready _ => false | _ => true)

/-- The tiles that fill (F), and those active (A), of a die. -/
def State.fillers (s : State) (d : RaceDie) : List TileId := (tilesOf d).filter fun t => (s.tile[t]).filling.isSome
def State.actives (s : State) (d : RaceDie) : List TileId := (tilesOf d).filter fun t => (s.tile[t]).granted
/-- The level of a die: |A| + |F| (R352). -/
def State.slewLevel (s : State) (d : RaceDie) : Nat := (s.fillers d).length + (s.actives d).length

/-- A tile granted, a tile that leaves A for F, and one that leaves F. -/
def State.grantTile (s : State) (t : TileId) : State := s.onTile t fun r => { r with granted := true, filling := none }
def State.fillTile (s : State) (t : TileId) : State := s.onTile t fun r => { r with granted := false, leaving := false, filling := some s.cyc }
def State.stopFill (s : State) (t : TileId) : State := s.onTile t fun r => { r with filling := none }

/-- The least i with RAMP[i] ≥ a level (R352). -/
def idxFor (x : RDie) (level : Nat) : Nat := ((upto 16).find? fun i => decide (level ≤ rampOf x.rampl x.ramph i)).getD 15

/-- SLEW_STEP (R352): at a step boundary the limiter of the acting die lets tiles that left A fill, takes fillers away down to the floor,
grants the requests of filling tiles, then others while the level is below what the ramp and the cap allow. -/
def execEvSlewStep (s : State) : Res :=
  if s.cyc.toNat % 4 ≠ 0 ∨ !s.island.cpres then .next s
  else
    let d := s.dieId
    let left := (tilesOf d).filter fun t => (s.tile[t]).leaving || s.orphaned t
    let s1 := left.foldl State.fillTile s
    let s2 := if s1.slewLevel d = 0 then s1.onRDie d RDie.settle else s1
    let x := s2.rdie[d]
    let floor := x.prev - x.down.toNat
    let s3 := ((s2.fillers d).take (s2.slewLevel d - floor)).foldl State.stopFill s2
    let wants := (tilesOf d).filter fun t => s3.requests (coreOfTile t) (engOfTile t)
    let s4 := (wants.filter fun t => (s3.tile[t]).filling.isSome).foldl State.grantTile s3
    let allow := Nat.min (rampOf x.rampl x.ramph x.idx) s4.mc.cap
    let rest := wants.filter fun t => (s3.tile[t]).filling.isNone
    let room := allow - s4.slewLevel d
    let s5 := (rest.take room).foldl State.grantTile s4
    let idx := if room < rest.length then Nat.min (x.idx + 1) 15 else idxFor x (s5.slewLevel d)
    .next (s5.onRDie d fun x => { x with idx := idx, prev := s5.slewLevel d })

/-- FILLER_STROKE (R353): it reads no operand, writes no accumulator, raises no flag, and its conversions are neither checked nor counted. -/
def execEvFillerStroke (s : State) : Res := .next s

-- Levelling.
/-- LEVELLING_PERIOD_EXPIRY (R393): PERIOD ms have passed since the tile's last levelling began. -/
def execEvLevellingPeriodExpiry (s : State) : Res :=
  let t := s.tileId
  let p := (s.rdie[dieOfTile t]).period.toNat
  .next (if p * 1000000 ≤ (s.datum - (s.tile[t]).began).toNat && decide (s.at_.eng.val < 16) then s.requestLevel t else s)

/-- TEMPERATURE_SAMPLE (R392, R393): the tile's TEMP, and a request when it has moved from TLVL by more than DT quarters of a degree. -/
def execEvTemperatureSample (temp : BitVec 16) (s : State) : Res :=
  if s.at_.eng.val ≥ 16 then .next s
  else
    let t := s.tileId
    let s1 := s.onTile t fun r => { r with temp := temp }
    let moved := (temp.toInt - ((s.tile[t]).tlvl.toInt)).natAbs
    .next (if moved > 4 * ((s.rdie[dieOfTile t]).dt).toNat then s1.requestLevel t else s1)

/-- LEVELLING_REQUEST_WRITE (R392): LVLCTL of the acting die, refused whole when a field is out of range. -/
def execEvLevellingRequestWrite (v : BitVec 64) (s : State) : Res :=
  let d := s.dieId
  if wf_ 47 24 v = 0 ∨ wf_ 20 16 v < 16 ∨ wf_ 15 8 v = 0 ∨ wf_ 7 0 v = 0 then .next (s.refusedWrite (regOff (32 + d.val) 0x803) v.toNat)
  else
    let s1 := s.onRDie d fun x => { x with ruthr := BitVec.ofNat 24 (wf_ 47 24 v), ruwin := BitVec.ofNat 5 (wf_ 20 16 v)
                                           dt := BitVec.ofNat 8 (wf_ 15 8 v), period := BitVec.ofNat 8 (wf_ 7 0 v) }
    .next (if v.getLsbD 62 then s1.requestLevel (Fin.ofNat 512 (64 * d.val + wf_ 61 56 v)) else s1)

/-- TRIM_TARGET_WRITE (R392): TGT of the acting tile, which requests its levelling. -/
def execEvTrimTargetWrite (v : BitVec 64) (s : State) : Res :=
  let t := s.tileId
  if s.at_.eng.val ≥ 16 then .next s
  else if wf_ 56 48 v > 300 then .next (s.refusedWrite (regOff (32 + t.val / 64) (0xC00 + t.val % 64)) v.toNat)
  else .next ((s.onTile t fun r => { r with tgt := BitVec.ofNat 9 (wf_ 56 48 v) }).requestLevel t)

/-- Another tile of the package has begun its levelling in the current time step of a deterministic launch (R355). -/
def State.stepTaken (s : State) (t : TileId) : Bool := match s.detOn (coreOfTile t) with
  | some l => (List.finRange 512).any fun u => u != t && (s.tile[u]).began != 0 && (s.tile[u]).began.toNat / 2 ^ l.k == s.datum.toNat / 2 ^ l.k
  | none => false

/-- LEVELLING_START (R93, R355, R371, R394): a tile between commands whose levelling is due goes offline, in a deterministic launch at most one
in each time step. -/
def execEvLevellingStart (s : State) : Res :=
  let t := s.tileId
  let r := s.tile[t]
  if decide (s.at_.eng.val < 16) && s.power && s.levelDue t && !r.lvl && !r.dead && s.eng.cmd.isNone && !r.granted && !(s.stepTaken t) then
    .next ((s.onTile t fun r => { r with lvl := true, pending := false, began := s.datum }).capture 9 s.at_.core.val (128 + s.at_.eng.val)
      (BitVec.ofNat 64 t.val))
  else .next s

/-- The target count C* = round(2,000 / τt) for τt = 1.8 ps + TGT × 2 fs (R392, R394). -/
def ringTarget (tgt : BitVec 9) : Nat := (2000000 / (900 + tgt.toNat) + 1) / 2

/-- The counts that step 2 of the routine takes: up to the first within 1 of the target, at most four; `none` where they do not end it (R394). -/
def ringCounts (target : Nat) : Nat → List Nat → Option (List Nat)
  | 0, _ => some []
  | _ + 1, [] => none
  | k + 1, c :: cs => if ((c : Int) - target).natAbs ≤ 1 then some [c] else (ringCounts target k cs).map fun xs => c :: xs

/-- The trial BIAS after step 2: BIAS + round(3·(C − C*)) at each count (R394); where it leaves the register's 12 bits the spec gives no value
(log entry 111). -/
def ringBias (target : Nat) (bias : BitVec 12) (cs : List Nat) : BitVec 12 :=
  let x := cs.foldl (fun (b : Int) (c : Nat) => b + 3 * ((c : Int) - target)) (bias.toNat : Int)
  if 0 ≤ x ∧ x < 4096 then BitVec.ofInt 12 x else Config.biasBeyond x

/-- LEVELLING_COMMIT (R394, R395): the routine has counted the ring and measured the other trims; they are written at once, or, where its
verification failed, the old ones are kept; the tile returns to its queue, unless this was its second failure in a row. A request that fell
meanwhile waits from here (R355). -/
def execEvLevellingCommit (pass : Bool) (counts : List Nat) (vgain : BitVec 12) (offp offn : BitVec 8) (s : State) : Res :=
  let t := s.tileId
  let r := s.tile[t]
  let target := ringTarget r.tgt
  match ringCounts target 4 counts with
  | none => .next s
  | some cs =>
  if !(r.lvl) || decide (s.at_.eng.val ≥ 16) then .next s
  else
    let bias := ringBias target r.bias cs
    let s1 := s.onTile t fun r => { r with lvl := false, since := s.datum }
    let s2 :=
      if pass then s1.onTile t fun r => { r with bias := bias, vgain := vgain, offp := offp, offn := offn, tlvl := r.temp, fail := false }
      else if r.fail then (s1.onTile t fun r => { r with dead := true }).relLog 7 2 (1 + t.val / 64) (t.val % 64) 0 0 0 0
      else ((s1.onTile t fun r => { r with fail := true }).requestLevel t).relLog 7 1 (1 + t.val / 64) (t.val % 64) 0 0 0 0
    .next (s2.capture 10 s.at_.core.val (128 + s.at_.eng.val) (BitVec.ofNat 64 t.val))

-- The patrol.
/-- PATROL_VISIT (R399 to R402): the patrol of a channel visits its next row and reads its codewords. Those that the code corrects are the ones
already so and those that `corrected` names; each is written back, or skipped where `raced` says that a store came first. Those uncorrectable,
already or as `uncorrectable` names, are logged. No value changes. -/
def execEvPatrolVisit (ch : Fin 256) (corrected uncorrectable raced : List (Fin 32)) (s : State) : Res :=
  let d : RaceDie := Fin.ofNat 8 (ch.val / 32)
  if !((s.rdie[d]).paten) || !s.island.cpres then .next s
  else
    let row := match s.patrol.find? fun p => p.1 == ch.val with | some p => p.2 | none => 0
    let place (i : Fin 32) : Nat := linOf ch.val (2048 * row + 64 * i.val)
    let s1 := uncorrectable.foldl (fun t i => t.upset (place i) true) (corrected.foldl (fun t i => t.upset (place i) false) s)
    let read (t : State) (i : Fin 32) : State :=
      if t.badAt (place i) then
        (t.onRDie d fun x => { x with uecnt := x.uecnt + 1 }).relLog 2 0 (1 + d.val) ch.val (2048 * row + 64 * i.val) 0 0 0
      else if t.weak.any fun w => w.place == place i then
        let u := t.correctAt [place i]
        let v : State := { u with weak := u.weak.filter fun w => w.place != place i }
        if raced.contains i then v.onRDie d fun x => { x with patskip := x.patskip + 1 } else v
      else t
    let s2 := (List.finRange 32).foldl read s1
    .next { s2 with patrol := (s2.patrol.filter fun p => p.1 != ch.val) ++ [(ch.val, (row + 1) % 1048576)] }

end Sys2Proof.Machine
end

