-- ==== Sys2Proof/Machine/Resets.lean ====
section
/-!
DEFINITION. Bring-up (R371), compute reset and the loss of the compute rails (R340, R417, R430), thermal control (R432, R433), and the host
link.
-/
namespace Sys2Proof.Machine

-- Compute reset.
/-- A launch has records here that have not retired, or members that it has not pushed. -/
def State.lostOf (s : State) (l : Launch) : List Rec := s.recs.filter fun r => r.lid == l.lid && r.state != .retired && r.state != .lost

/-- A launch that a loss of compute cuts short (R340): its records on the package are reported lost with their WID. The completion record is written
with them, but for a launch over several chips, whose members on other packages run on and complete it. -/
def loseLaunch (s : State) (l : Launch) : State :=
  if l.done then s
  else
    let a : Fin 64 := Fin.ofNat 64 l.asid
    let gone := s.lostOf l
    let report (s : State) (r : Rec) : State :=
      s.faultRec a 0x22 0 (match r.core with | some n => n | none => 0xFF) 0xFF 0xFF r.wid l.tag 0 0 0 0
    let m := { l with lost := l.lost + (gone.filter Rec.member).length + (l.members - l.nextMember) }
    let s1 := gone.foldl report s
    if l.nchips ≠ 1 then s1
    else match s1.writeVirt a l.tag l.compl (m.record m.finalStatus) with
      | (.ok t, _) => if l.flags.getLsbD 4 then { t with msi := t.msi ++ [bits 13 8 (s.ctxs[a]).flags.toNat] } else t
      | (_, t) => t

/-- A local copy cut short by a loss of compute (R340): each byte that it had yet to write may have been written (log entry 107). -/
def State.cutCopy (s : State) (p : CoreId × Eng) : State :=
  let u := { s with at_ := { s.at_ with core := p.1, eng := p.2 } }
  let cut (c : Cmd) (j : CopyJob) : State :=
    if j.remote.isSome then u
    else engAccess c (j.pieces.flatMap fun q => q.src.vas q.n) (j.pieces.flatMap fun q => q.dst.vas q.n) u fun ps qs t =>
      let bs := j.pieces.flatMap fun q => match q.dst with
        | .va x => (pieceBytes ps qs t q).mapIdx fun i b => ((x + i) % 2 ^ 64, b)
        | .tile _ _ => []
      let some_ := ((bs.mapIdx fun i b => (Config.cutByte t.fresh i, b)).filter Prod.fst).map Prod.snd
      { t with fresh := t.fresh + 1 }.copyPut c.spec j.scope
        (originOf (some (c.spec.lid, c.spec.seq)) t.datum (t.cmdAsid c.spec) .line qs (some_.map Prod.fst)) (plainBytes qs some_)
  let v := match u.eng.cmd with
    | some c => (match c.job with
      | some (.copy j) => cut c j
      | _ => u)
    | none => u
  { v with at_ := s.at_ }

/-- The copies in progress of every channel cut short. -/
def State.cutCopies (s : State) : State :=
  ((List.finRange 32).flatMap fun n => (List.finRange 27).map fun e => (n, e)).foldl State.cutCopy s

/-- The tiles fenced by MCFENCE (R2, R397). -/
def State.mcFence (s : State) (t : TileId) : Bool := (s.mc.fence[Fin.ofNat 8 (t.val / 64)]).getLsbD (t.val % 64)

/-- Every tile as its die leaves reset: fenced where MCFENCE says so, else with its levelling requested (R371, R393). -/
def State.freshTiles (s : State) (ask : Bool) : Vector TileRegs 512 :=
  vall s.tile fun t r => { TileRegs.reset t.val with fenced := s.mcFence t, pending := ask && !s.mcFence t, since := s.datum, temp := r.temp }

/-- What a compute reset clears (R340, R166, R381, R417): the cores with their engines, the tiles and race dies, scratchpads and accumulators,
lattice replicas and slots, contexts, translations, launches and the package's registers; HBM, the page tables there, the island and the
datum stay; CYC restarts (R3). Packets for a local endpoint are answered ABSENT, and an ATTACHED island drains. The management controller
keeps its registers (log entry 58). -/
def State.clearCompute (ask : Bool) (s : State) : State :=
  let s1 := s.launches.foldl loseLaunch s.cutCopies
  let s2 := (s1.island.inbox.foldl (fun s p => s.answerAbsent p 2) s1).settleSeen
  { s2 with
    cores := Vector.replicate 32 Core.reset
    tile := s2.freshTiles ask
    rdie := Vector.replicate 8 RDie.reset
    mem := s2.mem.filter fun x => decide (x.1 < linTop)
    bad := s2.bad.filter fun b => decide (b.1 < linTop)
    weak := s2.weak.filter fun w => decide (w.place < linTop)
    inflight := [], lat := [], dirty := [], carried := [], sysDirty := [], slots := [], tlb := [], wcache := []
    ctxs := Vector.replicate 64 Ctx.reset
    launches := [], recs := [], coll := []
    pkg := PkgRegs.reset
    trace := Trace.reset
    mc := { s2.mc with locks := [] }
    cyc := 0, posts := [], hostHeld := [], patrol := [], issued := [], iss := Iss.reset
    island := { s2.island with inbox := [], cpres := false, state := if s2.island.state = .attached then .draining else s2.island.state } }

/-- The notice of a loss of compute (R430): a record in the reliability log, whose type R398 does not list (log entry 57), and MSI-X vector 0
of ASID 0. -/
def State.noticeLoss (s : State) : State :=
  let f := Config.lossField
  let t := s.relLog (f 0) (f 1) (f 2) (f 3) (f 4) (f 5) (f 6) (f 7)
  { t with msi := t.msi ++ [0] }

/-- COMPUTE_RESET (R340, R417). -/
def execEvComputeReset (s : State) : Res := .next (if s.power then s.noticeLoss.clearCompute true else s)

/-- FUNCTION_LEVEL_RESET (R371): a compute reset; the island and the datum stay. -/
def execEvFunctionLevelReset (s : State) : Res := .next (if s.power && s.hostLink.isSome then s.clearCompute true else s)

/-- The compute rails go away (R416, R430). -/
def State.railLoss (s : State) : State := { s.noticeLoss.clearCompute false with power := false, hostLink := none }

/-- COMPUTE_RAIL_LOSS (R416, R430). -/
def execEvComputeRailLoss (s : State) : Res := .next (if s.power then s.railLoss else s)

-- Bring-up.
/-- COMPUTE_RAIL_UP (R371): once the island is out of TRAIN, the dies leave reset, and levelling of every tile is requested. -/
def execEvComputeRailUp (s : State) : Res :=
  .next (if s.power ∨ s.island.state = .off ∨ s.island.state = .train then s else { s with power := true, tile := s.freshTiles true })

/-- COMPUTE_RESET_COMPLETE (R430): every tile is levelled, and compute is present. -/
def execEvComputeResetComplete (s : State) : Res :=
  let levelled := (vlist s.tile).all fun r => r.fenced || r.dead || (!r.pending && !r.lvl)
  .next (if s.power && levelled then s.onIsland fun i => { i with cpres := true } else s)

/-- PCIE_LINK_TRAINS (R371): at 7.0 or 6.0, ×16 or ×8, once compute is present. -/
def execEvPcieLinkTrains (gen7 wide16 : Bool) (s : State) : Res :=
  .next (if s.island.cpres then { s with hostLink := some (gen7, wide16) } else s)

/-- PTM_DIALOGUE (R422): DPTM takes the datum. -/
def execEvPtmDialogue (s : State) : Res :=
  .next (if s.hostLink.isSome && s.island.state != .off then s.onIsland fun i => { i with dptm := i.datum } else s)

-- Thermal control.
/-- The cap after a sample (R432): four tiles down to no less than 4 at a limit, four up to 64 once 5% below both. -/
def nextCap (cap : Nat) (temp : Int) (watts pcap : Nat) : Nat :=
  if 1600 ≤ temp ∨ pcap < watts then Nat.max 4 (cap - 4)
  else if temp ≤ 1520 ∧ 100 * watts ≤ 95 * pcap then Nat.min 64 (cap + 4)
  else cap

/-- THERMAL_SAMPLE (R432, R433): the hottest die and its temperature, the hottest race die and its own, module power, coolant flow and inlet.
The cap follows the race die, which a change of it names (log entry 138), and at 110 °C of any die the compute rails are removed. -/
def execEvThermalSample (hot : HotDies) (watts flow : BitVec 16) (tin : BitVec 16) (s : State) : Res :=
  let (die, temp) := if hot.temp.toInt < hot.rtemp.toInt then (1 + hot.race.val, hot.rtemp) else (hot.die.val, hot.temp)
  let cap := nextCap s.mc.cap hot.rtemp.toInt watts.toNat s.mc.pcap.toNat
  let s1 : State := { s with mc := { s.mc with
    tmax := temp, pwr := watts, flow := flow, tin := tin, cap := cap, capms := if cap < 64 then s.mc.capms + 1 else s.mc.capms } }
  let s2 := if cap = s.mc.cap then s1 else s1.capture 12 0xFF 0 (BitVec.ofNat 64 (1 + hot.race.val + 256 * cap))
  if 1760 ≤ temp.toInt ∧ s.power then
    .next (({ s2 with mc := { s2.mc with trips := s2.mc.trips + 1 } } : State).capture 13 0xFF 0 (BitVec.ofNat 64 die)).railLoss
  else .next s2

end Sys2Proof.Machine
end

