-- ==== Sys2Proof/Machine/Time.lean ====
section
/-!
DEFINITION. One clk of the package (R3): CYC, the datum and its shadow (R323, R422 to R424), the crossbars, the drought counts (R222,
R348), the queue-head counters (R57, R408), the class-0 buckets (R426), and the stores that become visible.
-/
namespace Sys2Proof.Machine

/-- A tick in the unit of the fractional accumulators (R422). -/
def tickUnits : Nat := 21000000000

/-- The rate trim DRATE.PPB as an integer (R418). -/
def Island.ppb (i : Island) : Int := i.rate.toInt

/-- What one clk slews out: at most 1,000 ppm on a root (R422; log entry 30), 200 ppm towards a parent (R423). -/
def Island.slewStep (i : Island) : Int :=
  let most : Int := if i.root then 10000000 else 2000000
  sat (-most) most i.slew

/-- One clk of the island's own counter: it counts while the island is up (R422). -/
def Island.count (i : Island) : Island :=
  match i.state with
  | .off => i
  | _ =>
    let d := i.slewStep
    let f : Int := i.frac + 10 * (1000000000 + i.ppb) + d
    { i with datum := i.datum + BitVec.ofNat 64 (f.toNat / tickUnits), frac := f.toNat % tickUnits, slew := i.slew - d }

/-- One clk of the shadow (R323, R424): 1 tick per 2.1 clk, at half rate while it is ahead of the island, until the two meet. -/
def Island.shadowCount (i : Island) : Island :=
  if i.shadowing || i.ahead then
    let f := i.shadowFrac + (if i.shadowing then 10000000000 else 5000000000)
    let v := i.shadow + BitVec.ofNat 64 (f / tickUnits)
    { i with shadow := v, shadowFrac := f % tickUnits, ahead := !i.shadowing && decide (i.datum.toNat < v.toNat) }
  else i

/-- The class-0 buckets refill by 16/3 byte a clk, to 4 KiB (R426). -/
def Island.refill (i : Island) : Island :=
  { i with ports := vall i.ports fun _ p => { p with bucket := Nat.min 12288 (p.bucket + 16) } }

/-- The waits during which the drought count stands still (R222, R348): a sleep, an LWAIT, and an access held on its translation; a held fetch
is neither. -/
def Hold.stopsDrought : Hold → Bool
  | .sleep _ => true
  | .lwait _ _ _ _ _ _ => true
  | .translation _ _ _ fetching => !fetching
  | _ => false

/-- One clk of a cluster that runs a strand: the drought count (R222), and the age of the requests that the ports have refused (R38). -/
def Cluster.clk (c : Cluster) : Cluster :=
  { c with
    drought := if c.hold.stopsDrought then c.drought else c.drought + 1
    age := Vector.ofFn fun p => if c.refused.getLsbD p.val then c.age[p] + 1 else 0
    refused := 0 }

/-- A queue-head counter increased by one (R408). -/
def bump (addr : Nat) (l : List (Nat × Word)) : List (Nat × Word) :=
  if l.any fun p => p.1 == addr then l.map fun p => if p.1 == addr then (p.1, p.2 + 1) else p else l ++ [(addr, 1)]

/-- The counters that a queue head's state advances (R57, R408). -/
def HeadState.counters (e : Eng) : HeadState → List Nat
  | .issuing => [0x100 + 4 * e.val]
  | .ready _ => [0x100 + 4 * e.val]
  | .readyCopy _ _ _ => [0x100 + 4 * e.val]
  | .flag f => [0x101 + 4 * e.val, 0x180 + f.val]
  | .busy r => [0x102 + 4 * e.val, 0x1C0 + 8 * e.val + r]
  | .empty => [0x103 + 4 * e.val]

/-- One clk of a core's queue-head counters. -/
def State.countHeads (n : CoreId) (s : State) : State :=
  if (s.cores[n]).frz then s
  else
    let addrs := (List.finRange 27).flatMap fun e => (s.headState n e).counters e
    s.coreUpd n fun k => { k with qctr := addrs.foldl (fun l a => bump a l) k.qctr }

/-- One clk of a core. -/
def State.coreClk (s : State) (n : CoreId) : State :=
  let s1 := s.xbTick n
  s1.coreUpd n fun k =>
    let k1 := { k with granted := Vector.replicate 4 0, eng := vall k.eng fun _ g => { g with waitLeft := false } }
    if k.run.isSome && !k.haltd then { k1 with clu := vall k.clu fun _ c => if c.halted then c else c.clk } else k1

/-- One clk of the package: CYC counts from compute reset on (R3), the units work while compute is present (R417). The island's 1.6 GHz clock is
independent of clk (R3); the model has none of its own for it and advances the datum with clk (log entry 105). -/
def State.clk (s : State) : State :=
  let s1 := { s with island := s.island.count.shadowCount.refill, issued := [] }.resendDue
  if !s1.power then s1
  else if !s1.island.cpres then { s1 with cyc := s1.cyc + 1 }
  else
    let s2 := (List.finRange 32).foldl (fun s n => s.countHeads n) s1.lwaitTicks
    ((List.finRange 32).foldl State.coreClk { s2 with cyc := s2.cyc + 1 }).drainAll.repost

/-- Several clk. -/
def State.clks : Nat → State → State
  | 0, s => s
  | k + 1, s => s.clk.clks k

end Sys2Proof.Machine
end

