-- ==== Sys2Proof/Machine/IslandEvents.lean ====
section
/-!
DEFINITION. The transit island's own steps: its states (R416, R417), the shadow datum (R323, R424), the datum's alignment and discipline
(R422, R423), and its links (R418, R425, R429).
-/
namespace Sys2Proof.Machine

-- States.
/-- The island is no longer the local datum (R323, R416): the shadow goes on from the local datum's value. -/
def Island.shade (d : Word) (i : Island) : Island :=
  if i.shadowing then i else { i with shadow := d, shadowFrac := if i.ahead then i.shadowFrac else i.frac, shadowing := true, ahead := false }

/-- The island's registers at reset, its counter, ports and shadow apart (R417, R418): COORD may be written again, ROOT is as strapped. -/
def Island.clear (i : Island) : Island :=
  { Island.reset with
    state := i.state, cpres := i.cpres, datum := i.datum, frac := i.frac, trained := i.trained, ports := i.ports
    shadow := i.shadow, shadowFrac := i.shadowFrac, shadowing := i.shadowing, ahead := i.ahead, jumped := i.jumped, resend := i.resend }

/-- ISLAND_RAIL_UP (R416): OFF to TRAIN. -/
def execEvIslandRailUp (s : State) : Res :=
  .next (if s.island.state = .off then s.onIsland fun i => { i with state := .train, ports := vall i.ports fun _ p => { p with lstate := 1 } } else s)

/-- ISLAND_RAIL_LOSS (R416, R323): to OFF; what the island held is gone, and compute goes on with the shadow. -/
def execEvIslandRailLoss (s : State) : Res :=
  .next (s.onIsland fun i =>
    let j := i.shade s.datum
    { Island.reset with state := .off, cpres := j.cpres, shadow := j.shadow, shadowFrac := j.shadowFrac, shadowing := true, jumped := j.jumped })

/-- A write of ICMD that the island refuses (R418, R390): its record names the value written. -/
def refuseIcmd (v : Word) (s : State) : Res := .next (s.refusedWrite (regOff 41 0x801) v.toNat)
/-- The write of ICMD that gives an OP alone. -/
def icmdOf (op : Nat) : Word := BitVec.ofNat 64 (op * 2 ^ 60)

/-- The local datum at ATTACH (R424): a shadow behind the island steps forward, one ahead goes on at half rate until the two meet. -/
def Island.rejoin (i : Island) : Island :=
  if !i.shadowing then i
  else if i.datum.toNat < i.shadow.toNat then { i with shadowing := false, ahead := true }
  else { i with shadowing := false, ahead := false, jumped := if i.shadow = i.datum then i.jumped else some (i.shadow, i.datum) }

/-- ATTACH written as some value of ICMD (R416): FORWARD-ONLY to ATTACHED, with compute present; else refused. -/
def attachBy (v : Word) (s : State) : Res :=
  if s.island.state = .forwardOnly ∧ s.island.cpres then .next (s.onIsland fun i => { i.rejoin with state := .attached }) else refuseIcmd v s
/-- ATTACH (R416). -/
def execEvAttach (s : State) : Res := attachBy (icmdOf 1) s

/-- DETACH written as some value of ICMD (R416): ATTACHED to DRAINING; else refused. -/
def detachBy (v : Word) (s : State) : Res :=
  if s.island.state = .attached then .next (s.onIsland fun i => { i with state := .draining }) else refuseIcmd v s
/-- DETACH (R416). -/
def execEvDetach (s : State) : Res := detachBy (icmdOf 2) s

/-- ISLAND_RESET (R416, R417, R418): from any state to TRAIN; every port retrains, undelivered packets are answered, the datum goes on, and
packets held at admission or held back still wait (R426, R429). -/
def execEvIslandReset (s : State) : Res :=
  let s1 := s.island.inbox.foldl (fun s p => s.answerAbsent p 0) s
  .next (s1.onIsland fun i =>
    { (i.shade s.datum).clear with state := .train, ports := vall i.ports fun _ p => { Port.reset with lstate := 1, wait0 := p.wait0, sent := p.sent } })

/-- A packet of this chip still waits to leave (R416). -/
def Island.outbound (i : Island) : Bool := (vlist i.ports).any fun p => p.wait0.any fun x => x.src = i.me

/-- ISLAND_DRAIN_END (R416): DRAINING to FORWARD-ONLY once nothing local waits to leave. -/
def execEvIslandDrainEnd (s : State) : Res :=
  .next (if s.island.state = .draining ∧ !s.island.outbound then s.onIsland fun i => { i with state := .forwardOnly } else s)

/-- Every extent in COORD is 1. -/
def Island.alone (i : Island) : Bool := i.ext = ⟨1, 1, 1, 1⟩

/-- The datum is settled (R416). -/
def Island.settled (i : Island) : Bool := i.root || i.alone || (i.lock && (vlist i.ports).any fun p => p.lstate == 2)

/-- TRAIN_COMPLETE (R416, R423): TRAIN to FORWARD-ONLY once the datum is settled. The first TRAIN is over. -/
def execEvTrainComplete (s : State) : Res :=
  .next (if s.island.state = .train ∧ s.island.settled then s.onIsland fun i => { i with state := .forwardOnly, trained := true, lock := i.lock || i.root || i.alone }
    else s)

-- Links.
/-- The port towards the neighbour on the route to the datum's root (R423). -/
def Island.towards (i : Island) (root : Coord) : Option PortId := (i.route ⟨i.me, root, true, [], [], .timing false⟩).map Prod.fst

/-- A link that goes down: the packets that wait to leave by it take their routes anew (R429), and a chip whose parent it led to takes the next
neighbour on its route to the root (R423; log entry 136). -/
def State.dropLink (k : PortId) (lstate : BitVec 2) (s : State) : State :=
  let waiting := (s.island.ports[k]).wait0
  let s1 := s.onPort k fun q => { q with lstate := lstate, wait0 := [], ncpres := false, recent := [] }
  let s2 := s1.onIsland fun i => if !i.root && i.parent == k then { i with parent := (i.towards i.rootAt).getD k } else i
  waiting.foldl (fun s p => s.sendPacket p) s2

/-- A port of a dimension of extent 1 is unused (R420). -/
def Island.unused (i : Island) (k : PortId) : Bool := i.coordSet && coordAt i.ext (Fin.ofNat 4 (k.val / 2)) == 1

/-- PORT_UP (R416): the acting port has finished training, and joins without a change of state. -/
def execEvPortUp (s : State) : Res :=
  .next (if s.island.state = .off || s.island.unused s.at_.port then s else s.onPort s.at_.port fun q => { q with lstate := 2 })

/-- LINK_DOWN (R429, R423): routes through the acting port reroute. -/
def execEvLinkDown (s : State) : Res := .next (if s.island.state = .off then s else s.dropLink s.at_.port 0)

/-- A port that retrains (R418). -/
def State.retrain (k : PortId) (s : State) : State := (s.dropLink k 1).onPort k fun q => { q with retrain := q.retrain + 1 }

/-- RETRAIN_PORT (R418): ICMD names the acting port. -/
def execEvRetrainPort (s : State) : Res := .next (if s.island.state = .off then s else s.retrain s.at_.port)

/-- The replays of a port within the last ms of a datum, `n` of that datum included (R425). -/
def Port.replaysAt (now : Word) (n : Nat) (p : Port) : List Word :=
  (p.recent.filter fun d => decide ((now - d).toNat < 1000000)) ++ List.replicate n now

/-- FLIT_REPLAY (R425): a flit is replayed, and `more` times again where its CRC fails again; each replay is counted, and a link with more than
1,024 within 1 ms retrains. -/
def execEvFlitReplay (more : Nat) (s : State) : Res :=
  let k := s.at_.port
  if s.island.state = .off ∨ (s.island.ports[k]).lstate ≠ 2 then .next s
  else
    let recent := (s.island.ports[k]).replaysAt s.datum (more + 1)
    let s1 := s.onPort k fun q => { q with replay := q.replay + BitVec.ofNat _ (more + 1), recent := recent }
    .next (if recent.length > 1024 then s1.retrain k else s1)

-- The datum.
/-- A signed number kept within 32 bits. -/
def sat32 (x : Int) : BitVec 32 := BitVec.ofInt 32 (sat (-(2 ^ 31)) (2 ^ 31 - 1) x)

/-- DATUM_ALIGN (R423): the exchange with the parent, the neighbour over the acting port when that is the one on the route to the root, which has
found the parent's datum in 1/16 tick. This chip's message of the two leaves in class 0. On the first entry to TRAIN the counter loads the
parent's value; else it slews to it. LOCK is set within 2 ticks. A root keeps its own. -/
def execEvDatumAlign (parent : DatumReading) (s : State) : Res :=
  let i := s.island
  let k := s.at_.port
  if i.state = .off || i.root || i.alone || (i.ports[k]).lstate != 2 || i.towards parent.root != some k then .next s
  else
    let s1 := s.emit k ⟨i.me, i.neighbour k, true, [], [], .timing false⟩
    if i.state = .train ∧ !i.trained then
      .next (s1.onIsland fun i => { i with
        datum := parent.datum, frac := parent.frac.val * (tickUnits / 16), slew := 0, skew := 0, parent := k, rootAt := parent.root, trained := true, lock := true })
    else
      let off := 16 * (i.datum - parent.datum).toInt + (i.frac * 16 / tickUnits : Nat) - (parent.frac.val : Int)
      .next (s1.onIsland fun i => { i with
        parent := k, rootAt := parent.root, slew := -off * ((tickUnits / 16 : Nat) : Int), skew := sat32 off, lock := i.lock || decide (off.natAbs ≤ 32) })

/-- DATUM_OFFSET_WRITE (R422): DOFFS is slewed out; while ATTACHED one beyond ±2^20 ticks is refused. -/
def execEvDatumOffsetWrite (v : BitVec 64) (s : State) : Res :=
  if s.island.state = .off then .next s
  else if s.island.state = .attached ∧ v.toInt.natAbs > 2 ^ 20 then .next (s.refusedWrite (regOff 41 0x804) v.toNat)
  else .next (s.onIsland fun i => { i with slew := i.slew + v.toInt * tickUnits })

/-- DATUM_ROOT_WRITE (R422): DSTAT.ROOT. The new root counts freely and is in lock; the old one slews to its new parent. -/
def execEvDatumRootWrite (root : Bool) (s : State) : Res :=
  if s.island.state = .off then .next s
  else if root = s.island.root then .next (s.onIsland fun i => { i with lock := i.lock || root })
  else .next (s.onIsland fun i => { i with root := root, lock := root, slew := 0 })

end Sys2Proof.Machine
end

