-- ==== Sys2Proof/Machine/Race.lean ====
section
/-!
DEFINITION. Races (R110 to R112, R307) and table products (R108, R109, R308).
-/
namespace Sys2Proof.Machine

-- Keys (R111).
/-- Bits of a key type, and whether it is signed or a float. -/
def keyWidth : Key → Nat
  | .n8 => 8
  | .i8 => 8
  | .n16 => 16
  | .i16 => 16
  | .fp16 => 16
  | .bf16 => 16
  | .n32 => 32
  | .i32 => 32
  | .fp32 => 32
  | .n64 => 64
  | .i64 => 64
def keySigned : Key → Bool
  | .i8 => true
  | .i16 => true
  | .i32 => true
  | .i64 => true
  | _ => false
def keyFloat : Key → Bool
  | .fp16 => true
  | .bf16 => true
  | .fp32 => true
  | _ => false

/-- The order key of a key's bits (R111). -/
def orderKey (k : Key) (x : Nat) : Nat :=
  let w := keyWidth k
  let neg := nbit (w - 1) x
  if keySigned k then x ^^^ 2 ^ (w - 1)
  else if keyFloat k then (if neg then 2 ^ w - 1 - x else x ^^^ 2 ^ (w - 1))
  else x

/-- The digits of a key type (R111). -/
def keyDigits (k : Key) : Nat := ceilDiv (keyWidth k) 10
/-- Digit `d` of an order key, padded on the right (R111). -/
def digitOf (k : Key) (u d : Nat) : Nat := u * 2 ^ (10 * keyDigits k - keyWidth k) / 2 ^ (10 * (keyDigits k - 1 - d)) % 1024

-- Passes (R110, R112).
/-- The columns of a prefix group. -/
def groupSize (ps : List (Nat × Nat)) (x : Nat) : Nat := (ps.filter fun p => p.2 == x).length
/-- The columns that rank before a prefix group. -/
def groupRank (ps : List (Nat × Nat)) (x : Nat) : Nat := (ps.filter fun p => decide (p.2 < x)).length
/-- The columns that a pass races, from the digits raced so far: for RMIN and RMAX the candidates, for RSORT the groups of more than one,
for RTOPK those of them that hold a rank below k (log entry 49). Kinds: 0 RMIN, 1 RMAX, 2 RSORT, 3 RTOPK. -/
def racers (kind k : Nat) (ps : List (Nat × Nat)) : List Nat :=
  let least := (ps.map Prod.snd).foldl Nat.min ((ps.headD (0, 0)).2)
  (ps.filter fun p =>
    if kind < 2 then p.2 == least && decide (groupSize ps least > 1)
    else decide (groupSize ps p.2 > 1) && (kind == 2 || decide (groupRank ps p.2 < k))).map Prod.fst

/-- The columns in the order of the race (R110, R112). -/
def raceOrder (ps : List (Nat × Nat)) : List Nat :=
  (sortBy (fun a b => decide (a.2 < b.2) || (a.2 == b.2 && decide (a.1 ≤ b.1))) ps).map Prod.fst

/-- A race word (R307): its operands, `n` and `k` within their limits; then its passes begin. -/
def raceWord (i : Instr) (need kind : Nat) (key : Key) (lf : Bool) (s : State) : Res :=
  inWord i need s fun c =>
    let k := if kind = 3 then (c.stk.headD 0).toNat else 1
    let n := (c.stk.getD (if kind = 3 then 1 else 0) 0).toNat
    let out := c.stk.getD (if kind = 3 then 2 else 1) 0
    let keys := c.stk.getD (need - 1) 0
    use1 ⟨false, 1, some 0⟩ keys s fun h t =>
      let bad := n == 0 || decide (n > 256) || k == 0 || decide (k > n) || decide (n * (keyWidth key / 8) > h.size t)
      let job := startJob c (.race kind keys out key n k lf 0 ((upto n).map fun c => (c, 0))) s
      if bad then wordFault .illegalWord s
      else if kind < 2 then .next job
      else use1 ⟨true, 1, some 0⟩ out s fun g u =>
        if (if kind = 2 then 4 * n else 2 * k) > g.size u then wordFault .illegalWord s else .next job

/-- RMIN (R307, R112). -/
def execWRmin (k : Key) (s : State) : Res := raceWord (.wRmin k) 2 0 k false s
/-- RMAX (R307, R112). -/
def execWRmax (k : Key) (s : State) : Res := raceWord (.wRmax k) 2 1 k false s
/-- RSORT (R307, R112). -/
def execWRsort (k : Key) (s : State) : Res := raceWord (.wRsort k) 3 2 k false s
/-- RTOPK (R307, R112). -/
def execWRtopk (k : Key) (lf : Bool) (s : State) : Res := raceWord (.wRtopk k lf) 4 3 k lf s

/-- The race is decided: its results (R307). -/
def endRace (kind : Nat) (key : Key) (keys out : Word) (n k : Nat) (ps : List (Nat × Nat)) (s : State) : Res :=
  let order := raceOrder ps
  if kind < 2 then
    use1 ⟨false, 1, some 0⟩ keys s fun h t =>
      let col := order.headD 0
      .next (endJob 2 [BitVec.ofNat 64 (opVal h t (keyWidth key / 8) col), BitVec.ofNat 64 col] (s.touchOps [h]))
  else
    use1 ⟨true, 1, some 0⟩ out s fun g u =>
      let half (xs : List Nat) : List Byte := xs.flatMap fun x => leBytes 2 x
      let bs := if kind = 2 then half ((upto n).map fun c => (order.takeWhile fun d => d != c).length) ++ half order else half (order.take k)
      .next (endJob (kind + 1) [] (s.writeOp g u 0 bs))

/-- A column's prefix with one more digit. -/
def prefixWith (read : List (Nat × Nat)) (p : Nat × Nat) : Nat × Nat := (p.1, 1024 * p.2 + (match read.find? fun q => q.1 == p.1 with
  | some q => q.2
  | none => 0))

/-- One pass of the race in progress (R110, R112): the digits of the columns that race go into their key registers, one conversion reads each
back under R89 (log entry 106), `misread` naming those that its checks look at, and the readings extend the columns' prefixes; the last pass
decides the race. -/
def racePass (misread : List (Nat × Nat)) (s : State) : Res :=
  match s.eng.cmd with
  | none => .next s
  | some c => match c.job with
    | some (.race kind keys out key n k lf pass ps) =>
      let now := racers kind k ps
      if now = [] ∨ pass ≥ keyDigits key then endRace kind key keys out n k ps s
      else use1 ⟨false, 1, some 0⟩ keys s fun h t =>
        let digit (col : Nat) : Nat :=
          let d := digitOf key (orderKey key (opVal h t (keyWidth key / 8) col)) pass
          if kind = 1 ∨ (kind = 3 ∧ lf) then 1023 - d else d
        let loaded := now.map fun col => (col, digit col)
        let exact (i : Nat) : Nat := (loaded.getD i (0, 0)).2
        let chk := checksOf exact now.length c.spot misread
        let read := loaded.mapIdx fun i p => (p.1, match (wrongIn chk).find? fun q => q.1 == i with
          | some q => (readingOf q.2).1
          | none => p.2)
        let ps1 := ps.map (prefixWith read)
        let (spot, sel) := spotSteps now.length c.spot
        let s1 := (((s.touchOps [h]).countConvs s.tileId now.length (usesIn chk) sel).onEng fun e => { e with
          keys := loaded ++ e.keys.filter fun q => !(now.contains q.1)
          cmd := e.cmd.map fun c => { c with spot := spot, conv := c.conv + now.length, job := some (.race kind keys out key n k lf (pass + 1) ps1) } })
        if silentIn chk ≠ [] then .next (silentErrors c exact (silentIn chk) s1)
        else if racers kind k ps1 = [] ∨ pass + 1 ≥ keyDigits key then endRace kind key keys out n k ps1 s1 else .next s1
    | _ => .next s

/-- RACE_PASS (R110, R112): a pass of which no conversion is looked at by the checks of R89; the turn `race` takes one with those that are
(log entry 96). -/
def execEvRacePass (s : State) : Res := racePass [] s

-- Tables (R108, R109, R308).
/-- Bits of a table weight code, and its value (R108). -/
def tblBits (wfmt : Nat) : Nat := if wfmt = 4 then 1 else 2
def tblValue (wfmt c : Nat) : Int :=
  if wfmt = 4 then (if c = 0 then -1 else 1)
  else if wfmt = 3 then (if c = 3 then -1 else if c = 1 then 1 else 0)
  else toSigned 2 c

/-- A table entry (R108). -/
def tblEntry (w : Nat → Int) (e : Nat) : Int := (upto 4).foldl (fun a i => if nbit i e then a + w i else a) 0

/-- Under the table path only (R99, R308). -/
def needTable (s : State) (k : Desc → Res) : Res := needDesc s fun d => if d.path then k d else wordFault .precision s

/-- TBLD (R308, R108): the image and its scales, at the place that the descriptor names. -/
def execWTbld (big : Bool) (s : State) : Res :=
  inWord (.wTbld big) 2 s fun c => needTable s fun d =>
    use2 ⟨false, 1, some 3⟩ (c.stk.getD 1 0) ⟨true, 1, some 4⟩ (c.stk.headD 0) s fun h t g u =>
      let b := tblBits d.wfmt
      let off := align64 (131072 * b / 8)
      if g.h ≠ d.timg ∨ g.row0 ≠ d.trow ∨ off + 4096 > h.size t ∨ 528384 > g.size u then wordFault .illegalWord s
      else
        let w (j k : Nat) : Int := tblValue d.wfmt (opField h t 0 b (512 * j + k))
        let image := (upto 256).flatMap fun j => (upto 128).flatMap fun q => (upto 16).map fun e =>
          BitVec.ofInt 8 (tblEntry (fun i => w j (4 * q + i)) e)
        nextWith c (c.stk.drop 2) ((s.touchOps [h]).writeOp g u 0 (image ++ opBytes h t off 4096))

/-- The exact sum of a row, column and block (R109). -/
def tblSum (ba : Nat) (act : Nat → Nat) (entry : Nat → Nat → Int) (b : Nat) : Int :=
  (upto ba).foldl (fun a p => (upto 8).foldl (fun a i =>
    let q := 8 * b + i
    let e := (upto 4).foldl (fun n k => if nbit p (act (4 * q + k)) then n + 2 ^ k else n) 0
    let t := entry q e
    a + (if p = ba - 1 then -t else t) * 2 ^ p) a) 0

/-- The accumulator after a TBL (R109): rows, columns, and blocks in order. -/
def tblRun (d : Desc) (sh : Shape) (h : Hdr) (t : TileEnt) (img : Hdr) (im : TileEnt) (row0 : Nat) (u : TileEnt) : TileEnt × List (Nat × FpFlags) :=
  let ba := actBits d.afmt
  let base := img.base im
  (upto sh.m).foldl (fun p m => (upto sh.n).foldl (fun p j => (upto (sh.k / 32)).foldl (fun p b =>
    let dd := tblSum ba (fun k => opField h t 0 ba (m * sh.k + k)) (fun q e => toSigned 8 (im.byte (base + 2048 * j + 16 * q + e)).toNat) b
    accStep d (row0 + m) j dd false (actScale d sh h t m b) (im.byte (base + 524288 + 16 * j + b)).toNat p) p) p) (u, [])

/-- The image that TBL reads (R308): its entry, on this tile and ENGINE-owned; `none` for the owner fault. -/
def imageOfDesc (d : Desc) (s : State) : Option TileEnt :=
  match s.core.tile s.engAsid d.timg with
  | some t => if t.level = 1 ∧ t.home = s.at_.eng.val ∧ t.owner then some t else none
  | none => none

/-- TBL (R308, R109): the word holds while another command declares a write range that overlaps the image. -/
def execWTbl (big aclr : Bool) (s : State) : Res :=
  inWord (.wTbl big aclr) 2 s fun c => needTable s fun d =>
    match imageOfDesc d s, s.eng.desc with
    | some im, some dv =>
      let img := imageHdr dv im.rowBytes
      let writers := s.imageWriters s.at_.core c.spec img
      let ordered (w : Eng × CmdSpec) : Bool :=
        let hs := d.timg :: sharedHandles (s.ranges s.at_.core w.1 w.2) (s.ranges s.at_.core s.at_.eng c.spec)
        if w.2.stamp < c.spec.stamp then s.ordered s.at_.core hs w.2 c.spec else s.ordered s.at_.core hs c.spec w.2
      if s.detLaunch c.spec && writers.any fun w => !(ordered w || s.killed s.at_.core w.2) then wordFault .overlap s
      else if writers ≠ [] then .next s
      else
        let sh : Shape := ⟨.table, if big then 256 else 64, 256, 512⟩
        useAcc aclr (c.stk.getD 1 0) (c.stk.headD 0) s fun h t g u =>
          if g.rows < sh.m ∨ u.cols < sh.n ∨ actEnd d sh > h.size t ∨ img.row0 + img.rows > im.rows then wordFault .illegalWord s
          else match u.ready g d aclr, s.regionBad img im with
            | none, _ => wordFault .precision s
            | _, some p => .next (s.consumedEng c.spec p)
            | some v, none =>
              let (u1, fs) := tblRun d sh h t img im g.row0 v
              nextWith c (c.stk.drop 2) s |> fun r => match r with
                | .next s1 => .next (raiseCols fs (((if aclr then s1.clearedOp g u else s1).touchOps [h, g, img]).onEnt s.at_.core s.engAsid g.h fun _ => u1))
                | r => r
    | _, _ => wordFault .owner s

end Sys2Proof.Machine
end

