-- ==== Sys2Proof/Machine/Registers.lean ====
section
/-!
DEFINITION. The host's register window (R372, R373): writes to registers by their access type (R6), which reach the steps of those that have
a behaviour of their own; what a read shows; the queue-accounting control (R408); the trace streamer's window (R409, R411); and the
memory window (R374).
-/
namespace Sys2Proof.Machine

-- The k-registers of a core (R321, R373).
/-- A saved context as its core showed it, and taken back from there; the credits of engines that no enabled entry names any more are cleared
(R50). -/
def Saved.view (v : Saved) (k : Core) : Core :=
  { k with clu := v.clusters, numctl := v.numctl, fpstat := v.fpstat, memdef := v.memdef, agectl := v.agectl, unpk := v.unpk, tvec := v.tvec, xb := v.xb }
def Saved.take (v : Saved) (k : Core) : Saved :=
  { v with clusters := k.clu, numctl := k.numctl, fpstat := k.fpstat, memdef := k.memdef, agectl := k.agectl, unpk := k.unpk, tvec := k.tvec, xb := k.xb
           credits := v.credits.mapIdx fun i c => if h : i < 27 then (if v.xb.gates ⟨i, h⟩ && !(k.xb.gates ⟨i, h⟩) then 0 else c) else c }

/-- What a core's unit shows (R373): the context that it runs, else the one halted on it, by the debugger or else last. -/
def Core.shown (k : Core) : Core :=
  if k.run.isSome then k
  else match k.saved.find? (fun v => v.debug), k.saved.getLast? with
  | some v, _ => v.view k
  | none, some v => v.view k
  | none, none => k

/-- A write to a k-register of a context, at once; `none` where the register refuses the value (R68, R137, R215, R219, R322). The per-cluster
registers are those of c0, as in the save area (R388; log entry 59). -/
def Core.hostWrite (a : Nat) (w : Word) (k : Core) : Option Core :=
  let c := k.clu[(0 : CluId)]
  let onC (g : Cluster → Cluster) : Option Core := some { k with clu := vmod k.clu 0 g }
  if a = 0 then (if wf_ 10 8 w > 5 then none else some (k.kWrite (a, w)))
  else if a = 2 then (if (wf_ 9 7 w ≠ 0 ∧ wf_ 9 7 w ≠ 4) ∨ wf_ 4 3 w = 3 ∨ wf_ 2 1 w = 3 ∨ (wf_ 2 1 w ≠ 0 ∧ !c.hm) then none else some (k.kWrite (a, w)))
  else if a = 0x10 then (if c.inPiped then none else onC fun c => { c with rrb := w.setWidth 5 })
  else if 0x18 ≤ a ∧ a < 0x20 then
    (if c.lctr[Fin.ofNat 8 (a - 0x18)].act then none
    else onC fun c => { c with lctr := vmod c.lctr (Fin.ofNat 8 (a - 0x18)) fun l => { l with count := w.setWidth 33 } })
  else if a = 0x22 then (if c.hm then onC fun c => { c with trappc := w } else none)
  else if 0x40 ≤ a ∧ a < 0x60 then some { k with xb := { k.xb with evx := vput k.xb.evx (Fin.ofNat 32 (a - 0x40)) (w &&& evxMask (a - 0x40)) } }
  else some (k.kWrite (a, w))

/-- A host write to a k-register: accepted only while the core is halted by DBGHALT (R373). -/
def kWindowWrite (n : CoreId) (a : Nat) (w : Word) (off : Nat) (s : State) : State :=
  let k := s.cores[n]
  match (if k.haltd then k.saved.find? fun v => v.debug else none) with
  | none => s.refusedWrite off w.toNat
  | some v =>
    match (v.view k).hostWrite a w with
    | none => s.refusedWrite off w.toNat
    | some u => s.coreUpd n fun k => { k with
        frz := u.frz, qctr := u.qctr, saved := k.saved.map fun x => if x.run.lid == v.run.lid && x.run.seq == v.run.seq then v.take u else x }

/-- QCTL_CLEAR (R408): a write to QCTL of the acting core; CLR zeroes every counter, FRZ stops counting. -/
def execEvQctlClear (v : BitVec 64) (s : State) : Res := .next (s.onCore fun k => k.kWrite (0x2C0, v))

-- Registers of one field or few.
/-- Bits [hi:lo] of a register's value, the rest zero. -/
def keep (hi lo : Nat) (v : Word) : Word := BitVec.ofNat 64 (wf_ hi lo v * 2 ^ lo)

/-- A race die's registers (R392, R351), `d` its number less one. -/
def raceWrite (d : RaceDie) (ka : Nat) (v : Word) (off : Nat) (s : State) : Res :=
  let t : TileId := Fin.ofNat 512 (64 * d.val + ka % 64)
  let s0 := { s with at_ := { s.at_ with core := coreOfTile t, eng := engOfTile t } }
  let back (r : Res) : Res := match r with | .next u => .next { u with at_ := s.at_ } | e => e
  let s1 := { s with at_ := { s.at_ with core := Fin.ofNat 32 (4 * d.val) } }
  let count (r : TileRegs) : TileRegs := { r with rescnt := v.setWidth 48, winStart := v.setWidth 48 - (r.rescnt - r.winStart) }
  if 0x800 ≤ ka ∧ ka < 0x803 then back (execEvSlewRegisterWrite (Fin.ofNat 3 (ka - 0x800)) v s1)
  else if ka = 0x803 then back (execEvLevellingRequestWrite v s1)
  else if ka = 0x805 then
    (if wf_ 15 0 v = 0 then .next (s.refusedWrite off v.toNat)
    else .next (s.onRDie d fun x => { x with paten := v.getLsbD 63, patintv := v.setWidth 16 }))
  else if ka = 0x806 then .next (s.onRDie d fun x => { x with patskip := v.setWidth 48 })
  else if ka = 0x807 then .next (s.onRDie d fun x => { x with cecnt := v.setWidth 48 })
  else if ka = 0x808 then .next (s.onRDie d fun x => { x with uecnt := v.setWidth 48 })
  else if 0xC00 ≤ ka ∧ ka < 0xC40 then back (execEvTrimTargetWrite v s0)
  else if 0xC80 ≤ ka ∧ ka < 0xCC0 then .next (s.onTile t count)
  else if 0xCC0 ≤ ka ∧ ka < 0xD00 then .next (s.onTile t fun r => { r with spotcnt := v.setWidth 48 })
  else if 0xD00 ≤ ka ∧ ka < 0xD40 then .next (s.onTile t fun r => { r with spoterr := v.setWidth 16 })
  else .next s

/-- A register of unit 40 that locks with its first write (R6, R379). -/
def pkgLock (ka : Nat) (g : PkgRegs → PkgRegs) (s : State) : State :=
  if s.pkg.locks.contains ka then s else { s with pkg := { g s.pkg with locks := ka :: s.pkg.locks } }

/-- CTXCMD (R379). -/
def ctxCmdWrite (v : Word) (s : State) : Res :=
  let a : Fin 64 := Fin.ofNat 64 (wf_ 59 54 v)
  let arg := wf_ 45 0 v
  let s1 := { s with at_ := { s.at_ with asid := a } }
  let back (r : Res) : Res := match r with | .next u => .next { u with at_ := s.at_ } | e => e
  match wf_ 63 60 v with
  | 1 => if arg = 0 then back (execEvActivate s1) else ctxCmd 1 a.val arg s (ctxRefuse 1 a.val arg s)
  | 2 => if arg = 0 then back (execEvRetire s1) else ctxCmd 2 a.val arg s (ctxRefuse 2 a.val arg s)
  | 3 => if arg < 2048 then back (execEvClrslot (Fin.ofNat 64 arg) (BitVec.ofNat 4 (bits 9 6 arg)) (nbit 10 arg) s1) else ctxCmd 3 a.val arg s (ctxRefuse 3 a.val arg s)
  | 4 => back (execEvDump arg s1)
  | op => ctxCmd op a.val arg s (ctxRefuse op a.val arg s)

/-- The registers of unit 40 (R379, R420). -/
def pkgWrite (ka : Nat) (v : Word) (off : Nat) (s : State) : Res :=
  if ka = 0x800 then .next (pkgLock ka (fun g => { g with ctxtab := keep 51 12 v }) s)
  else if ka = 0x801 then .next (pkgLock ka (fun g => { g with fatbase := keep 51 20 v }) s)
  else if ka = 0x802 then .next { s with pkg := { s.pkg with mwbase := keep 38 30 v } }
  else if ka = 0x803 then .next { s with pkg := { s.pkg with dbghalt := v } }
  else if ka = 0x804 then execEvInval v s
  else if ka = 0x807 then execEvXretry v s
  else if ka = 0x808 then ctxCmdWrite v s
  else if 0x810 ≤ ka ∧ ka < 0x820 then execEvSealWrite (Fin.ofNat 16 (ka - 0x810)) v s
  else if ka = 0x820 then execEvXschedWrite none v s
  else if 0x821 ≤ ka ∧ ka < 0x829 then execEvXschedWrite (some (Fin.ofNat 8 (ka - 0x821))) v s
  else if ka = 0x830 then .next (pkgLock ka (fun g => { g with csetbase := keep 51 12 v }) s)
  else if 0x840 ≤ ka ∧ ka < 0x844 then
    (if wf_ 4 0 v < 10 ∨ wf_ 4 0 v > 24 then .next (s.refusedWrite off v.toNat)
    else .next (pkgLock ka (fun g => { g with pqring := vput g.pqring (Fin.ofNat 4 (ka - 0x840)) (keep 51 16 v ||| keep 4 0 v) }) s))
  else .next s

/-- COORD (R418): one chip's coordinates and the extents; `none` where a coordinate is at or above its extent. -/
def coordField (v : Word) : Option (Coord × Coord) :=
  let me : Coord := ⟨wf_ 3 0 v, wf_ 7 4 v, wf_ 11 8 v, wf_ 16 12 v⟩
  let ext : Coord := ⟨wf_ 39 36 v + 1, wf_ 43 40 v + 1, wf_ 47 44 v + 1, wf_ 52 48 v + 1⟩
  if me.x < ext.x ∧ me.y < ext.y ∧ me.z < ext.z ∧ me.w < ext.w then some (me, ext) else none

/-- COORD takes its value (R418): the ports of the dimensions of extent 1 are unused (R420). -/
def State.setCoord (me ext : Coord) (s : State) : State :=
  let s1 := s.onIsland fun i => { i with coordSet := true, me := me, ext := ext }
  ((List.finRange 8).filter fun k => s1.island.unused k && (s1.island.ports[k]).lstate != 0).foldl (fun s k => s.dropLink k 0) s1

/-- The island's registers (R418); none while the island is OFF. -/
def islandWrite (ka : Nat) (v : Word) (off : Nat) (s : State) : Res :=
  let refuse : Res := .next (s.refusedWrite off v.toNat)
  if s.island.state = .off then .next s
  else if ka = 0x801 then
    (match wf_ 63 60 v with
    | 1 => attachBy v s
    | 2 => detachBy v s
    | 3 => execEvIslandReset s
    | 4 => .next (s.retrain (Fin.ofNat 8 (wf_ 2 0 v)))
    | _ => refuse)
  else if ka = 0x802 then
    (match coordField v with
    | none => refuse
    | some (me, ext) => .next (if s.island.coordSet then s else s.setCoord me ext))
  else if ka = 0x804 then execEvDatumOffsetWrite v s
  else if ka = 0x805 then
    (if (v.setWidth 32).toInt.natAbs > 200000 then refuse else .next (s.onIsland fun i => { i with rate := v.setWidth 32 }))
  else if ka = 0x806 then execEvDatumRootWrite (v.getLsbD 0) s
  else if 0x808 ≤ ka ∧ ka < 0x810 then
    .next (s.onPort (Fin.ofNat 8 (ka - 0x808)) fun q => { q with replay := BitVec.ofNat 32 (wf_ 63 32 v), retrain := BitVec.ofNat 16 (wf_ 31 16 v) })
  else if ka = 0x810 then .next (s.onIsland fun i => { i with c0wait := v })
  else .next s

/-- A register of unit 42 that locks with its first write (R6, R397). -/
def mcLock (ka : Nat) (g : McRegs → McRegs) (m : McRegs) : McRegs := if m.locks.contains ka then m else { g m with locks := ka :: m.locks }

/-- The management controller's registers (R397, R433); `none` where a value is out of its range. -/
def McRegs.write (ka : Nat) (v : Word) (m : McRegs) : Option McRegs :=
  let within (x lo hi : Nat) (m : McRegs) : Option McRegs := if lo ≤ x ∧ x ≤ hi then some m else none
  if ka = 0x800 then some (mcLock ka (fun m => { m with rlbase := keep 51 12 v }) m)
  else if ka = 0x801 then within (wf_ 4 0 v) 6 16 (mcLock ka (fun m => { m with rllog := v.setWidth 5 }) m)
  else if ka = 0x803 then some { m with rlhead := v.setWidth 32 }
  else if ka = 0x804 then some { m with cewin := v }
  else if ka = 0x805 then within (wf_ 7 0 v) 1 255 { m with cethr := v.setWidth 8 }
  else if ka = 0x806 then some (mcLock ka (fun m => { m with stgbase := keep 51 16 v }) m)
  else if ka = 0x807 then within (wf_ 31 0 v) 0 4096 (mcLock ka (fun m => { m with stgsize := v.setWidth 32 }) m)
  else if ka = 0x808 then within (wf_ 3 0 v) 1 15 { m with rblimit := v.setWidth 4 }
  else if ka = 0x809 then some { m with inj := v &&& 0xBF00000000000007#64 }
  else if ka = 0x80A then some { m with injva := keep 55 0 v }
  else if ka = 0x80B then some { m with rlovf := v.setWidth 32 }
  else if 0x810 ≤ ka ∧ ka < 0x818 then some { m with fence := vput m.fence (Fin.ofNat 8 (ka - 0x810)) v }
  else if ka = 0x820 then within (wf_ 15 0 v) 300 1500 { m with pcap := v.setWidth 16 }
  else if ka = 0x823 then some { m with capms := BitVec.ofNat 16 (wf_ 63 48 v) }
  else if ka = 0x825 then some { m with trips := v.setWidth 32 }
  else some m

/-- REGISTER_WRITE (R6, R372, R373): 8 bytes written at an offset of BAR0. Units 41 and 42 can be reached while compute is not present;
before the link trains, the race dies by firmware and those two by the management controller (R371). -/
def execEvRegisterWrite (off : BitVec 21) (v : BitVec 64) (s : State) : Res :=
  let o := off.toNat
  let unit := o / 0x8000
  let ka := o % 0x8000 / 8
  let n : CoreId := Fin.ofNat 32 unit
  let s1 := { s with at_ := { s.at_ with core := n } }
  let back (r : Res) : Res := match r with | .next u => .next { u with at_ := s.at_ } | e => e
  if o % 8 ≠ 0 then .next (s.hostError (hostLoc 0 o) true)
  else if unit = 41 then islandWrite ka v o s
  else if unit = 42 then (match s.mc.write ka v with
    | some m => .next { s with mc := m }
    | none => .next (s.refusedWrite o v.toNat))
  else if !s.island.cpres ∨ (s.hostLink.isNone ∧ (unit < 32 ∨ 40 ≤ unit)) then .next s
  else if 43 ≤ unit then .next (s.refusedWrite o v.toNat)
  else if unit = 40 then pkgWrite ka v o s
  else if 32 ≤ unit then raceWrite (Fin.ofNat 8 (unit - 32)) ka v o s
  else if ka < 0x800 then .next (kWindowWrite n ka v o s)
  else if ka = 0x801 then
    (match (if v.getLsbD 0 then execEvPreempt s1 else .next s1) with
    | .next t => back (if v.getLsbD 1 then execEvCctlResume t else .next t)
    | e => e)
  else .next s

-- Reads.
/-- Fields put at their places. -/
def fields (l : List (Nat × Nat)) : Word := BitVec.ofNat 64 ((l.map fun p => p.1 * 2 ^ p.2).foldl (· + ·) 0)
def bitOf (b : Bool) : Nat := if b then 1 else 0
def IState.code : IState → Nat
  | .off => 0
  | .train => 1
  | .forwardOnly => 2
  | .attached => 3
  | .draining => 4

/-- What the registers of a race die read (R351, R392). -/
def State.raceRead (s : State) (d : RaceDie) (ka : Nat) : Word :=
  let x := s.rdie[d]
  let r := s.tile[(Fin.ofNat 512 (64 * d.val + ka % 64) : TileId)]
  if ka = 0x800 then x.rampl else if ka = 0x801 then x.ramph else if ka = 0x802 then x.down.setWidth 64
  else if ka = 0x803 then fields [(x.ruthr.toNat, 24), (x.ruwin.toNat, 16), (x.dt.toNat, 8), (x.period.toNat, 0)]
  else if ka = 0x805 then fields [(bitOf x.paten, 63), (x.patintv.toNat, 0)]
  else if ka = 0x806 then x.patskip.setWidth 64 else if ka = 0x807 then x.cecnt.setWidth 64 else if ka = 0x808 then x.uecnt.setWidth 64
  else if 0xC00 ≤ ka ∧ ka < 0xC40 then
    fields [(bitOf r.lvl, 63), (bitOf r.fail, 62), (bitOf r.dead, 61), (r.tgt.toNat, 48), (r.bias.toNat, 12), (r.vgain.toNat, 0)]
  else if 0xC40 ≤ ka ∧ ka < 0xC80 then fields [(r.temp.toNat, 48), (r.tlvl.toNat, 32), (r.offn.toNat, 8), (r.offp.toNat, 0)]
  else if 0xC80 ≤ ka ∧ ka < 0xCC0 then r.rescnt.setWidth 64
  else if 0xCC0 ≤ ka ∧ ka < 0xD00 then r.spotcnt.setWidth 64
  else if 0xD00 ≤ ka ∧ ka < 0xD40 then r.spoterr.setWidth 64
  else 0

/-- What the registers of unit 40 read (R379, R420). -/
def State.pkgRead (s : State) (ka : Nat) : Word :=
  let g := s.pkg
  if ka = 0x800 then g.ctxtab else if ka = 0x801 then g.fatbase else if ka = 0x802 then g.mwbase else if ka = 0x803 then g.dbghalt
  else if ka = 0x805 then g.invPhase.setWidth 64 else if ka = 0x806 then g.invdone
  else if ka = 0x809 then fields [(g.ctxResult.toNat, 1), (bitOf g.ctxBusy, 0)]
  else if 0x810 ≤ ka ∧ ka < 0x820 then g.seals[Fin.ofNat 16 (ka - 0x810)]
  else if ka = 0x820 then g.xctl
  else if 0x821 ≤ ka ∧ ka < 0x829 then g.xsched[Fin.ofNat 8 (ka - 0x821)]
  else if ka = 0x830 then g.csetbase
  else if 0x840 ≤ ka ∧ ka < 0x844 then g.pqring[Fin.ofNat 4 (ka - 0x840)]
  else 0

/-- What the island's registers read (R418); zero while it is OFF. -/
def State.islandRead (s : State) (ka : Nat) : Word :=
  let i := s.island
  let up := (List.finRange 8).foldl (fun m k => if (i.ports[k]).lstate == 2 then m + 2 ^ k.val else m) 0
  if i.state = .off then 0
  else if ka = 0x800 then fields [(up, 16), (bitOf i.cpres, 4), (i.state.code, 0)]
  else if ka = 0x802 then
    fields [(i.ext.w - 1, 48), (i.ext.z - 1, 44), (i.ext.y - 1, 40), (i.ext.x - 1, 36), (i.me.w, 12), (i.me.z, 8), (i.me.y, 4), (i.me.x, 0)]
  else if ka = 0x803 then i.datum
  else if ka = 0x805 then i.rate.setWidth 64
  else if ka = 0x806 then fields [(i.skew.toNat, 32), (i.parent.val, 8), (bitOf (i.lock || i.root), 1), (bitOf i.root, 0)]
  else if ka = 0x807 then i.dptm
  else if 0x808 ≤ ka ∧ ka < 0x810 then
    let q := i.ports[(Fin.ofNat 8 (ka - 0x808) : PortId)]
    fields [(q.replay.toNat, 32), (q.retrain.toNat, 16), (q.lstate.toNat, 0)]
  else if ka = 0x810 then i.c0wait
  else 0

/-- What the management controller's registers read (R397, R433). -/
def McRegs.read (m : McRegs) (ka : Nat) : Word :=
  match ka with
  | 0x800 => m.rlbase
  | 0x801 => m.rllog.setWidth 64
  | 0x802 => m.rltail.setWidth 64
  | 0x803 => m.rlhead.setWidth 64
  | 0x804 => m.cewin
  | 0x805 => m.cethr.setWidth 64
  | 0x806 => m.stgbase
  | 0x807 => m.stgsize.setWidth 64
  | 0x808 => m.rblimit.setWidth 64
  | 0x809 => m.inj
  | 0x80A => m.injva
  | 0x80B => m.rlovf.setWidth 64
  | 0x820 => m.pcap.setWidth 64
  | 0x821 => m.pwr.setWidth 64
  | 0x822 => m.tmax.setWidth 64
  | 0x823 => fields [(m.capms.toNat, 48), (m.cap, 0)]
  | 0x824 => fields [(m.flow.toNat, 16), (m.tin.toNat, 0)]
  | 0x825 => m.trips.setWidth 64
  | k => if 0x810 ≤ k ∧ k < 0x818 then m.fence[Fin.ofNat 8 (k - 0x810)] else 0

/-- What a naturally aligned 8-byte read of BAR0 returns (R373, R379); no register changes by being read. -/
def State.registerRead (s : State) (off : Nat) : Word :=
  let unit := off / 0x8000
  let ka := off % 0x8000 / 8
  if unit = 41 then s.islandRead ka
  else if unit = 42 then s.mc.read ka
  else if 43 ≤ unit then BitVec.allOnes 64
  else if unit = 40 then s.pkgRead ka
  else if 32 ≤ unit then s.raceRead (Fin.ofNat 8 (unit - 32)) ka
  else
    let k := s.cores[(Fin.ofNat 32 unit : CoreId)]
    if ka < 0x800 then (kRead k.shown k.shown.clu[(0 : CluId)] ka).getD 0
    else if ka = 0x800 then fields [(bitOf (k.haltd || !k.saved.isEmpty && k.run.isNone), 7), (bitOf k.run.isSome, 6), (k.asid, 0)]
    else 0

/-- A host read of BAR0 (R372): of 8 bytes naturally aligned, else all ones with a host-access error. -/
def State.hostRegRead (off len : Nat) (s : State) : State :=
  if s.hostLink.isNone then s
  else if len = 8 ∧ off % 8 = 0 then s.hostReads (leBytes 8 (s.registerRead off).toNat)
  else (s.hostError (hostLoc 0 off) false).hostReads (List.replicate len 0xFF)

/-- A host write to BAR0 (R372): of 8 bytes naturally aligned, else dropped with a host-access error. -/
def hostRegWrite (off : Nat) (bytes : List Byte) (s : State) : Res :=
  if s.hostLink.isNone then .next s
  else if bytes.length = 8 ∧ off % 8 = 0 then execEvRegisterWrite (BitVec.ofNat 21 off) (BitVec.ofNat 64 (leNat bytes)) s
  else .next (s.hostError (hostLoc 0 off) true)

-- The trace streamer's window (R409).
/-- TRCTL_WRITE (R409): EN written 1 clears STOPPED, and a new trigger may then fall. -/
def execEvTrctlWrite (v : BitVec 64) (s : State) : Res :=
  let t := s.trace
  let go := v.getLsbD 0 && t.stopped
  .next { s with trace := { t with ctl := v &&& 0xFFFFFFFF00FFFF0D#64, stopped := t.stopped && !v.getLsbD 0, post := if go then none else t.post } }

/-- A write to the trace registers. -/
def traceWrite (off : Nat) (v : Word) (s : State) : Res :=
  let set (g : Trace → Trace) : Res := .next { s with trace := g s.trace }
  match off with
  | 0x000 => execEvTrctlWrite v s
  | 0x008 => if wf_ 4 0 v < 8 ∨ wf_ 4 0 v > 24 then .next (s.refusedWrite (hostLoc 4 off) v.toNat) else set fun t => { t with ring := keep 63 12 v ||| keep 4 0 v }
  | 0x018 => set fun t => { t with rd := v }
  | 0x020 => set fun t => { t with trig := keep 63 32 v ||| keep 15 0 v }
  | 0x028 => set fun t => { t with ovw := v }
  | _ => .next s

/-- What the trace registers read. -/
def State.traceRead (s : State) (off : Nat) : Word :=
  let t := s.trace
  match off with
  | 0x000 => t.ctl ||| (if t.stopped then 2 else 0)
  | 0x008 => t.ring
  | 0x010 => t.wr
  | 0x018 => t.rd
  | 0x020 => t.trig
  | 0x028 => t.ovw
  | _ => 0

/-- A trace record's 32 bytes (R410). -/
def TraceRec.bytes (r : TraceRec) : List Byte :=
  leBytes 8 r.datum.toNat ++ leBytes 1 r.ty ++ leBytes 1 r.core ++ leBytes 1 r.unit ++ leBytes 1 r.loop ++ leBytes 1 r.stage.toNat ++
    leBytes 1 r.subt ++ leBytes 2 r.seq ++ leBytes 4 r.iter ++ leBytes 4 0 ++ leBytes 8 r.arg.toNat

/-- TRACE_TRANSFER (R411): the oldest unsent record goes to the host ring while it has room. -/
def execEvTraceTransfer (s : State) : Res :=
  let t := s.trace
  let n := 2 ^ wf_ 4 0 t.ring
  match t.circle with
  | r :: rs =>
    if s.hostLink.isSome ∧ (t.wr - t.rd).toNat < n then
      let at_ := hostBase + wf_ 63 12 t.ring * 4096 + 32 * (t.wr.toNat % n)
      .next { s.putBytes (atAddr at_ r.bytes) with trace := { t with circle := rs, wr := t.wr + 1 } }
    else .next s
  | [] => .next s

-- BAR4 (R372, R374).
/-- MEMORY_WINDOW_WRITE (R374, R409): above 64 KiB memory, below it the trace registers. -/
def execEvMemoryWindowWrite (off : Nat) (bytes : List Byte) (s : State) : Res :=
  if !s.hostUp then .next s
  else if off < 65536 then (if bytes.length = 8 ∧ off % 8 = 0 then traceWrite off (BitVec.ofNat 64 (leNat bytes)) s else .next s)
  else .next (windowWrite off bytes s)

/-- MEMORY_WINDOW_READ (R374, R409). -/
def execEvMemoryWindowRead (off len : Nat) (s : State) : Res :=
  if !s.hostUp then .next s
  else if off < 65536 then
    (if len = 8 ∧ off % 8 = 0 then .next (s.hostReads (leBytes 8 (s.traceRead off).toNat))
    else .next ({ s with fresh := s.fresh + 1 }.hostReads ((upto len).map (Config.openByte s.fresh))))
  else .next (windowRead off len s)

end Sys2Proof.Machine
end

