-- ==== Sys2Proof/Machine/Special.lean ====
section
/-!
DEFINITION. The special functions of the FN ports (R316 to R320): FP64 steps under RNE, the tables and coefficients, the algorithms, and
the eight words.
-/
namespace Sys2Proof.Machine

-- FP64 steps (R316). No step raises a flag.
def fp64 : Fmt := ⟨11, 52, false⟩
def cfg64 : NumCfg := ⟨.rne, false, false, false, false, false⟩
/-- A value rounded to FP64 under RNE. -/
def to64 (x : FV) : FV := unpack fp64 (roundFV cfg64 fp64 0 x).1
/-- The value of an FP64 pattern, and of an FP32 pattern widened. -/
def k64 (b : Nat) : FV := unpack fp64 b
def k32 (b : Nat) : FV := unpack fp32 b
/-- An exact result that is never invalid here. -/
def got (x : Option FV) : FV := x.getD (.nan false true 0)
def mul64 (a b : FV) : FV := to64 (got (mulFV a b))
def add64 (a b : FV) : FV := to64 (got (addFV .rne a b))
def sub64 (a b : FV) : FV := add64 a b.flip
/-- FMA(a, b, c), rounded once. -/
def fma64 (a b c : FV) : FV := to64 (got (addFV .rne (got (mulFV a b)) c))
/-- The quotient of two positive values: enough bits of it for one rounding, with a last bit that says whether more follow. -/
def div64 (a b : FV) : FV := match a, b with
  | .fin n m e, .fin k d f =>
    let x := m * 2 ^ (70 + Nat.log2 d)
    to64 (.fin (n != k) (2 * (x / d) + (if x % d = 0 then 0 else 1)) (e - f - 71 - (Nat.log2 d : Nat)))
  | _, _ => .nan false true 0
/-- A value times a power of two, which is exact. -/
def scale2 (x : FV) (k : Int) : FV := match x with
  | .fin n m e => .fin n m (e + k)
  | v => v
/-- An integer as a value. -/
def ofInt (k : Int) : FV := .fin (decide (k < 0)) k.natAbs 0
def one64 : FV := ofInt 1
/-- ⌊x⌋ and the nearest integer, ties to even. -/
def floorFV (x : FV) : Int := match x with
  | .fin n m e => if e ≥ 0 then alignTo 0 n m e else (if n then -(m : Int) else m) / (2 ^ (-e).toNat : Nat)
  | _ => 0
def nearFV (x : FV) : Int := match x with
  | .fin n m e => let g : Int := (roundAt .rne n 0 m e 0).1; if n then -g else g
  | _ => 0

-- Tables (R317).
/-- T: 2^(j/64) (R317). -/
def tabT : List Nat :=
  [0x3FF0000000000000, 0x3FF02C9A3E778061, 0x3FF059B0D3158574, 0x3FF0874518759BC8] ++
  [0x3FF0B5586CF9890F, 0x3FF0E3EC32D3D1A2, 0x3FF11301D0125B51, 0x3FF1429AAEA92DE0] ++
  [0x3FF172B83C7D517B, 0x3FF1A35BEB6FCB75, 0x3FF1D4873168B9AA, 0x3FF2063B88628CD6] ++
  [0x3FF2387A6E756238, 0x3FF26B4565E27CDD, 0x3FF29E9DF51FDEE1, 0x3FF2D285A6E4030B] ++
  [0x3FF306FE0A31B715, 0x3FF33C08B26416FF, 0x3FF371A7373AA9CB, 0x3FF3A7DB34E59FF7] ++
  [0x3FF3DEA64C123422, 0x3FF4160A21F72E2A, 0x3FF44E086061892D, 0x3FF486A2B5C13CD0] ++
  [0x3FF4BFDAD5362A27, 0x3FF4F9B2769D2CA7, 0x3FF5342B569D4F82, 0x3FF56F4736B527DA] ++
  [0x3FF5AB07DD485429, 0x3FF5E76F15AD2148, 0x3FF6247EB03A5585, 0x3FF6623882552225] ++
  [0x3FF6A09E667F3BCD, 0x3FF6DFB23C651A2F, 0x3FF71F75E8EC5F74, 0x3FF75FEB564267C9] ++
  [0x3FF7A11473EB0187, 0x3FF7E2F336CF4E62, 0x3FF82589994CCE13, 0x3FF868D99B4492ED] ++
  [0x3FF8ACE5422AA0DB, 0x3FF8F1AE99157736, 0x3FF93737B0CDC5E5, 0x3FF97D829FDE4E50] ++
  [0x3FF9C49182A3F090, 0x3FFA0C667B5DE565, 0x3FFA5503B23E255D, 0x3FFA9E6B5579FDBF] ++
  [0x3FFAE89F995AD3AD, 0x3FFB33A2B84F15FB, 0x3FFB7F76F2FB5E47, 0x3FFBCC1E904BC1D2] ++
  [0x3FFC199BDD85529C, 0x3FFC67F12E57D14B, 0x3FFCB720DCEF9069, 0x3FFD072D4A07897C] ++
  [0x3FFD5818DCFBA487, 0x3FFDA9E603DB3285, 0x3FFDFC97337B9B5F, 0x3FFE502EE78B3FF6] ++
  [0x3FFEA4AFA2A490DA, 0x3FFEFA1BEE615A27, 0x3FFF50765B6E4540, 0x3FFFA7C1819E90D8]

/-- Rc: 1 / (1 + (j + 0.5)/64) (R317). -/
def tabRc : List Nat :=
  [0x3FEFC07F01FC07F0, 0x3FEF44659E4A4271, 0x3FEECC07B301ECC0, 0x3FEE573AC901E574] ++
  [0x3FEDE5D6E3F8868A, 0x3FED77B654B82C34, 0x3FED0CB58F6EC074, 0x3FECA4B3055EE191] ++
  [0x3FEC3F8F01C3F8F0, 0x3FEBDD2B899406F7, 0x3FEB7D6C3DDA338B, 0x3FEB2036406C80D9] ++
  [0x3FEAC5701AC5701B, 0x3FEA6D01A6D01A6D, 0x3FEA16D3F97A4B02, 0x3FE9C2D14EE4A102] ++
  [0x3FE970E4F80CB872, 0x3FE920FB49D0E229, 0x3FE8D3018D3018D3, 0x3FE886E5F0ABB04A] ++
  [0x3FE83C977AB2BEDD, 0x3FE7F405FD017F40, 0x3FE7AD2208E0ECC3, 0x3FE767DCE434A9B1] ++
  [0x3FE724287F46DEBC, 0x3FE6E1F76B4337C7, 0x3FE6A13CD1537290, 0x3FE661EC6A5122F9] ++
  [0x3FE623FA77016240, 0x3FE5E75BB8D015E7, 0x3FE5AC056B015AC0, 0x3FE571ED3C506B3A] ++
  [0x3FE5390948F40FEB, 0x3FE5015015015015, 0x3FE4CAB88725AF6E, 0x3FE49539E3B2D067] ++
  [0x3FE460CBC7F5CF9A, 0x3FE42D6625D51F87, 0x3FE3FB013FB013FB, 0x3FE3C995A47BABE7] ++
  [0x3FE3991C2C187F63, 0x3FE3698DF3DE0748, 0x3FE33AE45B57BCB2, 0x3FE30D190130D190] ++
  [0x3FE2E025C04B8097, 0x3FE2B404AD012B40, 0x3FE288B01288B013, 0x3FE25E22708092F1] ++
  [0x3FE23456789ABCDF, 0x3FE20B470C67C0D9, 0x3FE1E2EF3B3FB874, 0x3FE1BB4A4046ED29] ++
  [0x3FE19453808CA29C, 0x3FE16E0689427379, 0x3FE1485F0E0ACD3B, 0x3FE12358E75D3033] ++
  [0x3FE0FEF010FEF011, 0x3FE0DB20A88F4696, 0x3FE0B7E6EC259DC8, 0x3FE0953F39010954] ++
  [0x3FE073260A47F7C6, 0x3FE05197F7D73404, 0x3FE03091B51F5E1A, 0x3FE0101010101010]

/-- Lg: −log2(Rc[j]), of the stored Rc[j] (R317). -/
def tabLg : List Nat :=
  [0x3F86FE50B6EF085D, 0x3FA11CD1D513341B, 0x3FAC4DFAB90AAB6A, 0x3FB3AA2FDD27F1BF] ++
  [0x3FB918A16E46335E, 0x3FBE72EC117FA5AD, 0x3FC1DCD197552B7D, 0x3FC476A9F983F74D] ++
  [0x3FC70742D4EF0280, 0x3FC98EDD077E70E1, 0x3FCC0DB6CDD94DEF, 0x3FCE840BE74E6A4D] ++
  [0x3FD0790ADBB03009, 0x3FD1AC05B291F070, 0x3FD2DB10FC4D9AAE, 0x3FD406463B1B0448] ++
  [0x3FD52DBDFC4C96B5, 0x3FD6518FE4677BA6, 0x3FD771D2BA7EFB3C, 0x3FD88E9C72E0B224] ++
  [0x3FD9A802391E2330, 0x3FDABE18797F1F4A, 0x3FDBD0F2E9E79032, 0x3FDCE0A4923A587D] ++
  [0x3FDDED3FD442364C, 0x3FDEF6D67328E220, 0x3FDFFD799A83FF9C, 0x3FE0809CF27F703D] ++
  [0x3FE10113B153C8EA, 0x3FE18028CF72976B, 0x3FE1FDE3D30E8127, 0x3FE27A4C0585CBF7] ++
  [0x3FE2F56875EB3F26, 0x3FE36F3FFB6D9162, 0x3FE3E7D9379F7017, 0x3FE45F3A98A20738] ++
  [0x3FE4D56A5B33CEC5, 0x3FE54A6E8CA5438E, 0x3FE5BE4D0CB51435, 0x3FE6310B8F553049] ++
  [0x3FE6A2AF9E5A0F0B, 0x3FE7133E9B156C7B, 0x3FE782BDBFDDA657, 0x3FE7F1322182CF16] ++
  [0x3FE85EA0B0B27B26, 0x3FE8CB0E3B4B3BBE, 0x3FE9367F6DA0AB2D, 0x3FE9A0F8D3B0E050] ++
  [0x3FEA0A7EDA4C112D, 0x3FEA7315D02F20C7, 0x3FEADAC1E711C833, 0x3FEB418734A9008C] ++
  [0x3FEBA769B39E4964, 0x3FEC0C6D447C5DD3, 0x3FEC7095AE91E1C8, 0x3FECD3E6A0CA8908] ++
  [0x3FED3663B27F31D5, 0x3FED9810643D6614, 0x3FEDF8F02086AF2B, 0x3FEE59063C8822CE] ++
  [0x3FEEB855F8CA88FC, 0x3FEF16E281DB7630, 0x3FEF74AEF0EFAFAF, 0x3FEFD1BE4C7F2AF9]

/-- Q: (2^floor(j/32) × (1 + ((j mod 32) + 0.5)/32))^(−1/2) (R317). -/
def tabQ : List Nat :=
  [0x3FEFC0BD88A0F1D9, 0x3FEF467F2814B0CC, 0x3FEED19B75E78957, 0x3FEE61B138F18ADC] ++
  [0x3FEDF6689B7E6350, 0x3FED8F7208E6B82D, 0x3FED2C8534ED6D86, 0x3FECCD6045F5D358] ++
  [0x3FEC71C71C71C71C, 0x3FEC1982B2ECE47B, 0x3FEBC46092EB3118, 0x3FEB72325B79DB11] ++
  [0x3FEB22CD56D87D7E, 0x3FEAD60A1D0FB394, 0x3FEA8BC441A3D02C, 0x3FEA43DA0ADC6899] ++
  [0x3FE9FE2C315637EE, 0x3FE9BA9DA6C73588, 0x3FE9791363068B54, 0x3FE93974368CFA31] ++
  [0x3FE8FBA8A1BF6F96, 0x3FE8BF9AB06E1AF3, 0x3FE88535D90703C6, 0x3FE84C66DF0CA4C2] ++
  [0x3FE8151BB86FEE1D, 0x3FE7DF437579B9B5, 0x3FE7AACE2AFA8B72, 0x3FE777ACDE80BAEA] ++
  [0x3FE745D1745D1746, 0x3FE7152E9F44F01F, 0x3FE6E5B7D16657E1, 0x3FE6B7612EC892F6] ++
  [0x3FE673E32EF63A03, 0x3FE61D72B7978671, 0x3FE5CACB7802F342, 0x3FE57BA8B0EE01B9] ++
  [0x3FE52FCC468D6B54, 0x3FE4E6FDF33CF032, 0x3FE4A10A97AF7B92, 0x3FE45DC3A3C34FA3] ++
  [0x3FE41CFE93FF5199, 0x3FE3DE948077DB58, 0x3FE3A261BA6D7A37, 0x3FE36845766EEC92] ++
  [0x3FE330218127C0E0, 0x3FE2F9D9FD52FD50, 0x3FE2C5552988E428, 0x3FE2927B2CD320F5] ++
  [0x3FE26135E91DAF55, 0x3FE23170D2BE638A, 0x3FE20318CC6A8F5D, 0x3FE1D61C070AE7D3] ++
  [0x3FE1AA69E4F2777F, 0x3FE17FF2E00EC3EE, 0x3FE156A872B5EF62, 0x3FE12E7D02C40253] ++
  [0x3FE10763CEC30B26, 0x3FE0E150DCE2B60C, 0x3FE0BC38EB8BA412, 0x3FE0981163615499] ++
  [0x3FE074D04A8B1438, 0x3FE0526C39213BFA, 0x3FE030DC4EA03A72, 0x3FE0101828467EE9]

/-- S: sin(π·j/128); S[64] is taken as 1 (R317). -/
def tabS : List Nat :=
  [0x0000000000000000, 0x3F992155F7A3667E, 0x3FA91F65F10DD814, 0x3FB2D52092CE19F6] ++
  [0x3FB917A6BC29B42C, 0x3FBF564E56A9730E, 0x3FC2C8106E8E613A, 0x3FC5E214448B3FC6] ++
  [0x3FC8F8B83C69A60B, 0x3FCC0B826A7E4F63, 0x3FCF19F97B215F1B, 0x3FD111D262B1F677] ++
  [0x3FD294062ED59F06, 0x3FD4135C94176601, 0x3FD58F9A75AB1FDD, 0x3FD7088530FA459F] ++
  [0x3FD87DE2A6AEA963, 0x3FD9EF7943A8ED8A, 0x3FDB5D1009E15CC0, 0x3FDCC66E9931C45E] ++
  [0x3FDE2B5D3806F63B, 0x3FDF8BA4DBF89ABA, 0x3FE073879922FFEE, 0x3FE11EB3541B4B23] ++
  [0x3FE1C73B39AE68C8, 0x3FE26D054CDD12DF, 0x3FE30FF7FCE17035, 0x3FE3AFFA292050B9] ++
  [0x3FE44CF325091DD6, 0x3FE4E6CABBE3E5E9, 0x3FE57D69348CECA0, 0x3FE610B7551D2CDF] ++
  [0x3FE6A09E667F3BCD, 0x3FE72D0837EFFF96, 0x3FE7B5DF226AAFAF, 0x3FE83B0E0BFF976E] ++
  [0x3FE8BC806B151741, 0x3FE93A22499263FB, 0x3FE9B3E047F38741, 0x3FEA29A7A0462782] ++
  [0x3FEA9B66290EA1A3, 0x3FEB090A58150200, 0x3FEB728345196E3E, 0x3FEBD7C0AC6F952A] ++
  [0x3FEC38B2F180BDB1, 0x3FEC954B213411F5, 0x3FECED7AF43CC773, 0x3FED4134D14DC93A] ++
  [0x3FED906BCF328D46, 0x3FEDDB13B6CCC23C, 0x3FEE212104F686E5, 0x3FEE6288EC48E112] ++
  [0x3FEE9F4156C62DDA, 0x3FEED740E7684963, 0x3FEF0A7EFB9230D7, 0x3FEF38F3AC64E589] ++
  [0x3FEF6297CFF75CB0, 0x3FEF8764FA714BA9, 0x3FEFA7557F08A517, 0x3FEFC26470E19FD3] ++
  [0x3FEFD88DA3D12526, 0x3FEFE9CDAD01883A, 0x3FEFF621E3796D7E, 0x3FEFFD886084CD0D]

/-- Entries of the tables. -/
def entT (j : Nat) : FV := k64 (tabT.getD j 0)
def entRc (j : Nat) : FV := k64 (tabRc.getD j 0)
def entLg (j : Nat) : FV := k64 (tabLg.getD j 0)
def entQ (j : Nat) : FV := k64 (tabQ.getD j 0)
def entS (j : Nat) : FV := if j = 64 then one64 else k64 (tabS.getD j 0)

-- Coefficients (R318).
def coefL : FV := k64 0x3FF71547652B82FE
def coefC : List FV := [k64 0x3FE62E42FEFA39EF, k32 0x3E75FDF0, k32 0x3D635847, k32 0x3C1D955B, k32 0x3AAEC3FF]
def coefE : List FV :=
  [k64 0x3FF71547652B82FE, k32 0xBF38AA3B, k32 0x3EF6384F, k32 0xBEB8AA3B, k32 0x3E93BB63, k32 0xBE76384F, k32 0x3E530BB1, k32 0xBE38AA3B]
def coefS1 : FV := k64 0x400921FB54442D18
def coefS3 : FV := k32 0xC0A55DE7
def coefK2 : FV := k32 0xC09DE9E6
/-- −0.5, 0.375, −0.3125 and 0.2734375, exactly. -/
def coefQ : List FV := [.fin true 1 (-1), .fin false 3 (-3), .fin true 5 (-4), .fin false 35 (-7)]

-- Algorithms (R319).
/-- The Horner t of Poly, and Poly. -/
def horner (u : FV) : List FV → FV
  | [] => ofInt 0
  | [e] => e
  | e :: es => fma64 u (horner u es) e
def poly (u : FV) (es : List FV) : FV := mul64 u (horner u es)

/-- Min and Sat by the order of values. -/
def minFV (a b : FV) : FV := if ltFV b a then b else a
def sat200 (x : FV) : FV := if ltFV x (ofInt (-200)) then ofInt (-200) else minFV x (ofInt 200)

/-- Exp2Core: 2^z ≈ 2^k · T[j] · (1 + p). The reduced argument is one FP64 operation (log entry 51). -/
def exp2Core (z : FV) : FV × Int × FV :=
  let n := floorFV (scale2 z 6)
  let j := (n % 64).toNat
  (entT j, (n - j) / 64, poly (sub64 z (scale2 (ofInt n) (-6))) coefC)

/-- m and e of |x| = m·2^e with 1 ≤ m < 2. -/
def split1 (x : FV) : FV × Int := match x with
  | .fin _ m e => (.fin false m (-(Nat.log2 m : Int)), e + Nat.log2 m)
  | _ => (one64, 0)
/-- floor(c·(m − 1)) for m in [1, 2). -/
def stepIn (c : Int) (m : FV) : Nat := (floorFV (got (mulFV (ofInt c) (got (addFV .rne m (ofInt (-1))))))).toNat

def fnExp2 (x : FV) : FV :=
  let (t, k, p) := exp2Core (sat200 x)
  scale2 (fma64 t p t) k
def fnLog2 (x : FV) : FV :=
  if ltFV (.fin false 31 (-5)) x && ltFV x (.fin false 33 (-5)) then poly (sub64 x one64) coefE
  else
    let (m, e) := split1 x
    let j := stepIn 64 m
    let u := fma64 m (entRc j) (ofInt (-1))
    fma64 u (horner u (coefE.take 5)) (add64 (ofInt e) (entLg j))
def fnRcp (x : FV) : FV :=
  let (m, e) := split1 x
  let r := entRc (stepIn 64 m)
  let g := fma64 m.flip r one64
  let t := fma64 g (fma64 g (fma64 g (add64 one64 g) one64) one64) one64
  let w := scale2 (mul64 r t) (-e)
  if x.neg then w.flip else w
def fnRsqrt (x : FV) : FV :=
  let (m, e) := split1 x
  let o := e % 2
  let q := entQ (32 * o.toNat + stepIn 32 m)
  let g := mul64 (scale2 m o) q
  let d := fma64 g q (ofInt (-1))
  scale2 (fma64 q (poly d coefQ) q) (-((e - o) / 2))
/-- The shared part of SINPI and COSPI: sA, cA, sf and cf. -/
def piParts (x : FV) : FV × FV × FV × FV :=
  let tt := scale2 x 7
  let n := nearFV tt
  let f := scale2 (sub64 tt (ofInt n)) (-7)
  let q := (n % 256).toNat
  let i := q % 64
  let a := entS i
  let b := entS (64 - i)
  let (sa, ca) := match q / 64 with
    | 0 => (a, b)
    | 1 => (b, a.flip)
    | 2 => (a.flip, b.flip)
    | _ => (b.flip, a)
  let g := mul64 f f
  (sa, ca, mul64 f (fma64 g coefS3 coefS1), fma64 g coefK2 one64)
def fnSinpi (x : FV) : FV :=
  let (sa, ca, sf, cf) := piParts x
  fma64 sa cf (mul64 ca sf)
def fnCospi (x : FV) : FV :=
  let (sa, ca, sf, cf) := piParts x
  fma64 ca cf (mul64 sa sf).flip
def fnTanh (x : FV) : FV :=
  let a := if x.neg then x.flip else x
  let v :=
    if ltFV a (.fin false 1 (-12)) then a
    else
      let (t, k, p) := exp2Core (minFV (ofInt 200) (mul64 (scale2 a 1) coefL))
      let b := scale2 t k
      let e := fma64 b p (sub64 b one64)
      div64 e (add64 e (ofInt 2))
  if x.neg then v.flip else v
def fnSigm (x : FV) : FV :=
  let (t, k, p) := exp2Core (sat200 (mul64 x.flip coefL))
  div64 one64 (add64 one64 (scale2 (fma64 t p t) k))

-- Special inputs (R320).
/-- The special functions. -/
inductive SFn where
  | exp2 | log2 | rcp | rsqrt | sinpi | cospi | tanh | sigm
  deriving DecidableEq, Repr

/-- An exact result without flags, a quiet infinity, and an infinity with DZ. -/
def exactly (f : Fmt) (x : FV) : FpRes := ((roundFV cfg64 f 0 x).1, 0)
def poleAt (f : Fmt) (neg : Bool) : FpRes := (f.signed neg f.infBits, flDZ)

/-- The result of an input that R320 settles. -/
def settled320 (g : SFn) (f : Fmt) (x : FV) : Option FpRes :=
  let inf (n : Bool) := some (exactly f (.inf n))
  let num (m : Nat) (e : Int) (n : Bool) := some (exactly f (.fin n m e))
  let bad := some (invalid f)
  let whole (y : FV) : Bool := FV.isZero (got (addFV .rne y (ofInt (floorFV y)).flip))
  match x with
  | .nan _ _ _ => none
  | .inf n => match g with
    | .exp2 => if n then num 0 0 false else inf false
    | .log2 => if n then bad else inf false
    | .rcp => num 0 0 n
    | .rsqrt => if n then bad else num 0 0 false
    | .sinpi => bad
    | .cospi => bad
    | .tanh => num 1 0 n
    | .sigm => if n then num 0 0 false else num 1 0 false
  | .fin n 0 _ => match g with
    | .exp2 => num 1 0 false
    | .log2 => some (poleAt f true)
    | .rcp => some (poleAt f n)
    | .rsqrt => some (poleAt f n)
    | .sinpi => num 0 0 n
    | .cospi => num 1 0 false
    | .tanh => num 0 0 n
    | .sigm => num 1 (-1) false
  | .fin n m e => match g with
    | .log2 => if n then bad else if !(ltFV x one64) && !(ltFV one64 x) then num 0 0 false else none
    | .rsqrt => if n then bad else none
    | .sinpi => if whole x then num 0 0 n else none
    | .cospi => if whole (got (addFV .rne (.fin n m e) (.fin false 1 (-1)))) then num 0 0 false else none
    | _ => none

/-- One element of FN: bits and flags (R316). -/
def fnElem (g : SFn) (c : NumCfg) (f : Fmt) (rnd x : Nat) : FpRes :=
  let a := operand c f x
  match nanRule c f [a], settled320 g f a with
  | some r, _ => r
  | none, some r => r
  | none, none => roundFV c f rnd (match g with
    | .exp2 => fnExp2 a
    | .log2 => fnLog2 a
    | .rcp => fnRcp a
    | .rsqrt => fnRsqrt a
    | .sinpi => fnSinpi a
    | .cospi => fnCospi a
    | .tanh => fnTanh a
    | .sigm => fnSigm a)

/-- The format of an FN word. -/
def fnFmt : FnFmt → Fmt
  | .fp32 => fp32
  | .bf16 => bf16
  | .fp16 => fp16

/-- FN (R316): n elements from src to dst, both C handles; every element is read before any is written. -/
def fnWord (i : Instr) (g : SFn) (ff : FnFmt) (s : State) : Res :=
  inWord i 3 s fun c =>
    let n := (c.stk.headD 0).toNat
    let f := fnFmt ff
    let k := f.width / 8
    use2 ⟨false, 0, some 0⟩ (c.stk.getD 2 0) ⟨true, 0, none⟩ (c.stk.getD 1 0) s fun h t d u =>
      if n = 0 ∨ n > 65536 ∨ n * k > h.size t ∨ n * k > d.size u then wordFault .illegalWord s
      else
        let rs := (upto n).map fun j => fnElem g c.cfg f (c.rnd s.at_.eng j) (opVal h t k j)
        let s1 := raiseCols (rs.mapIdx fun j r => (j, r.2)) ((s.touchOps [h]).writeOp d u 0 (rs.flatMap fun r => leBytes k r.1))
        nextWith' s1 n
where
  /-- The word is done, with its draws (R306). -/
  nextWith' (s : State) (n : Nat) : Res :=
    .next (s.onEng fun e => { e with cmd := e.cmd.map fun c => { (c.drew c.cfg.rm n 1) with stk := c.stk.drop 3, ip := c.ip + 1 } })

/-- FN EXP2 (R316 to R320). -/
def execWExp2 (f : FnFmt) (s : State) : Res := fnWord (.wExp2 f) .exp2 f s
/-- FN LOG2 (R316 to R320). -/
def execWLog2 (f : FnFmt) (s : State) : Res := fnWord (.wLog2 f) .log2 f s
/-- FN RCP (R316 to R320). -/
def execWRcp (f : FnFmt) (s : State) : Res := fnWord (.wRcp f) .rcp f s
/-- FN RSQRT (R316 to R320). -/
def execWRsqrt (f : FnFmt) (s : State) : Res := fnWord (.wRsqrt f) .rsqrt f s
/-- FN SINPI (R316 to R320). -/
def execWSinpi (f : FnFmt) (s : State) : Res := fnWord (.wSinpi f) .sinpi f s
/-- FN COSPI (R316 to R320). -/
def execWCospi (f : FnFmt) (s : State) : Res := fnWord (.wCospi f) .cospi f s
/-- FN TANH (R316 to R320). -/
def execWTanh (f : FnFmt) (s : State) : Res := fnWord (.wTanh f) .tanh f s
/-- FN SIGM (R316 to R320). -/
def execWSigm (f : FnFmt) (s : State) : Res := fnWord (.wSigm f) .sigm f s

end Sys2Proof.Machine
end

