-- ==== Sys2Proof/Machine/VecFp.lean ====
section
/-!
DEFINITION. The V slot's elementwise floating point (R256, R257, R261 to R267), and what every V syllable shares: elements of a lane, the
words that stochastic rounding draws (R72), and results with their flags.
-/
namespace Sys2Proof.Machine

-- Elements (R257).
/-- Element e of `w` bits of a lane. -/
def elemOf (w : Nat) (x : Lane) (e : Nat) : Nat := x.toNat / 2 ^ (w * e) % 2 ^ w
/-- A lane from its elements, element 0 lowest. -/
def laneFrom (w : Nat) (xs : List Nat) : Lane := BitVec.ofNat 32 (xs.foldr (fun x a => x % 2 ^ w + 2 ^ w * a) 0)
/-- An element of the b operand: of its vector, or a scalar's low bits for every element (R256). -/
def elemB (w : Nat) (b : VOrS) (s : State) (i : Fin 128) (e : Nat) : Nat :=
  match b with
  | .v r => elemOf w (opVB r s)[i] e
  | .s r => (srcS r s).toNat % 2 ^ w
/-- A lane of the b operand. -/
def laneB (b : VOrS) (s : State) (i : Fin 128) : Lane :=
  match b with
  | .v r => (opVB r s)[i]
  | .s r => (srcS r s).setWidth 32

-- Stochastic rounding (R72).
/-- The NUMCTL that a V syllable follows. -/
def State.cfg (s : State) : NumCfg := numCfg s.core.numctl
/-- The next `n` words of a lane's generator, and its state after them. -/
def drawWords : Nat → BitVec 32 → List (BitVec 32) × BitVec 32
  | 0, x => ([], x)
  | n + 1, x =>
    let y := nextWord x
    let (ws, z) := drawWords n y
    (y :: ws, z)
/-- Whether a drawing instruction draws: under SR only. -/
def State.draws (s : State) : Bool := s.cfg.rm == .sr
/-- Word e of lane i, of the words that an instruction draws; 0 where it draws none. -/
def State.rnd (s : State) (n : Nat) (i : Fin 128) (e : Nat) : Nat :=
  if s.draws then ((drawWords n s.clu.sr[i]).1.getD e 0).toNat else 0
/-- The generators after an instruction that draws `n` words a lane. -/
def drawn (n : Nat) (s : State) : State :=
  if s.draws then s.onClu fun c => { c with sr := vall c.sr fun _ x => (drawWords n x).2 } else s

/-- The results of one instruction by lane, written to d with the flags of each element raised (R80, R81). -/
def fpResult (w : Nat) (d : VReg) (outs : Vector (List FpRes) 128) (s : State) : State :=
  let flags := (List.finRange 128).flatMap fun i => outs[i].filterMap fun r => if r.2 = 0 then none else some (i.val, r.2)
  raiseLanes flags (writeV d (Vector.ofFn fun i => laneFrom w (outs[i].map Prod.fst)) s)

/-- An elementwise instruction that rounds: n elements a lane, the random word of each given where it draws (R257, R261). -/
def fpEach (w n : Nat) (draw : Bool) (d : VReg) (f : Fin 128 → Nat → Nat → FpRes) (s : State) : State :=
  let outs : Vector (List FpRes) 128 := Vector.ofFn fun i => (upto n).map fun e => f i e (if draw then s.rnd n i e else 0)
  fpResult w d outs (if draw then drawn n s else s)

-- Types (R189).
def ftFmt : FTy → Fmt
  | .f32 => fp32
  | .bf16x2 => bf16
  | .f16x2 => fp16
def ftWidth : FTy → Nat
  | .f32 => 32
  | _ => 16
def ftElems : FTy → Nat
  | .f32 => 1
  | _ => 2

/-- A floating-point operation of two sources. -/
def fp2 (q : PReg) (ty : FTy) (draw : Bool) (d a : VReg) (b : VOrS) (f : NumCfg → Fmt → Nat → Nat → Nat → FpRes) (s : State) : Res :=
  whenQ 2 q s (.next (fpEach (ftWidth ty) (ftElems ty) draw d (fun i e rnd =>
    f s.cfg (ftFmt ty) rnd (elemOf (ftWidth ty) (opVA a s)[i] e) (elemB (ftWidth ty) b s i e)) s))

/-- A fused operation of three sources. -/
def fp3 (q : PReg) (ty : FTy) (negP negC : Bool) (d a : VReg) (b : VOrS) (c : VReg) (s : State) : Res :=
  whenQ 2 q s (.next (fpEach (ftWidth ty) (ftElems ty) true d (fun i e rnd =>
    fpFma s.cfg (ftFmt ty) rnd negP negC (elemOf (ftWidth ty) (opVA a s)[i] e) (elemB (ftWidth ty) b s i e)
      (elemOf (ftWidth ty) (opVC c s)[i] e)) s))

/-- An operation on bits, which no NUMCTL field governs (R263, R265). -/
def fpBits (q : PReg) (ty : FTy) (d a : VReg) (f : Fin 128 → Nat → Nat → Nat) (s : State) : Res :=
  let w := ftWidth ty
  whenQ 2 q s (.next (writeV d (Vector.ofFn fun i => laneFrom w ((upto (ftElems ty)).map fun e => f i e (elemOf w (opVA a s)[i] e))) s))

/-- VADD (R262). -/
def execVadd (q : PReg) (ty : FTy) (d a : VReg) (b : VOrS) (s : State) : Res :=
  fp2 q ty true d a b (fun c f rnd x y => fpAdd c f rnd false x y) s
/-- VSUB (R262). -/
def execVsub (q : PReg) (ty : FTy) (d a : VReg) (b : VOrS) (s : State) : Res :=
  fp2 q ty true d a b (fun c f rnd x y => fpAdd c f rnd true x y) s
/-- VMUL (R262). -/
def execVmul (q : PReg) (ty : FTy) (d a : VReg) (b : VOrS) (s : State) : Res := fp2 q ty true d a b fpMul s
/-- VFMA (R262). -/
def execVfma (q : PReg) (ty : FTy) (d a : VReg) (b : VOrS) (c : VReg) (s : State) : Res := fp3 q ty false false d a b c s
/-- VFMS (R262). -/
def execVfms (q : PReg) (ty : FTy) (d a : VReg) (b : VOrS) (c : VReg) (s : State) : Res := fp3 q ty false true d a b c s
/-- VFNMA (R262). -/
def execVfnma (q : PReg) (ty : FTy) (d a : VReg) (b : VOrS) (c : VReg) (s : State) : Res := fp3 q ty true false d a b c s
/-- VFNMS (R262). -/
def execVfnms (q : PReg) (ty : FTy) (d a : VReg) (b : VOrS) (c : VReg) (s : State) : Res := fp3 q ty true true d a b c s

/-- VMIN (R263). -/
def execVmin (q : PReg) (ty : FTy) (d a : VReg) (b : VOrS) (s : State) : Res :=
  fp2 q ty false d a b (fun c f _ x y => fpMinMax c f false false x y) s
/-- VMAX (R263). -/
def execVmax (q : PReg) (ty : FTy) (d a : VReg) (b : VOrS) (s : State) : Res :=
  fp2 q ty false d a b (fun c f _ x y => fpMinMax c f true false x y) s
/-- VMINN (R263). -/
def execVminn (q : PReg) (ty : FTy) (d a : VReg) (b : VOrS) (s : State) : Res :=
  fp2 q ty false d a b (fun c f _ x y => fpMinMax c f false true x y) s
/-- VMAXN (R263). -/
def execVmaxn (q : PReg) (ty : FTy) (d a : VReg) (b : VOrS) (s : State) : Res :=
  fp2 q ty false d a b (fun c f _ x y => fpMinMax c f true true x y) s

/-- The magnitude bits of an element of `w` bits. -/
def magOf (w x : Nat) : Nat := x % 2 ^ (w - 1)
/-- VABS (R263). -/
def execVabs (q : PReg) (ty : FTy) (d a : VReg) (s : State) : Res := fpBits q ty d a (fun _ _ x => magOf (ftWidth ty) x) s
/-- VNEG (R263). -/
def execVneg (q : PReg) (ty : FTy) (d a : VReg) (s : State) : Res :=
  fpBits q ty d a (fun _ _ x => (ftFmt ty).signed (!(nbit (ftWidth ty - 1) x)) (magOf (ftWidth ty) x)) s
/-- VCPYS (R263). -/
def execVcpys (q : PReg) (ty : FTy) (d a : VReg) (b : VOrS) (s : State) : Res :=
  fpBits q ty d a (fun i e x => (ftFmt ty).signed (nbit (ftWidth ty - 1) (elemB (ftWidth ty) b s i e)) (magOf (ftWidth ty) x)) s
/-- VCLASS (R265). -/
def execVclass (q : PReg) (ty : FTy) (d a : VReg) (s : State) : Res := fpBits q ty d a (fun _ _ x => fpClass (ftFmt ty) x) s

/-- A mask from the outcome of each lane, lane 0 lowest. -/
def maskFrom (f : Fin 128 → Bool) : Mask := BitVec.ofNat 128 ((List.finRange 128).foldr (fun i a => (f i).toNat + 2 * a) 0)
/-- VCMP (R264). -/
def execVcmp (q : PReg) (ty : FTy) (c : FCond) (e1 : Bool) (md : MReg) (a : VReg) (b : VOrS) (s : State) : Res :=
  let out (i : Fin 128) : Bool × FpFlags :=
    fpCmp s.cfg (ftFmt ty) c (elemOf (ftWidth ty) (opVA a s)[i] e1.toNat) (elemB (ftWidth ty) b s i e1.toNat)
  ifWf 2 (.vcmp q ty c e1 md a b) s (whenQ 2 q s (.next (raiseLanes
    ((List.finRange 128).filterMap fun i => if (out i).2 = 0 then none else some (i.val, (out i).2))
    (writeM md (maskFrom fun i => (out i).1) s))))

/-- VRND (R266). -/
def execVrnd (q : PReg) (ty : FTy) (d a : VReg) (s : State) : Res :=
  whenQ 2 q s (.next (fpEach (ftWidth ty) (ftElems ty) true d (fun i e rnd =>
    fpRnd s.cfg (ftFmt ty) rnd (elemOf (ftWidth ty) (opVA a s)[i] e)) s))
/-- VSCALE: one exponent for every element of a lane (R267). -/
def execVscale (q : PReg) (ty : FTy) (d a : VReg) (b : VOrS) (s : State) : Res :=
  whenQ 2 q s (.next (fpEach (ftWidth ty) (ftElems ty) true d (fun i e rnd =>
    fpScale s.cfg (ftFmt ty) rnd (elemOf (ftWidth ty) (opVA a s)[i] e) (laneB b s i).toInt) s))

end Sys2Proof.Machine
end

