-- ==== Sys2Proof/Machine/VecInt.lean ====
section
/-!
DEFINITION. The V slot's integer and bit operations (R268 to R271).
-/
namespace Sys2Proof.Machine

/-- Bits and elements of an integer type (R189). -/
def itWidth : ITy → Nat
  | .w32 => 32
  | .w16 => 16
  | .w8 => 8
def itElems : ITy → Nat
  | .w32 => 1
  | .w16 => 2
  | .w8 => 4

/-- Lanes computed element by element. -/
def intLanes (ty : ITy) (f : Fin 128 → Nat → Nat) : VecReg :=
  Vector.ofFn fun i => laneFrom (itWidth ty) ((upto (itElems ty)).map (f i))
/-- An integer operation of two sources: its elements' numbers to a number, of which the low bits are kept (R268). -/
def int2 (q : PReg) (ty : ITy) (d a : VReg) (b : VOrS) (f : Nat → Nat → Nat → Nat) (s : State) : Res :=
  let w := itWidth ty
  whenQ 2 q s (.next (writeV d (intLanes ty fun i e => f w (elemOf w (opVA a s)[i] e) (elemB w b s i e)) s))
/-- An integer operation of one source. -/
def int1 (q : PReg) (ty : ITy) (d a : VReg) (f : Nat → Nat → Nat) (s : State) : Res :=
  let w := itWidth ty
  whenQ 2 q s (.next (writeV d (intLanes ty fun i e => f w (elemOf w (opVA a s)[i] e)) s))
/-- A funnel shift of three sources. -/
def int3 (q : PReg) (ty : ITy) (d a : VReg) (b : VOrS) (c : VReg) (f : Nat → Nat → Nat → Nat → Nat) (s : State) : Res :=
  let w := itWidth ty
  whenQ 2 q s (.next (writeV d (intLanes ty fun i e =>
    f w (elemOf w (opVA a s)[i] e) (elemB w b s i e) (elemOf w (opVC c s)[i] e)) s))

/-- VIADD (R269). -/
def execViadd (q : PReg) (ty : ITy) (d a : VReg) (b : VOrS) (s : State) : Res := int2 q ty d a b (fun _ x y => x + y) s
/-- VISUB (R269). -/
def execVisub (q : PReg) (ty : ITy) (d a : VReg) (b : VOrS) (s : State) : Res := int2 q ty d a b (fun w x y => x + 2 ^ w - y) s
/-- VIMUL (R269). -/
def execVimul (q : PReg) (ty : ITy) (d a : VReg) (b : VOrS) (s : State) : Res := int2 q ty d a b (fun _ x y => x * y) s
/-- VIMIN (R269). -/
def execVimin (q : PReg) (ty : ITy) (d a : VReg) (b : VOrS) (s : State) : Res :=
  int2 q ty d a b (fun w x y => if toSigned w x ≤ toSigned w y then x else y) s
/-- VIMAX (R269). -/
def execVimax (q : PReg) (ty : ITy) (d a : VReg) (b : VOrS) (s : State) : Res :=
  int2 q ty d a b (fun w x y => if toSigned w x ≤ toSigned w y then y else x) s
/-- VIMINU (R269). -/
def execViminu (q : PReg) (ty : ITy) (d a : VReg) (b : VOrS) (s : State) : Res := int2 q ty d a b (fun _ x y => Nat.min x y) s
/-- VIMAXU (R269). -/
def execVimaxu (q : PReg) (ty : ITy) (d a : VReg) (b : VOrS) (s : State) : Res := int2 q ty d a b (fun _ x y => Nat.max x y) s
/-- VAND (R269). -/
def execVand (q : PReg) (ty : ITy) (d a : VReg) (b : VOrS) (s : State) : Res := int2 q ty d a b (fun _ x y => x &&& y) s
/-- VOR (R269). -/
def execVor (q : PReg) (ty : ITy) (d a : VReg) (b : VOrS) (s : State) : Res := int2 q ty d a b (fun _ x y => x ||| y) s
/-- VXOR (R269). -/
def execVxor (q : PReg) (ty : ITy) (d a : VReg) (b : VOrS) (s : State) : Res := int2 q ty d a b (fun _ x y => x ^^^ y) s
/-- VANDN (R269). -/
def execVandn (q : PReg) (ty : ITy) (d a : VReg) (b : VOrS) (s : State) : Res := int2 q ty d a b (fun w x y => x &&& (2 ^ w - 1 - y)) s
/-- VSHL (R268, R269). -/
def execVshl (q : PReg) (ty : ITy) (d a : VReg) (b : VOrS) (s : State) : Res := int2 q ty d a b (fun w x y => x * 2 ^ (y % w)) s
/-- VSHR (R268, R269). -/
def execVshr (q : PReg) (ty : ITy) (d a : VReg) (b : VOrS) (s : State) : Res := int2 q ty d a b (fun w x y => x / 2 ^ (y % w)) s
/-- VSAR (R268, R269). -/
def execVsar (q : PReg) (ty : ITy) (d a : VReg) (b : VOrS) (s : State) : Res :=
  int2 q ty d a b (fun w x y => ofSigned w (toSigned w x / ((2 ^ (y % w) : Nat) : Int))) s
/-- VFSHL (R269). -/
def execVfshl (q : PReg) (ty : ITy) (d a : VReg) (b : VOrS) (c : VReg) (s : State) : Res :=
  int3 q ty d a b c (fun w x y n => (x * 2 ^ w + y) * 2 ^ (n % w) / 2 ^ w) s
/-- VFSHR (R269). -/
def execVfshr (q : PReg) (ty : ITy) (d a : VReg) (b : VOrS) (c : VReg) (s : State) : Res :=
  int3 q ty d a b c (fun w x y n => (x * 2 ^ w + y) / 2 ^ (n % w)) s
/-- VCLZ (R269). -/
def execVclz (q : PReg) (ty : ITy) (d a : VReg) (s : State) : Res := int1 q ty d a clzNat s
/-- VPOPC (R269). -/
def execVpopc (q : PReg) (ty : ITy) (d a : VReg) (s : State) : Res := int1 q ty d a popCount s
/-- VIABS (R269). -/
def execViabs (q : PReg) (ty : ITy) (d a : VReg) (s : State) : Res := int1 q ty d a (fun w x => ofSigned w (toSigned w x).natAbs) s

/-- The outcome of a condition of VICMP (R270). -/
def icmp (c : ICond) (w x y : Nat) : Bool :=
  let sx := toSigned w x
  let sy := toSigned w y
  match c with
  | .eq => x == y
  | .ne => x != y
  | .lt => decide (sx < sy)
  | .ge => decide (sy ≤ sx)
  | .ltu => decide (x < y)
  | .geu => decide (y ≤ x)
  | .le => decide (sx ≤ sy)
  | .leu => decide (x ≤ y)
/-- VICMP (R270). -/
def execVicmp (q : PReg) (ty : ITy) (c : ICond) (e : Fin 4) (md : MReg) (a : VReg) (b : VOrS) (s : State) : Res :=
  let w := itWidth ty
  ifWf 2 (.vicmp q ty c e md a b) s (whenQ 2 q s (.next (writeM md
    (maskFrom fun i => icmp c w (elemOf w (opVA a s)[i] e.val) (elemB w b s i e.val)) s)))

-- Narrowing (R271, R287).
/-- The source elements of a narrowing lane, lowest first: a's, then b's. -/
def narrowSrc (w : Nat) (a : VReg) (b : VOrS) (s : State) (i : Fin 128) : List Nat :=
  ((upto (32 / w)).map fun e => elemOf w (opVA a s)[i] e) ++ (upto (32 / w)).map fun e => elemB w b s i e
/-- Lanes narrowed from `w` bits to half of that, clipped in a signedness; and whether any element clipped. -/
def narrowed (w : Nat) (signed : Bool) (src : Fin 128 → List Nat) : VecReg × Bool :=
  let out (x : Nat) : Int × Bool := satW (w / 2) signed (if signed then toSigned w x else (x : Int))
  (Vector.ofFn fun i => laneFrom (w / 2) ((src i).map fun x => ofSigned (w / 2) (out x).1),
    (List.finRange 128).any fun i => (src i).any fun x => (out x).2)
/-- A narrowing with saturation written, SAT raised where an element clipped. -/
def narrowSat (w : Nat) (signed : Bool) (d a : VReg) (b : VOrS) (s : State) : State :=
  let r := narrowed w signed (narrowSrc w a b s)
  let s1 := writeV d r.1 s
  if r.2 then raise flSAT s1 else s1
/-- VSATN (R271). -/
def execVsatn (q : PReg) (n8 : Bool) (d a : VReg) (b : VOrS) (s : State) : Res :=
  whenQ 2 q s (.next (narrowSat (if n8 then 16 else 32) true d a b s))

/-- Source width and signedness of a VPACK selector (R287). -/
def packKind : PackSel → Nat × Bool
  | .i32i16 => (32, true)
  | .n32n16 => (32, false)
  | .i16i8 => (16, true)
  | .n16n8 => (16, false)
/-- VPACK (R287): saturates under SATI, else keeps the low bits. -/
def execVpack (q : PReg) (sel : PackSel) (d a : VReg) (b : VOrS) (s : State) : Res :=
  let (w, signed) := packKind sel
  whenQ 2 q s (.next (if s.cfg.sati then narrowSat w signed d a b s
    else writeV d (Vector.ofFn fun i => laneFrom (w / 2) (narrowSrc w a b s i)) s))

/-- The width, element and signedness of a VUNPK selector (R287). -/
def unpkKind (sel : Nat) : Nat × Nat × Bool :=
  if sel < 4 then (16, sel % 2, decide (sel < 2)) else (8, sel % 4, decide (sel < 8))
/-- VUNPK (R287). -/
def execVunpk (q : PReg) (sel : Fin 12) (d a : VReg) (s : State) : Res :=
  let (w, e, signed) := unpkKind sel.val
  whenQ 2 q s (.next (writeV d (Vector.ofFn fun i =>
    let x := elemOf w (opVA a s)[i] e
    BitVec.ofNat 32 (if signed then ofSigned 32 (toSigned w x) else x)) s))

end Sys2Proof.Machine
end

