-- ==== Sys2Proof/Machine/VecCvt.lean ====
section
/-!
DEFINITION. The V slot's conversions between formats and to and from MX blocks (R284 to R286).
-/
namespace Sys2Proof.Machine

/-- How one output element of VCVT comes about. -/
inductive CvtKind where
  | fp (from_ into : Fmt)
  | toInt (signed : Bool)
  | ofInt (signed : Bool)
  deriving DecidableEq, Repr

/-- A selector of VCVT (R284): the conversion; the width of a source element; the source elements in output order, each of a (false) or b
(true); the width of an output element; and the byte of d at which the outputs are put, the rest of d kept, if it is kept. -/
structure CvtSel where
  kind : CvtKind
  srcW : Nat
  srcs : List (Bool × Nat)
  outW : Nat
  keepAt : Option Nat
  deriving DecidableEq, Repr

/-- Pairs of a and of b in order. -/
def bothPairs : List (Bool × Nat) := [(false, 0), (false, 1), (true, 0), (true, 1)]
/-- The 8-bit formats by selector parity: E4M3 first. -/
def fp8Of (n : Nat) : Fmt := if n = 0 then e4m3 else e5m2

/-- R284's table. -/
def cvtSel (c : Nat) : CvtSel :=
  match c with
  | 0x00 => ⟨.fp fp32 bf16, 32, [(false, 0), (true, 0)], 16, none⟩
  | 0x01 => ⟨.fp fp32 fp16, 32, [(false, 0), (true, 0)], 16, none⟩
  | 0x02 => ⟨.fp bf16 fp32, 16, [(false, 0)], 32, none⟩
  | 0x03 => ⟨.fp bf16 fp32, 16, [(false, 1)], 32, none⟩
  | 0x04 => ⟨.fp fp16 fp32, 16, [(false, 0)], 32, none⟩
  | 0x05 => ⟨.fp fp16 fp32, 16, [(false, 1)], 32, none⟩
  | 0x06 => ⟨.toInt true, 32, [(false, 0)], 32, none⟩
  | 0x07 => ⟨.toInt false, 32, [(false, 0)], 32, none⟩
  | 0x08 => ⟨.ofInt true, 32, [(false, 0)], 32, none⟩
  | 0x09 => ⟨.ofInt false, 32, [(false, 0)], 32, none⟩
  | 0x0A => ⟨.fp bf16 fp16, 16, [(false, 0), (false, 1)], 16, none⟩
  | 0x0B => ⟨.fp fp16 bf16, 16, [(false, 0), (false, 1)], 16, none⟩
  | 0x0C => ⟨.fp fp16 e4m3, 16, bothPairs, 8, none⟩
  | 0x0D => ⟨.fp fp16 e5m2, 16, bothPairs, 8, none⟩
  | 0x0E => ⟨.fp bf16 e4m3, 16, bothPairs, 8, none⟩
  | 0x0F => ⟨.fp bf16 e5m2, 16, bothPairs, 8, none⟩
  | c =>
    if c < 0x18 then
      let f := fp8Of ((c - 0x10) / 2 % 2)
      let lo := c % 2 * 2
      ⟨.fp f (if c < 0x14 then fp16 else bf16), 8, [(false, lo), (false, lo + 1)], 16, none⟩
    else if c < 0x1C then ⟨.fp fp32 (fp8Of ((c - 0x18) / 2)), 32, [(false, 0), (true, 0)], 8, some (c % 2 * 2)⟩
    else ⟨.fp (fp8Of ((c - 0x1C) / 4)) fp32, 8, [(false, c % 4)], 32, none⟩

/-- One conversion of an element (R284). -/
def cvtOne (c : NumCfg) (k : CvtKind) (rnd x : Nat) : FpRes :=
  match k with
  | .fp f g => fpCvt c f g rnd x
  | .toInt signed => fpToInt c fp32 rnd 32 signed x
  | .ofInt signed => intToFp c fp32 rnd (if signed then toSigned 32 x else (x : Int))

/-- A source element of VCVT in lane i. -/
def cvtSrc (p : CvtSel) (a : VReg) (b : Option VOrS) (s : State) (i : Fin 128) (src : Bool × Nat) : Nat :=
  match src.1, b with
  | true, some x => elemB p.srcW x s i src.2
  | _, _ => elemOf p.srcW (opVA a s)[i] src.2

/-- VCVT (R284): under SR one word is drawn for each output element (R72). -/
def execVcvt (q : PReg) (sel : Fin 36) (d a : VReg) (b : Option VOrS) (s : State) : Res :=
  let p := cvtSel sel.val
  let n := p.srcs.length
  let outs : Vector (List FpRes) 128 := Vector.ofFn fun i =>
    p.srcs.mapIdx fun e src => cvtOne s.cfg p.kind (s.rnd n i e) (cvtSrc p a b s i src)
  let flags := (List.finRange 128).flatMap fun i => outs[i].filterMap fun r => if r.2 = 0 then none else some (i.val, r.2)
  let lane (i : Fin 128) : Lane :=
    let x := laneFrom p.outW (outs[i].map Prod.fst)
    match p.keepAt with
    | none => x
    | some k => ((srcV d s)[i] &&& ~~~(0xFFFF#32 <<< (8 * k))) ||| (x <<< (8 * k))
  ifWf 2 (.vcvt q sel d a b) s (whenQ 2 q s (.next (raiseLanes flags (writeV d (Vector.ofFn lane) (drawn n s)))))

/-- Bits of an MX element (R61). -/
def mxWidth : MxFmt → Nat
  | .mx4 => 4
  | .mx6 => 6
  | .mx8 => 8

/-- VQMX (R285, R63). -/
def execVqmx (q : PReg) (f : MxFmt) (d a : VReg) (s : State) : Res :=
  let b := mxWidth f
  let block (k : Nat) : Nat × List (Int × FpFlags) :=
    mxBlock s.cfg.rm b (fun j => s.rnd 1 (Fin.ofNat 128 (32 * k + j)) 0)
      ((upto 32).map fun j => operand s.cfg fp32 (opVA a s)[Fin.ofNat 128 (32 * k + j)].toNat)
  let blocks := (upto 4).map block
  let codes := blocks.flatMap fun p => p.2.map fun x => ofSigned b x.1
  let stream := codes.foldr (fun x n => x + 2 ^ b * n) 0
  let scales := (blocks.map Prod.fst).foldr (fun x n => x + 256 * n) 0
  let flags := ((blocks.flatMap fun p => p.2.map Prod.snd).mapIdx fun i fl => (i, fl)).filter fun p => p.2 != 0
  whenQ 2 q s (.next (raiseLanes flags (writeV d
    (Vector.ofFn fun i => BitVec.ofNat 32 (if i.val = 127 then scales else stream / 2 ^ (32 * i.val))) (drawn 1 s))))

/-- VDQMX (R286). -/
def execVdqmx (q : PReg) (f : MxFmt) (d a : VReg) (s : State) : Res :=
  let b := mxWidth f
  let stream := (vlist (opVA a s)).foldr (fun x n => x.toNat + 4294967296 * n) 0
  let scale (i : Fin 128) : Nat := elemOf 8 (opVA a s)[(127 : Fin 128)] (i.val / 32)
  whenQ 2 q s (.next (fpEach 32 1 false d (fun i _ _ => mxValue s.cfg b (scale i) (toSigned b (stream / 2 ^ (b * i.val)))) s))

end Sys2Proof.Machine
end

