-- ==== Sys2Proof/Machine/VecMove.lean ====
section
/-!
DEFINITION. The V slot's moves, permutes and masks (R280 to R283).
-/
namespace Sys2Proof.Machine

/-- A vector result of a V syllable under its condition. -/
def moveV (q : PReg) (d : VReg) (f : Fin 128 → Lane) (s : State) : Res := whenQ 2 q s (.next (writeV d (Vector.ofFn f) s))

/-- VMOV (R280). -/
def execVmov (q : PReg) (d : VReg) (a : VOrS) (s : State) : Res :=
  match a with
  | .v r => moveV q d (fun i => (opVA r s)[i]) s
  | .s r => moveV q d (fun _ => (srcS r s).setWidth 32) s

/-- Every element of a lane the same. -/
def splatLane (ty : ITy) (x : Nat) : Lane := laneFrom (itWidth ty) (List.replicate (itElems ty) x)
/-- Element k of a whole register (R257). -/
def regElem (ty : ITy) (v : VecReg) (k : Nat) : Nat := elemOf (itWidth ty) v[Fin.ofNat 128 (k / itElems ty)] (k % itElems ty)
/-- VSPLAT (R280). -/
def execVsplat (q : PReg) (ty : ITy) (d : VReg) (src : SplatSrc) (s : State) : Res :=
  match src with
  | .scal a => moveV q d (fun _ => splatLane ty ((srcS a s).toNat % 2 ^ itWidth ty)) s
  | .lane a b =>
    whenQ 2 q s (
      if (srcS b s).toNat ≥ 128 * itElems ty then illegalOp 2 s
      else .next (writeV d (Vector.ofFn fun _ => splatLane ty (regElem ty (opVA a s) (srcS b s).toNat)) s))
/-- VLI (R280). -/
def execVli (q : PReg) (d : VReg) (i : VliImm) (s : State) : Res :=
  match i with
  | .plain n => moveV q d (fun _ => n.signExtend 32) s
  | .high n => moveV q d (fun k => ((srcV d s)[k] <<< 16) ||| n.setWidth 32) s
/-- VMVS (R280). -/
def execVmvs (q : PReg) (d : SDst) (a : VReg) (b : SReg) (s : State) : Res :=
  whenQ 2 q s (
    if (srcS b s).toNat ≥ 128 then illegalOp 2 s
    else .next (writeD d ((opVA a s)[Fin.ofNat 128 (srcS b s).toNat].setWidth 64) s))
/-- VINS (R280). -/
def execVins (q : PReg) (d : VReg) (a b : SReg) (s : State) : Res :=
  whenQ 2 q s (
    if (srcS b s).toNat ≥ 128 then illegalOp 2 s
    else .next (writeV d (vput (srcV d s) (Fin.ofNat 128 (srcS b s).toNat) ((srcS a s).setWidth 32)) s))

/-- VPERM (R281). -/
def execVperm (q : PReg) (d a : VReg) (b : VOrS) (c : VReg) (s : State) : Res :=
  moveV q d (fun i =>
    let k := (laneB b s i).toNat
    if nbit 7 k then (opVC c s)[Fin.ofNat 128 (k % 128)] else (opVA a s)[Fin.ofNat 128 (k % 128)]) s
/-- VROTL (R281). -/
def execVrotl (q : PReg) (d a : VReg) (b : SReg) (s : State) : Res :=
  moveV q d (fun i => (opVA a s)[Fin.ofNat 128 (i.val + 128 - (srcS b s).toNat % 128)]) s
/-- VSLIDE (R281). -/
def execVslide (q : PReg) (d a : VReg) (b : SReg) (c : VReg) (s : State) : Res :=
  let n := (srcS b s).toNat
  whenQ 2 q s (
    if n > 128 then illegalOp 2 s
    else .next (writeV d (Vector.ofFn fun i =>
      if i.val + n < 128 then (opVA a s)[Fin.ofNat 128 (i.val + n)] else (opVC c s)[Fin.ofNat 128 (i.val + n - 128)]) s))

/-- The b operand as a whole register (R256). -/
def regB (ty : ITy) (b : VOrS) (s : State) : VecReg :=
  match b with
  | .v r => opVB r s
  | .s r => Vector.ofFn fun _ => splatLane ty ((srcS r s).toNat % 2 ^ itWidth ty)
/-- A register from its elements. -/
def fromElems (ty : ITy) (f : Nat → Nat) : VecReg := intLanes ty fun i e => f (i.val * itElems ty + e)
/-- A result pair (R282). -/
def pairV (q : PReg) (d : VReg) (lo hi : VecReg) (s : State) : Res := whenQ 2 q s (.next (writeV (nextV d) hi (writeV d lo s)))
/-- VZIP (R282). -/
def execVzip (q : PReg) (ty : ITy) (d a : VReg) (b : VOrS) (s : State) : Res :=
  let A := opVA a s
  let B := regB ty b s
  let half := 64 * itElems ty
  let pick (off j : Nat) : Nat := if j % 2 = 0 then regElem ty A (off + j / 2) else regElem ty B (off + j / 2)
  ifWf 2 (.vzip q ty d a b) s (pairV q d (fromElems ty (pick 0)) (fromElems ty (pick half)) s)
/-- VUNZIP (R282). -/
def execVunzip (q : PReg) (ty : ITy) (d a : VReg) (b : VOrS) (s : State) : Res :=
  let A := opVA a s
  let B := regB ty b s
  let n := 128 * itElems ty
  let cat (j : Nat) : Nat := if j < n then regElem ty A j else regElem ty B (j - n)
  ifWf 2 (.vunzip q ty d a b) s (pairV q d (fromElems ty fun k => cat (2 * k)) (fromElems ty fun k => cat (2 * k + 1)) s)

/-- VSEL (R283). -/
def execVsel (q : PReg) (d a : VReg) (m : MReg) (c : VReg) (s : State) : Res :=
  moveV q d (fun i => if (srcM m s).getLsbD i.val then (opVA a s)[i] else (opVC c s)[i]) s

/-- A mask operation (R283). -/
def maskOp (op : MOp) (a b : Mask) : Mask :=
  match op with
  | .and => a &&& b
  | .or => a ||| b
  | .xor => a ^^^ b
  | .andn => a &&& ~~~b
  | .orn => a ||| ~~~b
  | .nand => ~~~(a &&& b)
  | .nor => ~~~(a ||| b)
  | .xnor => ~~~(a ^^^ b)
/-- MLOG (R283). -/
def execMlog (q : PReg) (op : MOp) (md ma mb : MReg) (s : State) : Res :=
  whenQ 2 q s (.next (writeM md (maskOp op (srcM ma s) (srcM mb s)) s))

/-- MPOPC's value (R283). -/
def mpopcOf (sel : MSel) (m : Nat) : Nat :=
  match sel with
  | .cnt => popCount 128 m
  | .lo => ctzNat 128 m
  | .hi => if m = 0 then 128 else 127 - clzNat 128 m
/-- MPOPC (R283). -/
def execMpopc (q : PReg) (sel : MSel) (d : SReg) (ma : MReg) (s : State) : Res :=
  whenQ 2 q s (.next (writeS d (BitVec.ofNat 64 (mpopcOf sel (srcM ma s).toNat)) s))

end Sys2Proof.Machine
end

