-- ==== Sys2Proof/Machine/VecRed.lean ====
section
/-!
DEFINITION. The V slot's reductions, group operations, scans and bit streams (R272 to R279), over the Brent–Kung order of R273.
-/
namespace Sys2Proof.Machine

-- The order of R273.
/-- One level: at each position that the level combines, the value there is replaced by that of the position `h` lower combined with it. -/
def bkLevel {α : Type} (op : Nat → Nat → α → α → α) (L h : Nat) (target : Nat → Bool) (y : Vector α 128) : Vector α 128 :=
  Vector.ofFn fun i => if target i.val then op L i.val y[Fin.ofNat 128 (i.val - h)] y[i] else y[i]

/-- The up-sweep's levels 0 to n − 1. -/
def upSweep {α : Type} (op : Nat → Nat → α → α → α) : Nat → Vector α 128 → Vector α 128
  | 0, y => y
  | n + 1, y => bkLevel op n (2 ^ n) (fun i => (i + 1) % 2 ^ (n + 1) == 0) (upSweep op n y)

/-- The down-sweep's first `n` levels, from level 7 on. -/
def downSweep {α : Type} (op : Nat → Nat → α → α → α) : Nat → Vector α 128 → Vector α 128
  | 0, y => y
  | n + 1, y =>
    let st := 2 ^ (6 - n)
    bkLevel op (7 + n) (st / 2) (fun i => decide (i ≥ st + st / 2 - 1) && (i - (st + st / 2 - 1)) % st == 0) (downSweep op n y)

/-- BK(op, x) (R273). -/
def bkScan {α : Type} (op : Nat → Nat → α → α → α) (x : Vector α 128) : Vector α 128 := downSweep op 6 (upSweep op 7 x)

-- Operands of R272.
/-- A value at a position with the flags that the combinations written there raised. -/
abbrev RedVal := Nat × List FpFlags

/-- Which combination a reduction makes. -/
inductive RedOp where
  | add | max | min
  deriving DecidableEq, Repr

/-- The padding leaf (R78). -/
def padLeaf (o : RedOp) (ty : RTy) (rm : RMode) : Nat :=
  match ty, o with
  | .f32, .add => if rm == .rdn then 0 else 0x80000000
  | .f32, .max => 0xFF800000
  | .f32, .min => 0x7F800000
  | _, .add => 0
  | .i32, .max => 0x80000000
  | .i32, .min => 0x7FFFFFFF
  | .n32, .max => 0
  | .n32, .min => 0xFFFFFFFF
/-- The empty result (R78). -/
def emptyRes (o : RedOp) (ty : RTy) : Nat := if o = .add then 0 else padLeaf o ty .rne

/-- One combination (R272): left comes from the lower lanes. -/
def combine (c : NumCfg) (o : RedOp) (ty : RTy) (rnd x y : Nat) : FpRes :=
  match ty, o with
  | .f32, .add => fpAdd c fp32 rnd false x y
  | .f32, .max => fpMinMax c fp32 true false x y
  | .f32, .min => fpMinMax c fp32 false false x y
  | _, .add => ((x + y) % 2 ^ 32, 0)
  | .i32, .max => (if toSigned 32 x ≤ toSigned 32 y then y else x, 0)
  | .i32, .min => (if toSigned 32 x ≤ toSigned 32 y then x else y, 0)
  | .n32, .max => (Nat.max x y, 0)
  | .n32, .min => (Nat.min x y, 0)

/-- The random word of a combination written at a position at a level: its lane's word rotated (R277). -/
def redRnd (s : State) (i k : Nat) : Nat :=
  if s.draws then (rotL32 (nextWord s.clu.sr[Fin.ofNat 128 i]) (k % 32)).toNat else 0

/-- The combination of a reduction over values with their flags (R272, R277). -/
def redOp (o : RedOp) (ty : RTy) (s : State) (L i : Nat) (x y : RedVal) : RedVal :=
  let r := combine s.cfg o ty (if o = .add && ty == .f32 then redRnd s i (5 * L) else 0) x.1 y.1
  (r.1, y.2 ++ [r.2])

/-- The leaves: a's lanes, a padding leaf where the mask bit is 0 (R272). -/
def redLeaves (o : RedOp) (ty : RTy) (a : VReg) (m : MReg) (s : State) : Vector RedVal 128 :=
  Vector.ofFn fun i => (if (srcM m s).getLsbD i.val then (opVA a s)[i].toNat else padLeaf o ty s.cfg.rm, [])

/-- Every lane of the group of `g` lanes that holds lane i is masked off. -/
def groupEmpty (g : Nat) (m : MReg) (s : State) (i : Nat) : Bool := (upto g).all fun k => !((srcM m s).getLsbD (i / g * g + k))

/-- The flags at the positions, by lane. -/
def redFlags (y : Vector RedVal 128) : List (Nat × FpFlags) :=
  (List.finRange 128).flatMap fun i => y[i].2.filterMap fun f => if f = 0 then none else some (i.val, f)

/-- A drawing reduction draws one word a lane (R277). -/
def redDrawn (o : RedOp) (ty : RTy) (s : State) : State := if o = .add && ty == .f32 then drawn 1 s else s

/-- A reduction's outcome written: the values by lane, the empty result with EMPTY where a group of `g` lanes is masked off, the flags, and
the draws (R274, R275, R277). -/
def redWrite (o : RedOp) (ty : RTy) (g : Nat) (d : VReg) (m : MReg) (y : Vector RedVal 128) (value : Fin 128 → Nat) (s : State) : State :=
  let s1 := writeV d (Vector.ofFn fun i => BitVec.ofNat 32 (if groupEmpty g m s i.val then emptyRes o ty else value i)) (redDrawn o ty s)
  let s2 := raiseLanes (redFlags y) s1
  if (List.finRange 128).any fun i => groupEmpty g m s i.val then raise flEMPTY s2 else s2

/-- A reduction over groups of 2^n lanes: every lane gets its group's tree value (R274). -/
def groupRed (o : RedOp) (ty : RTy) (n : Nat) (d a : VReg) (m : MReg) (s : State) : State :=
  let g := 2 ^ n
  let y := upSweep (redOp o ty s) n (redLeaves o ty a m s)
  redWrite o ty g d m y (fun i => (y[Fin.ofNat 128 (i.val / g * g + g - 1)]).1) s

/-- VREDADD (R274). -/
def execVredadd (q : PReg) (ty : RTy) (d a : VReg) (m : MReg) (s : State) : Res := whenQ 2 q s (.next (groupRed .add ty 7 d a m s))
/-- VREDMAX (R274). -/
def execVredmax (q : PReg) (ty : RTy) (d a : VReg) (m : MReg) (s : State) : Res := whenQ 2 q s (.next (groupRed .max ty 7 d a m s))
/-- VREDMIN (R274). -/
def execVredmin (q : PReg) (ty : RTy) (d a : VReg) (m : MReg) (s : State) : Res := whenQ 2 q s (.next (groupRed .min ty 7 d a m s))
/-- VGMAX (R274). -/
def execVgmax (q : PReg) (ty : RTy) (d a : VReg) (m : MReg) (n : Fin 8) (s : State) : Res :=
  ifWf 2 (.vgmax q ty d a m n) s (whenQ 2 q s (.next (groupRed .max ty n.val d a m s)))
/-- VGSUM (R274). -/
def execVgsum (q : PReg) (ty : RTy) (d a : VReg) (m : MReg) (n : Fin 8) (s : State) : Res :=
  ifWf 2 (.vgsum q ty d a m n) s (whenQ 2 q s (.next (groupRed .add ty n.val d a m s)))
/-- VSCANADD (R275). -/
def execVscanadd (q : PReg) (ty : RTy) (d a : VReg) (m : MReg) (s : State) : Res :=
  let y := bkScan (redOp .add ty s) (redLeaves .add ty a m s)
  whenQ 2 q s (.next (redWrite .add ty 128 d m y (fun i => (y[i]).1) s))

-- The affine scan (R276).
/-- A pair (a, b) at a position with the flags of the combinations written there. -/
abbrev AffVal := Nat × Nat × List FpFlags
/-- The combination of two pairs (R276, R277). -/
def affOp (s : State) (L i : Nat) (x y : AffVal) : AffVal :=
  let p := fpMul s.cfg fp32 (redRnd s i (5 * L)) y.1 x.1
  let f := fpFma s.cfg fp32 (redRnd s i (5 * L + 1)) false false y.1 x.2.1 y.2.1
  (p.1, f.1, y.2.2 ++ [p.2, f.2])
/-- VSCANAFF (R276). -/
def execVscanaff (q : PReg) (d a : VReg) (b : VOrS) (c : VReg) (s : State) : Res :=
  let x : Vector AffVal 128 := Vector.ofFn fun i => ((opVA a s)[i].toNat, (laneB b s i).toNat, [])
  let y := bkScan (affOp s) x
  let h := (opVC c s)[(127 : Fin 128)].toNat
  let out (i : Fin 128) : FpRes := fpFma s.cfg fp32 (redRnd s i.val 31) false false (y[i]).1 h (y[i]).2.1
  let flags := (List.finRange 128).flatMap fun i => ((y[i]).2.2 ++ [(out i).2]).filterMap fun f => if f = 0 then none else some (i.val, f)
  whenQ 2 q s (.next (raiseLanes flags (writeV d (Vector.ofFn fun i => BitVec.ofNat 32 (out i).1) (drawn 1 s))))

-- Bit streams (R278, R279).
/-- The width of a field in a lane of a. -/
def fieldWidth (x : Lane) : Nat := Nat.min (x.toNat % 64) 32
/-- A window of two lanes. -/
def window (lo hi : Lane) : Nat := hi.toNat * 4294967296 + lo.toNat
/-- VBSR (R278). -/
def execVbsr (q : PReg) (d a b c : VReg) (s : State) : Res :=
  let w (i : Fin 128) : Nat := fieldWidth (opVA a s)[i]
  let cur (i : Fin 128) : Lane := (opVC c s)[i]
  let win (i : Fin 128) : Nat := window (opVB b s)[i] (srcV (nextV b) s)[i]
  ifWf 2 (.vbsr q d a b c) s (whenQ 2 q s (.next
    (writeV c (Vector.ofFn fun i => cur i + BitVec.ofNat 32 (w i))
      (writeV d (Vector.ofFn fun i => BitVec.ofNat 32 (win i / 2 ^ ((cur i).toNat % 32) % 2 ^ w i)) s))))
/-- VBSW (R279). -/
def execVbsw (q : PReg) (d a : VReg) (b : VOrS) (c : VReg) (s : State) : Res :=
  let win (i : Fin 128) : Nat :=
    let w := fieldWidth (opVA a s)[i]
    let off := (opVC c s)[i].toNat % 32
    let old := window (srcV d s)[i] (srcV (nextV d) s)[i]
    old - old / 2 ^ off % 2 ^ w * 2 ^ off + (laneB b s i).toNat % 2 ^ w * 2 ^ off
  ifWf 2 (.vbsw q d a b c) s (whenQ 2 q s (.next
    (writeV (nextV d) (Vector.ofFn fun i => BitVec.ofNat 32 (win i / 4294967296))
      (writeV d (Vector.ofFn fun i => BitVec.ofNat 32 (win i)) s))))

end Sys2Proof.Machine
end

