-- ==== Sys2Proof/Machine/Syllables.lean ====
section
/-!
DEFINITION. The meanings of the syllables of a line as one function, for FOLIO_ISSUE (R33), which acts through them as `exec` does.
-/
namespace Sys2Proof.Machine

/-- The meaning of a syllable of a line, and of the reload that a waiting line tries; anything else does nothing. -/
def runSyl (i : Instr) (s : State) : Res :=
  match i with
  | .add q d a b => execAdd q d a b s
  | .sub q d a b => execSub q d a b s
  | .addi q d a i => execAddi q d a i s
  | .mul q d a b => execMul q d a b s
  | .mulh q d a b => execMulh q d a b s
  | .mulhu q d a b => execMulhu q d a b s
  | .div q d a b => execDiv q d a b s
  | .divu q d a b => execDivu q d a b s
  | .rem q d a b => execRem q d a b s
  | .remu q d a b => execRemu q d a b s
  | .and q d a b => execAnd q d a b s
  | .or q d a b => execOr q d a b s
  | .xor q d a b => execXor q d a b s
  | .andn q d a b => execAndn q d a b s
  | .orn q d a b => execOrn q d a b s
  | .shl q d a b => execShl q d a b s
  | .shr q d a b => execShr q d a b s
  | .sar q d a b => execSar q d a b s
  | .rol q d a b => execRol q d a b s
  | .fshl q d a b c => execFshl q d a b c s
  | .fshr q d a b c => execFshr q d a b c s
  | .clz q d a => execClz q d a s
  | .ctz q d a => execCtz q d a s
  | .popc q d a => execPopc q d a s
  | .min q d a b => execMin q d a b s
  | .max q d a b => execMax q d a b s
  | .minu q d a b => execMinu q d a b s
  | .maxu q d a b => execMaxu q d a b s
  | .sel q d a b c => execSel q d a b c s
  | .li q d i => execLi q d i s
  | .lih q d i => execLih q d i s
  | .ext q d a pos wm1 => execExt q d a pos wm1 s
  | .extu q d a pos wm1 => execExtu q d a pos wm1 s
  | .ins q d a pos wm1 => execIns q d a pos wm1 s
  | .bswap q d a => execBswap q d a s
  | .abs q d a => execAbs q d a s
  | .cmp q c pd a b => execCmp q c pd a b s
  | .cmpi q c pd a i => execCmpi q c pd a i s
  | .tstb q clr pd a bit => execTstb q clr pd a bit s
  | .pand q pd pa pb => execPand q pd pa pb s
  | .por q pd pa pb => execPor q pd pa pb s
  | .pxor q pd pa pb => execPxor q pd pa pb s
  | .pandn q pd pa pb => execPandn q pd pa pb s
  | .br q off => execBr q off s
  | .brcc q cc off => execBrcc q cc off s
  | .call q off => execCall q off s
  | .callr q d a => execCallr q d a s
  | .ret q a => execRet q a s
  | .jmpr q a => execJmpr q a s
  | .loop q st id rot sm1 lenm1 => execLoop q st id rot sm1 lenm1 s
  | .lbrk q id off => execLbrk q id off s
  | .forkc q mask off => execForkc q mask off s
  | .ccset q mask => execCcset q mask s
  | .ccclr q mask => execCcclr q mask s
  | .ccwait q mask => execCcwait q mask s
  | .sleepuntil q a => execSleepuntil q a s
  | .safe vlive slive => execSafe vlive slive s
  | .spawn q d a => execSpawn q d a s
  | .join q a => execJoin q a s
  | .yield q a b => execYield q a b s
  | .exit q => execExit q s
  | .mfk q d k => execMfk q d k s
  | .mtk q k a => execMtk q k a s
  | .rdcyc q d => execRdcyc q d s
  | .rddatum q d => execRddatum q d s
  | .locality q d a => execLocality q d a s
  | .trap q code a => execTrap q code a s
  | .eret q => execEret q s
  | .brkpt q code => execBrkpt q code s
  | .widle q a => execWidle q a s
  | .mempfx o sc cp asp => execMempfx o sc cp asp s
  | .ld q d m k => execLd q d m k s
  | .st q d m k => execSt q d m k s
  | .pref q m => execPref q m s
  | .vld q d m k => execVld q d m k s
  | .vst q d m k => execVst q d m k s
  | .vldu q d m k => execVldu q d m k s
  | .vstm q d m => execVstm q d m s
  | .vlds q d base x k => execVlds q d base x k s
  | .vsts q d base x k => execVsts q d base x k s
  | .vgath q d base x => execVgath q d base x s
  | .vscat q d base x => execVscat q d base x s
  | .vldb q d m k => execVldb q d m k s
  | .talloc q d a b pd => execTalloc q d a b pd s
  | .tfree q h => execTfree q h s
  | .tgive q h => execTgive q h s
  | .ttake q h => execTtake q h s
  | .evHandleReload h => execEvHandleReload h s
  | .tld q d h row k => execTld q d h row k s
  | .tst q d h row k => execTst q d h row k s
  | .tinfo q d h => execTinfo q d h s
  | .thold q h => execThold q h s
  | .trels q h => execTrels q h s
  | .amo q op w64 d a b => execAmo q op w64 d a b s
  | .cas q w64 d a b => execCas q w64 d a b s
  | .cas2 q d a b => execCas2 q d a b s
  | .ljoin q src m => execLjoin q src m s
  | .lld q d m => execLld q d m s
  | .lwait q pd a b c => execLwait q pd a b c s
  | .fence q o sc => execFence q o sc s
  | .fencesc q sc => execFencesc q sc s
  | .fencea q sc => execFencea q sc s
  | .ifence q => execIfence q s
  | .eng e func a b r w => execEng e func a b r w s
  | .fork l a b w => execFork l a b w s
  | .rdv q a => execRdv q a s
  | .setf q f => execSetf q f s
  | .clrf q f => execClrf q f s
  | .waitf q e f => execWaitf q e f s
  | .qstat q d e => execQstat q d e s
  | .vadd q ty d a b => execVadd q ty d a b s
  | .vsub q ty d a b => execVsub q ty d a b s
  | .vmul q ty d a b => execVmul q ty d a b s
  | .vfma q ty d a b c => execVfma q ty d a b c s
  | .vfms q ty d a b c => execVfms q ty d a b c s
  | .vfnma q ty d a b c => execVfnma q ty d a b c s
  | .vfnms q ty d a b c => execVfnms q ty d a b c s
  | .vmin q ty d a b => execVmin q ty d a b s
  | .vmax q ty d a b => execVmax q ty d a b s
  | .vminn q ty d a b => execVminn q ty d a b s
  | .vmaxn q ty d a b => execVmaxn q ty d a b s
  | .vabs q ty d a => execVabs q ty d a s
  | .vneg q ty d a => execVneg q ty d a s
  | .vcpys q ty d a b => execVcpys q ty d a b s
  | .vcmp q ty c e1 md a b => execVcmp q ty c e1 md a b s
  | .vclass q ty d a => execVclass q ty d a s
  | .vrnd q ty d a => execVrnd q ty d a s
  | .vscale q ty d a b => execVscale q ty d a b s
  | .viadd q ty d a b => execViadd q ty d a b s
  | .visub q ty d a b => execVisub q ty d a b s
  | .vimul q ty d a b => execVimul q ty d a b s
  | .vimin q ty d a b => execVimin q ty d a b s
  | .vimax q ty d a b => execVimax q ty d a b s
  | .viminu q ty d a b => execViminu q ty d a b s
  | .vimaxu q ty d a b => execVimaxu q ty d a b s
  | .vand q ty d a b => execVand q ty d a b s
  | .vor q ty d a b => execVor q ty d a b s
  | .vxor q ty d a b => execVxor q ty d a b s
  | .vandn q ty d a b => execVandn q ty d a b s
  | .vshl q ty d a b => execVshl q ty d a b s
  | .vshr q ty d a b => execVshr q ty d a b s
  | .vsar q ty d a b => execVsar q ty d a b s
  | .vfshl q ty d a b c => execVfshl q ty d a b c s
  | .vfshr q ty d a b c => execVfshr q ty d a b c s
  | .vclz q ty d a => execVclz q ty d a s
  | .vpopc q ty d a => execVpopc q ty d a s
  | .vicmp q ty c e md a b => execVicmp q ty c e md a b s
  | .vsatn q n8 d a b => execVsatn q n8 d a b s
  | .viabs q ty d a => execViabs q ty d a s
  | .vredadd q ty d a m => execVredadd q ty d a m s
  | .vredmax q ty d a m => execVredmax q ty d a m s
  | .vredmin q ty d a m => execVredmin q ty d a m s
  | .vgmax q ty d a m n => execVgmax q ty d a m n s
  | .vgsum q ty d a m n => execVgsum q ty d a m n s
  | .vscanadd q ty d a m => execVscanadd q ty d a m s
  | .vscanaff q d a b c => execVscanaff q d a b c s
  | .vbsr q d a b c => execVbsr q d a b c s
  | .vbsw q d a b c => execVbsw q d a b c s
  | .vmov q d a => execVmov q d a s
  | .vsplat q ty d src => execVsplat q ty d src s
  | .vli q d i => execVli q d i s
  | .vmvs q d a b => execVmvs q d a b s
  | .vins q d a b => execVins q d a b s
  | .vperm q d a b c => execVperm q d a b c s
  | .vrotl q d a b => execVrotl q d a b s
  | .vslide q d a b c => execVslide q d a b c s
  | .vzip q ty d a b => execVzip q ty d a b s
  | .vunzip q ty d a b => execVunzip q ty d a b s
  | .vsel q d a m c => execVsel q d a m c s
  | .mlog q op md ma mb => execMlog q op md ma mb s
  | .mpopc q sel d ma => execMpopc q sel d ma s
  | .vcvt q sel d a b => execVcvt q sel d a b s
  | .vqmx q f d a => execVqmx q f d a s
  | .vdqmx q f d a => execVdqmx q f d a s
  | .vpack q sel d a b => execVpack q sel d a b s
  | .vunpk q sel d a => execVunpk q sel d a s
  | .nop => execNop s
  | _ => .next s

/-- FOLIO_ISSUE (R33, R34): the four SYNC lines that the acting core's clusters present issue together. -/
def execEvFolioIssue (s : State) : Res := folioTurn runSyl s

end Sys2Proof.Machine
end

