-- ==== Sys2Proof/Machine/Dispatch.lean ====
section
/-!
DEFINITION. Which meaning each instruction, stream word and event has: one direct call per constructor of `Instr`.
-/
namespace Sys2Proof.Machine

/-- The meaning of an instruction for the unit that `State.at_` names. -/
def exec (i : Instr) (s : State) : Host.Outcome State Fault Refusal :=
  match i with
  | .add q d a b => Sys2Proof.Machine.execAdd q d a b s
  | .sub q d a b => Sys2Proof.Machine.execSub q d a b s
  | .addi q d a imm => Sys2Proof.Machine.execAddi q d a imm s
  | .mul q d a b => Sys2Proof.Machine.execMul q d a b s
  | .mulh q d a b => Sys2Proof.Machine.execMulh q d a b s
  | .mulhu q d a b => Sys2Proof.Machine.execMulhu q d a b s
  | .div q d a b => Sys2Proof.Machine.execDiv q d a b s
  | .divu q d a b => Sys2Proof.Machine.execDivu q d a b s
  | .rem q d a b => Sys2Proof.Machine.execRem q d a b s
  | .remu q d a b => Sys2Proof.Machine.execRemu q d a b s
  | .and q d a b => Sys2Proof.Machine.execAnd q d a b s
  | .or q d a b => Sys2Proof.Machine.execOr q d a b s
  | .xor q d a b => Sys2Proof.Machine.execXor q d a b s
  | .andn q d a b => Sys2Proof.Machine.execAndn q d a b s
  | .orn q d a b => Sys2Proof.Machine.execOrn q d a b s
  | .shl q d a b => Sys2Proof.Machine.execShl q d a b s
  | .shr q d a b => Sys2Proof.Machine.execShr q d a b s
  | .sar q d a b => Sys2Proof.Machine.execSar q d a b s
  | .rol q d a b => Sys2Proof.Machine.execRol q d a b s
  | .fshl q d a b c => Sys2Proof.Machine.execFshl q d a b c s
  | .fshr q d a b c => Sys2Proof.Machine.execFshr q d a b c s
  | .clz q d a => Sys2Proof.Machine.execClz q d a s
  | .ctz q d a => Sys2Proof.Machine.execCtz q d a s
  | .popc q d a => Sys2Proof.Machine.execPopc q d a s
  | .min q d a b => Sys2Proof.Machine.execMin q d a b s
  | .max q d a b => Sys2Proof.Machine.execMax q d a b s
  | .minu q d a b => Sys2Proof.Machine.execMinu q d a b s
  | .maxu q d a b => Sys2Proof.Machine.execMaxu q d a b s
  | .sel q d a b c => Sys2Proof.Machine.execSel q d a b c s
  | .li q d imm => Sys2Proof.Machine.execLi q d imm s
  | .lih q d imm => Sys2Proof.Machine.execLih q d imm s
  | .ext q d a pos wm1 => Sys2Proof.Machine.execExt q d a pos wm1 s
  | .extu q d a pos wm1 => Sys2Proof.Machine.execExtu q d a pos wm1 s
  | .ins q d a pos wm1 => Sys2Proof.Machine.execIns q d a pos wm1 s
  | .bswap q d a => Sys2Proof.Machine.execBswap q d a s
  | .abs q d a => Sys2Proof.Machine.execAbs q d a s
  | .cmp q c pd a b => Sys2Proof.Machine.execCmp q c pd a b s
  | .cmpi q c pd a imm => Sys2Proof.Machine.execCmpi q c pd a imm s
  | .tstb q clr pd a bit => Sys2Proof.Machine.execTstb q clr pd a bit s
  | .pand q pd pa pb => Sys2Proof.Machine.execPand q pd pa pb s
  | .por q pd pa pb => Sys2Proof.Machine.execPor q pd pa pb s
  | .pxor q pd pa pb => Sys2Proof.Machine.execPxor q pd pa pb s
  | .pandn q pd pa pb => Sys2Proof.Machine.execPandn q pd pa pb s
  | .br q off => Sys2Proof.Machine.execBr q off s
  | .brcc q cc off => Sys2Proof.Machine.execBrcc q cc off s
  | .call q off => Sys2Proof.Machine.execCall q off s
  | .callr q d a => Sys2Proof.Machine.execCallr q d a s
  | .ret q a => Sys2Proof.Machine.execRet q a s
  | .jmpr q a => Sys2Proof.Machine.execJmpr q a s
  | .loop q st id rot sm1 lenm1 => Sys2Proof.Machine.execLoop q st id rot sm1 lenm1 s
  | .lbrk q id off => Sys2Proof.Machine.execLbrk q id off s
  | .forkc q mask off => Sys2Proof.Machine.execForkc q mask off s
  | .ccset q mask => Sys2Proof.Machine.execCcset q mask s
  | .ccclr q mask => Sys2Proof.Machine.execCcclr q mask s
  | .ccwait q mask => Sys2Proof.Machine.execCcwait q mask s
  | .sleepuntil q a => Sys2Proof.Machine.execSleepuntil q a s
  | .safe vlive slive => Sys2Proof.Machine.execSafe vlive slive s
  | .spawn q d a => Sys2Proof.Machine.execSpawn q d a s
  | .join q a => Sys2Proof.Machine.execJoin q a s
  | .yield q a b => Sys2Proof.Machine.execYield q a b s
  | .exit q => Sys2Proof.Machine.execExit q s
  | .mfk q d k => Sys2Proof.Machine.execMfk q d k s
  | .mtk q k a => Sys2Proof.Machine.execMtk q k a s
  | .rdcyc q d => Sys2Proof.Machine.execRdcyc q d s
  | .rddatum q d => Sys2Proof.Machine.execRddatum q d s
  | .locality q d a => Sys2Proof.Machine.execLocality q d a s
  | .trap q code a => Sys2Proof.Machine.execTrap q code a s
  | .eret q => Sys2Proof.Machine.execEret q s
  | .brkpt q code => Sys2Proof.Machine.execBrkpt q code s
  | .widle q a => Sys2Proof.Machine.execWidle q a s
  | .mempfx o sc cp asp => Sys2Proof.Machine.execMempfx o sc cp asp s
  | .ld q d m k => Sys2Proof.Machine.execLd q d m k s
  | .st q d m k => Sys2Proof.Machine.execSt q d m k s
  | .pref q m => Sys2Proof.Machine.execPref q m s
  | .vld q d m k => Sys2Proof.Machine.execVld q d m k s
  | .vst q d m k => Sys2Proof.Machine.execVst q d m k s
  | .vldu q d m k => Sys2Proof.Machine.execVldu q d m k s
  | .vstm q d m => Sys2Proof.Machine.execVstm q d m s
  | .vlds q d base x k => Sys2Proof.Machine.execVlds q d base x k s
  | .vsts q d base x k => Sys2Proof.Machine.execVsts q d base x k s
  | .vgath q d base x => Sys2Proof.Machine.execVgath q d base x s
  | .vscat q d base x => Sys2Proof.Machine.execVscat q d base x s
  | .vldb q d m k => Sys2Proof.Machine.execVldb q d m k s
  | .talloc q d a b pd => Sys2Proof.Machine.execTalloc q d a b pd s
  | .tfree q h => Sys2Proof.Machine.execTfree q h s
  | .tgive q h => Sys2Proof.Machine.execTgive q h s
  | .ttake q h => Sys2Proof.Machine.execTtake q h s
  | .evHandleReload h => Sys2Proof.Machine.execEvHandleReload h s
  | .tld q d h row k => Sys2Proof.Machine.execTld q d h row k s
  | .tst q d h row k => Sys2Proof.Machine.execTst q d h row k s
  | .tinfo q d h => Sys2Proof.Machine.execTinfo q d h s
  | .thold q h => Sys2Proof.Machine.execThold q h s
  | .trels q h => Sys2Proof.Machine.execTrels q h s
  | .amo q op w64 d a b => Sys2Proof.Machine.execAmo q op w64 d a b s
  | .cas q w64 d a b => Sys2Proof.Machine.execCas q w64 d a b s
  | .cas2 q d a b => Sys2Proof.Machine.execCas2 q d a b s
  | .ljoin q src m => Sys2Proof.Machine.execLjoin q src m s
  | .lld q d m => Sys2Proof.Machine.execLld q d m s
  | .lwait q pd a b c => Sys2Proof.Machine.execLwait q pd a b c s
  | .fence q o sc => Sys2Proof.Machine.execFence q o sc s
  | .fencesc q sc => Sys2Proof.Machine.execFencesc q sc s
  | .fencea q sc => Sys2Proof.Machine.execFencea q sc s
  | .ifence q => Sys2Proof.Machine.execIfence q s
  | .eng e func a b r w => Sys2Proof.Machine.execEng e func a b r w s
  | .fork l a b w => Sys2Proof.Machine.execFork l a b w s
  | .rdv q a => Sys2Proof.Machine.execRdv q a s
  | .setf q f => Sys2Proof.Machine.execSetf q f s
  | .clrf q f => Sys2Proof.Machine.execClrf q f s
  | .waitf q e f => Sys2Proof.Machine.execWaitf q e f s
  | .qstat q d e => Sys2Proof.Machine.execQstat q d e s
  | .vadd q ty d a b => Sys2Proof.Machine.execVadd q ty d a b s
  | .vsub q ty d a b => Sys2Proof.Machine.execVsub q ty d a b s
  | .vmul q ty d a b => Sys2Proof.Machine.execVmul q ty d a b s
  | .vfma q ty d a b c => Sys2Proof.Machine.execVfma q ty d a b c s
  | .vfms q ty d a b c => Sys2Proof.Machine.execVfms q ty d a b c s
  | .vfnma q ty d a b c => Sys2Proof.Machine.execVfnma q ty d a b c s
  | .vfnms q ty d a b c => Sys2Proof.Machine.execVfnms q ty d a b c s
  | .vmin q ty d a b => Sys2Proof.Machine.execVmin q ty d a b s
  | .vmax q ty d a b => Sys2Proof.Machine.execVmax q ty d a b s
  | .vminn q ty d a b => Sys2Proof.Machine.execVminn q ty d a b s
  | .vmaxn q ty d a b => Sys2Proof.Machine.execVmaxn q ty d a b s
  | .vabs q ty d a => Sys2Proof.Machine.execVabs q ty d a s
  | .vneg q ty d a => Sys2Proof.Machine.execVneg q ty d a s
  | .vcpys q ty d a b => Sys2Proof.Machine.execVcpys q ty d a b s
  | .vcmp q ty c e1 md a b => Sys2Proof.Machine.execVcmp q ty c e1 md a b s
  | .vclass q ty d a => Sys2Proof.Machine.execVclass q ty d a s
  | .vrnd q ty d a => Sys2Proof.Machine.execVrnd q ty d a s
  | .vscale q ty d a b => Sys2Proof.Machine.execVscale q ty d a b s
  | .viadd q ty d a b => Sys2Proof.Machine.execViadd q ty d a b s
  | .visub q ty d a b => Sys2Proof.Machine.execVisub q ty d a b s
  | .vimul q ty d a b => Sys2Proof.Machine.execVimul q ty d a b s
  | .vimin q ty d a b => Sys2Proof.Machine.execVimin q ty d a b s
  | .vimax q ty d a b => Sys2Proof.Machine.execVimax q ty d a b s
  | .viminu q ty d a b => Sys2Proof.Machine.execViminu q ty d a b s
  | .vimaxu q ty d a b => Sys2Proof.Machine.execVimaxu q ty d a b s
  | .vand q ty d a b => Sys2Proof.Machine.execVand q ty d a b s
  | .vor q ty d a b => Sys2Proof.Machine.execVor q ty d a b s
  | .vxor q ty d a b => Sys2Proof.Machine.execVxor q ty d a b s
  | .vandn q ty d a b => Sys2Proof.Machine.execVandn q ty d a b s
  | .vshl q ty d a b => Sys2Proof.Machine.execVshl q ty d a b s
  | .vshr q ty d a b => Sys2Proof.Machine.execVshr q ty d a b s
  | .vsar q ty d a b => Sys2Proof.Machine.execVsar q ty d a b s
  | .vfshl q ty d a b c => Sys2Proof.Machine.execVfshl q ty d a b c s
  | .vfshr q ty d a b c => Sys2Proof.Machine.execVfshr q ty d a b c s
  | .vclz q ty d a => Sys2Proof.Machine.execVclz q ty d a s
  | .vpopc q ty d a => Sys2Proof.Machine.execVpopc q ty d a s
  | .vicmp q ty c e md a b => Sys2Proof.Machine.execVicmp q ty c e md a b s
  | .vsatn q n8 d a b => Sys2Proof.Machine.execVsatn q n8 d a b s
  | .viabs q ty d a => Sys2Proof.Machine.execViabs q ty d a s
  | .vredadd q ty d a m => Sys2Proof.Machine.execVredadd q ty d a m s
  | .vredmax q ty d a m => Sys2Proof.Machine.execVredmax q ty d a m s
  | .vredmin q ty d a m => Sys2Proof.Machine.execVredmin q ty d a m s
  | .vgmax q ty d a m n => Sys2Proof.Machine.execVgmax q ty d a m n s
  | .vgsum q ty d a m n => Sys2Proof.Machine.execVgsum q ty d a m n s
  | .vscanadd q ty d a m => Sys2Proof.Machine.execVscanadd q ty d a m s
  | .vscanaff q d a b c => Sys2Proof.Machine.execVscanaff q d a b c s
  | .vbsr q d a b c => Sys2Proof.Machine.execVbsr q d a b c s
  | .vbsw q d a b c => Sys2Proof.Machine.execVbsw q d a b c s
  | .vmov q d a => Sys2Proof.Machine.execVmov q d a s
  | .vsplat q ty d src => Sys2Proof.Machine.execVsplat q ty d src s
  | .vli q d imm => Sys2Proof.Machine.execVli q d imm s
  | .vmvs q d a b => Sys2Proof.Machine.execVmvs q d a b s
  | .vins q d a b => Sys2Proof.Machine.execVins q d a b s
  | .vperm q d a b c => Sys2Proof.Machine.execVperm q d a b c s
  | .vrotl q d a b => Sys2Proof.Machine.execVrotl q d a b s
  | .vslide q d a b c => Sys2Proof.Machine.execVslide q d a b c s
  | .vzip q ty d a b => Sys2Proof.Machine.execVzip q ty d a b s
  | .vunzip q ty d a b => Sys2Proof.Machine.execVunzip q ty d a b s
  | .vsel q d a m c => Sys2Proof.Machine.execVsel q d a m c s
  | .mlog q op md ma mb => Sys2Proof.Machine.execMlog q op md ma mb s
  | .mpopc q sel d ma => Sys2Proof.Machine.execMpopc q sel d ma s
  | .vcvt q sel d a b => Sys2Proof.Machine.execVcvt q sel d a b s
  | .vqmx q f d a => Sys2Proof.Machine.execVqmx q f d a s
  | .vdqmx q f d a => Sys2Proof.Machine.execVdqmx q f d a s
  | .vpack q sel d a b => Sys2Proof.Machine.execVpack q sel d a b s
  | .vunpk q sel d a => Sys2Proof.Machine.execVunpk q sel d a s
  | .wLit imm => Sys2Proof.Machine.execWLit imm s
  | .wLitx imm => Sys2Proof.Machine.execWLitx imm s
  | .wPick n => Sys2Proof.Machine.execWPick n s
  | .wShl n => Sys2Proof.Machine.execWShl n s
  | .wShr n => Sys2Proof.Machine.execWShr n s
  | .wJmp off => Sys2Proof.Machine.execWJmp off s
  | .wJz off => Sys2Proof.Machine.execWJz off s
  | .wJnz off => Sys2Proof.Machine.execWJnz off s
  | .wLoopn off => Sys2Proof.Machine.execWLoopn off s
  | .wWaitf f => Sys2Proof.Machine.execWWaitf f s
  | .wSetf f => Sys2Proof.Machine.execWSetf f s
  | .wCalls e => Sys2Proof.Machine.execWCalls e s
  | .wMma shape aclr => Sys2Proof.Machine.execWMma shape aclr s
  | .wQnt l => Sys2Proof.Machine.execWQnt l s
  | .wRmin k => Sys2Proof.Machine.execWRmin k s
  | .wRmax k => Sys2Proof.Machine.execWRmax k s
  | .wRsort k => Sys2Proof.Machine.execWRsort k s
  | .wRtopk k lf => Sys2Proof.Machine.execWRtopk k lf s
  | .wTbld big => Sys2Proof.Machine.execWTbld big s
  | .wTbl big aclr => Sys2Proof.Machine.execWTbl big aclr s
  | .wScan op excl => Sys2Proof.Machine.execWScan op excl s
  | .wReduce op => Sys2Proof.Machine.execWReduce op s
  | .wCpy sc => Sys2Proof.Machine.execWCpy sc s
  | .wCpy2d sc => Sys2Proof.Machine.execWCpy2d sc s
  | .wCpyx sc => Sys2Proof.Machine.execWCpyx sc s
  | .wCpyg sc => Sys2Proof.Machine.execWCpyg sc s
  | .wCrcc sc last => Sys2Proof.Machine.execWCrcc sc last s
  | .wExp2 f => Sys2Proof.Machine.execWExp2 f s
  | .wLog2 f => Sys2Proof.Machine.execWLog2 f s
  | .wRcp f => Sys2Proof.Machine.execWRcp f s
  | .wRsqrt f => Sys2Proof.Machine.execWRsqrt f s
  | .wSinpi f => Sys2Proof.Machine.execWSinpi f s
  | .wCospi f => Sys2Proof.Machine.execWCospi f s
  | .wTanh f => Sys2Proof.Machine.execWTanh f s
  | .wSigm f => Sys2Proof.Machine.execWSigm f s
  | .evQueueHeadIssue plumbOk => Sys2Proof.Machine.execEvQueueHeadIssue plumbOk s
  | .evStroke misread => Sys2Proof.Machine.execEvStroke misread s
  | .evRacePass => Sys2Proof.Machine.execEvRacePass s
  | .evEvxCounterEvent k => Sys2Proof.Machine.execEvEvxCounterEvent k s
  | .evEvxTermEdge k => Sys2Proof.Machine.execEvEvxTermEdge k s
  | .evRecordPop helper => Sys2Proof.Machine.execEvRecordPop helper s
  | .evLevellingCommit pass counts vgain offp offn => Sys2Proof.Machine.execEvLevellingCommit pass counts vgain offp offn s
  | .evTemperatureSample temp => Sys2Proof.Machine.execEvTemperatureSample temp s
  | .evPatrolVisit ch corrected uncorrectable raced => Sys2Proof.Machine.execEvPatrolVisit ch corrected uncorrectable raced s
  | .evLatticeWindowWrite off bytes => Sys2Proof.Machine.execEvLatticeWindowWrite off bytes s
  | .evLatticeWindowRead off len => Sys2Proof.Machine.execEvLatticeWindowRead off len s
  | .evMemoryWindowWrite off bytes => Sys2Proof.Machine.execEvMemoryWindowWrite off bytes s
  | .evMemoryWindowRead off len => Sys2Proof.Machine.execEvMemoryWindowRead off len s
  | .evClrslot j ltype lscope => Sys2Proof.Machine.execEvClrslot j ltype lscope s
  | .evDump buf => Sys2Proof.Machine.execEvDump buf s
  | .evInval v => Sys2Proof.Machine.execEvInval v s
  | .evLeaseExpiry idx => Sys2Proof.Machine.execEvLeaseExpiry idx s
  | .evXretry v => Sys2Proof.Machine.execEvXretry v s
  | .evSealWrite n v => Sys2Proof.Machine.execEvSealWrite n v s
  | .evXschedWrite r v => Sys2Proof.Machine.execEvXschedWrite r v s
  | .evSlewRegisterWrite r v => Sys2Proof.Machine.execEvSlewRegisterWrite r v s
  | .evLevellingRequestWrite v => Sys2Proof.Machine.execEvLevellingRequestWrite v s
  | .evTrimTargetWrite v => Sys2Proof.Machine.execEvTrimTargetWrite v s
  | .evQctlClear v => Sys2Proof.Machine.execEvQctlClear v s
  | .evTrctlWrite v => Sys2Proof.Machine.execEvTrctlWrite v s
  | .evRegisterWrite off v => Sys2Proof.Machine.execEvRegisterWrite off v s
  | .evPacketArrival p => Sys2Proof.Machine.execEvPacketArrival p s
  | .evFlitReplay more => Sys2Proof.Machine.execEvFlitReplay more s
  | .evDatumAlign parent => Sys2Proof.Machine.execEvDatumAlign parent s
  | .evDatumOffsetWrite v => Sys2Proof.Machine.execEvDatumOffsetWrite v s
  | .evThermalSample hot watts flow tin => Sys2Proof.Machine.execEvThermalSample hot watts flow tin s
  | .evPcieLinkTrains gen7 wide16 => Sys2Proof.Machine.execEvPcieLinkTrains gen7 wide16 s
  | .evAccessPerformed id group => Sys2Proof.Machine.execEvAccessPerformed id group s
  | .evDatumRootWrite root => Sys2Proof.Machine.execEvDatumRootWrite root s
  | .nop => Sys2Proof.Machine.execNop s
  | .evCcwaitRelease => Sys2Proof.Machine.execEvCcwaitRelease s
  | .evSleepuntilWake => Sys2Proof.Machine.execEvSleepuntilWake s
  | .evWidleComplete => Sys2Proof.Machine.execEvWidleComplete s
  | .evTtakeComplete => Sys2Proof.Machine.execEvTtakeComplete s
  | .evLwaitPass => Sys2Proof.Machine.execEvLwaitPass s
  | .evLwaitTimeout => Sys2Proof.Machine.execEvLwaitTimeout s
  | .evRdvComplete => Sys2Proof.Machine.execEvRdvComplete s
  | .evWaitEntryRelease => Sys2Proof.Machine.execEvWaitEntryRelease s
  | .wDup => Sys2Proof.Machine.execWDup s
  | .wDrop => Sys2Proof.Machine.execWDrop s
  | .wSwap => Sys2Proof.Machine.execWSwap s
  | .wOver => Sys2Proof.Machine.execWOver s
  | .wRot => Sys2Proof.Machine.execWRot s
  | .wAdd => Sys2Proof.Machine.execWAdd s
  | .wSub => Sys2Proof.Machine.execWSub s
  | .wAnd => Sys2Proof.Machine.execWAnd s
  | .wOr => Sys2Proof.Machine.execWOr s
  | .wXor => Sys2Proof.Machine.execWXor s
  | .wInc => Sys2Proof.Machine.execWInc s
  | .wDec => Sys2Proof.Machine.execWDec s
  | .wNeg => Sys2Proof.Machine.execWNeg s
  | .wMin => Sys2Proof.Machine.execWMin s
  | .wMax => Sys2Proof.Machine.execWMax s
  | .wEqz => Sys2Proof.Machine.execWEqz s
  | .wEnd => Sys2Proof.Machine.execWEnd s
  | .wReply => Sys2Proof.Machine.execWReply s
  | .wBound => Sys2Proof.Machine.execWBound s
  | .wJoin => Sys2Proof.Machine.execWJoin s
  | .wRets => Sys2Proof.Machine.execWRets s
  | .wDesc => Sys2Proof.Machine.execWDesc s
  | .wMload => Sys2Proof.Machine.execWMload s
  | .wAccz => Sys2Proof.Machine.execWAccz s
  | .wAccout => Sys2Proof.Machine.execWAccout s
  | .wCrci => Sys2Proof.Machine.execWCrci s
  | .evFolioIssue => Sys2Proof.Machine.execEvFolioIssue s
  | .evEngineOverrun => Sys2Proof.Machine.execEvEngineOverrun s
  | .evMloadBankActivate => Sys2Proof.Machine.execEvMloadBankActivate s
  | .evCopyComplete => Sys2Proof.Machine.execEvCopyComplete s
  | .evPromiseMiss => Sys2Proof.Machine.execEvPromiseMiss s
  | .evCopyResend => Sys2Proof.Machine.execEvCopyResend s
  | .evBoundaryTrap => Sys2Proof.Machine.execEvBoundaryTrap s
  | .evSafePointDrought => Sys2Proof.Machine.execEvSafePointDrought s
  | .evSideLogReplay => Sys2Proof.Machine.execEvSideLogReplay s
  | .evRecordReady => Sys2Proof.Machine.execEvRecordReady s
  | .evStrandStart => Sys2Proof.Machine.execEvStrandStart s
  | .evImageLoad => Sys2Proof.Machine.execEvImageLoad s
  | .evRecordRetire => Sys2Proof.Machine.execEvRecordRetire s
  | .evPreemptionRequest => Sys2Proof.Machine.execEvPreemptionRequest s
  | .evCoreHalt => Sys2Proof.Machine.execEvCoreHalt s
  | .evResume => Sys2Proof.Machine.execEvResume s
  | .evSlewStep => Sys2Proof.Machine.execEvSlewStep s
  | .evFillerStroke => Sys2Proof.Machine.execEvFillerStroke s
  | .evLevellingStart => Sys2Proof.Machine.execEvLevellingStart s
  | .evLevellingPeriodExpiry => Sys2Proof.Machine.execEvLevellingPeriodExpiry s
  | .evExchangeRound => Sys2Proof.Machine.execEvExchangeRound s
  | .evSystemExchangeRound => Sys2Proof.Machine.execEvSystemExchangeRound s
  | .evLaunchPacket => Sys2Proof.Machine.execEvLaunchPacket s
  | .evLaunchComplete => Sys2Proof.Machine.execEvLaunchComplete s
  | .evActivate => Sys2Proof.Machine.execEvActivate s
  | .evRetire => Sys2Proof.Machine.execEvRetire s
  | .evCoolingEnd => Sys2Proof.Machine.execEvCoolingEnd s
  | .evInvalLeaseExpiry => Sys2Proof.Machine.execEvInvalLeaseExpiry s
  | .evInvalDone => Sys2Proof.Machine.execEvInvalDone s
  | .evPreempt => Sys2Proof.Machine.execEvPreempt s
  | .evCctlResume => Sys2Proof.Machine.execEvCctlResume s
  | .evTraceTransfer => Sys2Proof.Machine.execEvTraceTransfer s
  | .evComputeReset => Sys2Proof.Machine.execEvComputeReset s
  | .evFunctionLevelReset => Sys2Proof.Machine.execEvFunctionLevelReset s
  | .evComputeRailLoss => Sys2Proof.Machine.execEvComputeRailLoss s
  | .evIslandRailUp => Sys2Proof.Machine.execEvIslandRailUp s
  | .evIslandRailLoss => Sys2Proof.Machine.execEvIslandRailLoss s
  | .evAttach => Sys2Proof.Machine.execEvAttach s
  | .evDetach => Sys2Proof.Machine.execEvDetach s
  | .evIslandReset => Sys2Proof.Machine.execEvIslandReset s
  | .evRetrainPort => Sys2Proof.Machine.execEvRetrainPort s
  | .evIslandDrainEnd => Sys2Proof.Machine.execEvIslandDrainEnd s
  | .evTrainComplete => Sys2Proof.Machine.execEvTrainComplete s
  | .evPortUp => Sys2Proof.Machine.execEvPortUp s
  | .evLinkDown => Sys2Proof.Machine.execEvLinkDown s
  | .evClass0Admission => Sys2Proof.Machine.execEvClass0Admission s
  | .evPtmDialogue => Sys2Proof.Machine.execEvPtmDialogue s
  | .evComputeRailUp => Sys2Proof.Machine.execEvComputeRailUp s
  | .evComputeResetComplete => Sys2Proof.Machine.execEvComputeResetComplete s

end Sys2Proof.Machine
end

