-- ==== Sys2Proof/Machine/Turns.lean ====
section
/-!
DEFINITION. The turns that a step takes (log entry 2): a cluster's, an engine's, an event's, a number of clk; the default rotation over
them; and where the next instruction stands that `State.withFetchWord` places.
-/
namespace Sys2Proof.Machine

/-- An engine's turn: the head of its queue issues, or a wait entry leaves it, where their conditions hold, which it does behind a running command
too (R369); the command of a rolled-back
record stops at its word boundary (R405); a job in progress goes on by one step; else the bound is looked at, and the word at the command's index executes (R41, R58, R289). -/
def engineGo (run : Instr → State → Res) (s : State) : Res :=
  let e := s.at_.eng
  match s.eng.cmd with
  | none =>
    (match s.headState s.at_.core e, s.eng.queue with
    | .ready _, _ => run (.evQueueHeadIssue true) s
    | .readyCopy _ _ _, _ => run (.evQueueHeadIssue true) s
    | .busy 0, .cmd _ :: _ => run (.evQueueHeadIssue true) s
    | _, .wait _ :: _ => run .evWaitEntryRelease s
    | _, _ => .next s)
  | some _ =>
    let s := match s.eng.queue with
      | .wait _ :: _ => Res.orElse (run .evWaitEntryRelease s) s
      | _ => s
    match s.eng.cmd with
    | none => .next s
    | some c =>
    if c.killed && c.atBoundary then .next (s.stopKilled s.at_.core e c.spec)
    else if c.overrun s.cyc && c.atBoundary then run .evEngineOverrun s
    else match c.job with
    | some (.mma _ _ _ _ _) => run (.evStroke []) s
    | some (.mload _) => run .evMloadBankActivate s
    | some (.race _ _ _ _ _ _ _ _ _) => run .evRacePass s
    | some (.copy _) => run .evCopyComplete s
    | _ => match s.eng.wordAt c.ip with
      | some i => run i s
      | none => wordFault .illegalWord s

def engineTurn (run : Instr → State → Res) (n : CoreId) (e : Eng) (s : State) : Res :=
  if !s.island.cpres then .next s else engineGo run { s with at_ := { s.at_ with core := n, eng := e } }

/-- The events of a turn: the constructors that are no line operation and no stream word. -/
def isEvent (i : Instr) : Bool :=
  match i with
  | .nop => false
  | _ => encodeSyl i == 0 && !i.isWord

/-- The turn that the default rotation takes at a place: 128 clusters, then 864 engines. -/
def turnAt (k : Nat) : Turn :=
  if k < 128 then .cluster (Fin.ofNat 32 (k / 4)) (Fin.ofNat 4 k)
  else .engine (Fin.ofNat 32 ((k - 128) / 27)) (Fin.ofNat 27 ((k - 128) % 27))

-- What the part does by itself once every unit has had its turn.
/-- A core, and a unit of it. -/
def atCore (n : CoreId) : At := { core := n }
def atEng (n : CoreId) (e : Eng) : At := { core := n, eng := e }
def atTile (t : TileId) : At := atEng (coreOfTile t) (engOfTile t)

/-- The steps of the launch unit on cores and records: readiness, retirement and halts first, then resumption, popping, image loads and
starts (R17, R22, R30, R333 to R335, R367, R404). -/
def launchTurns (s : State) : List Turn :=
  let cores (want : CoreId → Core → Bool) (i : Instr) : List Turn :=
    (List.finRange 32).filterMap fun n => if want n s.cores[n] then some (.event (atCore n) i) else none
  let recs (st : RState) (i : Instr) : List Turn :=
    (s.recs.filter fun r => r.state == st).map fun r => .event { core := Fin.ofNat 32 (r.core.getD 0), lid := r.lid, seq := r.seq } i
  let helpers : List Turn := (List.finRange 32).flatMap fun n => (List.finRange 4).filterMap fun h =>
    if (s.nextRec n true).isSome && (s.cores[n].eng[(Fin.ofNat 27 (20 + h.val) : Eng)]).cmd.isNone then some (.event (atCore n) (.evRecordPop (some h))) else none
  recs .draining .evRecordRetire ++ recs .pending .evRecordReady ++
    cores (fun _ k => k.run.isSome && !k.preReq) .evPreemptionRequest ++
    cores (fun _ k => s.pkg.dump.isSome || k.run.isSome && (vlist k.clu).all Cluster.halted) .evCoreHalt ++
    cores (fun _ k => k.run.isNone && !k.saved.isEmpty) .evResume ++
    cores (fun n _ => s.free n && (s.nextRec n false).isSome) (.evRecordPop none) ++ helpers ++
    cores (fun n _ => (s.wantedLaunch n).isSome) .evImageLoad ++
    cores (fun _ k => k.popped.isSome || s.recs.any fun r => r.state == .ready) .evStrandStart

/-- No cell that the SC joins of a cluster put out has still to be sent to a neighbour that system exchange reaches (R162, R428). -/
def State.joinsOut (s : State) (n : CoreId) (c : CluId) : Bool :=
  ((s.cores[n]).clu[c]).scOut.all fun x => (List.finRange 8).all fun k => !(s.island.meets k && s.sysDirty.contains (k.val, x.1, x.2))
/-- The SC joins of a cluster are applied at the replicas of the other packages, and so complete (R162; log entry 39). -/
def State.joinsDone (n : CoreId) (c : CluId) (s : State) : State :=
  if s.joinsOut n c then s.cluUpd n c fun k => { k with scOut := [] } else s

/-- The steps of clusters and engines that no turn of theirs takes: the side log (R232), the drought (R348), promises (R139) in the order of
the commands' positions, copies that resend (R419), SC joins that have left for the other packages (R162). -/
def unitTurns (s : State) : List Turn :=
  (List.finRange 32).flatMap fun n =>
    let k := s.cores[n]
    let clus : List Turn := (List.finRange 4).flatMap fun c =>
      let u : At := { core := n, clu := c }
      let x := k.clu[c]
      (if !x.slog.isEmpty || k.left.any fun l => l.clu == c then [.event u .evSideLogReplay] else []) ++
        (if 8192 ≤ x.drought && !x.dfired then [.event u .evSafePointDrought] else []) ++
        (if !x.scOut.isEmpty && s.joinsOut n c then [.joined n c] else [])
    let cmds := (List.finRange 27).filterMap fun e => (k.eng[e]).cmd.map fun c => (e, c)
    let missed := sortBy (fun (a b : Eng × Cmd) => decide (a.2.spec.pos ≤ b.2.spec.pos)) (cmds.filter fun p => match p.2.promise with
      | some t => wle t s.cyc
      | none => false)
    let resend := cmds.filter fun p => match p.2.job with
      | some (.copy j) => j.again.isSome
      | _ => false
    clus ++ missed.map (fun p => .event (atEng n p.1) .evPromiseMiss) ++ resend.map fun p => .event (atEng n p.1) .evCopyResend

/-- The steps of the race dies: grants at a step boundary, and the heads that they let issue (R352); levelling (R393, R355); the patrol, which
finds no error unless an event says so (R399). -/
def dieTurns (s : State) : List Turn :=
  let tiles := (List.finRange 512)
  let dies := (List.finRange 8).map fun d => (d, atCore (Fin.ofNat 32 (4 * d.val)))
  let slew : List Turn := if s.cyc.toNat % 4 = 0 then
      dies.map (fun d => .event d.2 .evSlewStep) ++
        (tiles.filter fun t => s.requests (coreOfTile t) (engOfTile t)).map fun t => .event (atTile t) (.evQueueHeadIssue true)
    else []
  let due := tiles.filter fun t => !(s.tile[t]).pending && s.island.cpres &&
    decide ((s.rdie[dieOfTile t]).period.toNat * 1000000 ≤ (s.datum - (s.tile[t]).began).toNat)
  let level := tiles.filter fun t => (s.tile[t]).pending && !(s.tile[t]).lvl
  let visit := (List.finRange 256).filter fun c =>
    let d := s.rdie[(Fin.ofNat 8 (c.val / 32) : RaceDie)]
    d.paten && s.island.cpres && decide (0 < d.patintv.toNat) && s.cyc.toNat % (2100 * d.patintv.toNat) == 0
  slew ++ due.map (fun t => .event (atTile t) .evLevellingPeriodExpiry) ++ level.map (fun t => .event (atTile t) .evLevellingStart) ++
    visit.map fun c => .event {} (.evPatrolVisit c [] [] [])

/-- The steps of contexts, translations and the lattice (R164, R376, R381, R385). -/
def driverTurns (s : State) : List Turn :=
  let asids (want : Fin 64 → Ctx → Bool) (i : Instr) : List Turn :=
    (List.finRange 64).filterMap fun a => if want a s.ctxs[a] then some (.event { asid := a } i) else none
  let expired := ((upto s.tlb.length).filter fun i => match s.tlb[i]? with
    | some t => wle t.expiry s.datum
    | none => false).reverse
  asids (fun a c => c.active && (decide (c.cons < c.lseq.toNat) || s.launches.any fun l => l.asid == a.val && s.mayFeed l)) .evLaunchPacket ++
    asids (fun a c => c.active && s.launches.any fun l => l.asid == a.val && s.launchOver l && !l.held) .evLaunchComplete ++
    asids (fun _ c => c.cooling.isSome) .evCoolingEnd ++
    (if s.pkg.invPhase = 1 then [.event {} .evInvalLeaseExpiry] else []) ++ (if s.pkg.invPhase = 2 then [.event {} .evInvalDone] else []) ++
    expired.map (fun i => .event {} (.evLeaseExpiry i)) ++
    (if s.cyc.toNat % (105 * Nat.max 1 (wf_ 15 8 s.pkg.xctl)) = 0 then [.event {} .evExchangeRound] else [])

/-- The steps of the island and the trace streamer (R411, R416, R426, R428). A root leaves TRAIN at once, another
island once COORD has been written (R416, R418). -/
def islandTurns (s : State) : List Turn :=
  let i := s.island
  let ports (want : Port → Bool) (x : Instr) : List Turn := (List.finRange 8).filterMap fun k =>
    if want i.ports[k] then some (.event { port := k } x) else none
  ports (fun p => !p.wait0.isEmpty) .evClass0Admission ++
    (if i.cpres && s.cyc.toNat % 2100 == 0 then ports (fun p => p.lstate == 2) .evSystemExchangeRound else []) ++
    (if i.state = .train ∧ (i.coordSet ∨ i.root) then [.event {} .evTrainComplete] else []) ++
    (if i.state = .draining then [.event {} .evIslandDrainEnd] else []) ++
    (if s.trace.circle.isEmpty then [] else [.event {} .evTraceTransfer])

/-- What the rotation tries once all units have had their turn. -/
def internalTurns (s : State) : List Turn :=
  (if s.island.cpres then unitTurns s ++ launchTurns s ++ driverTurns s else []) ++ dieTurns s ++ islandTurns s

end Sys2Proof.Machine
end

