-- ==== Sys2Proof/Machine/Place.lean ====
section
/-!
DEFINITION. What stands around an instruction placed for the next step (log entry 3): the run that a cluster or an engine needs, the
bytes, and the agenda's turn.
-/
namespace Sys2Proof.Machine

/-- A run that no launch stands behind. -/
def placedRun : Run := ⟨0, 0, 0, 0, 0, []⟩

/-- The engine of core 0 whose kind executes a word: a race tile, a copy channel, a special-function port or a scan port (R291). -/
def engineFor (w : Nat) : Eng := if kindRuns 0 w then 0 else if kindRuns 16 w then 16 else if kindRuns 24 w then 24 else 26

/-- A stream word as the whole program of the running command of an engine of core 0. -/
def State.withWord (s : State) (w : Nat) : State :=
  let e := engineFor w
  let spec : CmdSpec := ⟨0, 0, 0, 0, none, 0, [], 0, 0, 0, 0, 0, 0, 0, s.cyc, [0, 0, 0, 0], []⟩
  let c : Cmd := ⟨spec, 0, [], [], none, s.cyc, false, 0, [], none, 1, 0, [], none, 0, 0, 0, .none, none, false⟩
  { (s.engUpd 0 e fun g => { g with prog := [BitVec.ofNat 16 w], cmd := some c, stopped := false }) with
    island := { s.island with cpres := true }, power := true, agenda := [.engine 0 e] }

/-- A translation of the page at address 0 for core 0: linear frame 0, readable, writable and executable, under a lease that never runs
out. -/
def placedPage (s : State) : Tlb := ⟨0, s.cores[(0 : CoreId)].asid, 0, 65536, 0, true, true, true, true, 0, 0, false, s.datum, BitVec.allOnes 64⟩

/-- A line at row 0 of cluster 0 of core 0, which runs a strand. -/
def State.withLine (s : State) (w : Nat) : State :=
  let k := s.cores[(0 : CoreId)]
  let run := match k.run with
    | some r => r
    | none => placedRun
  let s1 := s.coreUpd 0 fun k => { k with
    run := some run, haltd := false
    clu := vmod k.clu 0 fun c => { c with pc := 0, hold := .none, halted := false, hm := false, loops := [] } }
  { s1 with
    island := { s.island with cpres := true }
    power := true
    tlb := placedPage s :: s1.tlb
    mem := memPuts s1.mem (atAddr 0 (leBytes 16 w))
    inflight := []
    issued := []
    agenda := [.cluster 0 0] }

end Sys2Proof.Machine
end

