-- ==== Sys2Proof/Machine/Step.lean ====
section
/-!
DEFINITION. One step of the package: the turn that the agenda names first, else the one that the default rotation names (log entry 2); and
where `State.withFetchWord` puts an instruction so that the next step runs it (log entry 3).
-/
namespace Sys2Proof.Machine

/-- One turn. -/
def turn (t : Turn) (s : State) : Host.Outcome State Fault Refusal :=
  match t with
  | .cluster n c => clusterTurn exec State.clk n c s
  | .engine n e => engineTurn exec n e s
  | .event u i => if isEvent i then exec i { s with at_ := u } else .next s
  | .clk k => .next (s.clks k)
  | .hostRead off len => .next (s.hostRegRead off len)
  | .hostWrite off bytes => hostRegWrite off bytes s
  | .upset k hard => .next (s.upset k hard)
  | .race n e misread => racePass misread { s with at_ := atEng n e }
  | .joined n c => .next (s.joinsDone n c)
  | .peers lid lost => .next (s.peersDone lid lost)

/-- THE STEP. -/
def step (s : State) : Host.Outcome State Fault Refusal :=
  match s.agenda with
  | t :: ts => turn t { s with agenda := ts }
  | [] =>
    if s.rr < 992 then turn (turnAt s.rr) { s with rr := s.rr + 1 }
    else .next { s with rr := 0, agenda := internalTurns s ++ [.clk 1] }

/-- `s` with an instruction of `nbits` bits placed where the next step takes it: a stream word as the whole program of a command that runs
on core 0, a line at cluster 0 of core 0. -/
def State.withFetchWord (s : State) (nbits w : Nat) : State := if nbits ≤ 16 then s.withWord w else s.withLine w

end Sys2Proof.Machine
end

