-- ==== Sys2Proof/Safety.lean ====
section
/-!
DEFINITION. What counts as a safe run: no step stops it, and what every state of it keeps.
-/
namespace Sys2Proof.Safety

open Machine

/-- Device memory and host memory are in canonical form. -/
def MemoryOk (s : State) : Prop := Memory.wf s.mem = true ∧ Memory.wf s.host = true

/-- The next `k` steps run without a stop. -/
def Runs (s : State) (k : Nat) : Prop := ∃ t, core.run k s = .next t

/-- No step of any run from here stops. -/
def SafeRun (s : State) : Prop := ∀ k, Runs s k

end Sys2Proof.Safety
end

