-- ==== Sys2Proof/Certificates/Slice0/Obligations.lean ====
section
/-!
DEFINITION. The statements for the provers, each a proposition about the machine of Sys2Proof/Machine/Core.lean; the vocabulary that
several of them share comes first.
-/
namespace Sys2Proof.Stated

open Machine

/-- The condition of a syllable holds (R186). -/
def Active (q : PReg) (s : State) : Prop := qCond q s = some true

/-- Nothing but the scalar `d` of the acting cluster may differ, and s0 does not. -/
def ScalarOnly (d : SDst) (s t : State) : Prop :=
  ∃ f : Vector Word 64, t = s.onClu (fun c => { c with s := f }) ∧ ∀ r : SReg, (r.val = 0 ∨ d ≠ some r) → f[r] = s.clu.s[r]

/-- Nothing but the predicate `d` of the acting cluster may differ, and p0 does not. -/
def PredOnly (d : PReg) (s t : State) : Prop :=
  ∃ f : BitVec 16, t = s.onClu (fun c => { c with p := f }) ∧ ∀ k : PReg, (k.val = 0 ∨ k ≠ d) → f.getLsbD k.val = s.clu.p.getLsbD k.val

/-- Nothing but the mask `d` of the acting cluster may differ, and m0 does not. -/
def MaskOnly (d : MReg) (s t : State) : Prop :=
  ∃ f : Vector Mask 8, t = s.onClu (fun c => { c with m := f }) ∧ ∀ k : MReg, (k.val = 0 ∨ k ≠ d) → f[k] = s.clu.m[k]

/-- Nothing but the vector register that a name reaches under the RRB at the line's issue may differ (R215, R256). -/
def VectorOnly (d : VReg) (s t : State) : Prop :=
  ∃ f : Vector VecReg 48, t = s.onClu (fun c => { c with v := f }) ∧ ∀ k : VReg, k ≠ rotReg s.iss.src.rrb d → f[k] = s.clu.v[k]

/-- Every byte that any observer reads, and every byte staged, is as before. -/
def SameMemory (s t : State) : Prop :=
  (∀ o w k, t.readByte o w k = s.readByte o w k) ∧ ∀ n : CoreId, t.cores[n].staging = s.cores[n].staging

/-- The integer instructions that give a scalar, with their destinations. -/
def scalarDest : Instr → Option SDst
  | .add _ d _ _ | .sub _ d _ _ | .mul _ d _ _ | .mulh _ d _ _ | .mulhu _ d _ _ | .div _ d _ _ | .divu _ d _ _ | .rem _ d _ _
  | .remu _ d _ _ | .and _ d _ _ | .or _ d _ _ | .xor _ d _ _ | .andn _ d _ _ | .orn _ d _ _ | .shl _ d _ _ | .shr _ d _ _
  | .sar _ d _ _ | .rol _ d _ _ | .min _ d _ _ | .max _ d _ _ | .minu _ d _ _ | .maxu _ d _ _ => some d
  | .addi _ d _ _ | .fshl _ d _ _ _ | .fshr _ d _ _ _ | .clz _ d _ | .ctz _ d _ | .popc _ d _ | .sel _ d _ _ _ | .li _ d _
  | .ext _ d _ _ _ | .extu _ d _ _ _ | .bswap _ d _ | .abs _ d _ => some d
  | .lih _ d _ => some d
  | .ins _ d _ _ _ => some (some d)
  | .rdcyc _ d | .rddatum _ d | .locality _ d _ => some d
  | _ => none

/-- The 40 bits of a syllable of format FA with c zero (R190): op, d, a, b and q; the code 0x7F of d discards. -/
def fieldsFA (op : Nat) (d : SDst) (a b : SReg) (q : PReg) : Nat :=
  op * 2 ^ 32 + (match d with | some r => r.val | none => 0x7F) * 2 ^ 25 + a.val * 2 ^ 18 + b.val * 2 ^ 11 + q.val

/-- The instructions that give a predicate and nothing else, with their destinations. -/
def predDest : Instr → Option PReg
  | .cmp _ _ d _ _ | .cmpi _ _ d _ _ | .tstb _ _ d _ _ | .pand _ d _ _ | .por _ d _ _ | .pxor _ d _ _ | .pandn _ d _ _ => some d
  | _ => none

end Sys2Proof.Stated

open Sys2Proof Sys2Proof.Machine Sys2Proof.Stated

-- The machine as a whole.

/-- What reset leaves, where the Reset columns of the spec give a value: MEMDEF (R137), AGECTL (R40), the crossbar (R49, R50), the
levelling and patrol registers (R392), RAMPL and RAMPH and SLEWCTL (R351), the slew limiter's levels (R352: level index 0, previous level 0), XCTL (R379), the management controller
(R397), TRTRIG (R409) and the island (R418). -/
def Obligations.ResetRegisters : Prop :=
  (∀ n : CoreId, (State.reset.cores[n]).memdef = 0x40 ∧ (State.reset.cores[n]).agectl = 0x0FF55 ∧
    (∀ i : Fin 32, (State.reset.cores[n]).xb.evx[i] = if i.val < 16 then 0x00FFFF0000000000#64 else 0x00FFFFFFFFFF0000#64)) ∧
  (∀ t : TileId, (State.reset.tile[t]).tgt = 100 ∧ (State.reset.tile[t]).lvl = false ∧ (State.reset.tile[t]).fail = false ∧
    (State.reset.tile[t]).dead = false) ∧
  (∀ d : RaceDie, (State.reset.rdie[d]).rampl = 0x201C1814100C0804#64 ∧ (State.reset.rdie[d]).ramph = 0x403C3834302C2824#64 ∧
    (State.reset.rdie[d]).down = 4 ∧ (State.reset.rdie[d]).idx = 0 ∧ (State.reset.rdie[d]).prev = 0 ∧ (State.reset.rdie[d]).ruthr = 16384 ∧ (State.reset.rdie[d]).ruwin = 24 ∧
    (State.reset.rdie[d]).dt = 8 ∧ (State.reset.rdie[d]).period = 50 ∧ (State.reset.rdie[d]).paten = true ∧
    (State.reset.rdie[d]).patintv = 80) ∧
  State.reset.pkg.xctl = 0x403 ∧ State.reset.mc.rllog = 8 ∧ State.reset.mc.cewin = 86400000000000 ∧ State.reset.mc.cethr = 3 ∧
  State.reset.mc.rblimit = 3 ∧ State.reset.trace.trig = 0xFF00 ∧
  State.reset.island.state = .train ∧ State.reset.island.ext = ⟨1, 1, 1, 1⟩ ∧ State.reset.island.cpres = false

/-- At reset device memory and host memory are in canonical form. -/
def Obligations.ResetMemoryCanonical : Prop := Safety.MemoryOk State.reset

/-- Every step keeps device memory and host memory in canonical form. -/
def Obligations.StepKeepsMemoryCanonical : Prop := ∀ s t, Safety.MemoryOk s → step s = .next t → Safety.MemoryOk t

/-- The turn of a cluster: where the line at its row is fetched and read, is no SYNC line, comes to no wait and no trap, nothing is due at the
boundary, and the shared ports grant what the line requests, the step executes the line's syllables, each by `exec`, in the order M, V, X, and
then moves the cluster on past the line, unless the run has ended. -/
def Obligations.StepExecutesTheLine : Prop :=
  ∀ (s : State) (n : CoreId) (c : CluId) (more : List Turn) (s1 : State) (w : Nat) (l : Line) (ports : BitVec 4) (t : State),
    s.agenda = .cluster n c :: more →
    s.issued.contains (n.val, c.val) = false →
    (s.cores[n]).run.isSome = true → (s.cores[n]).haltd = false → (s.cores[n]).pstop = false →
    ((s.cores[n]).clu[c]).halted = false → ((s.cores[n]).clu[c]).refused = 0 → ((s.cores[n]).clu[c]).hold = .none →
    fetch { s with agenda := more, at_ := { s.at_ with core := n, clu := c } } = .line w s1 →
    readLine w s1.clu = .ok l → l.sync = false →
    tryLine exec l (s1.beginLine w l) = .ready false ports → mayTake exec ports (s1.beginLine w l) = true →
    (s1.beginLine w l).nextBoundary = none → (s1.beginLine w l).core.preReq = false →
    runAll exec [l.m, l.v, l.x] ((takePorts ports (s1.beginLine w l)).onClu fun k => { k with hold := .passed }) = .next t →
    t.iss.afterTrap = none →
    step s = .next (if t.iss.ending then t else commitLine l (s1.beginLine w l).iss.src none t)



/-- A fetch (R31, R208): through a cached translation that allows execution a cluster fetches the 16 bytes at its row in its own column; what the code corrects in them is corrected (R402).
That they are the bytes visible to the cluster at that moment is the model's choice (log entry 7): R148 lets a fetch be older until an IFENCE. -/
def Obligations.FetchReadsTheColumn : Prop :=
  ∀ (s : State) (t : Tlb), s.clu.pc.toNat + 64 ≤ 2 ^ 55 → s.clu.pc.toNat % 64 = 0 →
    s.cached s.at_.core.val s.asid.val (s.clu.pc.toNat + 16 * s.at_.clu.val) = some t → t.x = true → t.tt ≤ 5 →
    (∀ a v, s.clu.hold ≠ .declined a v) →
    (∀ i < 16, s.sealed (placeIn t (s.clu.pc.toNat + 16 * s.at_.clu.val + i)).2 = false ∧
      s.badAt (placeIn t (s.clu.pc.toNat + 16 * s.at_.clu.val + i)).2 = false) →
    fetch s = .line (leNat ((List.range 16).map fun i => s.loadByte t (s.clu.pc.toNat + 16 * s.at_.clu.val + i)))
      (s.correctAt ((List.range 16).map fun i => (placeIn t (s.clu.pc.toNat + 16 * s.at_.clu.val + i)).2))

/-- The other turns. An engine whose command is between words and within its bound, not that of a record rolled back (R405), and with no wait
entry at the head of its queue (R369), executes the word at the command's index; the turn of
an event is the event; with an empty agenda the rotation gives every cluster and every engine its turn, and then the package its own
steps and one clk (the model's order, log entry 2). -/
def Obligations.StepExecutesTheWord : Prop :=
  (∀ (s : State) (n : CoreId) (e : Eng) (more : List Turn) (c : Cmd) (i : Instr),
    s.agenda = .engine n e :: more → s.island.cpres = true →
    ((s.cores[n]).eng[e]).cmd = some c → c.killed = false → c.overrun s.cyc = false → c.job = none →
    (∀ w q, ((s.cores[n]).eng[e]).queue ≠ .wait w :: q) →
    ((s.cores[n]).eng[e]).wordAt c.ip = some i →
    step s = exec i { s with agenda := more, at_ := { s.at_ with core := n, eng := e } }) ∧
  (∀ (s : State) (u : At) (i : Instr) (more : List Turn), s.agenda = .event u i :: more → isEvent i = true →
    step s = exec i { s with agenda := more, at_ := u }) ∧
  (∀ (s : State) (k : Nat) (more : List Turn), s.agenda = .clk k :: more → step s = .next (({ s with agenda := more } : State).clks k)) ∧
  (∀ s : State, s.agenda = [] → s.rr < 128 →
    step s = clusterTurn exec State.clk (Fin.ofNat 32 (s.rr / 4)) (Fin.ofNat 4 s.rr) { s with rr := s.rr + 1 }) ∧
  (∀ s : State, s.agenda = [] → 128 ≤ s.rr → s.rr < 992 →
    step s = engineTurn exec (Fin.ofNat 32 ((s.rr - 128) / 27)) (Fin.ofNat 27 ((s.rr - 128) % 27)) { s with rr := s.rr + 1 }) ∧
  (∀ s : State, s.agenda = [] → 992 ≤ s.rr → step s = .next { s with rr := 0, agenda := internalTurns s ++ [.clk 1] })

-- Encoding.

/-- Decoding an encoded line instruction gives it back (R182 to R192): every well-formed instruction of the X, M and V slots, with every
operand at every value. -/
def Obligations.SyllableRoundTrip : Prop :=
  ∀ (i : Instr) (sl : Slot), i.slot = some sl → i.wf = true → decodeSyl sl (encodeSyl i) = .ok i ∧ encodeSyl i < 2 ^ 40

/-- Each syllable has one meaning and each meaning one syllable: what decodes is encoded by the same 40 bits, lies in the slot that read
it or is NOP, and is well-formed (R187, R190 to R192, R196). -/
def Obligations.SyllableDecodingIsExact : Prop :=
  ∀ (w : Nat) (sl : Slot) (i : Instr), w < 2 ^ 40 → decodeSyl sl w = .ok i →
    encodeSyl i = w ∧ (i.slot = some sl ∨ i = .nop) ∧ i.wf = true

/-- Decoding an encoded stream word gives it back, and a word that decodes is encoded by the same 16 bits (R193, R194); a line's 128 bits
hold its header and its three syllables, each in its own place, and nothing in the reserved bits (R182). -/
def Obligations.WordsAndLinesRoundTrip : Prop :=
  (∀ i : Instr, i.isWord = true → decodeWord (encodeWord i) = .ok i ∧ encodeWord i < 2 ^ 16) ∧
  (∀ (w : Nat) (i : Instr), w < 2 ^ 16 → decodeWord w = .ok i → encodeWord i = w ∧ i.isWord = true) ∧
  ∀ l : Line, encodeSyl l.x < 2 ^ 40 → encodeSyl l.m < 2 ^ 40 → encodeSyl l.v < 2 ^ 40 →
    encodeLine l < 2 ^ 128 ∧ sylX (encodeLine l) = encodeSyl l.x ∧ sylM (encodeLine l) = encodeSyl l.m ∧
    sylV (encodeLine l) = encodeSyl l.v ∧ hdrBit 127 (encodeLine l) = l.sync ∧ hdrBit 126 (encodeLine l) = l.xpfx ∧
    hdrBit 125 (encodeLine l) = l.holdA ∧ hdrBit 124 (encodeLine l) = l.holdB ∧ hdrBit 123 (encodeLine l) = l.holdC ∧
    lineReserved (encodeLine l) = 0

/-- Words written out from the spec's encodings decode to the instructions that they stand for (the worked examples of R205, R250, R254,
R255, R322, R332, R297). -/
def Obligations.WrittenWordsDecode : Prop :=
  decodeSyl .x 0x4086102800 = .ok (.cmp 0 .ltu 3 4 5) ∧
  decodeSyl .x 0x41E24001F0 = .ok (.cmpi 0 .tnz 1 16 0x1F) ∧
  decodeSyl .x 0x81000C0000 = .ok (.mtk 0 0 3) ∧
  decodeSyl .x 0x800A000010 = .ok (.mfk 0 5 1) ∧
  decodeSyl .x 0x8800140000 = .ok (.widle 0 5) ∧
  decodeSyl .m 0x9622000100 = .ok (.qstat 0 17 16) ∧
  decodeSyl .m 0x9080009400 = .ok (.eng 16 0 2 20 none false) ∧
  decodeWord 0x02BC = .ok (.wLit 700) ∧ decodeWord 0x2000 = .ok .wDup ∧ decodeWord 0x22CC = .ok (.wShl 12) ∧
  decodeWord 0x4000 = .ok .wEnd ∧ decodeWord 0x5210 = .ok (.wMma 0 true)

-- Memory.

/-- A byte read after a write is the byte written at its address and the byte before it anywhere else, and the canonical form is kept;
canonical memories that read alike at every address are the same memory. -/
def Obligations.MemoryReadsWhatWasWritten : Prop :=
  (∀ (m : List Host.Cell) (a : Nat) (x : Byte), Memory.wf m = true →
    Memory.wf (memPut m a x) = true ∧ ∀ b, memGet (memPut m a x) b = if b = a then x else memGet m b) ∧
  ∀ m n : List Host.Cell, Memory.wf m = true → Memory.wf n = true → (∀ a, memGet m a = memGet n a) → m = n

/-- The interleaved window (R130): offset x names the byte at offset o of stack st exactly where channel and in-channel offset agree; the
map is a bijection of the first 2^39 numbers, with `ilOfPlace` as its inverse, and 256 bytes that lie together stay together. -/
def Obligations.InterleaveIsABijection : Prop :=
  (∀ x < 2 ^ 39, ilPlace x < 2 ^ 39 ∧ ilOfPlace (ilPlace x) = x) ∧
  (∀ k < 2 ^ 39, ilOfPlace k < 2 ^ 39 ∧ ilPlace (ilOfPlace k) = k) ∧
  (∀ x < 2 ^ 39, ilPlace x = ilPlace (x / 256 * 256) + x % 256) ∧
  ∀ st o x : Nat, st < 8 → o < 2 ^ 36 → x < 2 ^ 39 →
    let c := 32 * st + bits 16 12 o
    let q := bits 35 17 o * 2 ^ 12 + bits 11 0 o
    let g := bits 38 8 x
    let c' := bits 7 0 g ^^^ bits 15 8 g ^^^ bits 23 16 g ^^^ bits 30 24 g
    let q' := bits 30 8 g * 2 ^ 8 + bits 7 0 x
    (ilPlace x = st * 2 ^ 36 + o ↔ c = c' ∧ q = q')

/-- The part's own writes are little-endian and read back (R5, R384): what `putPhys` writes into linear HBM `getPhysN` reads as the
same number while no store is in flight and no byte written lies in an uncorrectable codeword (R402), and no byte elsewhere changes, in every
memory of canonical form. -/
def Obligations.PhysicalWritesReadBack : Prop :=
  ∀ (s : State) (pa n x : Nat), Memory.wf s.mem = true → s.inflight = [] → pa + n ≤ linTop → x < 256 ^ n →
    (∀ k, pa ≤ k → k < pa + n → s.badAt k = false) →
    (s.putPhys pa (leBytes n x)).getPhysN pa n = x ∧
    ∀ o w k, (k < pa ∨ pa + n ≤ k) → (s.putPhys pa (leBytes n x)).readByte o w k = s.readByte o w k

-- Registers.

/-- s0 reads as zero, p0 as true and m0 as all ones, and writes to them and to the discard code are discarded; a write gives its register
the value and nothing else changes, in the cluster, in the machine, and in memory; vector names from v16 go through RRB (R179, R215). -/
def Obligations.RegisterWrites : Prop :=
  (∀ s : State, srcS 0 s = 0 ∧ srcP 0 s = true ∧ srcM 0 s = BitVec.allOnes 128) ∧
  (∀ (x : Word) (b : Bool) (y : Mask) (s : State), writeD none x s = s ∧ writeS 0 x s = s ∧ writeP 0 b s = s ∧ writeM 0 y s = s) ∧
  (∀ (d : SDst) (x : Word) (s : State), ScalarOnly d s (writeD d x s) ∧ SameMemory s (writeD d x s) ∧
    ∀ r : SReg, d = some r → r.val ≠ 0 → (writeD d x s).clu.s[r] = x) ∧
  (∀ (d : PReg) (b : Bool) (s : State), PredOnly d s (writeP d b s) ∧ SameMemory s (writeP d b s) ∧
    (d.val ≠ 0 → (writeP d b s).clu.p.getLsbD d.val = b)) ∧
  (∀ (d : MReg) (x : Mask) (s : State), MaskOnly d s (writeM d x s) ∧ SameMemory s (writeM d x s) ∧
    (d.val ≠ 0 → (writeM d x s).clu.m[d] = x)) ∧
  (∀ (d : VReg) (x : VecReg) (s : State), VectorOnly d s (writeV d x s) ∧ SameMemory s (writeV d x s) ∧
    (writeV d x s).clu.v[rotReg s.iss.src.rrb d] = x) ∧
  (∀ (rrb : BitVec 5) (r : VReg), (r.val < 16 → rotReg rrb r = r) ∧
    (16 ≤ r.val → (rotReg rrb r).val = 16 + (r.val - 16 + rrb.toNat) % 32))

-- Conditions.

/-- The q field (R186). Outside a loop body q = 8 is reserved, 1 to 7 name p1 to p7 and 9 to 15 their negations; in a loop body 8 to 15
name the stage predicates. A syllable whose condition is false writes nothing, raises no exception and starts nothing, and a reserved
condition is the illegal-operation trap of the syllable's slot: every predicated instruction. -/
def Obligations.ConditionsOfTheQField : Prop :=
  (∀ (q : PReg) (s : State),
    (q.val = 0 → qCond q s = some true) ∧
    (1 ≤ q.val ∧ q.val ≤ 7 → qCond q s = some (s.iss.src.p.getLsbD q.val)) ∧
    (q.val = 8 ∧ s.iss.inBody = false → qCond q s = none) ∧
    (9 ≤ q.val ∧ s.iss.inBody = false → qCond q s = some (!s.iss.src.p.getLsbD (q.val - 8))) ∧
    (8 ≤ q.val ∧ s.iss.inBody = true → qCond q s = some (s.iss.src.p.getLsbD q.val))) ∧
  (∀ (i : Instr) (s : State), i.slot.isSome = true → i.wf = true → qCond i.q s = some false → exec i s = .next s) ∧
  ∀ (i : Instr) (s : State), i.wf = true → qCond i.q s = none →
    (i.slot = some .x → exec i s = illegalOp 0 s) ∧ (i.slot = some .m → exec i s = illegalOp 1 s) ∧
    (i.slot = some .v → exec i s = illegalOp 2 s)




-- The X slot: integers and predicates.

/-- The two-source operations (R198), with their encodings, and ADDI (R202): each gives its result, modulo 2^64, the shifts by b[5:0]. -/
def Obligations.IntegerSumsProductsAndLogic : Prop :=
  (∀ (q : PReg) (d : SDst) (a b : SReg),
    ∀ p ∈ ([(0x01, Instr.add q d a b), (0x02, Instr.sub q d a b), (0x04, Instr.mul q d a b), (0x05, Instr.mulh q d a b),
       (0x06, Instr.mulhu q d a b), (0x0B, Instr.and q d a b), (0x0C, Instr.or q d a b), (0x0D, Instr.xor q d a b),
       (0x0E, Instr.andn q d a b), (0x0F, Instr.orn q d a b), (0x10, Instr.shl q d a b), (0x11, Instr.shr q d a b),
       (0x12, Instr.sar q d a b), (0x13, Instr.rol q d a b), (0x19, Instr.min q d a b), (0x1A, Instr.max q d a b),
       (0x1B, Instr.minu q d a b), (0x1C, Instr.maxu q d a b)] : List (Nat × Instr)),
      decodeSyl .x (fieldsFA p.1 d a b q) = .ok p.2) ∧
  ∀ (q : PReg) (d : SDst) (a b : SReg) (i : BitVec 14) (s : State), Active q s →
    exec (.add q d a b) s = .next (writeD d (BitVec.ofNat 64 ((srcS a s).toNat + (srcS b s).toNat)) s) ∧
    exec (.sub q d a b) s = .next (writeD d (BitVec.ofInt 64 ((srcS a s).toInt - (srcS b s).toInt)) s) ∧
    exec (.addi q d a i) s = .next (writeD d (BitVec.ofInt 64 ((srcS a s).toInt + i.toInt)) s) ∧
    exec (.mul q d a b) s = .next (writeD d (BitVec.ofNat 64 ((srcS a s).toNat * (srcS b s).toNat)) s) ∧
    exec (.mulh q d a b) s = .next (writeD d (BitVec.ofInt 64 ((srcS a s).toInt * (srcS b s).toInt / 2 ^ 64)) s) ∧
    exec (.mulhu q d a b) s = .next (writeD d (BitVec.ofNat 64 ((srcS a s).toNat * (srcS b s).toNat / 2 ^ 64)) s) ∧
    exec (.and q d a b) s = .next (writeD d (srcS a s &&& srcS b s) s) ∧
    exec (.or q d a b) s = .next (writeD d (srcS a s ||| srcS b s) s) ∧
    exec (.xor q d a b) s = .next (writeD d (srcS a s ^^^ srcS b s) s) ∧
    exec (.andn q d a b) s = .next (writeD d (srcS a s &&& ~~~(srcS b s)) s) ∧
    exec (.orn q d a b) s = .next (writeD d (srcS a s ||| ~~~(srcS b s)) s) ∧
    exec (.shl q d a b) s = .next (writeD d (BitVec.ofNat 64 ((srcS a s).toNat * 2 ^ ((srcS b s).toNat % 64))) s) ∧
    exec (.shr q d a b) s = .next (writeD d (BitVec.ofNat 64 ((srcS a s).toNat / 2 ^ ((srcS b s).toNat % 64))) s) ∧
    exec (.sar q d a b) s = .next (writeD d (BitVec.ofInt 64 ((srcS a s).toInt / 2 ^ ((srcS b s).toNat % 64))) s) ∧
    exec (.rol q d a b) s = .next (writeD d ((srcS a s <<< ((srcS b s).toNat % 64)) ||| (srcS a s >>> (64 - (srcS b s).toNat % 64))) s) ∧
    exec (.min q d a b) s = .next (writeD d (BitVec.ofInt 64 (min (srcS a s).toInt (srcS b s).toInt)) s) ∧
    exec (.max q d a b) s = .next (writeD d (BitVec.ofInt 64 (max (srcS a s).toInt (srcS b s).toInt)) s) ∧
    exec (.minu q d a b) s = .next (writeD d (BitVec.ofNat 64 (min (srcS a s).toNat (srcS b s).toNat)) s) ∧
    exec (.maxu q d a b) s = .next (writeD d (BitVec.ofNat 64 (max (srcS a s).toNat (srcS b s).toNat)) s)

/-- Division (R199), with its encodings: the quotient truncated towards zero and the remainder with the sign of a, so that a = q·b + r, with the boundary
cases of the table; nothing is raised. -/
def Obligations.DivisionAndItsBoundaries : Prop :=
  (∀ (q : PReg) (d : SDst) (a b : SReg),
    decodeSyl .x (fieldsFA 0x07 d a b q) = .ok (.div q d a b) ∧ decodeSyl .x (fieldsFA 0x08 d a b q) = .ok (.divu q d a b) ∧
    decodeSyl .x (fieldsFA 0x09 d a b q) = .ok (.rem q d a b) ∧ decodeSyl .x (fieldsFA 0x0A d a b q) = .ok (.remu q d a b)) ∧
  ∀ (q : PReg) (d : SDst) (a b : SReg) (s : State), Active q s →
    ∃ dv rm dvu rmu : Word,
      exec (.div q d a b) s = .next (writeD d dv s) ∧ exec (.rem q d a b) s = .next (writeD d rm s) ∧
      exec (.divu q d a b) s = .next (writeD d dvu s) ∧ exec (.remu q d a b) s = .next (writeD d rmu s) ∧
      (srcS b s = 0 → dv = BitVec.allOnes 64 ∧ rm = srcS a s ∧ dvu = BitVec.allOnes 64 ∧ rmu = srcS a s) ∧
      (srcS b s ≠ 0 → dvu.toNat = (srcS a s).toNat / (srcS b s).toNat ∧ rmu.toNat = (srcS a s).toNat % (srcS b s).toNat ∧
        rm.toInt = (srcS a s).toInt.tmod (srcS b s).toInt) ∧
      (srcS a s = BitVec.intMin 64 ∧ srcS b s = BitVec.allOnes 64 → dv = BitVec.intMin 64 ∧ rm = 0) ∧
      (srcS b s ≠ 0 ∧ ¬(srcS a s = BitVec.intMin 64 ∧ srcS b s = BitVec.allOnes 64) →
        dv.toInt = (srcS a s).toInt.tdiv (srcS b s).toInt ∧ (srcS a s).toInt = dv.toInt * (srcS b s).toInt + rm.toInt)

/-- Funnel shifts, selection, the one-source operations, immediates and fields (R200 to R203). -/
def Obligations.ShiftsCountsImmediatesAndFields : Prop :=
  ∀ (q : PReg) (d : SDst) (r a b c : SReg) (p : PReg) (i : BitVec 21) (h : BitVec 16) (s : State), Active q s →
    exec (.fshl q d a b c) s = .next (writeD d (BitVec.extractLsb 127 64 ((srcS a s ++ srcS b s) <<< ((srcS c s).toNat % 64))) s) ∧
    exec (.fshr q d a b c) s = .next (writeD d (BitVec.extractLsb 63 0 ((srcS a s ++ srcS b s) >>> ((srcS c s).toNat % 64))) s) ∧
    exec (.sel q d a b p) s = .next (writeD d (if srcP p s then srcS a s else srcS b s) s) ∧
    exec (.li q d i) s = .next (writeD d (BitVec.ofInt 64 i.toInt) s) ∧
    exec (.lih q (some r) h) s = .next (writeS r ((srcS r s <<< 16) ||| h.setWidth 64) s) ∧ exec (.lih q none h) s = .next s ∧
    exec (.abs q d a) s = .next (writeD d (BitVec.ofInt 64 (srcS a s).toInt.natAbs) s) ∧
    (∃ n, exec (.clz q d a) s = .next (writeD d (BitVec.ofNat 64 n) s) ∧ n ≤ 64 ∧ (srcS a s).toNat < 2 ^ (64 - n) ∧
      (n < 64 → 2 ^ (63 - n) ≤ (srcS a s).toNat)) ∧
    (∃ n, exec (.ctz q d a) s = .next (writeD d (BitVec.ofNat 64 n) s) ∧ n ≤ 64 ∧ (srcS a s).toNat % 2 ^ n = 0 ∧
      (n < 64 → (srcS a s).getLsbD n = true)) ∧
    exec (.popc q d a) s = .next (writeD d (BitVec.ofNat 64 ((List.range 64).countP fun k => (srcS a s).getLsbD k)) s) ∧
    (∃ x : Word, exec (.bswap q d a) s = .next (writeD d x s) ∧
      ∀ k < 8, BitVec.extractLsb' (8 * k) 8 x = BitVec.extractLsb' (56 - 8 * k) 8 (srcS a s)) ∧
    ∀ pos wm1 : Fin 64,
      (pos.val + wm1.val + 1 > 64 → exec (.ext q d a pos wm1) s = illegalOp 0 s ∧ exec (.extu q d a pos wm1) s = illegalOp 0 s ∧
        exec (.ins q r a pos wm1) s = illegalOp 0 s) ∧
      (pos.val + wm1.val + 1 ≤ 64 →
        exec (.ext q d a pos wm1) s = .next (writeD d ((BitVec.extractLsb' pos.val (wm1.val + 1) (srcS a s)).signExtend 64) s) ∧
        exec (.extu q d a pos wm1) s = .next (writeD d ((BitVec.extractLsb' pos.val (wm1.val + 1) (srcS a s)).setWidth 64) s) ∧
        ∃ x : Word, exec (.ins q r a pos wm1) s = .next (writeS r x s) ∧
          ∀ k < 64, x.getLsbD k = if pos.val ≤ k ∧ k < pos.val + wm1.val + 1 then (srcS a s).getLsbD (k - pos.val) else (srcS r s).getLsbD k)

/-- The integer instructions that give a scalar, and RDCYC, RDDATUM and LOCALITY, change their destination and nothing else; so do the
predicate instructions with theirs (R197, R204, R323). -/
def Obligations.FrameOfScalarAndPredicateResults : Prop :=
  (∀ (i : Instr) (d : SDst) (s t : State), scalarDest i = some d → i.wf = true → Active i.q s → exec i s = .next t →
    ScalarOnly d s t ∧ SameMemory s t) ∧
  (∀ (i : Instr) (d : PReg) (s t : State), predDest i = some d → i.wf = true → Active i.q s → (d.val < 8 ∨ s.iss.src.inPiped = false) →
    exec i s = .next t → PredOnly d s t ∧ SameMemory s t)

/-- Comparisons and predicates (R205 to R207), and the stage predicates that a pipelined loop protects (R204). -/
def Obligations.ComparisonsAndPredicates : Prop :=
  ∀ (q pd pa pb : PReg) (a b : SReg) (i : BitVec 14) (clr : Bool) (bit : Fin 64) (s : State), Active q s →
    ((pd.val < 8 ∨ s.iss.src.inPiped = false) →
      (∀ c r, (r = true ↔ match c with
          | .eq => srcS a s = srcS b s
          | .ne => srcS a s ≠ srcS b s
          | .lt => (srcS a s).toInt < (srcS b s).toInt
          | .ge => (srcS a s).toInt ≥ (srcS b s).toInt
          | .ltu => (srcS a s).toNat < (srcS b s).toNat
          | .geu => (srcS a s).toNat ≥ (srcS b s).toNat
          | .tz => srcS a s &&& srcS b s = 0
          | .tnz => srcS a s &&& srcS b s ≠ 0) → exec (.cmp q c pd a b) s = .next (writeP pd r s)) ∧
      (∀ c r, (r = true ↔ match c with
          | .eq => srcS a s = i.signExtend 64
          | .ne => srcS a s ≠ i.signExtend 64
          | .lt => (srcS a s).toInt < i.toInt
          | .ge => (srcS a s).toInt ≥ i.toInt
          | .ltu => (srcS a s).toNat < (i.signExtend 64).toNat
          | .geu => (srcS a s).toNat ≥ (i.signExtend 64).toNat
          | .tz => srcS a s &&& i.signExtend 64 = 0
          | .tnz => srcS a s &&& i.signExtend 64 ≠ 0) → exec (.cmpi q c pd a i) s = .next (writeP pd r s)) ∧
      exec (.tstb q clr pd a bit) s = .next (writeP pd ((srcS a s).getLsbD bit.val ^^ clr) s) ∧
      exec (.pand q pd pa pb) s = .next (writeP pd (srcP pa s && srcP pb s) s) ∧
      exec (.por q pd pa pb) s = .next (writeP pd (srcP pa s || srcP pb s) s) ∧
      exec (.pxor q pd pa pb) s = .next (writeP pd (srcP pa s ^^ srcP pb s) s) ∧
      exec (.pandn q pd pa pb) s = .next (writeP pd (srcP pa s && !srcP pb s) s)) ∧
    (pd.val ≥ 8 → s.iss.src.inPiped = true →
      ∀ c, exec (.cmp q c pd a b) s = illegalOp 0 s ∧ exec (.cmpi q c pd a i) s = illegalOp 0 s ∧
        exec (.tstb q clr pd a bit) s = illegalOp 0 s ∧ exec (.pand q pd pa pb) s = illegalOp 0 s ∧
        exec (.por q pd pa pb) s = illegalOp 0 s ∧ exec (.pxor q pd pa pb) s = illegalOp 0 s ∧ exec (.pandn q pd pa pb) s = illegalOp 0 s)

-- The X slot: control.

/-- Transfers of control (R208 to R210): a relative target is the own row plus 64·off24, a register target is a[55:6]; the cluster goes
on there, CALL and CALLR leave the next row, in their register and on the return stack of eight (R344), which RET takes it from, and BRCC reads the cc bits of the start of the cycle. A register target with a nonzero
a[63:56] is an illegal operation. Nothing else changes. After a line without a transfer a cluster outside every loop goes on at the next
row, and a transfer out of a loop body ends the outermost loop that holds the row and not the target, with every loop nested in it, but for
CALL and CALLR (R216, R217). -/
def Obligations.TransfersOfControl : Prop :=
  (∀ (q : PReg) (d a : SReg) (n : Fin 16) (off : BitVec 24) (s : State), Active q s →
    let own := s.iss.src.pc
    let dest := BitVec.ofNat 64 ((own + BitVec.ofInt 64 (64 * off.toInt)).toNat % 2 ^ 56)
    let go := fun (t : Word) (u : State) => u.onClu fun c => { c with branch := some t }
    let nextRow := BitVec.ofNat 64 ((own.toNat + 64) % 2 ^ 56)
    let push := fun (u : State) => u.onClu fun c => { c with rstk := (nextRow :: c.rstk).take 8 }
    exec (.br q off) s = .next (go dest s) ∧
    exec (.brcc q n off) s = .next (if s.core.cc.getLsbD n.val then go dest s else s) ∧
    exec (.call q off) s = .next (go dest (push (writeS 63 nextRow s))) ∧
    (∀ t : Word, (srcS a s).toNat < 2 ^ 56 → t.toNat = (srcS a s).toNat / 64 * 64 →
      exec (.callr q d a) s = .next (go t (push (writeS d nextRow s))) ∧ exec (.jmpr q a) s = .next (go t s) ∧
      exec (.ret q a) s = .next (go t (s.onClu fun c => { c with rstk := c.rstk.drop 1 }))) ∧
    ((srcS a s).toNat ≥ 2 ^ 56 →
      exec (.callr q d a) s = illegalOp 0 s ∧ exec (.ret q a) s = illegalOp 0 s ∧ exec (.jmpr q a) s = illegalOp 0 s)) ∧
  ∀ (c : Cluster) (t : Word),
    (c.branch = none → c.loops = [] → (Cluster.advance false c).pc = BitVec.ofNat 64 ((c.pc.toNat + 64) % 2 ^ 56)) ∧
    (c.branch = some t → ∀ keep, (Cluster.advance keep c).pc = t ∧ (Cluster.advance keep c).branch = none) ∧
    (c.branch = some t → (Cluster.advance true c).loops = c.loops) ∧
    (c.branch = some t → (∀ l ∈ c.loops, l.holds c.pc.toNat = true → l.holds t.toNat = true) →
      (Cluster.advance false c).loops = c.loops ∧ (Cluster.advance false c).lctr = c.lctr) ∧
    (∀ inner l outer, c.branch = some t → c.loops = inner ++ l :: outer → l.holds c.pc.toNat = true → l.holds t.toNat = false →
      (∀ m ∈ outer, m.holds c.pc.toNat = true → m.holds t.toNat = true) →
      (Cluster.advance false c).loops = outer ∧
      (∀ id, (∃ m ∈ inner ++ [l], m.id = id) → (Cluster.advance false c).lctr[id] = { c.lctr[id] with act := false }) ∧
      ∀ id, (∀ m ∈ inner ++ [l], m.id ≠ id) → (Cluster.advance false c).lctr[id] = c.lctr[id])



/-- LOOP and LBRK (R213, R214, R218): a refused LOOP is an illegal operation; a trip count of 0 goes on after the body,
by a taken transfer as the model reads it (log entry 144); else the loop becomes active and its counter runs. LBRK ends its loop and goes to its
target, and an inactive id is an illegal operation. -/
def Obligations.HardwareLoops : Prop :=
  ∀ (q : PReg) (st : SReg) (id sm1 : Fin 8) (rot : Bool) (lenm1 : BitVec 14) (off : BitVec 24) (s : State), Active q s →
    let first := (s.iss.src.pc.toNat + 64) % 2 ^ 56
    let l : LoopRec := ⟨id, first, lenm1.toNat + 1, sm1.val + 1, rot, (srcS st s).toNat % 2 ^ 32, 0⟩
    let inside := fun (m : LoopRec) (row : Nat) => m.first ≤ row ∧ row < m.first + 64 * m.len
    let refused := (∃ m ∈ s.iss.src.loops, m.id = id) ∨ (∃ m ∈ s.iss.src.loops, m.stages ≥ 2 ∨ m.rot = true) ∨
      ∃ m ∈ s.iss.src.loops, ¬(inside m s.iss.src.pc.toNat ∧ inside m first ∧ inside m (first + 64 * lenm1.toNat))
    (refused → exec (.loop q st id rot sm1 lenm1) s = illegalOp 0 s) ∧
    (¬refused → l.trip ≠ 0 → ∃ t, exec (.loop q st id rot sm1 lenm1) s = .next t ∧ t.clu.loops = l :: s.clu.loops ∧
      t.clu.lctr[id] = ⟨true, BitVec.ofNat 33 (l.trip + sm1.val - 1)⟩ ∧
      ((sm1.val = 0 ∧ rot = false) → t.clu.p = s.clu.p) ∧
      (¬(sm1.val = 0 ∧ rot = false) → (∀ k < 8, t.clu.p.getLsbD k = s.clu.p.getLsbD k) ∧ t.clu.p.getLsbD 8 = true ∧
        ∀ k, 9 ≤ k → k < 16 → t.clu.p.getLsbD k = false)) ∧
    (¬refused → l.trip = 0 → ∃ t, exec (.loop q st id rot sm1 lenm1) s = .next t ∧ t.clu.loops = s.clu.loops ∧
      t.clu.branch = some (BitVec.ofNat 64 ((first + 64 * (lenm1.toNat + 1)) % 2 ^ 56))) ∧
    ((∃ m ∈ s.iss.src.loops, m.id = id) → ∃ t, exec (.lbrk q id off) s = .next t ∧
      t.clu.branch = some (BitVec.ofNat 64 ((s.iss.src.pc + BitVec.ofInt 64 (64 * off.toInt)).toNat % 2 ^ 56)) ∧
      t.clu.loops = (s.clu.loops.dropWhile fun m => m.id != id).drop 1) ∧
    ((∀ m ∈ s.iss.src.loops, m.id ≠ id) → exec (.lbrk q id off) s = illegalOp 0 s)

namespace Sys2Proof.Stated

/-- What a release at a scope waits for has come (R145, R153), or the line has been let through. -/
def CanRelease (sc : Scope) (s : State) : Prop :=
  s.passed = true ∨ (s.clu.slog = [] ∧ s.replayed s.at_.core s.at_.clu = true ∧ s.settled s.at_.core s.at_.clu sc = true)

/-- The same of every cluster of the core, for the end of a run (R226, R229). -/
def AllCanRelease (sc : Scope) (s : State) : Prop :=
  s.passed = true ∨ ∀ c : CluId, (s.core.clu[c]).slog = [] ∧ s.replayed s.at_.core c = true ∧ s.settled s.at_.core c sc = true

/-- No floating-point exception is pending in the cluster, or the line has been let through (R81). -/
def NoPending (s : State) : Prop := s.passed = true ∨ s.clu.pendEx = []

/-- A trap has been entered (R325, R326): the acting cluster of `t` is that of `s` in handler mode, at the handler's row, with the saved
line, the cause and the arguments; its registers, loops and latches stand. -/
def Entered (r : TrapRec) (resume : Word) (s t : State) : Prop :=
  t.clu.hm = true ∧ t.clu.tcause = r.cause ∧ t.clu.tsub = r.sub ∧ t.clu.trappc = resume ∧
  t.clu.trapa[0] = r.a0 ∧ t.clu.trapa[1] = r.a1 ∧ t.clu.trapa[2] = r.a2 ∧ t.clu.trapa[3] = r.a3 ∧
  (∀ i : Fin 8, t.clu.trapit[i] = BitVec.ofNat 64 (s.clu.iters.getD i.val 0)) ∧
  t.clu.pc = s.core.tvec &&& 0x00FFFFFFFFFFFFC0#64 ∧
  t.clu.s = s.clu.s ∧ t.clu.v = s.clu.v ∧ t.clu.p = s.clu.p ∧ t.clu.m = s.clu.m ∧ t.clu.loops = s.clu.loops ∧ t.clu.lctr = s.clu.lctr ∧
  t.clu.rrb = s.clu.rrb ∧ t.clu.la = s.clu.la ∧ t.clu.lb = s.clu.lb ∧ t.clu.lc = s.clu.lc

/-- The other clusters, and memory, are as before. -/
def OthersStand (s t : State) : Prop :=
  (∀ (n : CoreId) (c : CluId), (n, c) ≠ (s.at_.core, s.at_.clu) → (t.cores[n]).clu[c] = (s.cores[n]).clu[c]) ∧ SameMemory s t

end Sys2Proof.Stated

/-- Clusters, cc bits and waits (R36, R212, R220, R221, R223): FORKC redirects each cluster of its mask, outside a folio it is illegal;
CCSET and CCCLR act at the end of the cycle, where a set wins; CCWAIT and SLEEPUNTIL complete once their condition stands, and hold the
cluster before; SAFE restarts the drought count. -/
def Obligations.ClustersFlagsAndWaits : Prop :=
  ∀ (q : PReg) (fm : BitVec 4) (mask : BitVec 16) (off : BitVec 24) (a : SReg) (vl : BitVec 24) (ml : BitVec 8) (s : State),
    (fm = 0 → exec (.forkc q fm off) s = illegalOp 0 s) ∧
    (Active q s →
      (fm ≠ 0 → s.iss.sync = false → exec (.forkc q fm off) s = illegalOp 0 s) ∧
      (fm ≠ 0 → s.iss.sync = true → exec (.forkc q fm off) s = .next (s.onCore fun k => { k with
        clu := Vector.ofFn fun i => if fm.getLsbD i.val then { (k.clu[i]) with
          forked := some (BitVec.ofNat 64 ((s.iss.src.pc + BitVec.ofInt 64 (64 * off.toInt)).toNat % 2 ^ 56)) } else k.clu[i] })) ∧
      (CanRelease .core s → ∃ t, exec (.ccset q mask) s = .next t ∧ t.core.ccSet = s.core.ccSet ||| mask ∧ t.core.cc = s.core.cc) ∧
      exec (.ccclr q mask) s = .next (s.onCore fun k => { k with ccClr := k.ccClr ||| mask }) ∧
      (s.passed = true ∨ s.core.cc &&& mask = mask → ∃ f, exec (.ccwait q mask) s = .next (s.onClu fun c => { c with known := f })) ∧
      (¬(s.passed = true ∨ s.core.cc &&& mask = mask) → exec (.ccwait q mask) s = holdLine (.ccwait mask) s) ∧
      (s.passed = true ∨ (srcS a s).toNat ≤ s.cyc.toNat → exec (.sleepuntil q a) s = .next s) ∧
      (¬(s.passed = true ∨ (srcS a s).toNat ≤ s.cyc.toNat) → exec (.sleepuntil q a) s = holdLine (.sleep (srcS a s)) s)) ∧
    exec (.safe vl ml) s = .next (s.onClu fun c => { c with drought := 0, dfired := false }) ∧
    exec .nop s = .next s


/-- SPAWN and JOIN (R13, R19, R224, R225): SPAWN pushes a record with the image's identity, code and join count under the launch's next
sequence number, and its destination names it; JOIN takes one from the join counter of a pending record; a misaligned image, a bad image
and a join operand above 65,535 trap. -/
def Obligations.SpawnAndJoin : Prop :=
  ∀ (q : PReg) (d : SDst) (a : SReg) (s : State) (run : Run) (l : Launch), Active q s →
    ((srcS a s).toNat % 32 ≠ 0 → exec (.spawn q d a) s = pageFault .alignment (srcS a s).toNat .load s) ∧
    (∀ i t, (srcS a s).toNat % 32 = 0 → readImage (srcS a s).toNat s = .ok i t →
      (i.bad = true → exec (.spawn q d a) s = illegalOp 0 t) ∧
      (i.bad = false → s.core.run = some run → s.myLaunch = some l → CanRelease .sys t →
        (t.passed = true ∨ s.mayPush l (bits 7 6 i.w3.toNat) = true) →
        ∃ u, exec (.spawn q d a) s = .next (writeD d (BitVec.ofNat 64 (l.nextSeq % 65536)) u) ∧
          ∃ r ∈ u.recs, r.lid = l.lid ∧ r.seq = l.nextSeq ∧ r.wid = i.w0 ∧ r.code = i.code ∧ r.frame = i.frame ∧
            r.jcnt = bits 11 0 i.w1.toNat ∧ (r.state = .pending ∨ r.state = .ready))) ∧
    ((srcS a s).toNat ≥ 65536 → exec (.join q a) s = illegalOp 0 s) ∧
    ((srcS a s).toNat < 65536 → CanRelease .sys s → s.core.run = some run → s.myLaunch = some l →
      (∀ r, s.namedRec l (srcS a s).toNat = some r → r.state = .pending → r.jcnt ≠ 0 →
        exec (.join q a) s = .next ((s.onRec l.lid r.seq fun x => { x with jcnt := x.jcnt - 1 }).writeRing l.lid r.seq)) ∧
      (s.namedRec l (srcS a s).toNat = none → ∃ t, exec (.join q a) s = .next t ∧ t.recs = s.recs))

/-- YIELD and EXIT (R20, R21, R69, R226 to R228): in a folio, with their conditions met, they complete and end the run: YIELD's record goes back
with its new code and join count and keeps NUMCTL and FPSTAT, EXIT's drains. Outside a folio they are an illegal line whatever their operands (R226, R331), and
in one a YIELD with a bad target or count is an illegal operation. That YIELD keeps NUMCTL and FPSTAT with the record is the model's reading (log
entry 16). -/
def Obligations.YieldAndExit : Prop :=
  ∀ (q : PReg) (a b : SReg) (s : State) (run : Run), Active q s → s.core.run = some run →
    (s.iss.sync = false → exec (.yield q a b) s = illegalLine s ∧ exec (.exit q) s = illegalLine s) ∧
    (s.iss.sync = true → (srcS a s).toNat % 64 ≠ 0 ∨ (srcS a s).toNat ≥ 2 ^ 56 ∨ (srcS b s).toNat > 4095 →
      exec (.yield q a b) s = illegalOp 0 s) ∧
    (s.iss.sync = true → (srcS a s).toNat % 64 = 0 → (srcS a s).toNat < 2 ^ 56 → (srcS b s).toNat ≤ 4095 →
      NoPending s → (s.passed = true ∨ s.allEnded = true) → AllCanRelease .sys s →
        ∃ t, exec (.yield q a b) s = .next t ∧ t.core.run = none ∧ t.iss.ending = true ∧
          ∀ x ∈ t.recs, x.lid = run.lid → x.seq = run.seq → x.code = (srcS a s).toNat ∧ x.jcnt = (srcS b s).toNat ∧
            x.held = some (s.core.endCycle.numctl, s.core.endCycle.fpstat) ∧
            x.state = (if (srcS b s).toNat = 0 then .ready else .pending)) ∧
    (s.iss.sync = true → NoPending s → (s.passed = true ∨ s.noneQueued = true) →
      ∃ t, exec (.exit q) s = .next t ∧ t.core.run = none ∧ t.iss.ending = true ∧
        ∀ x ∈ t.recs, x.lid = run.lid → x.seq = run.seq → x.state = .draining)



/-- The end of a cycle (R36, R47, R80, R81, R322): bits cleared go, bits set stand, and a set of a bit wins over its clear; the floating-point flags
that the cycle has raised are set, and its exceptions become pending in their clusters. A write to a shared
k-register takes effect: reserved bits read zero, and the flags of FPSTAT clear where a one is written, but for those raised in the same
cycle (R6, R67, R79, R137, R326). -/
def Obligations.EndOfCycle : Prop :=
  (∀ (k : Core), (∀ i < 16, k.endCycle.cc.getLsbD i = (k.ccSet.getLsbD i || (k.cc.getLsbD i && !k.ccClr.getLsbD i))) ∧
    (∀ i < 64, k.endCycle.f.getLsbD i = (k.fSet.getLsbD i || (k.f.getLsbD i && !k.fClr.getLsbD i))) ∧
    (k.kpend = [] → ∀ i < 7, k.endCycle.fpstat.getLsbD i = (k.fpstat.getLsbD i || k.fpSetNow.getLsbD i)) ∧
    (∀ c : CluId, ((k.endCycle).clu[c]).pendEx = (k.clu[c]).pendEx ++ (k.exNow.filter fun p => p.1 == c).map Prod.snd) ∧
    k.endCycle.ccSet = 0 ∧ k.endCycle.ccClr = 0 ∧ k.endCycle.fSet = 0 ∧ k.endCycle.fClr = 0 ∧ k.endCycle.kpend = [] ∧ k.endCycle.fpSetNow = 0 ∧
    k.endCycle.exNow = []) ∧
  ∀ (k : Core) (w : Word),
    (k.kWrite (0x000, w)).numctl = w &&& 0x0000FFFF0000FF1F#64 ∧
    (∀ i < 7, (k.kWrite (0x001, w)).fpstat.getLsbD i = (k.fpSetNow.getLsbD i || (k.fpstat.getLsbD i && !w.getLsbD i))) ∧
    (k.kWrite (0x002, w)).memdef = w &&& 0x3FE#64 ∧
    (k.kWrite (0x020, w)).tvec = w &&& 0x00FFFFFFFFFFFFC1#64 ∧
    ∀ k' p, (Core.kWrite k' p).clu = k'.clu ∧ (Core.kWrite k' p).eng = k'.eng ∧ (Core.kWrite k' p).tiles = k'.tiles

/-- MFK (R321, R322): a register of the k-space gives its value, and an address that is unassigned or the host's is an illegal operation.
MTK (R68, R137, R215, R219, R322): shared registers take their value at the end of the cycle, a cluster's own at once; the refusals, the
registers that it may not write and the unassigned addresses are illegal operations. That a TRAPPC of another row leaves a folio that has acted is
the model's reading (log entry 61). -/
def Obligations.TheKSpace : Prop :=
  (∀ (q : PReg) (d : SReg) (s : State), Active q s →
    exec (.mfk q d 0x000) s = .next (writeS d s.core.numctl s) ∧
    exec (.mfk q d 0x002) s = .next (writeS d s.core.memdef s) ∧
    exec (.mfk q d 0x003) s = .next (writeS d s.core.agectl s) ∧
    (∃ x : Word, exec (.mfk q d 0x001) s = .next (writeS d x s) ∧ BitVec.extractLsb' 0 7 x = BitVec.extractLsb' 0 7 s.core.fpstat ∧
      BitVec.extractLsb' 15 49 x = 0 ∧ ∀ k < 5, x.getLsbD (8 + k) = (vlist s.core.clu).any fun c => c.pendEx.any fun e => e.enabled.getLsbD k) ∧
    (∀ i : Fin 4, exec (.mfk q d (BitVec.ofNat 12 (8 + i.val))) s = .next (writeS d s.core.unpk[i] s)) ∧
    exec (.mfk q d 0x010) s = .next (writeS d (s.iss.src.rrb.setWidth 64) s) ∧
    (∀ i : Fin 8, exec (.mfk q d (BitVec.ofNat 12 (0x18 + i.val))) s =
      .next (writeS d ((s.iss.src.lctr[i]).count.setWidth 64 ||| (if (s.iss.src.lctr[i]).act then 1#64 <<< 63 else 0)) s)) ∧
    exec (.mfk q d 0x020) s = .next (writeS d s.core.tvec s) ∧
    exec (.mfk q d 0x021) s = .next (writeS d (s.iss.src.tcause.setWidth 64 ||| (s.iss.src.tsub.setWidth 64 <<< 8) |||
      (if s.iss.src.hm then 1#64 <<< 23 else 0)) s) ∧
    exec (.mfk q d 0x022) s = .next (writeS d s.iss.src.trappc s) ∧
    (∀ i : Fin 4, exec (.mfk q d (BitVec.ofNat 12 (0x24 + i.val))) s = .next (writeS d s.iss.src.trapa[i] s)) ∧
    (∀ i : Fin 8, exec (.mfk q d (BitVec.ofNat 12 (0x28 + i.val))) s = .next (writeS d s.iss.src.trapit[i] s)) ∧
    (∀ i : Fin 32, exec (.mfk q d (BitVec.ofNat 12 (0x40 + i.val))) s = .next (writeS d s.core.xb.evx[i] s)) ∧
    (∀ k : BitVec 12, 0x100 ≤ k.toNat → k.toNat < 0x400 → ∃ x : Word, exec (.mfk q d k) s = .next (writeS d x s)) ∧
    (∀ k : BitVec 12, (0x60 ≤ k.toNat ∧ k.toNat < 0x100) ∨ 0x400 ≤ k.toNat ∨ (4 ≤ k.toNat ∧ k.toNat < 8) ∨ (0xC ≤ k.toNat ∧ k.toNat < 0x10) ∨
      (0x11 ≤ k.toNat ∧ k.toNat < 0x18) ∨ k.toNat = 0x23 ∨ (0x30 ≤ k.toNat ∧ k.toNat < 0x40) → exec (.mfk q d k) s = illegalOp 0 s)) ∧
  ∀ (q : PReg) (a : SReg) (s : State), Active q s →
    let w := srcS a s
    let later := fun (k : Nat) (u : State) => u.onCore fun c => { c with kpend := c.kpend ++ [(k, w)] }
    (∀ k : BitVec 12, k.toNat = 1 ∨ k.toNat = 3 ∨ (8 ≤ k.toNat ∧ k.toNat < 12) ∨ k.toNat = 0x20 ∨ k.toNat = 0x2C0 →
      exec (.mtk q k a) s = .next (later k.toNat s)) ∧
    ((bits 10 8 w.toNat ≤ 5 → (s.iss.sync = true ∨ ∀ l, s.myLaunch = some l → l.dyn = true) →
      ∃ t, exec (.mtk q 0 a) s = .next t ∧ t.core.kpend = s.core.kpend ++ [(0, w)])) ∧
    (bits 10 8 w.toNat > 5 → exec (.mtk q 0 a) s = illegalOp 0 s) ∧
    (∀ l, s.iss.sync = false → s.myLaunch = some l → l.dyn = false → exec (.mtk q 0 a) s = illegalOp 0 s) ∧
    ((bits 9 7 w.toNat = 0 ∨ bits 9 7 w.toNat = 4) ∧ bits 4 3 w.toNat ≠ 3 ∧ (bits 2 1 w.toNat = 0 ∨ (bits 2 1 w.toNat < 3 ∧ s.iss.src.hm = true)) →
      exec (.mtk q 2 a) s = .next (later 2 s)) ∧
    (¬((bits 9 7 w.toNat = 0 ∨ bits 9 7 w.toNat = 4) ∧ bits 4 3 w.toNat ≠ 3 ∧
        (bits 2 1 w.toNat = 0 ∨ (bits 2 1 w.toNat < 3 ∧ s.iss.src.hm = true))) → exec (.mtk q 2 a) s = illegalOp 0 s) ∧
    (s.iss.src.inPiped = false → exec (.mtk q 0x10 a) s = .next (s.onClu fun c => { c with rrb := w.setWidth 5 })) ∧
    (s.iss.src.inPiped = true → exec (.mtk q 0x10 a) s = illegalOp 0 s) ∧
    (∀ i : Fin 8, (s.iss.src.lctr[i]).act = false → ∃ t, exec (.mtk q (BitVec.ofNat 12 (0x18 + i.val)) a) s = .next t ∧
      (t.clu.lctr[i]).count = w.setWidth 33) ∧
    (∀ i : Fin 8, (s.iss.src.lctr[i]).act = true → exec (.mtk q (BitVec.ofNat 12 (0x18 + i.val)) a) s = illegalOp 0 s) ∧
    (s.iss.src.hm = true → exec (.mtk q 0x22 a) s = .next (s.onClu fun c =>
      { c with trappc := w, acted := if bits 55 6 w.toNat = bits 55 6 c.trappc.toNat then c.acted else none })) ∧
    (∀ k : BitVec 12, 0x100 ≤ k.toNat → k.toNat < 0x400 → k.toNat ≠ 0x2C0 → exec (.mtk q k a) s = .next s) ∧
    (s.iss.src.hm = false → exec (.mtk q 0x22 a) s = illegalOp 0 s) ∧
    (∀ i : Fin 32, ∃ t x, exec (.mtk q (BitVec.ofNat 12 (0x40 + i.val)) a) s = .next t ∧ t.core.xb.pend = s.core.xb.pend ++ [(i.val, x)]) ∧
    (∀ k : BitVec 12, k.toNat = 0x21 ∨ (0x24 ≤ k.toNat ∧ k.toNat < 0x30) ∨ 0x400 ≤ k.toNat → exec (.mtk q k a) s = illegalOp 0 s) ∧
    (∀ k : BitVec 12, (4 ≤ k.toNat ∧ k.toNat < 8) ∨ (0xC ≤ k.toNat ∧ k.toNat < 0x10) ∨ (0x11 ≤ k.toNat ∧ k.toNat < 0x18) ∨ k.toNat = 0x23 ∨
      (0x30 ≤ k.toNat ∧ k.toNat < 0x40) ∨ (0x60 ≤ k.toNat ∧ k.toNat < 0x100) → exec (.mtk q k a) s = illegalOp 0 s)


/-- RDCYC, RDDATUM and LOCALITY (R323, R324): the cycle count, the datum, and where a byte lies. RDDATUM reads the shadow
while the island gives no datum (R424); that it does so until ATTACH, and until the datum has caught up, is the model's reading (log entry 32), as is
that an address of a page with no target has no place (log entry 112). -/
def Obligations.TimeAndPlace : Prop :=
  ∀ (q : PReg) (d : SDst) (a : SReg) (s : State), Active q s →
    exec (.rdcyc q d) s = .next (writeD d s.cyc s) ∧
    exec (.rddatum q d) s = .next (writeD d (if s.island.shadowing || s.island.ahead then s.island.shadow else s.island.datum) s) ∧
    ∃ chip, (∀ l, s.myLaunch = some l → chip = if l.chipset = 0xFFFF then 0 else l.chipPos) ∧
      let at_ := chip * 2 ^ 46 + s.at_.core.val * 2 ^ 41 + s.at_.clu.val * 2 ^ 39
      let place := fun t => (placeIn t (srcS a s).toNat).2
      (∀ t, (xlatePage s.attr (srcS a s).toNat s).1 = .ok t → t.tt ≤ 1 → exec (.locality q d a) s =
        .next (writeD d (BitVec.ofNat 64 (at_ + 2 ^ 23 + t.tt * 2 ^ 20 + chanOf (place t) * 2 ^ 12 + dieOf (place t) * 2 ^ 8)) s)) ∧
      (∀ t, (xlatePage s.attr (srcS a s).toNat s).1 = .ok t → t.tt = 3 → exec (.locality q d a) s =
        .next (writeD d (BitVec.ofNat 64 (at_ + 2 ^ 23 + 3 * 2 ^ 20 + 0xFF * 2 ^ 12 + dieOf (place t) * 2 ^ 8)) s)) ∧
      (∀ t, (xlatePage s.attr (srcS a s).toNat s).1 = .ok t → t.tt = 2 ∨ t.tt = 4 → exec (.locality q d a) s =
        .next (writeD d (BitVec.ofNat 64 (at_ + 2 ^ 23 + t.tt * 2 ^ 20 + 0xFF * 2 ^ 12)) s)) ∧
      (∀ t, (xlatePage s.attr (srcS a s).toNat s).1 = .ok t → t.tt = 5 → exec (.locality q d a) s =
        .next (writeD d (BitVec.ofNat 64 (at_ + 2 ^ 23 + 5 * 2 ^ 20 + 0xFF * 2 ^ 12 + 0xF * 2 ^ 8)) s)) ∧
      ((∀ t, (xlatePage s.attr (srcS a s).toNat s).1 = .ok t → t.tt > 5) → exec (.locality q d a) s =
        .next (writeD d (BitVec.ofNat 64 (at_ + 0xFF * 2 ^ 12 + 0xF * 2 ^ 8)) s))

/-- Taking a trap (R325, R326): outside handler mode with a handler installed, the cluster alone enters the handler; memory and the other
clusters stand. -/
def Obligations.TakingATrap : Prop :=
  ∀ (r : TrapRec) (resume : Word) (s : State), s.clu.hm = false → s.core.tvec.getLsbD 0 = true →
    Entered r resume s (takeTrap r resume s) ∧ OthersStand s (takeTrap r resume s) ∧
    (∀ n : CoreId, ((takeTrap r resume s).cores[n]).eng = (s.cores[n]).eng ∧ ((takeTrap r resume s).cores[n]).tiles = (s.cores[n]).tiles)

/-- A trap that is not taken (R325, R327, R405): with no handler installed the launch fails and keeps STATUS 4; in handler mode it is a
double fault, which aborts a direct launch and rolls a staged record back to READY at the code with which it last became READY. That the launch of the first case
keeps STATUS 4 is the model's reading (log entry 15). -/
def Obligations.TrapsThatAreNotTaken : Prop :=
  ∀ (r : TrapRec) (resume : Word) (s : State) (run : Run) (l : Launch), s.core.run = some run → s.launch run.lid = some l →
    (s.clu.hm = false → s.core.tvec.getLsbD 0 = false → ∀ y ∈ (takeTrap r resume s).launches, y.lid = run.lid → y.status = 4) ∧
    (s.clu.hm = true → l.staged = false → ∀ y ∈ (takeTrap r resume s).launches, y.lid = run.lid → y.status = 4) ∧
    (∀ x ∈ s.recs, x.lid = run.lid → x.seq = run.seq → x.state = .running →
      (s.clu.hm = false → s.core.tvec.getLsbD 0 = false → (takeTrap r resume s).core.run = none) ∧
      (s.clu.hm = true → l.staged = false → (takeTrap r resume s).core.run = none)) ∧
    (s.clu.hm = true → l.staged = true → ∀ x, s.recOf run.lid run.seq = some x → x.rollbacks < s.mc.rblimit.toNat →
      (takeTrap r resume s).core.run = none ∧
      ∀ y ∈ (takeTrap r resume s).recs, y.lid = run.lid → y.seq = run.seq → y.state = .ready ∧ y.jcnt = 0 ∧ y.code = y.readyCode)

/-- TRAP, BRKPT and ERET (R329, R330): TRAP and BRKPT enter the handler with their code after the line, the next line saved, which is where a
FORKC of the folio redirects the cluster (R211); under the context's debug-halt bit BRKPT asks for a halt instead, its own cluster's at once; ERET leaves
handler mode for the saved row, and is illegal outside it. That TRAPPC holds the row plus 16 times the cluster, and what a core halted so does, are the
model's readings (log entries 19 and 98). -/
def Obligations.SoftwareTrapsAndTheReturn : Prop :=
  ∀ (q : PReg) (code : BitVec 16) (a : SReg) (s : State), Active q s →
    let left := match s.clu.forked with
      | some row => Cluster.advance false { s.clu with branch := some row, forked := none }
      | none => Cluster.advance false s.clu
    let next := left.pc + BitVec.ofNat 64 (16 * s.at_.clu.val)
    (s.clu.hm = false → s.core.tvec.getLsbD 0 = true →
      (∃ t, exec (.trap q code a) s = .next t ∧
        Entered ⟨0x0E, 0, code.setWidth 64, srcS a s, 0, 0⟩ next (s.onClu fun _ => left) t ∧ OthersStand s t) ∧
      (s.pkg.dbghalt.getLsbD s.asid.val = false → ∃ t, exec (.brkpt q code) s = .next t ∧
        Entered ⟨0x0F, 0, code.setWidth 64, 0, 0, 0⟩ next (s.onClu fun _ => left) t ∧ OthersStand s t)) ∧
    (s.pkg.dbghalt.getLsbD s.asid.val = true →
      exec (.brkpt q code) s = .next ((s.onCore fun k => { k with preReq := true, dbgHalted := true }).onClu fun c => { c with halted := true })) ∧
    (s.iss.src.hm = true → ∃ t, exec (.eret q) s = .next t ∧ t.clu.hm = false ∧
      t.clu.branch = some (s.clu.trappc &&& 0x00FFFFFFFFFFFFC0#64) ∧ t.clu.s = s.clu.s ∧ t.clu.p = s.clu.p ∧ t.clu.v = s.clu.v ∧
      t.clu.m = s.clu.m ∧ t.clu.loops = s.clu.loops ∧ OthersStand s t ∧
      (∀ e, s.clu.stoppedEng = some e → (t.core.eng[e]).stopped = false)) ∧
    (s.iss.src.hm = false → exec (.eret q) s = illegalOp 0 s)

/-- WIDLE and MEMPFX (R332, R135, R137): WIDLE completes once every engine of its mask is idle with an empty queue, from the clk after a command's END (R370), and holds before; a
mask beyond bit 26 is illegal. MEMPFX gives the line's access its attributes; without it MEMDEF gives them. -/
def Obligations.EngineWaitsAndAttributes : Prop :=
  (∀ (q : PReg) (a : SReg) (s : State), Active q s →
    let idle := ∀ e : Eng, (srcS a s).getLsbD e.val = true → (s.core.eng[e]).cmd = none ∧ (s.core.eng[e]).queue = [] ∧ (s.core.eng[e]).pulse = none
    ((srcS a s).toNat ≥ 2 ^ 27 → exec (.widle q a) s = illegalOp 0 s) ∧
    ((srcS a s).toNat < 2 ^ 27 → (s.passed = true ∨ idle) → exec (.widle q a) s = .next s) ∧
    ((srcS a s).toNat < 2 ^ 27 → ¬(s.passed = true ∨ idle) → exec (.widle q a) s = holdLine (.widle (srcS a s)) s)) ∧
  (∀ (o : Ord) (sc : Scope) (cp : CPol) (asp : Asp) (s : State), exec (.mempfx o sc cp asp) s = .next s) ∧
  (∀ (w : Nat) (l : Line) (o : Ord) (sc : Scope) (cp : CPol) (asp : Asp) (s : State), l.x = .mempfx o sc cp asp → l.xpfx = true →
    (s.beginLine w l).attr = ⟨o, sc, cp, asp⟩) ∧
  (∀ (w : Nat) (l : Line) (s : State), l.xpfx = false → (s.beginLine w l).attr = attrOfMemdef s.core.memdef) ∧
  attrOfMemdef 0x40 = ⟨.rlx, .pkg, .norm, .ctx⟩

-- The M slot: memory.

namespace Sys2Proof.Stated

/-- Some pages translate one after another under the line's attributes (R231, R382 to R385): none was declined, and each has an entry that
allows the access and is of a type that has accesses. `ps` are the pages with their entries, and `u` is the state with what the walks have
cached. -/
def Translates (a : Attr) (allows : Tlb → Bool) : List Nat → State → List (Nat × Tlb) → State → Prop
  | [], s, ps, u => ps = [] ∧ u = s
  | va :: vas, s, ps, u => s.declinedAt a va = false ∧ ∃ t s1 qs, xlatePage a va s = (.ok t, s1) ∧ allows t = true ∧ t.tt ≤ 5 ∧
      ps = (va / 65536, t) :: qs ∧ Translates a allows vas s1 qs u

/-- What an access waits for before it is looked at is over (R145, R153, R162): no acquire is in the side log, no SC join has still to reach other
packages, for an access that reads no acquire is in flight, and for an ordered one the side log is empty and what it replayed is performed. -/
def WaitsOver (s : State) (reads ordered : Bool) : Prop :=
  (∀ e ∈ s.clu.slog, acquires e.attr.ord = false) ∧ s.clu.scOut = [] ∧ (reads = true → s.acquiring s.at_.core s.at_.clu = false) ∧
  (ordered = true → s.clu.slog = [] ∧ s.replayed s.at_.core s.at_.clu = true)

/-- The line's access is a release or SC, and then every access before it is performed at its scope (R145). -/
def Settled (s : State) : Prop := s.attr.releases = true → s.settled s.at_.core s.at_.clu s.attr.scope = true

/-- The shared ports of some pages requested (R37), and what the code corrects at some places corrected (R401, R402). -/
def touched (ps : List (Nat × Tlb)) (ks : List Nat) (u : State) : State := (usePages ps u).correctAt ks

/-- A load of the bytes at some addresses performs at once, gives `bs` and leaves `t` (R136, R142, R145, R153, R154, R231, R232, R387, R402): its
attributes allow it, what it waits for is over, and either the side log has every byte, or it has none of them and every page translates and
is readable, no byte lies in a sealed frame, nor, where it is not staged, in an uncorrectable word, and no posted host write comes before it. -/
def LoadPerforms (s : State) (vas : List Nat) (bs : List Byte) (t : State) : Prop :=
  s.aspAllowed s.attr = true ∧ (s.attr.ord = .rlx ∨ s.attr.ord = .acq ∨ s.attr.ord = .sc) ∧ WaitsOver s true (s.attr.ord == .sc) ∧ Settled s ∧
  ((readLog s.logHere vas = .all bs ∧ t = s) ∨
   (readLog s.logHere vas = .no ∧ ∃ ps u, Translates s.attr Tlb.r (pagesOf vas) s ps u ∧
     (∀ k ∈ placesOf ps vas, u.sealed k = false ∧ (u.badAt k = true → (u.stagedByte k).isSome = true)) ∧
     (hostOrdered s.attr ps = true → u.posting u.at_.core u.at_.clu = false) ∧
     bs = vas.map (fun va => match entryOf ps va with | some e => u.loadByte e va | none => 0) ∧
     t = touched ps ((placesOf ps vas).filter fun k => (u.stagedByte k).isNone) u))

/-- A store to some addresses performs at once: its pages are `ps`, and `u` is the state with what the walks have cached. -/
def StorePerforms (s : State) (vas : List Nat) (ps : List (Nat × Tlb)) (u : State) : Prop :=
  s.aspAllowed s.attr = true ∧ (s.attr.ord = .rlx ∨ s.attr.ord = .rel ∨ s.attr.ord = .sc) ∧ WaitsOver s false s.attr.releases ∧
  Translates s.attr Tlb.w (pagesOf vas) s ps u ∧ u.meetsLog vas = false ∧ ∀ k ∈ placesOf ps vas, u.sealed k = false

/-- None of the pages is a lattice page. -/
def PlainPages (ps : List (Nat × Tlb)) : Prop := ∀ p ∈ ps, p.2.tt ≠ 4

/-- The `n` addresses from one on, modulo 2^64 (R230). -/
def bytesFrom (ea n : Nat) : List Nat := (List.range n).map fun i => (ea + i) % 2 ^ 64

/-- Bytes at virtual addresses as they lie under their pages' entries: window, place and byte. -/
def placed (ps : List (Nat × Tlb)) (bs : List (Nat × Byte)) : List (Nat × Nat × Byte) :=
  bs.filterMap fun b => (entryOf ps b.1).map fun t => ((placeIn t b.1).1, (placeIn t b.1).2, b.2)

/-- A performed store of some bytes for the running record. -/
def performed (s : State) (ps : List (Nat × Tlb)) (u : State) (bs : List (Nat × Byte)) : State :=
  performStore u.at_.core u.at_.clu (u.origin ps (bs.map Prod.fst)) s.attr (placed ps bs) (usePages ps u)

/-- The cell that an address names in a lattice page: its slot, its offset in the page, and the page's type. -/
def cellNamed (t : Tlb) (va : Nat) : Nat × Nat × Nat := (((placeIn t va).2 - latBase) / 65536, ((placeIn t va).2 - latBase) % 65536, t.ltype.toNat)

end Sys2Proof.Stated

/-- Effective addresses (R230, R237, R238): mode 0 adds the scaled offset, mode 1 the index, a strided access lane times stride, a gather
its lane's offset, sign-extended; all modulo 2^64. -/
def Obligations.EffectiveAddresses : Prop :=
  ∀ (b x : SReg) (o : BitVec 9) (k : Nat) (s : State) (u v : Word) (w : VecReg),
    ((eaOf (.off b o) k s : Nat) : Int) = ((srcS b s).toNat + o.toInt * k) % 2 ^ 64 ∧
    eaOf (.idx b x) k s = ((srcS b s).toNat + (srcS x s).toNat) % 2 ^ 64 ∧
    (∀ i < 128, (strided u v)[i]? = some ((u.toNat + i * v.toNat) % 2 ^ 64)) ∧
    (∀ i : Fin 128, (indexed u w)[i.val]? = some (((u.toNat : Int) + (w[i]).toInt) % 2 ^ 64).toNat)

/-- The loads (R188, R231, R234 to R239): where the access performs at once and is aligned, each gives its destination the bytes at its
address, little-endian, extended as its kind says, and nothing else changes but the caches, the ports that the line requests and what the
read corrects. A 64-bit LD of a lattice page gives the cell, and of a GCNT cell the sum of its slots (R160). PREF changes nothing. That
a load performs at its issue, what a narrow LD of a lattice page gives, and that the form of an LD of a lattice page is looked at before its
alignment, are the model's readings (log entries 7, 33 and 65). -/
def Obligations.LoadsGiveTheirRegister : Prop :=
  (∀ (q : PReg) (m : MAddr) (b x : SReg) (s t : State) (bs : List Byte), Active q s →
    let part := fun (n i : Nat) => (bs.drop (i * n)).take n
    (∀ (d : SDst) (k : LdKind), let n := ldBytes k
      let ea := eaOf m n s
      LoadPerforms s (bytesFrom ea n) bs t → ea % n = 0 → (k ≠ .d64 ∨ s.latticePage ea = none) →
      exec (.ld q d m k) s = .next (writeD d (match k with
        | .i8 => (BitVec.ofNat 8 (leNat bs)).signExtend 64
        | .i16 => (BitVec.ofNat 16 (leNat bs)).signExtend 64
        | .i32 => (BitVec.ofNat 32 (leNat bs)).signExtend 64
        | _ => BitVec.ofNat 64 (leNat bs)) t)) ∧
    (∀ (d : SDst) (e : Tlb), let ea := eaOf m 8 s
      LoadPerforms s (bytesFrom ea 8) bs t → ea % 8 = 0 → s.latticePage ea = some e →
      ((e.ltype ≠ 6 ∧ e.ltype ≠ 7) → exec (.ld q d m .d64) s = .next (writeD d (BitVec.ofNat 64 (leNat bs)) t)) ∧
      (e.ltype = 6 → exec (.ld q d m .d64) s = illegalOp 1 t) ∧
      (e.ltype = 7 → ea % 64 ≠ 0 → exec (.ld q d m .d64) s = pageFault .alignment ea .load t) ∧
      (e.ltype = 7 → ea % 64 = 0 → exec (.ld q d m .d64) s = .next (writeD d
        (BitVec.ofNat 64 ((List.range 16).map fun i => leNat ((bytesFrom (ea + 4 * i) 4).map (t.loadByte e))).sum) t))) ∧
    (∀ (d : VReg) (k : VKind), let n := 16 * vkWidth k
      let ea := eaOf m 16 s
      let v : VecReg := Vector.ofFn fun i => vkLane k (leNat bs / 2 ^ (vkWidth k * i.val) % 2 ^ vkWidth k)
      LoadPerforms s (bytesFrom ea n) bs t →
      (ea % 16 = 0 → exec (.vld q d m (.plain k)) s = .next (writeV d v t)) ∧ exec (.vldu q d m k) s = .next (writeV d v t)) ∧
    (∀ (d : VReg) (n : Fin 4), let p := unpkOf s.core.unpk[n]
      let ea := eaOf m 16 s
      p.first + (p.cnt - 1) * p.step + p.w ≤ p.per → LoadPerforms s (bytesFrom ea p.bytes) bs t →
      exec (.vld q d m (.unpk n)) s = .next (writeV d (Vector.ofFn fun i =>
        let f := leNat bs / 2 ^ (i.val / p.cnt * p.per + p.first + i.val % p.cnt * p.step) % 2 ^ p.w
        (if p.sgn then laneSigned p.w f else BitVec.ofNat 32 f) <<< p.lsh) t)) ∧
    (∀ (d : VReg) (n : Fin 4), let p := unpkOf s.core.unpk[n]
      ¬(p.first + (p.cnt - 1) * p.step + p.w ≤ p.per) → exec (.vld q d m (.unpk n)) s = illegalOp 1 s) ∧
    (∀ (d : VReg) (k : VKind), let ea := eaOf m 16 s
      LoadPerforms s (bytesFrom ea (vkElem k)) bs t → ea % vkElem k = 0 →
      exec (.vldb q d m k) s = .next (writeV d (Vector.replicate 128 (vkLane k (leNat bs % 2 ^ vkWidth k))) t)) ∧
    (∀ (d : VReg) (k : VKind), (∀ a ∈ strided (srcS b s) (srcS x s), a % vkElem k = 0) →
      LoadPerforms s ((strided (srcS b s) (srcS x s)).flatMap fun a => bytesFrom a (vkElem k)) bs t →
      exec (.vlds q d b x k) s = .next (writeV d (Vector.ofFn fun i => vkLane k (leNat (part (vkElem k) i.val) % 2 ^ vkWidth k)) t)) ∧
    (∀ (d xv : VReg), (∀ a ∈ indexed (srcS b s) (srcV xv s), a % 4 = 0) →
      LoadPerforms s ((indexed (srcS b s) (srcV xv s)).flatMap fun a => bytesFrom a 4) bs t →
      exec (.vgath q d b xv) s = .next (writeV d (Vector.ofFn fun i => BitVec.ofNat 32 (leNat (part 4 i.val))) t)) ∧
    (s.aspAllowed s.attr = true → exec (.pref q m) s = .next s)) ∧
  ∀ (ps : List (Nat × Tlb)) (ks : List Nat) (u : State),
    (∃ f, usePages ps u = { u with iss := { u.iss with ports := f } }) ∧ (u.weak = [] → u.correctAt ks = u)

/-- The stores (R188, R231, R233, R234, R236 to R240): where the access performs at once on plain pages, aligned, each stores exactly the
bytes of its form at the addresses that the form computes; with no mask bit set VSTM stores nothing. A 64-bit ST to a lattice page of 8-byte
cells is a checked store (R159): it joins the cell where it does not lower it, else it traps with cause 0x06; one that must follow bytes
that its record has staged waits with them (R403). That an SC one joins every replica of the package at once, and reaches other packages later, and
what TRAPPC holds, are the model's readings (log entries 39 and 19); so is that a
release store of a record waits with the bytes staged before it (121). -/
def Obligations.StoresPerformTheirBytes : Prop :=
  ∀ (q : PReg) (m : MAddr) (b x : SReg) (d xv : VReg) (s u : State) (ps : List (Nat × Tlb)), Active q s →
    (∀ (r : SReg) (k : StKind), let n := stBytes k
      let ea := eaOf m n s
      let bs := (bytesFrom ea n).zip (leBytes n (srcS r s).toNat)
      StorePerforms s (bytesFrom ea n) ps u → PlainPages ps → ea % n = 0 → exec (.st q r m k) s = .next (performed s ps u bs)) ∧
    (∀ k : VStKind, let n := 16 * vsWidth k
      let ea := eaOf m 16 s
      let bs := (bytesFrom ea n).zip (storeVec k (srcV d s))
      StorePerforms s (bytesFrom ea n) ps u → PlainPages ps → ea % 16 = 0 → exec (.vst q d m k) s = .next (performed s ps u bs)) ∧
    (∀ ma : MAddrM, let bs := vstmBytes (vstmAddr ma s).1 (vstmAddr ma s).2 (srcV d s)
      (bs ≠ [] → StorePerforms s (bs.map Prod.fst) ps u → PlainPages ps → exec (.vstm q d ma) s = .next (performed s ps u bs)) ∧
      (bs = [] → s.storeAttr = true → exec (.vstm q d ma) s = .next s)) ∧
    (∀ k : VStKind, k ≠ .n4 → let vas := strided (srcS b s) (srcS x s)
      let bs := elemStores (vsElem k) vas ((vlist (srcV d s)).map (vsPart k))
      (∀ a ∈ vas, a % vsElem k = 0) → StorePerforms s (bs.map Prod.fst) ps u → PlainPages ps →
      exec (.vsts q d b x k) s = .next (performed s ps u bs)) ∧
    (let vas := indexed (srcS b s) (srcV xv s)
      let bs := elemStores 4 vas ((vlist (srcV d s)).map BitVec.toNat)
      (∀ a ∈ vas, a % 4 = 0) → StorePerforms s (bs.map Prod.fst) ps u → PlainPages ps →
      exec (.vscat q d b xv) s = .next (performed s ps u bs)) ∧
    (let vas := strided (srcS b s) (srcS x s)
     let bs := vas.zip ((vlist (srcV d s)).map fun l => (BitVec.ofNat 8 (l.toNat % 16) : Byte))
     StorePerforms s vas ps u → PlainPages ps → exec (.vsts q d b x .n4) s = .next (performStore u.at_.core u.at_.clu (u.origin ps vas) s.attr
       ((placed ps bs).map fun p => (p.1, p.2.1,
         ((match u.stagedByte p.2.1 with | some y => y | none => u.readByte u.obs p.1 p.2.1) &&& 0xF0) ||| p.2.2)) (usePages ps u))) ∧
    (∀ (r : SReg) (e : Tlb), let ea := eaOf m 8 s
      let c := cellNamed e ea
      let v := (srcS r s).toNat
      StorePerforms s (bytesFrom ea 8) ps u → ps = [(ea / 65536, e)] → e.tt = 4 → (e.ltype ≠ 6 ∧ e.ltype ≠ 7) → ea % 8 = 0 →
      u.acquiring u.at_.core u.at_.clu = false → (s.attr.releases = true → u.settled u.at_.core u.at_.clu s.attr.scope = true) →
      let old := u.cellSeen c.1 c.2.1 c.2.2
      let behind := u.defers u.at_.core u.at_.clu u.runKey s.attr
      (latJoin c.2.2 old v = v → behind = false → (s.attr.ord = .sc → u.reaches c.1 = false) →
        exec (.st q r m .d64) s = .next (joinCell c.1 c.2.1 c.2.2 (s.attr.ord == .sc) v (usePages ps u))) ∧
      (latJoin c.2.2 old v = v → behind = false → s.attr.ord = .sc → u.reaches c.1 = true →
        exec (.st q r m .d64) s = .next (joinCell c.1 c.2.1 c.2.2 true v
          ((usePages ps u).onClu fun k => { k with scOut := k.scOut ++ [(c.1, c.2.1)] }))) ∧
      (latJoin c.2.2 old v = v → behind = true → ∃ t, exec (.st q r m .d64) s = .next t ∧ t.lat = u.lat ∧ t.cellSeen c.1 c.2.1 c.2.2 = v) ∧
      (latJoin c.2.2 old v ≠ v → exec (.st q r m .d64) s = .next (takeTrap
        ⟨0x06, 0, BitVec.ofNat 64 ea, BitVec.ofNat 64 old, BitVec.ofNat 64 v, 0⟩ (u.clu.pc + BitVec.ofNat 64 (16 * u.at_.clu.val)) (usePages ps u))))

/-- What a performed store does (R143, R403). Where no staging holds its bytes back they are visible at once to the cluster that stored
them, through their window, to no other observer yet, and every other byte reads as before; in a staged launch HBM and host bytes are
staged, where the record finds them, and, while all staged lines of 64 bytes fit in the core's staging SRAM of 32,768, no observer's byte
changes. That all elements of a store show at one instant is the model's reading (log entry 145). -/
def Obligations.PerformedStoresAndTheirFrame : Prop :=
  ∀ (n : CoreId) (c : CluId) (o : Origin) (a : Attr) (bs : List (Nat × Nat × Byte)) (s : State),
    (∀ b ∈ bs, b.1 < 6 ∧ s.badAt b.2.1 = false) →
    ((∀ b ∈ bs, s.aside n c o.who a b = false) →
      ∃ fs ids weak, performStore n c o a bs s = { s with inflight := s.inflight ++ fs, ids := ids, weak := weak } ∧
        (∀ f ∈ fs, f.core = n ∧ f.clu = c ∧ f.ord = a.ord ∧ f.scope = a.scope ∧ f.seen = 0) ∧
        ∀ (ob : Obs) (w k : Nat), (performStore n c o a bs s).readByte ob w k =
          if ob.own = some (n, c) then
            (match lastWrite k ((bs.filter fun b => b.1 == w).map Prod.snd) with | some y => y | none => s.readByte ob w k)
          else s.readByte ob w k) ∧
    (∀ r l, o.who = some r → s.launch r.1 = some l → l.staged = true → (∀ b ∈ bs, b.1 = 0 ∨ b.1 = 1 ∨ b.1 = 5) →
      (((s.cores[n]).staging.filter fun (b : Staged) => b.window == 0 || b.window == 1 || b.window == 5).map (fun (b : Staged) => b.pa / 64) ++
        bs.map fun (b : Nat × Nat × Byte) => b.2.1 / 64).eraseDups.length ≤ 32768 →
      (∀ (ob : Obs) (w k : Nat), (performStore n c o a bs s).readByte ob w k = s.readByte ob w k) ∧
      ∀ k y, s.at_.core = n → lastWrite k (bs.map Prod.snd) = some y → (performStore n c o a bs s).stagedOf (some r) k = some y)

/-- How an access stops or waits (R136, R231, R232, R386): an address space that the line may not name is an illegal operation; a misaligned
address, a missing permission, a page that its driver declined, an address that the physical space does not hold, and a page of a type that has
no accesses are page faults with their reason and address; and a page that does not translate holds a load with a request to the driver and
sends a store to the side log, where the line goes on. That an address that the physical space does not hold has the translation reason, how a
logged store is replayed, and what TRAPPC holds, are the model's readings (log entries 122, 34 and 19). -/
def Obligations.AccessesThatDoNotPerform : Prop :=
  ∀ (q : PReg) (d : SDst) (r : SReg) (m : MAddr) (k : LdKind) (ks : StKind) (s : State), Active q s →
    let el := eaOf m (ldBytes k) s
    let es := eaOf m (stBytes ks) s
    (s.attr.asp ≠ .ctx → s.iss.src.hm = false →
      exec (.ld q d m k) s = illegalOp 1 s ∧ exec (.st q r m ks) s = illegalOp 1 s ∧ exec (.pref q m) s = illegalOp 1 s) ∧
    (s.aspAllowed s.attr = true → s.attr.ord = .rlx →
      (el % ldBytes k ≠ 0 → exec (.ld q d m k) s = pageFault .alignment el .load s) ∧
      (es % stBytes ks ≠ 0 → exec (.st q r m ks) s = pageFault .alignment es .store s) ∧
      (el % ldBytes k = 0 → WaitsOver s true false → readLog s.logHere (bytesFrom el (ldBytes k)) = .no →
        (s.declinedAt s.attr el = true → exec (.ld q d m k) s = pageFault .translation el .load s) ∧
        (s.declinedAt s.attr el = false →
          (∀ t u, xlatePage s.attr el s = (.ok t, u) → t.r = false → exec (.ld q d m k) s = pageFault .permission el .load u) ∧
          (∀ t u, xlatePage s.attr el s = (.ok t, u) → t.r = true → t.tt > 5 → exec (.ld q d m k) s = pageFault .accessType el .load u) ∧
          (∀ u, xlatePage s.attr el s = (.nowhere, u) → exec (.ld q d m k) s = pageFault .translation el .load u) ∧
          (∀ u, xlatePage s.attr el s = (.unmapped, u) → exec (.ld q d m k) s =
            holdLine (.translation (s.spaceOf s.attr.asp).val el false false) (u.postRequest (s.spaceOf s.attr.asp) el 0)) ∧
          (∀ u lat, xlatePage s.attr el s = (.migrating lat, u) → exec (.ld q d m k) s =
            holdLine (.translation (s.spaceOf s.attr.asp).val el true false) u))) ∧
      (es % stBytes ks = 0 → WaitsOver s false false →
        (s.declinedAt s.attr es = true → exec (.st q r m ks) s = pageFault .translation es .store s) ∧
        (s.declinedAt s.attr es = false →
          (∀ t u, xlatePage s.attr es s = (.ok t, u) → t.w = false → exec (.st q r m ks) s = pageFault .permission es .store u) ∧
          (∀ t u, xlatePage s.attr es s = (.ok t, u) → t.w = true → t.tt > 5 → exec (.st q r m ks) s = pageFault .accessType es .store u) ∧
          (∀ u, xlatePage s.attr es s = (.nowhere, u) → exec (.st q r m ks) s = pageFault .translation es .store u) ∧
          (∀ u, xlatePage s.attr es s = (.migrating true, u) → exec (.st q r m ks) s =
            holdLine (.translation (s.spaceOf s.attr.asp).val es true false) u) ∧
          (∀ u, xlatePage s.attr es s = (.unmapped, u) → u.clu.slog.length + (u.core.left.filter fun y => y.clu == u.at_.clu).length < 32 →
            exec (.st q r m ks) s = .next ((u.postRequest (s.spaceOf s.attr.asp) es 1).onClu fun c => { c with slog := c.slog ++
              [⟨.store .scalar ((bytesFrom es (stBytes ks)).zip (leBytes (stBytes ks) (srcS r s).toNat)), s.attr, u.datum,
                some (es, false)⟩] }))))) ∧
    (∀ (rs : PfReason) (va : Nat) (a : AccKind), pageFault rs va a s =
      .next (takeTrap ⟨0x03, BitVec.ofNat 8 rs.code, BitVec.ofNat 64 va, BitVec.ofNat 64 a.code, 0, 0⟩ (s.clu.pc + BitVec.ofNat 64 (16 * s.at_.clu.val)) s)) ∧
    (∀ slot : Nat, illegalOp slot s = .next (takeTrap ⟨0x02, BitVec.ofNat 8 slot, s.iss.bits.setWidth 64, (s.iss.bits >>> 64).setWidth 64, 0, 0⟩
      (s.clu.pc + BitVec.ofNat 64 (16 * s.at_.clu.val)) s))

/-- Atomics (R129, R133, R145, R244 to R247): on a writable page of a type that takes them, aligned, with what they wait for over and no store
that comes before them to their bytes in flight, AMO gives the old value and stores its operation's result, CAS and CAS2 store only where they
find what they expect; the old value is the destination's. The stored bytes are the access's own, and every other byte reads as before. Which stores an
atomic waits for, and that it does not read bytes that its record has staged, are the model's readings (log entry 66). -/
def Obligations.AtomicsReadAndWriteAtOnce : Prop :=
  ∀ (q : PReg) (s u : State) (e : Tlb), Active q s → s.aspAllowed s.attr = true → WaitsOver s true s.attr.releases →
    let place := fun (a : Nat) => placeIn e a
    let ready := fun (va n : Nat) (host : Bool) => s.declinedAt s.attr va = false ∧ xlatePage s.attr va s = (.ok e, u) ∧ va % n = 0 ∧
      e.w = true ∧ e.tt < 6 ∧ e.tt ≠ 4 ∧ (e.tt = 5 → host = true) ∧ u.meetsLog (bytesFrom va n) = false ∧
      (s.attr.releases = true → u.settled u.at_.core u.at_.clu s.attr.scope = true) ∧
      (hostOrdered s.attr [(va / 65536, e)] = true → u.posting u.at_.core u.at_.clu = false) ∧
      (∀ a ∈ bytesFrom va n, u.sealed (place a).2 = false ∧ u.badAt (place a).2 = false) ∧
      (u.correctAt ((bytesFrom va n).map fun a => (place a).2)).contested u.at_.core u.at_.clu u.runKey ((bytesFrom va n).map fun a => (place a).2) = false
    let seen := fun (va n : Nat) => u.correctAt ((bytesFrom va n).map fun a => (place a).2)
    let old := fun (va n : Nat) => leNat ((bytesFrom va n).map fun a => (seen va n).atomicByte u.runKey (place a).1 (place a).2)
    let stores := fun (t : State) (va n v : Nat) => ∀ (ob : Obs) (w k : Nat), t.readByte ob w k =
      if ob.own = some (u.at_.core, u.at_.clu) ∧ w = (place va).1 then
        (match lastWrite k (((bytesFrom va n).map fun a => (place a).2).zip (leBytes n v)) with | some y => y | none => (seen va n).readByte ob w k)
      else (seen va n).readByte ob w k
    (∀ (op : AmoOp) (w64 : Bool) (d : SDst) (a b : SReg), let n := if w64 then 8 else 4
      let va := (srcS a s).toNat
      ready va n (op == .swap || op == .add) →
      ∃ t, exec (.amo q op w64 d a b) s = .next (writeD d (BitVec.ofNat 64 (old va n)) t) ∧
        stores t va n (match op with
          | .swap => (srcS b s).toNat
          | .add => old va n + (srcS b s).toNat
          | .and => old va n &&& (srcS b s).toNat
          | .or => old va n ||| (srcS b s).toNat
          | .xor => old va n ^^^ (srcS b s).toNat
          | .min => if toSigned (8 * n) (old va n) ≤ toSigned (8 * n) (srcS b s).toNat then old va n else (srcS b s).toNat
          | .max => if toSigned (8 * n) (old va n) ≤ toSigned (8 * n) (srcS b s).toNat then (srcS b s).toNat else old va n
          | .minu => min (old va n) ((srcS b s).toNat % 2 ^ (8 * n))
          | .maxu => max (old va n) ((srcS b s).toNat % 2 ^ (8 * n)))) ∧
    (∀ (w64 : Bool) (d a b : SReg), let n := if w64 then 8 else 4
      let va := (srcS a s).toNat
      ready va n true →
      ∃ t, exec (.cas q w64 d a b) s = .next (writeS d (BitVec.ofNat 64 (old va n)) t) ∧
        (old va n = (srcS d s).toNat % 2 ^ (8 * n) → stores t va n (srcS b s).toNat) ∧
        (old va n ≠ (srcS d s).toNat % 2 ^ (8 * n) → SameMemory (seen va n) t)) ∧
    (∀ d a b : SReg, let va := (srcS a s).toNat
      d.val % 2 = 0 → d.val ≠ 0 → b.val % 2 = 0 → ready va 16 false → e.tt ≤ 2 →
      ∃ t, exec (.cas2 q d a b) s =
          .next (writeS (d + 1) (BitVec.ofNat 64 (old va 16 / 2 ^ 64)) (writeS d (BitVec.ofNat 64 (old va 16)) t)) ∧
        (old va 16 = (srcS (d + 1) s).toNat * 2 ^ 64 + (srcS d s).toNat →
          stores t va 16 ((srcS (b + 1) s).toNat * 2 ^ 64 + (srcS b s).toNat)) ∧
        (old va 16 ≠ (srcS (d + 1) s).toNat * 2 ^ 64 + (srcS d s).toNat → SameMemory (seen va 16) t)) ∧
    (∀ (w64 : Bool) (op : AmoOp) (d : SDst) (a b : SReg), (srcS a s).toNat % (if w64 then 8 else 4) ≠ 0 →
      exec (.amo q op w64 d a b) s = pageFault .alignment (srcS a s).toNat .atomic s) ∧
    (∀ (w64 : Bool) (op : AmoOp) (d : SDst) (a b : SReg), let n := if w64 then 8 else 4
      let va := (srcS a s).toNat
      va % n = 0 → s.declinedAt s.attr va = false → xlatePage s.attr va s = (.ok e, u) → e.w = true →
      (e.tt = 4 ∨ (e.tt = 5 ∧ op ≠ .swap ∧ op ≠ .add)) → exec (.amo q op w64 d a b) s = pageFault .accessType va .atomic u)

/-- Lattice cells and fences (R148, R155, R158, R160, R161, R248, R249, R368): LJOIN raises the local cell, with SC every die's, to the join of
its value and its source, LLD reads it, and LWAIT tests it when it issues and in every clk from then on, and completes two clk after the test
that passes, or that comes at the deadline. The fences complete once the side log is empty and the stores before them are performed at their
scope; FENCEA and FENCESC order the two HBM windows. That an SC join reaches every die's replica at once and the other packages later, that a join
which must follow bytes that its record has staged is kept until they drain, that a discarding LLD takes the scalar form, and that an LWAIT whose
page does not translate is not met, are the model's readings (log entries 39, 100, 21 and 101); so is that what
follows a release fence after staged bytes follows those bytes (121). -/
def Obligations.LatticeCellsAndFences : Prop :=
  (∀ (q pd : PReg) (r : SReg) (v : VReg) (m : MAddr) (a b c : SReg) (s u : State) (e : Tlb), Active q s → s.aspAllowed s.attr = true →
    e.tt = 4 → e.ltype.toNat < 8 → WaitsOver s true s.attr.releases →
    let lt := e.ltype.toNat
    let cell := fun (va : Nat) => cellNamed e va
    let mapped := fun (va : Nat) (allows : Tlb → Bool) => s.declinedAt s.attr va = false ∧ xlatePage s.attr va s = (.ok e, u) ∧ allows e = true
    let go := usePages [((0 : Nat), e)] u
    let value := fun (x : Nat) => if lt = 7 then x % 2 ^ 32 * 2 ^ (32 * (x / 2 ^ 32)) else x
    (∀ src : VOrS, let vec := isVec src
      let va := eaOf m (if vec then 16 else 1) s
      let x := match src with | .s r => (srcS r s).toNat | .v v => leNat ((storeVec .w32 (srcV v s)).take 64)
      mapped va Tlb.w → u.meetsLog (bytesFrom va (if vec then 64 else 8)) = false →
      (s.attr.releases = true → u.settled u.at_.core u.at_.clu s.attr.scope = true) →
      (vec = true → lt ≥ 6 ∧ va % 64 = 0) → (vec = false → lt ≠ 6 ∧ va % 8 = 0 ∧ (lt = 7 → va % 64 = 0 ∧ x < 2 ^ 36)) →
      let y := if vec then x else value x
      ∃ t, exec (.ljoin q src m) s = .next t ∧ SameMemory u t ∧
        (u.defers u.at_.core u.at_.clu u.runKey s.attr = false →
          t.latGet 0 (cell va).1 (cell va).2.1 lt = latJoin lt (u.latGet 0 (cell va).1 (cell va).2.1 lt) y ∧
          (s.attr.ord = .sc → ∀ die < 10, t.latGet die (cell va).1 (cell va).2.1 lt = latJoin lt (u.latGet die (cell va).1 (cell va).2.1 lt) y) ∧
          t.clu.scOut = (if s.attr.ord = .sc ∧ u.reaches (cell va).1 = true then [((cell va).1, (cell va).2.1)] else [])) ∧
        (u.defers u.at_.core u.at_.clu u.runKey s.attr = true →
          t.cellSeen (cell va).1 (cell va).2.1 lt = latJoin lt (u.cellSeen (cell va).1 (cell va).2.1 lt) y ∧ t.lat = u.lat)) ∧
    (s.attr.ord = .rlx →
      (let va := eaOf m 1 s
       mapped va Tlb.r → s.meetsLog (bytesFrom va 8) = false → lt ≠ 6 → va % 8 = 0 → (lt = 7 → va % 64 = 0) →
       let x := u.cellSeen (cell va).1 (cell va).2.1 lt
       let w : Word := BitVec.ofNat 64 (if lt = 7 then ((List.range 16).map fun i => x / 2 ^ (32 * i) % 2 ^ 32).sum else x)
       exec (.lld q (.s r) m) s = .next (writeS r w go) ∧ exec (.lld q .discard m) s = .next go) ∧
      (let va := eaOf m 16 s
       mapped va Tlb.r → s.meetsLog (bytesFrom va 64) = false → lt ≥ 6 → va % 64 = 0 →
       exec (.lld q (.v v) m) s = .next (writeV v (Vector.ofFn fun i =>
         BitVec.ofNat 32 (u.cellSeen (cell va).1 (cell va).2.1 lt / 2 ^ (32 * i.val))) go)) ∧
      (let va := (srcS a s).toNat
       let dl := min (2 ^ 64 - 1) (s.datum.toNat + (srcS c s).toNat)
       let ok := latPassed lt (u.cellSeen (cell va).1 (cell va).2.1 lt) (srcS b s).toNat
       mapped va Tlb.r → s.meetsLog (bytesFrom va 8) = false → va % (if lt ≥ 6 then 64 else 8) = 0 → NoPending go →
       (∀ dl' va' thr' at' h done, s.iss.src.hold ≠ .lwait dl' va' thr' at' h done) →
       exec (.lwait q pd a b c) s = holdLine (.lwait dl va (srcS b s).toNat s.attr none
         (if ok = true ∨ (dl < 2 ^ 64 - 1 ∧ dl ≤ s.datum.toNat) then some (ok, s.cyc + 2) else none)) go))) ∧
  (∀ (q pd : PReg) (a b c : SReg) (s : State) (dl va thr : Nat) (at' : Attr), Active q s →
    (∀ h ok due, s.iss.src.hold = .lwait dl va thr at' h (some (ok, due)) →
      (due.toNat ≤ s.cyc.toNat → ∃ t, exec (.lwait q pd a b c) s = .next t ∧ (pd.val ≠ 0 → t.clu.p.getLsbD pd.val = ok) ∧
        t.clu.s = s.clu.s ∧ t.clu.v = s.clu.v ∧ t.clu.m = s.clu.m ∧ t.clu.pc = s.clu.pc ∧ SameMemory s t) ∧
      (s.cyc.toNat < due.toNat → exec (.lwait q pd a b c) s = holdLine (.lwait dl va thr at' h (some (ok, due))) s)) ∧
    (∀ h, s.iss.src.hold = .lwait dl va thr at' h none → exec (.lwait q pd a b c) s = holdLine (.lwait dl va thr at' h none) s)) ∧
  (∀ (n : CoreId) (c : CluId) (s u : State) (dl va thr : Nat) (at' : Attr),
    let v : State := { s with at_ := { s.at_ with core := n, clu := c } }
    (∀ e, ((s.cores[n]).clu[c]).hold = .lwait dl va thr at' none none → xlatePage at' va v = (.ok e, u) → e.tt = 4 → e.r = true →
      let ok := latPassed e.ltype.toNat (u.cellSeen (cellNamed e va).1 (cellNamed e va).2.1 e.ltype.toNat) thr
      (((s.lwaitTick n c).cores[n]).clu[c]).hold = .lwait dl va thr at' none
        (if ok = true ∨ (dl < 2 ^ 64 - 1 ∧ dl ≤ s.datum.toNat) then some (ok, s.cyc + 2) else none)) ∧
    (((s.cores[n]).clu[c]).hold = .lwait dl va thr at' none none → xlatePage at' va v = (.unmapped, u) →
      (((s.lwaitTick n c).cores[n]).clu[c]).hold = .lwait dl va thr at' (some ((v.spaceOf at'.asp).val, false))
        (if dl < 2 ^ 64 - 1 ∧ dl ≤ s.datum.toNat then some (false, s.cyc + 2) else none))) ∧
  (∀ (lt a b : Nat), lt < 5 → a < 2 ^ 64 → b < 2 ^ 64 →
    latJoin lt a b = latJoin lt b a ∧ latJoin lt a a = a ∧ latJoin lt (latJoin lt a b) b = latJoin lt a b) ∧
  (∀ (q : PReg) (o : FenceOrd) (sc : Scope) (s : State), Active q s →
    let logDone := s.passed = true ∨ (s.clu.slog = [] ∧ s.replayed s.at_.core s.at_.clu = true)
    let mark := fun (t : State) => t.onClu fun c => { c with relAt := t.ids }
    (NoPending s → o ≠ .acq → CanRelease sc s → exec (.fence q o sc) s = .next (mark s)) ∧
    (NoPending s → logDone → exec (.fence q .acq sc) s = .next s) ∧
    (NoPending s → CanRelease sc s → exec (.fencesc q sc) s = .next (mark (s.joinWindows s.at_.core s.at_.clu sc))) ∧
    (NoPending s → logDone → (s.passed = true ∨ s.hbmSettled sc = true) → exec (.fencea q sc) s = .next (s.joinWindows s.at_.core s.at_.clu sc)) ∧
    (NoPending s → s.passed = false → s.clu.slog ≠ [] → exec (.fencesc q sc) s = holdLine .sideLog s ∧ exec (.fence q o sc) s = holdLine .sideLog s ∧
      exec (.fencea q sc) s = holdLine .sideLog s) ∧
    (NoPending s → logDone → exec (.ifence q) s = .next s)) ∧
  (∀ (n : CoreId) (c : CluId) (sc : Scope) (s : State), ∃ f, s.joinWindows n c sc = { s with inflight := f } ∧ f.length = s.inflight.length)

-- The M slot: tiles and engines.

namespace Sys2Proof.Stated

/-- A handle is named and allocated in the context on the acting core (R185, R242). -/
def Holds (h : HRef) (n : Nat) (t : TileEnt) (s : State) : Prop := handleOf h s = some n ∧ s.tileEnt n = some t

end Sys2Proof.Stated

/-- Tile handles (R117 to R119, R241, R242): TALLOC gives the lowest free handle of a legal request, with its shape, owned by the core,
unpinned and resident, or false where there is no room; TFREE frees one that is the core's, unpinned and not in flight, else it is an
owner fault; TINFO reads the entry; THOLD and TRELS count pins, and stop at 255 and at 0. A free handle is an illegal operation. -/
def Obligations.TileHandles : Prop :=
  ∀ (q pd : PReg) (d : SDst) (r a b : SReg) (h : HRef) (n : Nat) (e : TileEnt) (s : State), Active q s →
    (tallocBad (srcS a s) (srcS b s) s = true → exec (.talloc q d a b pd) s = illegalOp 1 s) ∧
    (tallocBad (srcS a s) (srcS b s) s = false → tallocFind (reqOf (srcS a s) (srcS b s)) s.at_.core s.asid s = none →
      exec (.talloc q d a b pd) s = .next (writeP pd false (writeD d 0xFFFF s))) ∧
    (∀ f, tallocBad (srcS a s) (srcS b s) s = false → tallocFind (reqOf (srcS a s) (srcS b s)) s.at_.core s.asid s = some f →
      s.core.tile s.asid.val f.1 = none ∧ (∀ k < f.1, (s.core.tile s.asid.val k).isSome = true) ∧
      ∃ t ent, exec (.talloc q d a b pd) s = .next (writeP pd true (writeD d (BitVec.ofNat 64 f.1) t)) ∧
        t.core.tile s.asid.val f.1 = some ent ∧ ent.rowsm1 = bits 15 0 (srcS a s).toNat ∧ ent.colsm1 = bits 27 16 (srcS a s).toNat ∧
        ent.esz = bits 29 28 (srcS a s).toNat ∧ ent.level = bits 1 0 (srcS b s).toNat ∧ ent.owner = false ∧ ent.pins = 0 ∧
        ent.infl = false ∧ ent.res = true ∧ ent.swz = 0 ∧ ent.ptag = 0xFF) ∧
    (Holds h n e s →
      (e.owner = false → e.pins = 0 → e.infl = false → exec (.tfree q h) s =
        .next (s.onCore fun k => { k with tiles := k.tiles.filter fun x => x.1 != 1024 * s.core.asid + n })) ∧
      (e.owner = true ∨ e.pins ≠ 0 ∨ e.infl = true → exec (.tfree q h) s = ownerFault 1 n s) ∧
      exec (.tinfo q r h) s = .next (writeS r e.info s) ∧
      (e.pins < 255 → exec (.thold q h) s = .next (s.onTileH n fun t => { t with pins := t.pins + 1 })) ∧
      (e.pins = 255 → exec (.thold q h) s = illegalOp 1 s) ∧
      (e.pins ≠ 0 → exec (.trels q h) s = .next (s.onTileH n fun t => { t with pins := t.pins - 1 })) ∧
      (e.pins = 0 → exec (.trels q h) s = illegalOp 1 s)) ∧
    (handleOf h s = some n → s.tileEnt n = none →
      exec (.tfree q h) s = illegalOp 1 s ∧ exec (.thold q h) s = illegalOp 1 s ∧ exec (.trels q h) s = illegalOp 1 s ∧
      exec (.tgive q h) s = illegalOp 1 s ∧ exec (.ttake q h) s = illegalOp 1 s ∧
      exec (.tinfo q r h) s = .next (writeS r 0x300000000 s))

/-- Ownership and contents (R53, R119, R120, R125, R243): TGIVE and TTAKE flip the owner once their waits are over, and do nothing where it
is theirs already; TLD reads a row's bytes into lanes with zeros beyond, and TST writes them and clears the layout code; an evicted
handle is reloaded first (R124), and a TLD of an uncorrectable word consumes it (R402); an engine's handle is an owner fault, and a row or start outside the handle, or an accumulator, an illegal operation. -/
def Obligations.TileOwnershipAndContents : Prop :=
  ∀ (q : PReg) (d : VReg) (h : HRef) (row : SReg) (k : TKind) (n : Nat) (e : TileEnt) (s : State), Active q s → Holds h n e s →
    (e.owner = true → exec (.tgive q h) s = .next s) ∧
    (e.owner = false → e.res = true → (s.passed = true ∨ (s.clu.slog = [] ∧ s.replayed s.at_.core s.at_.clu = true)) → ∃ t x, exec (.tgive q h) s = .next t ∧
      t.tileEnt n = some x ∧ x.owner = true ∧ x.flips = s.core.stamps :: e.flips.erase s.core.stamps ∧ x.cells = e.cells ∧ SameMemory s t) ∧
    (e.owner = false → exec (.ttake q h) s = .next s) ∧
    (e.owner = true → (s.passed = true ∨ s.named s.at_.core s.core.asid n (ttakeStamp n s) = false) → ∃ t x,
      exec (.ttake q h) s = .next t ∧ t.tileEnt n = some x ∧ x.owner = false ∧ x.cells = e.cells ∧ SameMemory s t) ∧
    (let r := bits 31 0 (srcS row s).toNat
     let start := 512 * bits 47 32 (srcS row s).toNat
     let inside := (srcS row s).toNat < 2 ^ 48 ∧ e.level ≠ 2 ∧ r < e.rows ∧ start < e.rowBytes
     let len := min (match k with | .b512 => 512 | .b256 => 256 | .b128 => 128) (e.rowBytes - start)
     let first := r * e.rowBytes + start
     let lo := e.sram s.at_.core first
     (¬inside → exec (.tld q d h row k) s = illegalOp 1 s ∧ exec (.tst q d h row k) s = illegalOp 1 s) ∧
     (inside → e.owner = true → exec (.tld q d h row k) s = ownerFault 0 n s ∧ exec (.tst q d h row k) s = ownerFault 0 n s) ∧
     (inside → e.owner = false → e.res = false → s.passed = false →
      exec (.tld q d h row k) s = holdLine (.reload n) s ∧ exec (.tst q d h row k) s = holdLine (.reload n) s) ∧
     (inside → e.owner = false → e.res = true → ∀ p, s.badIn lo (lo + len) = some p → exec (.tld q d h row k) s = lineGone (s.consumed p)) ∧
     (inside → e.owner = false → e.res = true → s.badIn lo (lo + len) = none → s.weak = [] →
      (∃ t, exec (.tld q d h row k) s = .next (writeV d (Vector.ofFn fun i =>
        BitVec.ofNat 32 (leNat ((List.range len).map fun j => e.byte (first + j)) / 2 ^ (32 * i.val))) t) ∧ SameMemory s t ∧ t.clu = s.clu) ∧
      (∃ t x, exec (.tst q d h row k) s = .next t ∧ t.tileEnt n = some x ∧ x.swz = 0 ∧ SameMemory s t ∧ t.clu = s.clu ∧
        ∀ j, x.byte j = if first ≤ j ∧ j < first + len then
          BitVec.extractLsb' (8 * ((j - first) % 4)) 8 ((srcV d s)[(j - first) / 4]?.getD 0) else e.byte j)))

/-- Commands, rendezvous, flags and queues (R41, R42, R44, R45, R47, R250 to R255): ENG and FORK append one command to each engine named,
with its values and the NUMCTL of that moment, or hold or trap where a queue is full; RDV waits for the marks of its engines and clears
them; SETF and CLRF act at the end of the cycle; WAITF appends a wait entry, which leaves at once where it is the head and its flag is set
(R369); QSTAT reads an engine's queue. Each but QSTAT requests the command port (R37). -/
def Obligations.EngineIssue : Prop :=
  ∀ (q : PReg) (e : Eng) (fn : Fin 128) (l a b d : SReg) (r : Option SReg) (w : Bool) (f : Fin 64) (s : State),
    (s.fenced e.val = true → exec (.eng e fn a b r w) s = illegalOp 1 s) ∧
    (s.fenced e.val = false → rangesBad e fn.val (srcS a s) (srcS b s) s = true → exec (.eng e fn a b r w) s = illegalOp 1 s) ∧
    (s.fenced e.val = false → rangesBad e fn.val (srcS a s) (srcS b s) s = false → CanRelease .pkg s →
      ((s.passed = true ∨ s.queueFull e = false) → ∃ t c, exec (.eng e fn a b r w) s = .next t ∧
        (t.core.eng[e]).queue = (s.core.eng[e]).queue ++ [.cmd c] ∧ c.entry = fn.val ∧ c.a = srcS a s ∧ c.b = srcS b s ∧ c.reply = r ∧
        c.clu = s.at_.clu ∧ c.numctl = s.core.numctl ∧ c.iter = s.clu.iters ∧ c.pos = (s.core.eng[e]).posn ∧
        (∀ e', e' ≠ e → t.core.eng[e'] = s.core.eng[e']) ∧ SameMemory s t ∧
        (∀ x, r = some x → x.val ≠ 0 → t.clu.replies = s.clu.replies ++ [x]) ∧ ((r = none ∨ r = some 0) → t.clu = s.clu)) ∧
      (s.passed = false → s.queueFull e = true → w = true → exec (.eng e fn a b r w) s = holdLine .queueFull s) ∧
      (s.passed = false → s.queueFull e = true → w = false → exec (.eng e fn a b r w) s =
        lineTrap { cause := 0x07, a0 := BitVec.ofNat 64 e.val } s)) ∧
    (forkList (srcS l s) = none → exec (.fork l a b w) s = illegalOp 1 s) ∧
    (∀ cs, forkList (srcS l s) = some cs → (∀ c ∈ cs, s.fenced c.1.val = false ∧ rangesBad c.1 c.2 (srcS a s) (srcS b s) s = false) →
      CanRelease .pkg s → (s.passed = true ∨ ∀ c ∈ cs, s.queueFull c.1 = false) →
      ∃ t, exec (.fork l a b w) s = .next t ∧ (∀ e', (∀ c ∈ cs, c.1 ≠ e') → t.core.eng[e'] = s.core.eng[e']) ∧
        ∀ c ∈ cs, ∃ x, (t.core.eng[c.1]).queue = (s.core.eng[c.1]).queue ++ [.cmd x] ∧ x.entry = c.2 ∧ x.a = srcS a s ∧ x.b = srcS b s) ∧
    (Active q s →
      ((srcS a s).toNat ≥ 2 ^ 27 → exec (.rdv q a) s = illegalOp 1 s) ∧
      ((srcS a s).toNat < 2 ^ 27 → NoPending s →
        (s.passed = true ∨ ∀ x : Eng, (srcS a s).getLsbD x.val = true → (s.core.eng[x]).mark = true) →
        ∃ t, exec (.rdv q a) s = .next t ∧ ∀ x : Eng, t.core.eng[x] =
          if (srcS a s).getLsbD x.val then { (s.core.eng[x]) with mark := false } else s.core.eng[x]) ∧
      (CanRelease .core s → exec (.setf q f) s = .next (usePort 0 (s.onCore fun k => { k with fSet := k.fSet ||| bitAt 64 f.val }))) ∧
      exec (.clrf q f) s = .next (usePort 0 (s.onCore fun k => { k with fClr := k.fClr ||| bitAt 64 f.val })) ∧
      (s.fenced e.val = false → (s.passed = true ∨ s.queueFull e = false) →
        ((s.core.eng[e]).queue = [] → s.core.f.getLsbD f.val = true →
          exec (.waitf q e f) s = .next (usePort 0 (s.engUpd s.at_.core e fun g => { g with queue := [], waitLeft := true }))) ∧
        ((∀ k, ((s.core.eng[e]).queue ++ [QEnt.wait f]).head? = some (QEnt.wait k) → s.core.f.getLsbD k.val = false) →
          exec (.waitf q e f) s = .next (usePort 0 (s.engUpd s.at_.core e fun g => { g with queue := g.queue ++ [.wait f] })))) ∧
      (s.fenced e.val = false → s.passed = false → s.queueFull e = true → exec (.waitf q e f) s = holdLine .queueFull s) ∧
      exec (.qstat q d e) s = .next (writeS d (BitVec.ofNat 64 ((s.core.eng[e]).queue.length + (if (s.core.eng[e]).cmd.isSome then 16 else 0) +
        (match (s.core.eng[e]).headWait s.core.f with | some k => 32 + 64 * k.val | none => 0) +
        (if (s.core.eng[e]).mark then 4096 else 0))) s))

-- The V slot.

namespace Sys2Proof.Stated

/-- A syllable completes with a vector result, drawing and flags: the register `d` gets `v`, the generators go on by `n` words a lane where
SR draws (R72), and each element's flags are raised with its lane (R80). -/
def GivesFloats (i : Instr) (w k n : Nat) (draw : Bool) (d : VReg) (f : Fin 128 → Nat → Nat → FpRes) (s : State) : Prop :=
  let rnd := fun (l : Fin 128) (e : Nat) => if draw then s.rnd n l e else 0
  ∃ (v : VecReg) (fl : List (Nat × FpFlags)),
    exec i s = .next (raiseLanes fl (writeV d v (if draw then drawn n s else s))) ∧
    (∀ (l : Fin 128) (e : Nat), e < k → elemOf w v[l] e = (f l e (rnd l e)).1 % 2 ^ w) ∧
    ∀ (l : Nat) (x : FpFlags), (l, x) ∈ fl ↔ x ≠ 0 ∧ ∃ (j : Fin 128) (e : Nat), j.val = l ∧ e < k ∧ (f j e (rnd j e)).2 = x

/-- A syllable completes with a vector result of integer elements, and raises nothing. -/
def GivesInts (i : Instr) (w k : Nat) (d : VReg) (f : Fin 128 → Nat → Int) (s : State) : Prop :=
  ∃ v : VecReg, exec i s = .next (writeV d v s) ∧ ∀ (l : Fin 128) (e : Nat), e < k → ((elemOf w v[l] e : Nat) : Int) = f l e % 2 ^ w

/-- A syllable completes with its sources of `w` bits, signed or not, clipped to half of that; where one clips it raises SAT, and nothing else in
any case (R79, R271, R287). -/
def GivesClipped (i : Instr) (w : Nat) (signed : Bool) (d : VReg) (src : Fin 128 → Nat → Nat) (s : State) : Prop :=
  let lo : Int := if signed then -2 ^ (w / 2 - 1) else 0
  let hi : Int := if signed then 2 ^ (w / 2 - 1) - 1 else 2 ^ (w / 2) - 1
  let x := fun (l : Fin 128) (e : Nat) => if signed then toSigned w (src l e) else (src l e : Int)
  ∃ v : VecReg,
    ((∃ (l : Fin 128) (e : Nat), e < 64 / w ∧ ¬(lo ≤ x l e ∧ x l e ≤ hi)) →
      exec i s = .next ((writeV d v s).onCore fun k => { k with fpSetNow := k.fpSetNow ||| 0x20 })) ∧
    ((∀ (l : Fin 128) (e : Nat), e < 64 / w → lo ≤ x l e ∧ x l e ≤ hi) → exec i s = .next (writeV d v s)) ∧
    ∀ (l : Fin 128) (e : Nat), e < 64 / w → ((elemOf (w / 2) v[l] e : Nat) : Int) =
      (if x l e < lo then lo else if hi < x l e then hi else x l e) % 2 ^ (w / 2)

/-- The formats of R60. -/
def formats : List Fmt := [fp32, fp16, bf16, e4m3, e5m2]

/-- The bits of a format are a NaN (R60): E4M3 has one of each sign, the others one for every fraction but zero. -/
def NanIn (f : Fmt) (x : Nat) : Prop :=
  if f.ocp then x % 2 ^ (f.eb + f.mb) = 2 ^ (f.eb + f.mb) - 1 else (2 ^ f.eb - 1) * 2 ^ f.mb < x % 2 ^ (f.eb + f.mb)

end Sys2Proof.Stated

/-- The elementwise floating-point instructions (R257, R261 to R267): each element of the destination is its operation on the elements of
its sources, rounded by NUMCTL, with the word that SR draws for it; VCMP gives a mask bit for each lane; VABS, VNEG, VCPYS and VCLASS work
on the bits and raise nothing. VCMP of an element that the type does not hold is illegal. -/
def Obligations.VectorFloatingPoint : Prop :=
  ∀ (q : PReg) (ty : FTy) (d a c : VReg) (b : VOrS) (cd : FCond) (e1 : Bool) (md : MReg) (s : State), Active q s →
    let f := ftFmt ty
    let w := ftWidth ty
    let k := ftElems ty
    let x := fun (l : Fin 128) (e : Nat) => elemOf w (opVA a s)[l] e
    let y := elemB w b s
    let z := fun (l : Fin 128) (e : Nat) => elemOf w (opVC c s)[l] e
    GivesFloats (.vadd q ty d a b) w k k true d (fun l e r => fpAdd s.cfg f r false (x l e) (y l e)) s ∧
    GivesFloats (.vsub q ty d a b) w k k true d (fun l e r => fpAdd s.cfg f r true (x l e) (y l e)) s ∧
    GivesFloats (.vmul q ty d a b) w k k true d (fun l e r => fpMul s.cfg f r (x l e) (y l e)) s ∧
    GivesFloats (.vfma q ty d a b c) w k k true d (fun l e r => fpFma s.cfg f r false false (x l e) (y l e) (z l e)) s ∧
    GivesFloats (.vfms q ty d a b c) w k k true d (fun l e r => fpFma s.cfg f r false true (x l e) (y l e) (z l e)) s ∧
    GivesFloats (.vfnma q ty d a b c) w k k true d (fun l e r => fpFma s.cfg f r true false (x l e) (y l e) (z l e)) s ∧
    GivesFloats (.vfnms q ty d a b c) w k k true d (fun l e r => fpFma s.cfg f r true true (x l e) (y l e) (z l e)) s ∧
    GivesFloats (.vmin q ty d a b) w k k false d (fun l e _ => fpMinMax s.cfg f false false (x l e) (y l e)) s ∧
    GivesFloats (.vmax q ty d a b) w k k false d (fun l e _ => fpMinMax s.cfg f true false (x l e) (y l e)) s ∧
    GivesFloats (.vminn q ty d a b) w k k false d (fun l e _ => fpMinMax s.cfg f false true (x l e) (y l e)) s ∧
    GivesFloats (.vmaxn q ty d a b) w k k false d (fun l e _ => fpMinMax s.cfg f true true (x l e) (y l e)) s ∧
    GivesFloats (.vrnd q ty d a) w k k true d (fun l e r => fpRnd s.cfg f r (x l e)) s ∧
    GivesFloats (.vscale q ty d a b) w k k true d (fun l e r => fpScale s.cfg f r (x l e) (laneB b s l).toInt) s ∧
    GivesInts (.vabs q ty d a) w k d (fun l e => (x l e : Int) % 2 ^ (w - 1)) s ∧
    GivesInts (.vneg q ty d a) w k d (fun l e => (x l e : Int) + 2 ^ (w - 1)) s ∧
    GivesInts (.vcpys q ty d a b) w k d (fun l e => (x l e : Int) % 2 ^ (w - 1) + (y l e : Int) / 2 ^ (w - 1) * 2 ^ (w - 1)) s ∧
    GivesInts (.vclass q ty d a) w k d (fun l e => (fpClass f (x l e) : Int)) s ∧
    (¬(ty = .f32 ∧ e1 = true) → ∃ fl m, exec (.vcmp q ty cd e1 md a b) s = .next (raiseLanes fl (writeM md m s)) ∧
      ∀ l : Fin 128, m.getLsbD l.val = (fpCmp s.cfg f cd (x l e1.toNat) (y l e1.toNat)).1 ∧
        ((fpCmp s.cfg f cd (x l e1.toNat) (y l e1.toNat)).2 ≠ 0 → (l.val, (fpCmp s.cfg f cd (x l e1.toNat) (y l e1.toNat)).2) ∈ fl)) ∧
    (ty = .f32 ∧ e1 = true → exec (.vcmp q ty cd e1 md a b) s = illegalOp 2 s)

/-- Corners of floating-point addition, multiplication and conversion (R71, R73 to R77) in every format and mode, whatever word SR draws: a NaN
operand gives a NaN, the sum and the product do not depend on the order of their operands unless one is a NaN, and the product of a normal number
by one is that number, with no flag. -/
def Obligations.FloatingPointCorners : Prop :=
  ∀ (f g : Fmt) (c : NumCfg) (rnd : Nat) (sub : Bool) (x y : Nat), f ∈ formats → g ∈ formats → x < 2 ^ f.width → y < 2 ^ f.width →
    (¬NanIn f x → ¬NanIn f y → fpAdd c f rnd false x y = fpAdd c f rnd false y x ∧ fpMul c f rnd x y = fpMul c f rnd y x) ∧
    (2 ^ f.mb ≤ x % 2 ^ (f.eb + f.mb) → x % 2 ^ (f.eb + f.mb) ≤ f.maxBits → fpMul c f rnd x (f.bias * 2 ^ f.mb) = (x, 0)) ∧
    (NanIn f x ∨ NanIn f y → NanIn f (fpAdd c f rnd sub x y).1 ∧ NanIn f (fpMul c f rnd x y).1) ∧
    (NanIn f x → NanIn g (fpCvt c f g rnd x).1)

/-- The integer and bit instructions of the V slot (R257, R268 to R271, R287): each element of the destination is its operation on the
elements of its sources, modulo 2^w, and nothing is raised; VSATN, and VPACK under SATI, clip their elements and raise SAT, and nothing else, where one clips. -/
def Obligations.VectorIntegers : Prop :=
  ∀ (q : PReg) (ty : ITy) (d a c : VReg) (b : VOrS) (cd : ICond) (e0 : Fin 4) (md : MReg) (s : State), Active q s →
    let w := itWidth ty
    let k := itElems ty
    let x := fun (l : Fin 128) (e : Nat) => elemOf w (opVA a s)[l] e
    let y := elemB w b s
    let z := fun (l : Fin 128) (e : Nat) => elemOf w (opVC c s)[l] e
    let sx := fun (l : Fin 128) (e : Nat) => toSigned w (x l e)
    let sy := fun (l : Fin 128) (e : Nat) => toSigned w (y l e)
    GivesInts (.viadd q ty d a b) w k d (fun l e => x l e + y l e) s ∧
    GivesInts (.visub q ty d a b) w k d (fun l e => (x l e : Int) - y l e) s ∧
    GivesInts (.vimul q ty d a b) w k d (fun l e => x l e * y l e) s ∧
    GivesInts (.vimin q ty d a b) w k d (fun l e => min (sx l e) (sy l e)) s ∧
    GivesInts (.vimax q ty d a b) w k d (fun l e => max (sx l e) (sy l e)) s ∧
    GivesInts (.viminu q ty d a b) w k d (fun l e => (min (x l e) (y l e) : Nat)) s ∧
    GivesInts (.vimaxu q ty d a b) w k d (fun l e => (max (x l e) (y l e) : Nat)) s ∧
    GivesInts (.vand q ty d a b) w k d (fun l e => (x l e &&& y l e : Nat)) s ∧
    GivesInts (.vor q ty d a b) w k d (fun l e => (x l e ||| y l e : Nat)) s ∧
    GivesInts (.vxor q ty d a b) w k d (fun l e => (x l e ^^^ y l e : Nat)) s ∧
    GivesInts (.vandn q ty d a b) w k d (fun l e => (x l e &&& (2 ^ w - 1 - y l e) : Nat)) s ∧
    GivesInts (.vshl q ty d a b) w k d (fun l e => x l e * 2 ^ (y l e % w)) s ∧
    GivesInts (.vshr q ty d a b) w k d (fun l e => x l e / 2 ^ (y l e % w)) s ∧
    GivesInts (.vsar q ty d a b) w k d (fun l e => sx l e / 2 ^ (y l e % w)) s ∧
    GivesInts (.vfshl q ty d a b c) w k d (fun l e => (x l e * 2 ^ w + y l e) * 2 ^ (z l e % w) / 2 ^ w) s ∧
    GivesInts (.vfshr q ty d a b c) w k d (fun l e => (x l e * 2 ^ w + y l e) / 2 ^ (z l e % w)) s ∧
    GivesInts (.vclz q ty d a) w k d (fun l e => clzNat w (x l e)) s ∧
    GivesInts (.vpopc q ty d a) w k d (fun l e => ((List.range w).countP fun j => (x l e).testBit j : Nat)) s ∧
    GivesInts (.viabs q ty d a) w k d (fun l e => (sx l e).natAbs) s ∧
    (e0.val < k → ∃ m, exec (.vicmp q ty cd e0 md a b) s = .next (writeM md m s) ∧ ∀ l : Fin 128, (m.getLsbD l.val = true ↔ match cd with
      | .eq => x l e0.val = y l e0.val
      | .ne => x l e0.val ≠ y l e0.val
      | .lt => sx l e0.val < sy l e0.val
      | .ge => sx l e0.val ≥ sy l e0.val
      | .ltu => x l e0.val < y l e0.val
      | .geu => x l e0.val ≥ y l e0.val
      | .le => sx l e0.val ≤ sy l e0.val
      | .leu => x l e0.val ≤ y l e0.val)) ∧
    (k ≤ e0.val → exec (.vicmp q ty cd e0 md a b) s = illegalOp 2 s) ∧
    (∀ sel : Fin 12, GivesInts (.vunpk q sel d a) 32 1 d (fun l _ =>
      if sel.val < 2 then toSigned 16 (elemOf 16 (opVA a s)[l] (sel.val % 2))
      else if sel.val < 4 then (elemOf 16 (opVA a s)[l] (sel.val % 2) : Int)
      else if sel.val < 8 then toSigned 8 (elemOf 8 (opVA a s)[l] (sel.val % 4))
      else (elemOf 8 (opVA a s)[l] (sel.val % 4) : Int)) s) ∧
    (let src := fun (sw : Nat) (l : Fin 128) (e : Nat) => if e < 32 / sw then elemOf sw (opVA a s)[l] e else elemB sw b s l (e - 32 / sw)
     (∀ n8 : Bool, GivesClipped (.vsatn q n8 d a b) (if n8 then 16 else 32) true d (src (if n8 then 16 else 32)) s) ∧
     ∀ sel : PackSel,
      (s.cfg.sati = false → GivesInts (.vpack q sel d a b) ((packKind sel).1 / 2) (64 / (packKind sel).1) d (fun l e => src (packKind sel).1 l e) s) ∧
      (s.cfg.sati = true → GivesClipped (.vpack q sel d a b) (packKind sel).1 (packKind sel).2 d (src (packKind sel).1) s)) ∧
    packKind .i32i16 = (32, true) ∧ packKind .n32n16 = (32, false) ∧ packKind .i16i8 = (16, true) ∧ packKind .n16n8 = (16, false)

/-- Reductions, group operations, scans and bit streams (R272 to R279): every lane of a group of 2^n lanes, the whole register for VREDADD,
VREDMAX and VREDMIN, gets the value of the group's tree (R77, R273), with a padding leaf for each lane that is masked off (R78); on integers that is the
group's sum modulo 2^32, or its greatest or least active element; a group with no active lane gives the empty result and raises EMPTY. A scan gives
each lane the combination of the lanes up to it, in the order of R273; VSCANAFF that of the pairs of R276, applied to c[127]. VBSR reads a field of
two lanes at its cursor and advances the cursor; VBSW writes one. -/
def Obligations.ReductionsScansAndBitStreams : Prop :=
  (∀ (q : PReg) (ty : RTy) (d a c : VReg) (b : VOrS) (vb : VReg) (m : MReg) (s : State), Active q s →
    let on := fun (l : Nat) => (srcM m s).getLsbD l
    let val := fun (l : Nat) => ((opVA a s)[Fin.ofNat 128 l]).toNat
    let sum := fun (ls : List Nat) => ((ls.filter fun l => on l).map val).sum
    let got := fun (t : State) (l : Fin 128) => ((t.clu.v[rotReg s.iss.src.rrb d])[l]).toNat
    let num := fun (x : Nat) => if ty = .i32 then toSigned 32 x else (x : Int)
    let same := fun (n : Nat) (l : Fin 128) => (List.range (2 ^ n)).map fun j => l.val / 2 ^ n * 2 ^ n + j
    let none_ := fun (n : Nat) (l : Fin 128) => ∀ j ∈ same n l, on j = false
    let nil := fun (o : RedOp) => match o, ty with
      | .add, _ => 0
      | .max, .f32 => 0xFF800000
      | .max, .i32 => 0x80000000
      | .max, .n32 => 0
      | .min, .f32 => 0x7F800000
      | .min, .i32 => 0x7FFFFFFF
      | .min, .n32 => 0xFFFFFFFF
    let word := fun (o : RedOp) (L i : Nat) => if o = .add ∧ ty = .f32 then redRnd s i (5 * L) else 0
    let tree := fun (o : RedOp) (n : Nat) (l : Fin 128) => treeAt (fun L i x y => (combine s.cfg o ty (word o L i) x y).1) 0 n (l.val / 2 ^ n * 2 ^ n)
      ((same n l).map fun j => if on j then val j else padLeaf o ty s.cfg.rm)
    let reduces := fun (i : Instr) (o : RedOp) (n : Nat) => ∃ t, exec i s = .next t ∧
      (∀ l : Fin 128, none_ n l → got t l = nil o ∧ t.core.fpSetNow.getLsbD 6 = true) ∧
      (∀ l : Fin 128, ¬none_ n l → got t l = tree o n l) ∧
      (ty ≠ .f32 → (∀ l, ¬none_ n l) → t.core.fpSetNow = s.core.fpSetNow) ∧
      (ty ≠ .f32 → o = .add → ∀ l, got t l = sum (same n l) % 2 ^ 32) ∧
      (ty ≠ .f32 → o ≠ .add → ∀ l, ¬none_ n l → (∃ j ∈ same n l, on j = true ∧ got t l = val j) ∧
        ∀ j ∈ same n l, on j = true → if o = .max then num (val j) ≤ num (got t l) else num (got t l) ≤ num (val j))
    reduces (.vredadd q ty d a m) .add 7 ∧ reduces (.vredmax q ty d a m) .max 7 ∧ reduces (.vredmin q ty d a m) .min 7 ∧
    (∀ n : Fin 8, n.val ≠ 0 → reduces (.vgsum q ty d a m n) .add n.val ∧ reduces (.vgmax q ty d a m n) .max n.val) ∧
    (exec (.vgmax q ty d a m 0) s = illegalOp 2 s ∧ exec (.vgsum q ty d a m 0) s = illegalOp 2 s) ∧
    (∃ t, exec (.vscanadd q ty d a m) s = .next t ∧
      ((∀ l < 128, on l = false) → t.core.fpSetNow.getLsbD 6 = true ∧ ∀ l, got t l = 0) ∧
      ((∃ l < 128, on l = true) → ∀ l : Fin 128,
        got t l = (bkScan (fun L i x y => (combine s.cfg .add ty (word .add L i) x y).1)
          (Vector.ofFn fun j : Fin 128 => if on j.val then val j.val else padLeaf .add ty s.cfg.rm))[l] ∧
        (ty ≠ .f32 → got t l = sum (List.range (l.val + 1)) % 2 ^ 32))) ∧
    (∃ fl v, exec (.vscanaff q d a b c) s = .next (raiseLanes fl (writeV d v (drawn 1 s))) ∧ ∀ l : Fin 128,
      let op := fun (L i : Nat) (x y : Nat × Nat) => ((fpMul s.cfg fp32 (redRnd s i (5 * L)) y.1 x.1).1,
        (fpFma s.cfg fp32 (redRnd s i (5 * L + 1)) false false y.1 x.2 y.2).1)
      let ab := (bkScan op (Vector.ofFn fun j : Fin 128 => (val j.val, (laneB b s j).toNat)))[l]
      v[l] = BitVec.ofNat 32 (fpFma s.cfg fp32 (redRnd s l.val 31) false false ab.1 ((opVC c s)[(127 : Fin 128)].toNat) ab.2).1) ∧
    (vb.val ≠ 47 → d ≠ c → ∃ x y, exec (.vbsr q d a vb c) s = .next (writeV c y (writeV d x s)) ∧ ∀ l : Fin 128,
      let w := min ((opVA a s)[l].toNat % 64) 32
      let two := (srcV (nextV vb) s)[l].toNat * 2 ^ 32 + (opVB vb s)[l].toNat
      x[l].toNat = two / 2 ^ ((opVC c s)[l].toNat % 32) % 2 ^ w ∧ y[l].toNat = ((opVC c s)[l].toNat + w) % 2 ^ 32) ∧
    (d.val ≠ 47 → ∃ lo hi, exec (.vbsw q d a b c) s = .next (writeV (nextV d) hi (writeV d lo s)) ∧ ∀ l : Fin 128,
      let w := min ((opVA a s)[l].toNat % 64) 32
      let off := (opVC c s)[l].toNat % 32
      let old := (srcV (nextV d) s)[l].toNat * 2 ^ 32 + (srcV d s)[l].toNat
      ∀ j < 64, (hi[l].toNat * 2 ^ 32 + lo[l].toNat).testBit j =
        if off ≤ j ∧ j < off + w then (laneB b s l).toNat.testBit (j - off) else old.testBit j) ∧
    (vb.val = 47 ∨ d = c → exec (.vbsr q d a vb c) s = illegalOp 2 s) ∧ (d.val = 47 → exec (.vbsw q d a b c) s = illegalOp 2 s)) ∧
  ∀ (α : Type) (f : α → α → α) (x : Vector α 128), (∀ u v w, f (f u v) w = f u (f v w)) →
    (bkScan (fun _ _ => f) x)[(0 : Fin 128)] = x[(0 : Fin 128)] ∧
    ∀ l : Fin 128, 0 < l.val → (bkScan (fun _ _ => f) x)[l] = f (bkScan (fun _ _ => f) x)[Fin.ofNat 128 (l.val - 1)] x[l]

/-- Moves, permutes and masks (R280 to R283): each lane of the destination comes from the lane that the instruction names; a lane or element
number beyond the register, and a shift by more than 128 lanes, are illegal operations. -/
def Obligations.MovesPermutesAndMasks : Prop :=
  ∀ (q : PReg) (ty : ITy) (d a c : VReg) (b x : SReg) (v : VOrS) (sd : SDst) (r : SReg) (m ma mb md : MReg) (s : State), Active q s →
    let A := opVA a s
    let n := (srcS b s).toNat
    exec (.vmov q d (.v a)) s = .next (writeV d A s) ∧
    exec (.vmov q d (.s b)) s = .next (writeV d (Vector.replicate 128 ((srcS b s).setWidth 32)) s) ∧
    (∀ i : BitVec 20, exec (.vli q d (.plain i)) s = .next (writeV d (Vector.replicate 128 (i.signExtend 32)) s)) ∧
    (∀ i : BitVec 16, exec (.vli q d (.high i)) s = .next (writeV d (Vector.ofFn fun l => ((srcV d s)[l] <<< 16) ||| i.setWidth 32) s)) ∧
    GivesInts (.vsplat q ty d (.scal b)) (itWidth ty) (itElems ty) d (fun _ _ => n) s ∧
    (n < 128 * itElems ty → GivesInts (.vsplat q ty d (.lane a b)) (itWidth ty) (itElems ty) d
      (fun _ _ => elemOf (itWidth ty) A[Fin.ofNat 128 (n / itElems ty)] (n % itElems ty)) s) ∧
    (n ≥ 128 * itElems ty → exec (.vsplat q ty d (.lane a b)) s = illegalOp 2 s) ∧
    (∀ h : n < 128, exec (.vmvs q sd a b) s = .next (writeD sd (A[n].setWidth 64) s) ∧
      exec (.vins q d x b) s = .next (writeV d ((srcV d s).set n ((srcS x s).setWidth 32)) s)) ∧
    (n ≥ 128 → exec (.vmvs q sd a b) s = illegalOp 2 s ∧ exec (.vins q d x b) s = illegalOp 2 s) ∧
    exec (.vperm q d a v c) s = .next (writeV d (Vector.ofFn fun l =>
      if (laneB v s l).getLsbD 7 then (opVC c s)[Fin.ofNat 128 ((laneB v s l).toNat % 128)] else A[Fin.ofNat 128 ((laneB v s l).toNat % 128)]) s) ∧
    exec (.vrotl q d a b) s = .next (writeV d (Vector.ofFn fun l => A[Fin.ofNat 128 (l.val + 128 - n % 128)]) s) ∧
    (n ≤ 128 → exec (.vslide q d a b c) s = .next (writeV d (Vector.ofFn fun l =>
      if l.val + n < 128 then A[Fin.ofNat 128 (l.val + n)] else (opVC c s)[Fin.ofNat 128 (l.val + n - 128)]) s)) ∧
    (n > 128 → exec (.vslide q d a b c) s = illegalOp 2 s) ∧
    (d.val ≠ 47 → ∃ lo hi, exec (.vzip q ty d a v) s = .next (writeV (nextV d) hi (writeV d lo s)) ∧
      ∀ j < 128 * itElems ty, regElem ty lo j = (if j % 2 = 0 then regElem ty A (j / 2) else regElem ty (regB ty v s) (j / 2)) ∧
        regElem ty hi j = (if j % 2 = 0 then regElem ty A (64 * itElems ty + j / 2) else regElem ty (regB ty v s) (64 * itElems ty + j / 2))) ∧
    (d.val ≠ 47 → ∃ lo hi, exec (.vunzip q ty d a v) s = .next (writeV (nextV d) hi (writeV d lo s)) ∧
      ∀ j < 64 * itElems ty, regElem ty lo j = regElem ty A (2 * j) ∧ regElem ty hi j = regElem ty A (2 * j + 1) ∧
        regElem ty lo (64 * itElems ty + j) = regElem ty (regB ty v s) (2 * j) ∧
        regElem ty hi (64 * itElems ty + j) = regElem ty (regB ty v s) (2 * j + 1)) ∧
    (d.val = 47 → exec (.vzip q ty d a v) s = illegalOp 2 s ∧ exec (.vunzip q ty d a v) s = illegalOp 2 s) ∧
    exec (.vsel q d a m c) s = .next (writeV d (Vector.ofFn fun l => if (srcM m s).getLsbD l.val then A[l] else (opVC c s)[l]) s) ∧
    (∀ op : MOp, exec (.mlog q op md ma mb) s = .next (writeM md (match op with
      | .and => srcM ma s &&& srcM mb s
      | .or => srcM ma s ||| srcM mb s
      | .xor => srcM ma s ^^^ srcM mb s
      | .andn => srcM ma s &&& ~~~srcM mb s
      | .orn => srcM ma s ||| ~~~srcM mb s
      | .nand => ~~~(srcM ma s &&& srcM mb s)
      | .nor => ~~~(srcM ma s ||| srcM mb s)
      | .xnor => ~~~(srcM ma s ^^^ srcM mb s)) s)) ∧
    exec (.mpopc q .cnt r ma) s = .next (writeS r (BitVec.ofNat 64 ((List.range 128).countP fun k => (srcM ma s).getLsbD k)) s) ∧
    (∃ k, exec (.mpopc q .lo r ma) s = .next (writeS r (BitVec.ofNat 64 k) s) ∧ k ≤ 128 ∧ (∀ j < k, (srcM ma s).getLsbD j = false) ∧
      (k < 128 → (srcM ma s).getLsbD k = true)) ∧
    (∃ k, exec (.mpopc q .hi r ma) s = .next (writeS r (BitVec.ofNat 64 k) s) ∧ (srcM ma s = 0 → k = 128) ∧
      (srcM ma s ≠ 0 → (srcM ma s).getLsbD k = true ∧ ∀ j, k < j → (srcM ma s).getLsbD j = false))

/-- The conversions (R284 to R286): VCVT gives each output element the conversion of its source element that the selector names, an 8-bit
half result keeping the other half of d; VQMX gives each block of 32 lanes its scale in lane 127 and its codes in one dense stream from lane 0, with
zeros above (R62, R63), and VDQMX the values of such a register. A second source that the selector does not take, or a missing one, is an illegal
operation. -/
def Obligations.VectorConversions : Prop :=
  ∀ (q : PReg) (sel : Fin 36) (d a : VReg) (b : Option VOrS) (f : MxFmt) (s : State), Active q s →
    let p := cvtSel sel.val
    let n := p.srcs.length
    (b.isSome = vcvtTwoSource sel.val →
      ∃ fl v, exec (.vcvt q sel d a b) s = .next (raiseLanes fl (writeV d v (drawn n s))) ∧ ∀ (l : Fin 128) (e : Nat), e < n →
        elemOf p.outW v[l] (match p.keepAt with | some k => k + e | none => e) =
          (cvtOne s.cfg p.kind (s.rnd n l e) (cvtSrc p a b s l (p.srcs.getD e (false, 0)))).1 % 2 ^ p.outW) ∧
    (b.isSome ≠ vcvtTwoSource sel.val → exec (.vcvt q sel d a b) s = illegalOp 2 s) ∧
    (∃ fl v, exec (.vqmx q f d a) s = .next (raiseLanes fl (writeV d v (drawn 1 s))) ∧
      let w := mxWidth f
      let x := fun (k j : Nat) => operand s.cfg fp32 (opVA a s)[Fin.ofNat 128 (32 * k + j)].toNat
      let scale := fun (k : Nat) => elemOf 8 v[(127 : Fin 128)] k
      let stream := (vlist v).foldr (fun y n => y.toNat + 4294967296 * n) 0
      let code := fun (k j : Nat) => toSigned w (stream / 2 ^ (w * (32 * k + j)))
      (∀ k < 4,
        ((∃ j < 32, (x k j).isFin = false) → scale k = 0xFF ∧ ∀ j < 32, code k j = 0) ∧
        ((∀ j < 32, (x k j).isFin = true ∧ (x k j).isZero = true) → scale k = 0 ∧ ∀ j < 32, code k j = 0) ∧
        (∀ i < 32, (∀ j < 32, (x k j).isFin = true) → (x k i).isZero = false →
            (∀ j < 32, (x k j).isZero = false → (x k j).top ≤ (x k i).top) →
          (scale k : Int) = min 254 (max 0 ((x k i).top + 127)) ∧
          ∀ j < 32, ∀ n m e, x k j = .fin n m e →
            let g := (roundAt s.cfg.rm n (s.rnd 1 (Fin.ofNat 128 (32 * k + j)) 0) m (e + (w - 2) + (127 - scale k)) 0).1
            code k j = max (-2 ^ (w - 1)) (min (2 ^ (w - 1) - 1) (if n then -(g : Int) else g)))) ∧
      (∀ l : Fin 128, 4 * w ≤ l.val → l.val < 127 → v[l] = 0) ∧
      ∀ (l : Nat) (y : FpFlags), (l, y) ∈ fl ↔ l < 128 ∧ y ≠ 0 ∧
        (mxCode s.cfg.rm w (scale (l / 32)) (s.rnd 1 (Fin.ofNat 128 l) 0) (x (l / 32) (l % 32))).2 = y) ∧
    GivesFloats (.vdqmx q f d a) 32 1 1 false d (fun l _ _ => mxValue s.cfg (mxWidth f) (elemOf 8 (opVA a s)[(127 : Fin 128)] (l.val / 32))
      (toSigned (mxWidth f) (((vlist (opVA a s)).foldr (fun x n => x.toNat + 4294967296 * n) 0) / 2 ^ (mxWidth f * l.val)))) s

-- The engines' words.

namespace Sys2Proof.Stated

/-- The acting engine's command is between words, and the word is one that its engine runs (R290, R291). -/
def Runs (i : Instr) (c : Cmd) (s : State) : Prop := s.eng.cmd = some c ∧ c.job = none ∧ kindRuns s.at_.eng.val (encodeWord i) = true

/-- The word is executed: the stack becomes another, the next word follows, and nothing else changes. -/
def Leaves (i : Instr) (c : Cmd) (st : List Word) (s : State) : Prop := exec i s = .next (setCmd { c with stk := st, ip := c.ip + 1 } s)

/-- The word raises an engine fault, and has none of its effect (R292). -/
def Raises (i : Instr) (f : EFault) (s : State) : Prop := exec i s = .next (engFault f s)

/-- The addresses of a word's reads and writes reach memory: whatever the word does with their translations is done (R313). -/
def Reaches (c : Cmd) (reads writes : List Nat) (ps qs : List (Nat × Tlb)) (s t : State) : Prop :=
  ∀ k, engAccess c reads writes s k = k ps qs t

/-- An operand header in use names this region of this handle (R295, R296). -/
def Names (w : Want) (x : Word) (h : Hdr) (t : TileEnt) (s : State) : Prop := useHdr w x s = .ok (h, t)

/-- The same, and no word of the region is uncorrectable (R402). -/
def Operand (w : Want) (x : Word) (h : Hdr) (t : TileEnt) (s : State) : Prop := Names w x h t s ∧ s.regionBad h t = none

/-- An operand that is refused, or whose region holds an uncorrectable word, ends the word with its own fault (R295, R296, R402). -/
def Refuses (w : Want) (x : Word) (i : Instr) (c : Cmd) (s : State) : Prop :=
  (∀ f, useHdr w x s = .error f → Raises i f s) ∧
  ∀ h t p, Names w x h t s → s.regionBad h t = some p → exec i s = .next (s.consumedEng c.spec p)

/-- A command goes on after a word: its operands are off the stack, results are on it, and nothing of it is in progress. -/
def After (c : Cmd) (pops : Nat) (push : List Word) (t : State) : Prop :=
  ∃ d, t.eng.cmd = some d ∧ d.stk = push ++ c.stk.drop pops ∧ d.ip = c.ip + 1 ∧ d.job = none ∧ d.spec = c.spec

/-- The handle of an operand as the acting engine's command sees it. -/
def handleAt (h : Hdr) (s t : State) : Option TileEnt := t.core.tile s.engAsid h.h

end Sys2Proof.Stated

/-- Stack words and branches (R290, R297, R298): each replaces the top of the stack by its result and goes on, a branch at its target; too
shallow a stack, or one of more than eight entries, is the stack fault, and a branch out of range the illegal-word fault, taken or not. -/
def Obligations.StackWordsAndBranches : Prop :=
  ∀ (c : Cmd) (s : State) (x y z : Word) (r : List Word) (imm : BitVec 12) (n : Fin 64) (k : Fin 8) (off : BitVec 10), c.stk.length ≤ 8 →
    (Runs (.wLit imm) c s → (c.stk.length < 8 → Leaves (.wLit imm) c (imm.signExtend 64 :: c.stk) s) ∧
      (c.stk.length = 8 → Raises (.wLit imm) .stack s)) ∧
    (Runs (.wPick k) c s → k.val < c.stk.length → (c.stk.length < 8 → Leaves (.wPick k) c (c.stk.getD k.val 0 :: c.stk) s) ∧
      (c.stk.length = 8 → Raises (.wPick k) .stack s)) ∧
    (c.stk = x :: r →
      (Runs (.wLitx imm) c s → Leaves (.wLitx imm) c (((x <<< 12) ||| imm.setWidth 64) :: r) s) ∧
      (Runs .wDup c s → (c.stk.length < 8 → Leaves .wDup c (x :: x :: r) s) ∧ (c.stk.length = 8 → Raises .wDup .stack s)) ∧
      (Runs .wDrop c s → Leaves .wDrop c r s) ∧
      (Runs (.wShl n) c s → Leaves (.wShl n) c ((x <<< n.val) :: r) s) ∧
      (Runs (.wShr n) c s → Leaves (.wShr n) c ((x >>> n.val) :: r) s) ∧
      (Runs .wInc c s → Leaves .wInc c ((x + 1) :: r) s) ∧
      (Runs .wDec c s → Leaves .wDec c ((x - 1) :: r) s) ∧
      (Runs .wNeg c s → Leaves .wNeg c ((0 - x) :: r) s) ∧
      (Runs .wEqz c s → Leaves .wEqz c ((if x = 0 then 1 else 0) :: r) s)) ∧
    (c.stk = y :: x :: r →
      (Runs .wSwap c s → Leaves .wSwap c (x :: y :: r) s) ∧
      (Runs .wOver c s → (c.stk.length < 8 → Leaves .wOver c (x :: y :: x :: r) s) ∧ (c.stk.length = 8 → Raises .wOver .stack s)) ∧
      (Runs .wAdd c s → Leaves .wAdd c ((x + y) :: r) s) ∧
      (Runs .wSub c s → Leaves .wSub c ((x - y) :: r) s) ∧
      (Runs .wAnd c s → Leaves .wAnd c ((x &&& y) :: r) s) ∧
      (Runs .wOr c s → Leaves .wOr c ((x ||| y) :: r) s) ∧
      (Runs .wXor c s → Leaves .wXor c ((x ^^^ y) :: r) s) ∧
      (Runs .wMin c s → Leaves .wMin c ((if x.toInt ≤ y.toInt then x else y) :: r) s) ∧
      (Runs .wMax c s → Leaves .wMax c ((if x.toInt ≤ y.toInt then y else x) :: r) s)) ∧
    (c.stk = z :: y :: x :: r → Runs .wRot c s → Leaves .wRot c (x :: z :: y :: r) s) ∧
    (∀ i need f, stackEffect i = some (need, f) → Runs i c s → c.stk.length < need → Raises i .stack s) ∧
    (let target : Int := (c.ip : Int) + 1 + off.toInt
     let go (i : Instr) (dest : Nat) (st : List Word) : Prop := exec i s = .next (setCmd { c with stk := st, ip := dest } s)
     (0 ≤ target ∧ target ≤ 4095 →
       (Runs (.wJmp off) c s → go (.wJmp off) target.toNat c.stk) ∧
       (c.stk = x :: r →
         (Runs (.wJz off) c s → go (.wJz off) (if x = 0 then target.toNat else c.ip + 1) r) ∧
         (Runs (.wJnz off) c s → go (.wJnz off) (if x = 0 then c.ip + 1 else target.toNat) r) ∧
         (Runs (.wLoopn off) c s → x.toNat > 1 → go (.wLoopn off) target.toNat ((x - 1) :: r)) ∧
         (Runs (.wLoopn off) c s → x.toNat ≤ 1 → go (.wLoopn off) (c.ip + 1) r)) ∧
       (c.stk = [] → (Runs (.wJz off) c s → Raises (.wJz off) .stack s) ∧ (Runs (.wJnz off) c s → Raises (.wJnz off) .stack s) ∧
         (Runs (.wLoopn off) c s → Raises (.wLoopn off) .stack s))) ∧
     (¬(0 ≤ target ∧ target ≤ 4095) →
       (Runs (.wJmp off) c s → Raises (.wJmp off) .illegalWord s) ∧ (Runs (.wJz off) c s → Raises (.wJz off) .illegalWord s) ∧
       (Runs (.wJnz off) c s → Raises (.wJnz off) .illegalWord s) ∧ (Runs (.wLoopn off) c s → Raises (.wLoopn off) .illegalWord s)))

/-- Control words (R41, R44, R45, R47, R58, R80, R290, R299, R300, R315): END, REPLY, WAITF, SETF, BOUND, JOIN, CALLS, RETS and DESC; a word
of another engine kind is the illegal-word fault, and without a command no word does anything. The model's readings: a completion word goes to
its core's own scratchpad only (log entry 41), and SETF and END wait for the copies that a helper's command has placed, while the END of a helper
strand does not (log entry 63). -/
def Obligations.ControlWords : Prop :=
  ∀ (c : Cmd) (s : State) (x : Word) (r : List Word) (f : Fin 64) (en : Fin 128) (ps qs : List (Nat × Tlb)) (t : State), c.stk.length ≤ 8 →
    (∀ i : Instr, i.isWord = true → (s.eng.cmd = none → exec i s = .next s) ∧
      (s.eng.cmd = some c → c.job = none → kindRuns s.at_.eng.val (encodeWord i) = false → Raises i .illegalWord s)) ∧
    (Runs .wEnd c s →
      (s.isHelperStrand c.spec = true → ∃ t, exec .wEnd s = .next t ∧ t.eng.cmd = none ∧ t.eng.pulse = some (c.spec.lid, c.spec.seq) ∧
        ∀ y ∈ t.recs, y.lid = c.spec.lid → y.seq = c.spec.seq → y.state = .draining) ∧
      (s.isHelperStrand c.spec = false → c.copies ≠ 0 → exec .wEnd s = .next s) ∧
      (s.isHelperStrand c.spec = false → c.copies = 0 → ¬(20 ≤ s.at_.eng.val ∧ s.at_.eng.val ≤ 23) → ∃ t, exec .wEnd s = .next t ∧
        t.eng.cmd = none ∧ t.eng.pulse = some (c.spec.lid, c.spec.seq) ∧
        (s.liveOn s.at_.core c.spec = true → SameMemory s t ∧ t.core.fpstat = s.core.fpstat ||| c.flags.setWidth 64 ∧
          (c.replied = false → ∀ d : Fin 64, c.spec.reply = some d → d.val ≠ 0 →
            (t.core.clu[c.spec.clu]).s[d] = 0 ∧ d ∉ (t.core.clu[c.spec.clu]).replies))) ∧
      (s.isHelperStrand c.spec = false → c.copies = 0 → 20 ≤ s.at_.eng.val ∧ s.at_.eng.val ≤ 23 →
        (c.spec.b.toNat % 8 ≠ 0 → Raises .wEnd (.page 3 c.spec.b.toNat) s) ∧
        (∀ m, c.spec.b.toNat % 8 = 0 → Reaches c [] ((upto 8).map fun i => c.spec.b.toNat + i) ps qs s t → entryOf qs c.spec.b.toNat = some m →
          (let p := placeIn m c.spec.b.toNat
           (p.1 = 2 ∧ (p.2 - coreBase) / 8388608 = t.at_.core.val →
            exec .wEnd s = .next (endCommand s.at_.core s.at_.eng c (t.copyPut c.spec .pkg
              (originOf (some (c.spec.lid, c.spec.seq)) t.datum (t.cmdAsid c.spec) .line qs ((upto 8).map fun i => c.spec.b.toNat + i))
              ((atAddr p.2 (leBytes 8 (c.stk.headD 0).toNat)).map fun b => (p.1, b.1, b.2))))) ∧
           (¬(p.1 = 2 ∧ (p.2 - coreBase) / 8388608 = t.at_.core.val) → exec .wEnd s = .next (engFault (.page 2 c.spec.b.toNat) t)))))) ∧
    (c.stk = x :: r →
      (Runs .wReply c s → (c.replied = false ∧ ¬(16 ≤ s.at_.eng.val ∧ s.at_.eng.val < 20) ∧ s.isHelperStrand c.spec = false →
          exec .wReply s = .next (setCmd { c with replied := true, ip := c.ip + 1 } (s.writeReply s.at_.core c.spec x))) ∧
        (c.replied = true ∨ (16 ≤ s.at_.eng.val ∧ s.at_.eng.val < 20) ∨ s.isHelperStrand c.spec = true →
          exec .wReply s = .next (setCmd { c with replied := true, ip := c.ip + 1 } s))) ∧
      (Runs .wBound c s → exec .wBound s = .next (setCmd { c with bound := some x.toNat, stk := r, ip := c.ip + 1 } s)) ∧
      (Runs .wDesc c s → x.toNat % 32 ≠ 0 → Raises .wDesc (.page 3 x.toNat) s) ∧
      (Runs .wDesc c s → x.toNat % 32 = 0 → Reaches c ((upto 32).map fun i => x.toNat + i) [] ps qs s t →
        ∃ d : Vector Word 4,
          (∀ i : Fin 4, d[i] = BitVec.ofNat 64 (leNat ((upto 8).map fun j => engByte (1 + t.at_.core.val / 4) ps t (x.toNat + (8 * i.val + j))))) ∧
          (descLegal d = true → exec .wDesc s = .next (setCmd { c with stk := r, ip := c.ip + 1 }
            (signDesc c.spec (vlist d) (t.onEng fun g => { g with desc := some d })))) ∧
          (descLegal d = false → exec .wDesc s = .next (engFault .illegalWord t)))) ∧
    (∀ d : Fin 64, c.spec.reply = some d → s.liveOn s.at_.core c.spec = true → s.writeReply s.at_.core c.spec x =
      s.cluUpd s.at_.core c.spec.clu fun k => { k with s := if d.val = 0 then k.s else vput k.s d x, replies := k.replies.filter fun y => y != d }) ∧
    (Runs (.wWaitf f) c s → (s.cmdFlag s.at_.core c.spec f = true → Leaves (.wWaitf f) c c.stk s) ∧
      (s.cmdFlag s.at_.core c.spec f = false → exec (.wWaitf f) s = .next s)) ∧
    (s.savedOn s.at_.core c.spec = false →
      (Runs (.wSetf f) c s → c.copies ≠ 0 → exec (.wSetf f) s = .next s) ∧
      (Runs (.wSetf f) c s → c.copies = 0 → exec (.wSetf f) s =
        .next (setCmd { c with ip := c.ip + 1 } (s.onCore fun k => { k with fSet := k.fSet ||| bitAt 64 f.val }))) ∧
      (Runs .wJoin c s → exec .wJoin s = .next (setCmd { c with ip := c.ip + 1 } (s.onEng fun g => { g with mark := true })))) ∧
    (Runs (.wCalls en) c s →
      (s.eng.entryAt en.val ≠ 0xFFFF → c.rstk.length < 4 →
        exec (.wCalls en) s = .next (setCmd { c with rstk := (c.ip + 1) :: c.rstk, ip := s.eng.entryAt en.val % 4096 } s)) ∧
      (s.eng.entryAt en.val ≠ 0xFFFF → c.rstk.length ≥ 4 → Raises (.wCalls en) .stack s) ∧
      (s.eng.entryAt en.val = 0xFFFF → Raises (.wCalls en) .illegalWord s)) ∧
    (Runs .wRets c s → (c.rstk = [] → Raises .wRets .stack s) ∧
      ∀ k ks, c.rstk = k :: ks → exec .wRets s = .next (setCmd { c with rstk := ks, ip := k } s))

/-- The accumulator's rules (R64, R65): one contribution under the exponent of its group, the shift of the group to a larger one, the clamp
that sets SG, the NaN that takes the group to 255, and RoundShift, which rounds half to even; ACCZ clears its region, mantissas, exponents and SG
bits, writing its words whole (R402), makes the precision tag of the handle NONE (0xFF), and does nothing else. -/
def Obligations.AccumulatorArithmetic : Prop :=
  (∀ (m : Int) (k : Nat), 0 < k → let q := roundShift m k
    2 * (q * 2 ^ k - m) ≤ 2 ^ k ∧ -(2 ^ k) ≤ 2 * (q * 2 ^ k - m) ∧ (2 * (q * 2 ^ k - m) = 2 ^ k ∨ 2 * (q * 2 ^ k - m) = -(2 ^ k) → q % 2 = 0)) ∧
  (∀ (m : Int) (k : Nat), roundShift m (-(k : Int)) = m * 2 ^ k) ∧
  (∀ (g : AccGroup) (j : Nat) (m e : Int) (nan : Bool), j < g.m.length →
    (g.e = 255 → accAdd g j m e nan = (g, 0)) ∧
    (g.e ≠ 255 → nan = true → accAdd g j m e nan = ({ g with e := 255 }, flNV)) ∧
    (g.e < 255 → nan = false → let top : Int := if e < 254 then e else 254
      let up : List Int := if top > g.e then g.m.map (fun x => roundShift x (top - g.e)) else g.m
      let e' : Int := if top > g.e then top else g.e
      let sum := up.getD j 0 + roundShift m (e' - e)
      let v := sat (-2147483648) 2147483647 sum
      accAdd g j m e nan = ({ g with e := e'.toNat, m := up.set j v, sg := g.sg || v != sum }, if v = sum then 0 else flSAT))) ∧
  (∀ (t : TileEnt) (row0 rows row grp : Nat),
    (row0 ≤ row → row < row0 + rows → grp < ceilDiv t.cols 16 → (t.accClear row0 rows).accGet row grp = ⟨row, grp, 0, false, List.replicate 16 0⟩) ∧
    ((row < row0 ∨ row0 + rows ≤ row) → (t.accClear row0 rows).accGet row grp = t.accGet row grp) ∧ (t.accClear row0 rows).ptag = 0xFF) ∧
  ∀ (c : Cmd) (s : State) (x : Word) (r : List Word) (h : Hdr) (u : TileEnt), Runs .wAccz c s → c.stk = x :: r → c.stk.length ≤ 8 →
    Names wantAccW x h u s →
    exec .wAccz s = .next (setCmd { c with stk := r, ip := c.ip + 1 }
      ((s.clearedOp h u).onEnt s.at_.core s.engAsid h.h (TileEnt.accClear h.row0 h.rows))) ∧
    (s.bad = [] → s.weak = [] → s.clearedOp h u = s)

/-- The matrix words (R95, R100, R103, R107, R301, R302, R304, R305): MLOAD fills the inactive bank and activates it; an MMA whose checks hold
takes its tag and begins, and its strokes add to the region; ACCOUT writes its output; QNT writes its two copies, each with its codes and then the
scale of every block. No descriptor, a bank or tag that does not fit, operands that are refused, and sizes that do not fit raise their faults, and an
uncorrectable word of an operand is consumed (R402). `evStroke []` is a stroke of which no conversion is looked at by the checks of R89. The model's
readings: the padding of an MX row is numbered for its random words (log entry 42), where a sparse layer's index stream lies (log entry 47), and QNT
under a format that is no MXINT code is a precision mismatch (log entry 48), and the bank becomes active when the MLOAD word completes (log entry 134). -/
def Obligations.MatrixWords : Prop :=
  ∀ (c : Cmd) (s : State) (d : Desc) (dv : Vector Word 4) (b : Bank) (sh : Fin 9) (aclr : Bool) (x y : Word) (r : List Word) (g h : Hdr)
    (t u : TileEnt) (l : QntLen),
    (s.eng.desc = none → c.stk = y :: x :: r → ∀ i ∈ [Instr.wMload, .wMma sh aclr, .wAccout, .wQnt l], Runs i c s → Raises i .precision s) ∧
    (s.eng.desc = some dv → descOf dv = d →
      let need := align64 (weightBytes d (bankDims (d.cls.getD .table)).1 (bankDims (d.cls.getD .table)).2) +
        (bankDims (d.cls.getD .table)).1 * (bankDims (d.cls.getD .table)).2 / 32
      (c.stk = x :: r →
        (Runs .wMload c s → (d.path = true → Raises .wMload .precision s) ∧ (d.path = false → Refuses wantW x .wMload c s) ∧
          (d.path = false → Operand wantW x h t s → h.size t < need → Raises .wMload .illegalWord s) ∧
          (d.path = false → Operand wantW x h t s → need ≤ h.size t → exec .wMload s = .next (startJob c (.mload x) s))) ∧
        (d.path = false → Operand wantW x h t s → s.eng.cmd = some { c with job := some (.mload x) } →
          ∃ w, exec .evMloadBankActivate s = .next w ∧ w.eng.bank = some (bankOf d h t) ∧
          After c 1 [] w ∧ (s.eng.active = some false → w.eng.bank0 = s.eng.bank0) ∧ (s.eng.active ≠ some false → w.eng.bank1 = s.eng.bank1))) ∧
      (c.stk = y :: x :: r → Runs (.wMma sh aclr) c s →
        (s.eng.bank = none → Raises (.wMma sh aclr) .precision s) ∧
        (s.eng.bank = some b → d.cls ≠ some (shapeOf sh.val).cls ∨ b.fmt ≠ d.bankFmt → Raises (.wMma sh aclr) .precision s) ∧
        (s.eng.bank = some b → d.cls = some (shapeOf sh.val).cls → b.fmt = d.bankFmt → Refuses wantAct x (.wMma sh aclr) c s ∧
          (Operand wantAct x h t s → (∀ f, useHdr wantAccW y s = .error f → Raises (.wMma sh aclr) f s) ∧
            (aclr = false → Refuses wantAccW y (.wMma sh aclr) c s) ∧
            (Names wantAccW y g u s → aclr = true ∨ s.regionBad g u = none →
              g.rows < (shapeOf sh.val).m ∨ u.cols < (shapeOf sh.val).n ∨ h.size t < actEnd d (shapeOf sh.val) →
              Raises (.wMma sh aclr) .illegalWord s)))) ∧
      (c.stk = y :: x :: r → Operand wantAct x h t s → Names wantAccW y g u s → s.eng.bank = some b → d.cls = some (shapeOf sh.val).cls →
        b.fmt = d.bankFmt → (shapeOf sh.val).m ≤ g.rows → (shapeOf sh.val).n ≤ u.cols → actEnd d (shapeOf sh.val) ≤ h.size t →
        (Runs (.wMma sh aclr) c s →
          (aclr = true → exec (.wMma sh aclr) s = .next (startJob c (.mma x y sh.val 0 0)
            ((s.clearedOp g u).onEnt s.at_.core s.engAsid g.h fun _ => { u.accClear g.row0 g.rows with ptag := d.tag }))) ∧
          (aclr = false → s.regionBad g u = none → u.ptag = 0xFF ∨ u.ptag = d.tag → exec (.wMma sh aclr) s = .next (startJob c (.mma x y sh.val 0 0)
            (s.onEnt s.at_.core s.engAsid g.h fun _ => { u with ptag := d.tag }))) ∧
          (aclr = false → s.regionBad g u = none → ¬(u.ptag = 0xFF ∨ u.ptag = d.tag) → Raises (.wMma sh aclr) .precision s)) ∧
        (∀ m kh, s.eng.cmd = some { c with job := some (.mma x y sh.val m kh) } → s.regionBad g u = none →
          ∃ w e, exec (.evStroke []) s = .next w ∧ handleAt g s w = some e ∧
          e = { (Stroke.accumulate ⟨d, shapeOf sh.val, b, h, t, m, kh⟩ [] g.row0 u).1 with last := e.last } ∧
          (let n := nextStroke d (shapeOf sh.val) m kh
           (n.1 < (shapeOf sh.val).m → ∃ k, w.eng.cmd = some k ∧ k.job = some (.mma x y sh.val n.1 n.2) ∧ k.stk = c.stk ∧ k.ip = c.ip) ∧
           ((shapeOf sh.val).m ≤ n.1 → After c 2 [] w)))) ∧
      (c.stk = y :: x :: r → Runs .wAccout c s → Refuses wantAccR x .wAccout c s ∧
        (Operand wantAccR x h t s → (∀ f, useHdr wantOut y s = .error f → Raises .wAccout f s) ∧
          (Names wantOut y g u s → g.size u < accOutSize d h.rows t.cols → Raises .wAccout .illegalWord s) ∧
          (Operand wantOut y g u s → accOutSize d h.rows t.cols ≤ g.size u →
            ∃ w e, exec .wAccout s = .next w ∧ After c 2 [] w ∧ handleAt g s w = some e ∧
              e.swz = (if (mxBits d.ofmt).isSome then 1 else 0) ∧
              (let o := accOut c d s.at_.eng h t
               e.cells = (u.write (atAddr (g.base u) o.1) |>.write (atAddr (g.base u + align64 o.1.length) o.2.1)).cells)))) ∧
      (c.stk = y :: x :: r → Runs (.wQnt l) c s → Refuses ⟨false, 1, some 0⟩ x (.wQnt l) c s ∧
        (Operand ⟨false, 1, some 0⟩ x h t s → (∀ f, useHdr wantOut y s = .error f → Raises (.wQnt l) f s) ∧
          (Names wantOut y g u s →
            (mxBits d.ofmt = none → Raises (.wQnt l) .precision s) ∧
            (∀ bits_, mxBits d.ofmt = some bits_ →
              let len := qntLen l
              let n := h.rows * t.cols
              let scales := align64 (n * bits_ / 8)
              let next := align64 (scales + n / len)
              ((t.esz ≠ 1 ∧ t.esz ≠ 2) ∨ h.rows % len ≠ 0 ∨ t.cols % len ≠ 0 ∨ g.size u < next + (scales + n / len) → Raises (.wQnt l) .illegalWord s) ∧
              ((t.esz = 1 ∨ t.esz = 2) → h.rows % len = 0 → t.cols % len = 0 → next + (scales + n / len) ≤ g.size u → s.regionBad g u = none →
                ∃ w e, exec (.wQnt l) s = .next w ∧ After c 2 [] w ∧ handleAt g s w = some e ∧
                  (let out := d.out c.cfg
                   let val := fun i => operand out (if t.esz = 1 then bf16 else fp32) (opVal h t (2 ^ t.esz) i)
                   let block := fun (place : Nat → Nat) (i : Nat) => (upto len).map fun k => val (place (i * len + k))
                   let codes := fun (place : Nat → Nat) (first : Nat) => (upto (n / len)).flatMap fun i => packFields bits_ ((upto len).map fun k =>
                     ofSigned bits_ (mxCode out.rm bits_ (mxScale (block place i)) (c.rnd s.at_.eng (first + i * len + k)) (val (place (i * len + k)))).1)
                   let scaleBytes := fun (place : Nat → Nat) => (upto (n / len)).map fun i => BitVec.ofNat 8 (mxScale (block place i))
                   let along := fun p => p
                   let down := fun p => (p % h.rows) * t.cols + p / h.rows
                   e.cells = (((u.write (atAddr (g.base u) (codes along 0)) |>.write (atAddr (g.base u + scales) (scaleBytes along)))
                     |>.write (atAddr (g.base u + next) (codes down n))) |>.write (atAddr (g.base u + (next + scales)) (scaleBytes down))).cells)))))))

/-- Tables and special functions (R108, R109, R308, R316 to R320): TBLD writes the image that its descriptor names, with the exact sums of
the weights; TBL adds its rows to the accumulator, or holds while another command writes the image; each FN word writes the results of its
elements; and what the corner inputs give. -/
def Obligations.TablesAndFunctions : Prop :=
  ∀ (c : Cmd) (s : State) (d : Desc) (dv : Vector Word 4) (x y z : Word) (r : List Word) (g h : Hdr) (t u im : TileEnt) (big aclr : Bool),
    (s.eng.desc = some dv → descOf dv = d → d.path = true → c.stk = y :: x :: r → c.stk.length ≤ 8 →
      (Runs (.wTbld big) c s → Operand ⟨false, 1, some 3⟩ x h t s → Operand ⟨true, 1, some 4⟩ y g u s → g.h = d.timg → g.row0 = d.trow →
        align64 (131072 * tblBits d.wfmt / 8) + 4096 ≤ h.size t → 528384 ≤ g.size u →
        ∃ w, exec (.wTbld big) s = .next w ∧ After c 2 [] w ∧ ∃ e, handleAt g s w = some e ∧ ∀ j < 256, ∀ q < 128, ∀ n < 16,
          e.byte (g.base u + 2048 * j + 16 * q + n) = BitVec.ofInt 8 ((upto 4).foldl (fun a i =>
            if nbit i n then a + tblValue d.wfmt (opField h t 0 (tblBits d.wfmt) (512 * j + (4 * q + i))) else a) 0)) ∧
      (Runs (.wTbl big aclr) c s → imageOfDesc d s = some im →
        (s.detLaunch c.spec = false → s.imageWriters s.at_.core c.spec (imageHdr dv im.rowBytes) ≠ [] → exec (.wTbl big aclr) s = .next s) ∧
        (s.imageWriters s.at_.core c.spec (imageHdr dv im.rowBytes) = [] → Operand wantAct x h t s → Names wantAccW y g u s → (aclr = false → s.regionBad g u = none) →
          (if big then 256 else 64) ≤ g.rows → 256 ≤ u.cols → actEnd d ⟨.table, if big then 256 else 64, 256, 512⟩ ≤ h.size t →
          (imageHdr dv im.rowBytes).row0 + (imageHdr dv im.rowBytes).rows ≤ im.rows → ∀ v, u.ready g d aclr = some v →
          (∀ p, s.regionBad (imageHdr dv im.rowBytes) im = some p → exec (.wTbl big aclr) s = .next (s.consumedEng c.spec p)) ∧
          (s.regionBad (imageHdr dv im.rowBytes) im = none → ∃ w, exec (.wTbl big aclr) s = .next w ∧ After c 2 [] w ∧ handleAt g s w =
            some (tblRun d ⟨.table, if big then 256 else 64, 256, 512⟩ h t (imageHdr dv im.rowBytes) im g.row0 v).1)))) ∧
    (c.stk = z :: y :: x :: r → c.stk.length ≤ 8 → ∀ ff : FnFmt, Operand ⟨false, 0, some 0⟩ x h t s → Operand ⟨true, 0, none⟩ y g u s →
      1 ≤ z.toNat → z.toNat ≤ 65536 → z.toNat * ((fnFmt ff).width / 8) ≤ h.size t → z.toNat * ((fnFmt ff).width / 8) ≤ g.size u →
      ∀ i fn, (i, fn) ∈ [(Instr.wExp2 ff, SFn.exp2), (.wLog2 ff, .log2), (.wRcp ff, .rcp), (.wRsqrt ff, .rsqrt), (.wSinpi ff, .sinpi),
        (.wCospi ff, .cospi), (.wTanh ff, .tanh), (.wSigm ff, .sigm)] → Runs i c s →
      ∃ w e, exec i s = .next w ∧ After c 3 [] w ∧ handleAt g s w = some e ∧
        e.cells = (u.write (atAddr (g.base u) ((upto z.toNat).flatMap fun j =>
          leBytes ((fnFmt ff).width / 8) (fnElem fn c.cfg (fnFmt ff) (c.rnd s.at_.eng j) (opVal h t ((fnFmt ff).width / 8) j)).1))).cells) ∧
    (∀ (cfg : NumCfg) (rnd : Nat),
      (fnElem .exp2 cfg fp32 rnd 0 = (0x3F800000, 0)) ∧ (fnElem .exp2 cfg fp32 rnd 0xFF800000 = (0, 0)) ∧
      (fnElem .log2 cfg fp32 rnd 0x3F800000 = (0, 0)) ∧ (fnElem .log2 cfg fp32 rnd 0 = (0xFF800000, flDZ)) ∧
      (fnElem .log2 cfg fp32 rnd 0xBF800000 = (0x7FC00000, flNV)) ∧ (fnElem .rcp cfg fp32 rnd 0x80000000 = (0xFF800000, flDZ)) ∧
      (fnElem .rsqrt cfg fp32 rnd 0 = (0x7F800000, flDZ)) ∧ (fnElem .sinpi cfg fp32 rnd 0x7F800000 = (0x7FC00000, flNV)) ∧
      (fnElem .sinpi cfg fp32 rnd 0xBF800000 = (0x80000000, 0)) ∧ (fnElem .cospi cfg fp32 rnd 0x3F000000 = (0, 0)) ∧
      (fnElem .tanh cfg fp32 rnd 0xFF800000 = (0xBF800000, 0)) ∧ fnElem .sigm cfg fp32 rnd 0 = (0x3F000000, 0))

/-- Races (R110 to R112, R307): a race whose operands are in order begins with one prefix for each column; order keys keep the order of
the keys; a pass extends the prefixes of the columns that race (`evRacePass` is one of which no conversion is looked at by the checks of R89); and once no column races, at the first pass where there is one column only, or after the last digit, the word is done. -/
def Obligations.RaceWords : Prop :=
  (∀ k : Key, ∀ a < 2 ^ keyWidth k, ∀ b < 2 ^ keyWidth k,
    (orderKey k a < 2 ^ keyWidth k) ∧ (orderKey k a = orderKey k b → a = b) ∧
    (keySigned k = true → (orderKey k a ≤ orderKey k b ↔ toSigned (keyWidth k) a ≤ toSigned (keyWidth k) b)) ∧
    (keySigned k = false → keyFloat k = false → orderKey k a = a)) ∧
  (∀ (k : Key) (u : Nat), u < 2 ^ keyWidth k →
    (upto (keyDigits k)).foldl (fun a d => 1024 * a + digitOf k u d) 0 = u * 2 ^ (10 * keyDigits k - keyWidth k)) ∧
  ∀ (c : Cmd) (s : State) (k : Key) (lf : Bool) (n m out keys : Word) (r : List Word) (g h : Hdr) (t u : TileEnt),
    Operand ⟨false, 1, some 0⟩ keys h t s → 1 ≤ n.toNat → n.toNat ≤ 256 → n.toNat * (keyWidth k / 8) ≤ h.size t →
    (let start := fun kind out nk => startJob c (.race kind keys out k n.toNat nk (kind == 3 && lf) 0 ((upto n.toNat).map fun i => (i, 0))) s
     (c.stk = n :: keys :: r → (Runs (.wRmin k) c s → exec (.wRmin k) s = .next (start 0 keys 1)) ∧
       (Runs (.wRmax k) c s → exec (.wRmax k) s = .next (start 1 keys 1))) ∧
     (Operand ⟨true, 1, some 0⟩ out g u s →
       (c.stk = n :: out :: keys :: r → Runs (.wRsort k) c s → 4 * n.toNat ≤ g.size u → exec (.wRsort k) s = .next (start 2 out 1)) ∧
       (c.stk = m :: n :: out :: keys :: r → Runs (.wRtopk k lf) c s → 1 ≤ m.toNat → m.toNat ≤ n.toNat → 2 * m.toNat ≤ g.size u →
         exec (.wRtopk k lf) s = .next (start 3 out m.toNat)))) ∧
    (∀ kind nk pass ps, s.eng.cmd = some { c with job := some (.race kind keys out k n.toNat nk lf pass ps) } → kind < 4 → pass < keyDigits k →
      (let digit := fun col => (fun x => if kind = 1 ∨ (kind = 3 ∧ lf = true) then 1023 - x else x)
        (digitOf k (orderKey k (opVal h t (keyWidth k / 8) col)) pass)
       let ps1 := ps.map fun p => (p.1, 1024 * p.2 + (if (racers kind nk ps).contains p.1 then digit p.1 else 0))
       let decided := fun (qs : List (Nat × Nat)) =>
         (kind < 2 → ∃ w, exec .evRacePass s = .next w ∧
           After c 2 [BitVec.ofNat 64 (opVal h t (keyWidth k / 8) ((raceOrder qs).headD 0)), BitVec.ofNat 64 ((raceOrder qs).headD 0)] w) ∧
         (2 ≤ kind → Operand ⟨true, 1, some 0⟩ out g u s → ∃ w e, exec .evRacePass s = .next w ∧ After c (kind + 1) [] w ∧ handleAt g s w = some e ∧
           e.cells = (u.write (atAddr (g.base u) ((if kind = 2 then ((upto n.toNat).map fun i => ((raceOrder qs).takeWhile fun j => j != i).length) ++
             raceOrder qs else (raceOrder qs).take nk).flatMap fun i => leBytes 2 i))).cells)
       (racers kind nk ps = [] → decided ps) ∧
       (racers kind nk ps ≠ [] → pass + 1 = keyDigits k ∨ racers kind nk ps1 = [] → decided ps1) ∧
       (racers kind nk ps ≠ [] → pass + 1 < keyDigits k → racers kind nk ps1 ≠ [] → ∃ w d, exec .evRacePass s = .next w ∧ w.eng.cmd = some d ∧
         d.job = some (.race kind keys out k n.toNat nk lf (pass + 1) ps1) ∧ d.stk = c.stk ∧ d.ip = c.ip))) ∧
    (∀ kind nk, racers kind nk [(0, 0)] = [] ∧ raceOrder [(0, 0)] = [0])

/-- Collectives and copies (R141, R309 to R315, R341): a participant arrives with its elements and waits, and receives its values once they
are all there; a copy word's operands give its pieces, a helper's copy is placed on the channel with the fewest commands with the word that placed it
(log entry 63), a copy in progress moves every byte, all of them read before any is written (log entry 54), and folds the bytes that it delivers into
the running CRC, which gives 0xE3069283 for the nine bytes of R314; and a copy that is answered ABSENT is due again 21,000 clk later, and then
sends. -/
def Obligations.CollectivesAndCopies : Prop :=
  ∀ (c : Cmd) (s : State) (op : CollOp) (excl : Bool) (x y z : Word) (r : List Word) (g h : Hdr) (t u : TileEnt) (l : Launch),
    (c.stk = z :: y :: x :: r → Operand wantSrcC x h t s → Operand wantDstC y g u s →
      (s.launch c.spec.lid = some l → wf_ 63 16 z = 0 → wf_ 15 12 z < l.fields.length → groupTotal l (wf_ 15 12 z) ≤ 512 →
        groupSpans l (wf_ 15 12 z) = false → (wf_ 11 0 z + 1) * collSize op ≤ h.size t → (wf_ 11 0 z + 1) * collSize op ≤ g.size u →
        (let p := fun scan e => (⟨s.at_.core, c.spec, groupIdx l (wf_ 15 12 z) c.spec.wid, scan, op, e,
          (upto (wf_ 11 0 z + 1)).map (collRead op h t), false⟩ : Contrib)
         let come := fun q => collArrive c.spec.lid (wf_ 15 12 z) (groupHi l (wf_ 15 12 z) c.spec.wid) (groupTotal l (wf_ 15 12 z)) q (startJob c .coll (s.touchOps [h]))
         (Runs (.wScan op excl) c s → exec (.wScan op excl) s = .next (come (p true excl))) ∧
         (Runs (.wReduce op) c s → exec (.wReduce op) s = .next (come (p false false))))) ∧
      (∀ k p, s.eng.cmd = some { c with job := some .coll } →
        s.coll.find? (fun k => k.parts.any fun q => q.isOf s.at_.core c.spec && !q.done) = some k →
        k.parts.find? (fun q => q.isOf s.at_.core c.spec) = some p →
        (k.bad = false → k.arrived p = false → exec (.wScan op excl) s = .next s ∧ exec (.wReduce op) s = .next s) ∧
        (k.bad = false → k.arrived p = true → ∃ w e, exec (.wScan op excl) s = .next w ∧ exec (.wReduce op) s = .next w ∧ After c 3 [] w ∧
          handleAt g s w = some e ∧ e.cells = (u.write (atAddr (g.base u) ((k.result p).flatMap (collBytes p.op)))).cells))) ∧
    (∀ (sc : Scope) (last : Bool), ∀ i ∈ [Instr.wCpy sc, .wCpy2d sc, .wCpyx sc, .wCrci, .wCrcc sc last], ∀ (j : CopyJob) (n : Nat),
      planOf i c.spec c.stk s = some (.ok (j, n)) → j.remote = none ∨ s.weak = [] → Runs i c s → 16 ≤ s.at_.eng.val → s.at_.eng.val < 20 → c.stk.length ≤ 8 →
      (j.pieces = [] ∧ j.fold = false ∧ j.init = none → Leaves i c (c.stk.drop j.pops) s) ∧
      (¬(j.pieces = [] ∧ j.fold = false ∧ j.init = none) →
        exec i s = .next (startJob c (.copy j) (s.onFill j fun _ e => { e with infl := true })))) ∧
    (∀ (sc : Scope) (last : Bool), ∀ i ∈ [Instr.wCpy sc, .wCpy2d sc, .wCpyx sc, .wCrci, .wCrcc sc last], ∀ (j : CopyJob) (n : Nat),
      planOf i c.spec c.stk s = some (.ok (j, n)) → j.remote = none ∨ s.weak = [] → Runs i c s → 20 ≤ s.at_.eng.val → c.stk.length ≤ 8 → ¬(j.pieces = [] ∧ j.fold = false ∧ j.init = none) →
      (let ch := s.core.channel
       ((s.core.eng[ch]).queue.length ≥ 8 ∨ s.core.copiesInFlight ≥ 64 → exec i s = .next s) ∧
       ((s.core.eng[ch]).queue.length < 8 → s.core.copiesInFlight < 64 → ∃ w d k, exec i s = .next w ∧ w.eng.cmd = some d ∧
         d.copies = c.copies + 1 ∧ d.stk = c.stk.drop j.pops ∧ d.ip = c.ip + 1 ∧
         QEnt.placed c.spec s.at_.eng { j with placed := k, where_ := c.where_ s.eng } ∈ (w.core.eng[ch]).queue))) ∧
    (∀ sc : Scope, c.stk = z :: y :: x :: r → bits 63 46 z.toNat = 0x3FFFF → bits 45 32 z.toNat = 0 → bits 31 0 z.toNat ≠ 0 →
      16 ≤ s.at_.eng.val → s.at_.eng.val < 20 →
      (Runs (.wCpy sc) c s → exec (.wCpy sc) s =
        .next (startJob c (.copy (CopyJob.plain sc 3 [⟨.va x.toNat, .va y.toNat, bits 31 0 z.toNat⟩])) s)) ∧
      (Runs (.wCrcc sc false) c s → exec (.wCrcc sc false) s =
        .next (startJob c (.copy { CopyJob.plain sc 3 [⟨.va x.toNat, .va y.toNat, bits 31 0 z.toNat⟩] with fold := true }) s))) ∧
    (∀ sc : Scope, c.stk = z :: y :: x :: r → 16 ≤ s.at_.eng.val → s.at_.eng.val < 20 → Runs (.wCpy2d sc) c s →
      exec (.wCpy2d sc) s = .next (startJob c (.copy (CopyJob.plain sc 3 ((upto (bits 63 48 z.toNat + 1)).map fun k =>
        ⟨.va ((x.toNat + 64 * k * bits 31 16 z.toNat) % 2 ^ 64), .va ((y.toNat + 64 * k * bits 15 0 z.toNat) % 2 ^ 64), bits 47 32 z.toNat + 1⟩))) s)) ∧
    (c.stk = x :: r → x.toNat < 2 ^ 32 → 16 ≤ s.at_.eng.val → s.at_.eng.val < 20 → Runs .wCrci c s →
      exec .wCrci s = .next (startJob c (.copy { CopyJob.plain .cl 1 [] with init := some (x.setWidth 32) }) s)) ∧
    (∀ (sc : Scope) (ps qs : List (Nat × Tlb)) (w : State), Runs (.wCpyg sc) c s → c.stk = z :: y :: x :: r → 1 ≤ z.toNat → z.toNat ≤ 4096 →
      16 ≤ s.at_.eng.val → s.at_.eng.val < 20 → w.at_ = s.at_ →
      Reaches c ((upto (8 * z.toNat)).map fun i => (x.toNat + i) % 2 ^ 64) [] ps qs s w →
      (let from_ := (upto z.toNat).map fun k => leNat ((upto 8).map fun i => engByte 0 ps w ((x.toNat + 8 * k + i) % 2 ^ 64))
       ((∀ a ∈ from_, a % 256 = 0) → exec (.wCpyg sc) s = .next (startJob c (.copy (CopyJob.plain sc 3
         (from_.mapIdx fun k a => ⟨.va a, .va ((y.toNat + 256 * k) % 2 ^ 64), 256⟩))) w)) ∧
       ((∃ a ∈ from_, a % 256 ≠ 0) → exec (.wCpyg sc) s = .next (engFault .illegalWord w)))) ∧
    (∀ (j : CopyJob) (ps qs : List (Nat × Tlb)) (w : State), s.eng.cmd = some { c with job := some (.copy j) } → j.remote = none → j.tile = none →
      Reaches { c with job := some (.copy j) } (j.pieces.flatMap fun p => p.src.vas p.n) (j.pieces.flatMap fun p => p.dst.vas p.n) ps qs s w →
      partCell ps (j.pieces.flatMap fun p => p.src.vas p.n) = none → partCell qs (j.pieces.flatMap fun p => p.dst.vas p.n) = none →
      (let k := { c with job := some (.copy j) }
       let moved := (j.pieces.map fun p => (p, pieceBytes ps qs w p)).foldl (putPiece k j qs) w
       exec .evCopyComplete s = .next (finishCopy k j (match j.init with
         | some v => moved.onEng (Engine.setCrc moved.engAsid v)
         | none => moved)))) ∧
    (∀ (d : Cmd) (j : CopyJob) (ps qs : List (Nat × Tlb)) (w : State) (a b n : Nat), s.eng.cmd = some d → d.owner = none → d.job = some (.copy j) →
      j.pieces = [⟨.va a, .va b, n⟩] → j.fold = true → j.init = none → j.exp = none → j.remote = none → j.tile = none → nbit 63 w.mc.inj.toNat = false →
      w.at_ = s.at_ → w.eng.cmd = some d → Reaches d (CopyEnd.vas n (.va a)) (CopyEnd.vas n (.va b)) ps qs s w →
      partCell ps (CopyEnd.vas n (.va a)) = none → partCell qs (CopyEnd.vas n (.va b)) = none →
      ∃ v, exec .evCopyComplete s = .next v ∧ v.eng.crcOf w.engAsid = crcFold (w.eng.crcOf w.engAsid)
        ((upto n).map fun i => engByte (copyGroup w qs (.va b) i) ps w ((a + i) % 2 ^ 64))) ∧
    (crcFold 0xFFFFFFFF ((upto 9).map fun i => BitVec.ofNat 8 (0x31 + i)) ^^^ 0xFFFFFFFF#32 = 0xE3069283) ∧
    (∀ (d : Cmd) (j : CopyJob) (id : Nat), s.eng.cmd = some d → d.job = some (.copy j) → j.sent = some id →
      s.copyAbsent s.at_.core s.at_.eng id = setCmd { d with job := some (.copy { j with sent := none, again := some (s.cyc + 21000) }) } s) ∧
    (∀ (j : CopyJob) (due : Word) (d : Coord), s.eng.cmd = some { c with job := some (.copy j) } → j.again = some due → j.remote = some d →
      (s.cyc.toNat < due.toNat → exec .evCopyResend s = .next s) ∧
      (due.toNat ≤ s.cyc.toNat → exec .evCopyResend s = .next (remoteCopy { c with job := some (.copy { j with again := none }) }
        { j with again := none } d (s.setCopy s.at_.core s.at_.eng { j with again := none }))))

-- The steps that no line and no word makes.

/-- The ends of waits and what queues do (R36, R43, R45, R48 to R50, R53, R57, R58, R124, R139, R143, R161, R221, R232, R254, R289, R292,
R313, R331 to R333, R34, R38, R39, R368, R369, R370): a wait ends once its condition stands; a boundary trap enters the handler; a queue's head issues with
its values on the stack; a folio issues whole once its ports have granted it, as one of NOP and ADD lines does; a step whose condition does not stand
changes nothing. The model's readings: an LWAIT whose page does not translate is not met, and holds its walk until XRETRY (log entry 101); a promise
miss waits for the end of a handler (60); a boundary trap saves the line of the cluster's own column (19); the drought trap does not restart the count
(73); a copy that a helper placed carries no promise of its own, and counts in that of the next command (63); the waits
of a folio's lines look at the state before it, and a trap that only arises within it stops it whole (131). -/
def Obligations.WaitsAndQueues : Prop :=
  ∀ s : State,
    (let go := s.onClu fun c => { c with hold := .none }
     let idle := fun e : Eng => (s.core.eng[e]).cmd = none ∧ (s.core.eng[e]).queue = [] ∧ (s.core.eng[e]).pulse = none
     (∀ m, s.clu.hold = .ccwait m → exec .evCcwaitRelease s = .next (if s.core.cc &&& m = m then go else s)) ∧
     (∀ t, s.clu.hold = .sleep t → exec .evSleepuntilWake s = .next (if t.toNat ≤ s.cyc.toNat then go else s)) ∧
     (∀ m, s.clu.hold = .widle m →
       ((∀ e : Eng, m.getLsbD e.val = true → idle e) → exec .evWidleComplete s = .next go) ∧
       (¬(∀ e : Eng, m.getLsbD e.val = true → idle e) → exec .evWidleComplete s = .next s)) ∧
     (∀ m, s.clu.hold = .rdv m →
       ((∀ e : Eng, m.getLsbD e.val = true → (s.core.eng[e]).mark = true) → exec .evRdvComplete s = .next go) ∧
       (¬(∀ e : Eng, m.getLsbD e.val = true → (s.core.eng[e]).mark = true) → exec .evRdvComplete s = .next s)) ∧
     (∀ h k, s.clu.hold = .ttake h k → exec .evTtakeComplete s = .next (if s.named s.at_.core s.core.asid h k then s else go)) ∧
     (∀ d va thr a w, s.clu.hold = .lwait d va thr a w none →
       (let decided := fun (ok : Bool) (t : State) => t.onClu fun c => { c with hold := .lwait d va thr a w (some (ok, s.cyc + 2)) }
        let late := d < 2 ^ 64 - 1 ∧ d ≤ s.datum.toNat
        let unmet := exec .evLwaitPass s = .next s ∧ exec .evLwaitTimeout s = .next (if late then decided false s else s)
        (w.isSome = true → unmet) ∧
        (∀ t u, w = none → xlatePage a va s = (.ok t, u) →
          (let off := (placeIn t va).2 - latBase
           let met := t.tt = 4 ∧ t.r = true ∧ latPassed t.ltype.toNat (u.cellSeen (off / 65536) (off % 65536) t.ltype.toNat) thr = true
           (met → exec .evLwaitPass s = .next (decided true u) ∧ exec .evLwaitTimeout s = .next s) ∧ (¬met → unmet))) ∧
        ((∀ t u, xlatePage a va s ≠ (.ok t, u)) → unmet))) ∧
     (∀ d va thr a w x, s.clu.hold = .lwait d va thr a w (some x) → exec .evLwaitPass s = .next s ∧ exec .evLwaitTimeout s = .next s)) ∧
    (s.core.run.isSome = true → s.core.haltd = false → s.clu.halted = false →
      (∀ b rest, s.nextBoundary = some (b, rest) → s.clu.hm = false → s.core.tvec.getLsbD 0 = true → s.core.preReq = false →
        (b.tr.cause ≠ 0x08 → ∃ t, exec .evBoundaryTrap s = .next t ∧ Entered b.tr (s.clu.pc + BitVec.ofNat 64 (16 * s.at_.clu.val)) s t ∧
          t.clu.pendTrap = rest ∧ t.clu.stoppedEng = b.eng) ∧
        (b.tr.cause = 0x08 → ∀ e p, s.revised b.tr = some (e, p) → ∃ t, exec .evBoundaryTrap s = .next t ∧
          Entered { b.tr with a2 := p } (s.clu.pc + BitVec.ofNat 64 (16 * s.at_.clu.val)) s t ∧ t.clu.pendTrap = rest ∧
          (∀ c, (s.core.eng[e]).cmd = some c → p = s.cyc + BitVec.ofNat 64 (64 + ceilDiv c.unperformed 64 + 1400 * c.hops) ∧
            (t.core.eng[e]).cmd = some { c with promise := some p }))) ∧
      (8192 ≤ s.clu.drought → s.clu.dfired = false → s.core.tvec.getLsbD 0 = true → exec .evSafePointDrought s =
        .next (s.onClu fun c => { c with dfired := true, pendTrap := c.pendTrap ++ [{ tr := { cause := 0x0D, a0 := BitVec.ofNat 64 s.clu.drought } }] })) ∧
      (s.clu.drought < 8192 ∨ s.clu.dfired = true → exec .evSafePointDrought s = .next s)) ∧
    (s.nextBoundary = none → exec .evBoundaryTrap s = .next s) ∧
    (∀ e es f bs ps t, s.core.run.isSome = true → (s.core.left.any fun x => x.clu == s.at_.clu) = false → s.clu.slog = e :: es → e.held = none →
      e.acc = .store f bs → e.attr.ord = .rlx →
      replayPages ⟨s.runKey, s.runWid, s.asid, false⟩ e.attr s (pagesOf (bs.map Prod.fst)) = .ok ps t →
      (placesOf ps (bs.map Prod.fst)).any t.sealed = false → t.acquiring t.at_.core t.at_.clu = false → t.clu.scOut = [] →
      exec .evSideLogReplay s = .next (replayStore ⟨s.runKey, s.runWid, s.asid, false⟩ e.datum f e.attr ps bs (t.onClu fun c => { c with slog := c.slog.drop 1 }))) ∧
    (s.clu.slog = [] → (s.core.left.any fun x => x.clu == s.at_.clu) = false → exec .evSideLogReplay s = .next s) ∧
    (∀ (f : InFlight) (g : Fin 10) (fs : List InFlight), s.inflight = f :: fs → f.ord = .rlx → f.seen = 0 → f.behind = [] → f.held = false → (∀ b ∈ f.bytes, s.sealed b.1 = false) →
      (f.window ≠ 5 ∨ f.scope ≠ .sys) → (∀ h ∈ fs, h.id ≠ f.id ∧ h.seen = 0 ∧ h.rmw = false) →
      ∃ t, exec (.evAccessPerformed f.id g) s = .next t ∧ t.inflight = { f with seen := BitVec.ofNat 10 (2 ^ g.val) } :: fs ∧
        t.mem = s.mem ∧ t.host = s.host) ∧
    (∀ (h : Fin 1024) (t : State), s.reload s.at_.core s.asid h.val = some t → exec (.evHandleReload h) s = .next t) ∧
    (∀ (h : Fin 1024) (e : TileEnt), s.core.tile s.asid.val h.val = some e → e.res = true → exec (.evHandleReload h) s = .next s) ∧
    (∀ (ps : List Presented) (t u : State) (marks : List (Presented × Option TrapRec)),
      s.core.run.isSome = true → s.core.haltd = false → presentedAll s = (some ps, t) →
      (let r : State := { t with at_ := s.at_ }
       let fates := ps.map fun p => (p, tryLine runSyl p.line (p.beginIn ps r))
       let g := fates.foldl folioAsk r
       (ps.all fun p => (r.core.clu[p.clu]).acted.isSome) = false → folioIllegal ps r = false → r.core.preReq = false →
       (∀ p ∈ ps, (∃ after ports, tryLine runSyl p.line (p.beginIn ps r) = .ready after ports) ∧ (r.turnTo p.clu).nextBoundary = none) →
       (folioGranted fates g = false → exec .evFolioIssue s = .next g) ∧
       (∀ p f, folioGranted fates g = true → folioStop runSyl g ps (folioStart ps g) = some (p, f) → exec .evFolioIssue s = .next (stopFolio ps p f g)) ∧
       (folioGranted fates g = true → folioStop runSyl g ps (folioStart ps g) = none → (ps.any (Presented.ending g)) = false →
         folioActs runSyl (folioCtx g) ps (folioStart ps g) = .next (u, marks) → exec .evFolioIssue s = .next (marks.foldl (folioCommit g) u)))) ∧
    (∀ (w : CluId → Nat) (x : CluId → Instr) (d a b : CluId → SReg),
      s.core.run.isSome = true → s.core.haltd = false → s.core.preReq = false → s.core.pstop = false →
      (∀ c : CluId, (let k := s.core.clu[c]
        k.halted = false ∧ k.hm = false ∧ k.replies = [] ∧ k.pendTrap = [] ∧ k.acted = none ∧ k.branch = none ∧ k.forked = none ∧ k.hold = .none ∧
        s.issued.contains (s.at_.core.val, c.val) = false ∧ fetch (s.turnTo c) = .line (w c) (s.turnTo c) ∧
        (x c = .nop ∨ x c = .add 0 (some (d c)) (a c) (b c)) ∧ readLine (w c) k = .ok ⟨true, false, false, false, false, x c, .nop, .nop⟩)) →
      ∃ t, exec .evFolioIssue s = .next t ∧ SameMemory s t ∧ ∀ c : CluId, (let k := s.core.clu[c]
        let e := t.core.clu[c]
        t.issued.contains (s.at_.core.val, c.val) = true ∧ e.hold = .none ∧ e.pc = (k.advance false).pc ∧ (x c = .nop → e.s = k.s) ∧
        (x c = .add 0 (some (d c)) (a c) (b c) → d c ≠ 0 → a c ≠ 0 → b c ≠ 0 →
          e.s[d c] = k.s[a c] + k.s[b c] ∧ ∀ i : SReg, i ≠ d c → e.s[i] = k.s[i]))) ∧
    (∀ c, s.headState s.at_.core s.at_.eng = .ready c →
      (issueFaultOf s s.at_.core s.at_.eng c = none → ∃ t x, exec (.evQueueHeadIssue true) s = .next t ∧ t.eng.cmd = some x ∧ x.spec = c ∧
        x.ip = s.eng.entryAt c.entry % 4096 ∧ x.stk = [c.b, c.a] ∧ x.rstk = [] ∧ x.job = none ∧ x.bound = none ∧ x.issued = s.cyc ∧
        t.eng.queue = (dropWaits s.core.f (s.eng.queue.drop 1)).1 ∧ SameMemory s t ∧
        (¬(16 ≤ s.at_.eng.val ∧ s.at_.eng.val < 20) → x.replied = false ∧ t.clu = s.clu) ∧
        (16 ≤ s.at_.eng.val ∧ s.at_.eng.val < 20 → x.replied = true ∧ t.eng.lastPromise =
          BitVec.ofNat 64 (max s.cyc.toNat s.eng.lastPromise.toNat + 96 + ceilDiv x.left 64 + 1400 * x.hops))) ∧
      (∀ f, issueFaultOf s s.at_.core s.at_.eng c = some f → exec (.evQueueHeadIssue true) s = .next (issueFault f c s))) ∧
    (∀ c h j, s.headState s.at_.core s.at_.eng = .readyCopy c h j → ∃ t x, exec (.evQueueHeadIssue true) s = .next t ∧ t.eng.cmd = some x ∧
      x.spec = c ∧ x.job = some (.copy j) ∧ x.owner = some h ∧ x.promise = none ∧
      t.eng.lastPromise = BitVec.ofNat 64 (max s.cyc.toNat s.eng.lastPromise.toNat + 96 +
        ceilDiv ((j.pieces.map Piece.n).foldl (· + ·) 0) 64 + 1400 * s.copyHops j)) ∧
    (∀ f es, s.eng.queue = .wait f :: es → exec .evWaitEntryRelease s =
      .next (if s.core.f.getLsbD f.val then s.onEng fun g => { g with queue := (dropWaits s.core.f es).1, waitLeft := true } else s)) ∧
    (∀ c b, s.eng.cmd = some c → c.bound = some b → c.job = none → c.owner = none →
      ((s.cyc - c.issued).toNat ≤ b → exec .evEngineOverrun s = .next s) ∧
      ((s.cyc - c.issued).toNat > b → ∃ t, exec .evEngineOverrun s = .next t ∧ t.eng.cmd = none ∧
        (s.liveOn s.at_.core c.spec = true → s.isHelperStrand c.spec = false → s.core.tvec.getLsbD 0 = true → t.eng.stopped = true ∧
          ∃ x ∈ (t.core.clu[c.spec.clu]).pendTrap, x.tr.cause = 0x09 ∧ x.tr.a0 = BitVec.ofNat 64 s.at_.eng.val ∧
            x.tr.a1 = BitVec.ofNat 64 c.spec.pos ∧ x.eng = some s.at_.eng))) ∧
    (∀ c p, s.eng.cmd = some c → c.promise = some p →
      (s.cyc.toNat < p.toNat ∨ (c.unperformed = 0 ∧ c.job = none) → exec .evPromiseMiss s = .next s) ∧
      (p.toNat ≤ s.cyc.toNat → (c.unperformed ≠ 0 ∨ c.job ≠ none) → s.liveOn s.at_.core c.spec = true → s.isHelperStrand c.spec = false →
        s.core.tvec.getLsbD 0 = true → ∃ t, exec .evPromiseMiss s = .next t ∧ t.eng.stopped = s.eng.stopped ∧
          ∃ x ∈ (t.core.clu[c.spec.clu]).pendTrap, x.tr.cause = 0x08 ∧ x.tr.a0 = BitVec.ofNat 64 s.at_.eng.val ∧
            x.tr.a1 = BitVec.ofNat 64 c.spec.pos ∧ x.tr.a2 = s.cyc + BitVec.ofNat 64 (64 + ceilDiv c.unperformed 64 + 1400 * c.hops) ∧
            x.eng = none)) ∧
    (∀ (k : Fin 16) (f : Nat), f < 64 →
      (s.core.xb.due = [(k.val, f)] → exec (.evEvxCounterEvent k) s =
        .next (s.onCore fun c => { c with fSet := c.fSet ||| bitAt 64 f, xb := { c.xb with due := [] } })) ∧
      (s.core.xb.due = [(16 + k.val, f)] → exec (.evEvxTermEdge k) s =
        .next (s.onCore fun c => { c with fSet := c.fSet ||| bitAt 64 f, xb := { c.xb with due := [] } })) ∧
      ((∀ d ∈ s.core.xb.due, d.1 ≠ k.val) → exec (.evEvxCounterEvent k) s = .next s) ∧
      ((∀ d ∈ s.core.xb.due, d.1 ≠ 16 + k.val) → exec (.evEvxTermEdge k) s = .next s))

/-- Records, strands and launches (R17, R22 to R24, R30, R32, R69, R228, R333 to R335, R360, R365 to R367, R376 to R378, R381, R404): what
makes a record READY, which record a core takes, the registers at a strand's start, retirement, halts and resumption, and what the launch
unit does with a packet. A step whose condition does not stand changes nothing. The model's readings: YIELD keeps NUMCTL and FPSTAT (log entry 16);
which words the signature of a member takes (64); a core pops a record before the image is loaded and the strand starts (75); retirement waits for the
record's stores in flight (95); what the launch unit does where a page misses (126). The members that other packages lose, and that they have all
retired there, come from outside (107). -/
def Obligations.RecordsStrandsAndLaunches : Prop :=
  ∀ s : State,
    (∀ r, s.recOf s.at_.lid s.at_.seq = some r →
      (r.state = .pending → s.eligible r = true → ∃ t x, exec .evRecordReady s = .next t ∧ t.recOf r.lid r.seq = some x ∧ x.state = .ready ∧
        x.readyDatum = s.datum ∧ x.readyCode = r.code ∧ x.wid = r.wid ∧ SameMemory s t) ∧
      (¬(r.state = .pending ∧ s.eligible r = true) → exec .evRecordReady s = .next s)) ∧
    (∀ n helper r, s.nextRec n helper = some r → r ∈ s.recs ∧ s.placeable n helper r = true ∧
      ∀ q ∈ s.recs, s.placeable n helper q = true → r.pri < q.pri ∨ (r.pri = q.pri ∧ r.readyStamp ≤ q.readyStamp)) ∧
    (∀ r, s.nextRec s.at_.core false = some r →
      (s.free s.at_.core = true → s.core.admits r.pri = true → ∃ t, exec (.evRecordPop none) s = .next t ∧ t.core.popped = some (r.lid, r.seq) ∧
        (∀ x ∈ t.recs, x.lid = r.lid → x.seq = r.seq → x.state = .running ∧ x.core = some s.at_.core.val) ∧ SameMemory s t) ∧
      (¬(s.free s.at_.core = true ∧ s.core.admits r.pri = true) → exec (.evRecordPop none) s = .next s)) ∧
    (∀ (i : Fin 4) r l, s.nextRec s.at_.core true = some r → s.launch r.lid = some l → s.island.cpres = true →
      s.core.imgTag = some (l.img, l.asid) →
      (let g := s.core.eng[(Fin.ofNat 27 (20 + i.val) : Eng)]
       (¬(g.cmd = none ∧ g.queue = []) → exec (.evRecordPop (some i)) s = .next s) ∧
       (g.cmd = none → g.queue = [] → g.entryAt (r.code / 64 % 128) ≠ 0xFFFF → ∃ t x, exec (.evRecordPop (some i)) s = .next t ∧
         (t.core.eng[(Fin.ofNat 27 (20 + i.val) : Eng)]).cmd = some x ∧ x.stk = [r.wid, BitVec.ofNat 64 r.frame] ∧
         x.ip = g.entryAt (r.code / 64 % 128) % 4096 ∧ x.rstk = [] ∧ x.spec.lid = r.lid ∧ x.spec.seq = r.seq))) ∧
    (∀ l, s.wantedLaunch s.at_.core = some l →
      (l.held = true → exec .evImageLoad s = .next s) ∧
      (l.held = false → s.core.imgTag ≠ some (l.img, l.asid) →
        (s.core.enginesFree = false ∨ s.island.cpres = false → exec .evImageLoad s = .next s) ∧
        (s.core.enginesFree = true → s.island.cpres = true → ∀ ps t, s.programs (Fin.ofNat 64 l.asid) l.tag l.img = (.ok ps, t) →
          exec .evImageLoad s = .next (t.loadPrograms s.at_.core (Fin.ofNat 64 l.asid) l.img ps) ∧
          ((t.loadPrograms s.at_.core (Fin.ofNat 64 l.asid) l.img ps).cores[s.at_.core]).imgTag = some (l.img, l.asid % 64))) ∧
      (l.held = false → s.core.imgTag = some (l.img, l.asid) → exec .evImageLoad s =
        .next (if s.core.popped.isSome && !(l.statics.any fun p => p.1 == s.at_.core.val) then s.placeStatics s.at_.core l else s))) ∧
    (s.wantedLaunch s.at_.core = none → exec .evImageLoad s = .next s) ∧
    (∀ l r, s.startable s.at_.core = some (l, r) → s.startGroup s.at_.core = [s.at_.core] → ∃ t, exec .evStrandStart s = .next t ∧
      (∃ x, t.core.run = some x ∧ x.lid = r.lid ∧ x.seq = r.seq ∧ x.wid = r.wid ∧ x.startDatum = s.datum) ∧
      t.core.numctl = (match r.held with | some h => h.1 | none => l.numctl) ∧
      t.core.fpstat = (match r.held with | some h => h.2 | none => 0) ∧ t.core.memdef = 0x40 ∧ t.core.agectl = 0x0FF55 ∧ t.core.tvec = l.tvec ∧
      t.core.cc = 0 ∧ t.core.popped = none ∧
      ∀ c : CluId, (t.core.clu[c]).pc = BitVec.ofNat 64 r.code ∧ (t.core.clu[c]).hm = false ∧ (t.core.clu[c]).rrb = 0 ∧
        (t.core.clu[c]).s[1] = BitVec.ofNat 64 r.frame ∧ (t.core.clu[c]).s[2] = r.wid ∧ (t.core.clu[c]).s[3] = BitVec.ofNat 64 (r.seq % 65536) ∧
        (t.core.clu[c]).s[4] = BitVec.ofNat 64 l.descBase ∧ (t.core.clu[c]).s[5] = BitVec.ofNat 64 l.codeBase ∧
        (t.core.clu[c]).s[62] = BitVec.ofNat 64 (l.stk + s.at_.core.val * l.sz + (c.val + 1) * (l.sz / 4)) ∧
        ∀ i : Fin 64, i.val ∉ [1, 2, 3, 4, 5, 62] → (t.core.clu[c]).s[i] = 0) ∧
    (s.core.popped = none → exec .evStrandStart s = .next s) ∧
    (∀ r, s.recOf s.at_.lid s.at_.seq = some r → (∀ l, s.launch r.lid = some l → r.seq < l.nextSeq) →
      (let n : CoreId := Fin.ofNat 32 (r.core.getD 0)
       let busy := ∃ m, s.outstanding m r.lid r.seq = true
       let staged := (s.cores[n]).staging.any fun b => b.lid == r.lid && b.seq == r.seq
       let flying := s.inflight.any fun f => f.who == some (r.lid, r.seq)
       (r.state ≠ .draining ∨ busy → exec .evRecordRetire s = .next s) ∧
       (r.state = .draining → ¬busy → staged = true → exec .evRecordRetire s = .next (s.drainStaged n r.lid r.seq) ∧
         ∀ b ∈ ((s.drainStaged n r.lid r.seq).cores[n]).staging, ¬(b.lid = r.lid ∧ b.seq = r.seq)) ∧
       (r.state = .draining → ¬busy → staged = false → flying = true → exec .evRecordRetire s = .next s) ∧
       (r.state = .draining → ¬busy → staged = false → flying = false → ∃ t x, exec .evRecordRetire s = .next t ∧ t.recOf r.lid r.seq = some x ∧
         x.state = .retired ∧ ∀ l, s.launch r.lid = some l → ∃ m, t.launch r.lid = some m ∧ m.nret = l.nret + (if r.member then 1 else 0) ∧
           m.fp = l.fp ||| r.fp ∧ m.ended = (if r.member then s.datum else l.ended) ∧
           m.sigs = (if r.member then l.sigs ++ [(r.wid, crc64 r.sig.words)] else l.sigs)))) ∧
    (∀ r x y, s.core.run = some r → s.recOf r.lid r.seq = some x → s.nextRec s.at_.core false = some y →
      exec .evPreemptionRequest s = .next (if y.pri < x.pri then s.onCore fun k => { k with preReq := true } else s)) ∧
    (s.core.run.isSome = true → exec .evPreempt s = .next (s.onCore fun k => { k with preReq := true })) ∧
    (s.core.run = none → exec .evPreempt s = .next s ∧ exec .evPreemptionRequest s = .next s) ∧
    (∀ r x, s.core.run = some r → s.recOf r.lid r.seq = some x →
      ((∀ c : CluId, (s.core.clu[c]).halted = true) → ∃ t v y, exec .evCoreHalt s = .next t ∧ t.core.run = none ∧ v ∈ t.core.saved ∧ v.run = r ∧
        v.pri = x.pri ∧ v.asid = s.core.asid ∧ v.clusters = s.core.endCycle.clu ∧ v.tvec = s.core.endCycle.tvec ∧ v.numctl = s.core.endCycle.numctl ∧
        v.debug = s.core.dbgHalted ∧ t.core.haltd = s.core.dbgHalted ∧ t.recOf r.lid r.seq = some y ∧ y.state = .preempted) ∧
      ((∃ c : CluId, (s.core.clu[c]).halted = false) → s.pkg.dump = none → exec .evCoreHalt s = .next s)) ∧
    (∀ v u l, (s.core.saved.filter fun v => s.core.saved.all fun w => decide (v.pri ≤ w.pri)).head? = some v → s.free s.at_.core = true →
      s.dumping s.at_.core = false → v.debug = false → (∀ r, s.nextRec s.at_.core false = some r → v.pri ≤ r.pri) →
      s.launch v.run.lid = some l → s.core.imgTag = some (l.img, l.asid) → (s.makeWay s.at_.core v.asid).giveBack s.at_.core v = some u →
      ∃ t, exec .evResume s = .next t ∧ t.core.run = some v.run ∧ t.core.numctl = v.numctl ∧ t.core.tvec = v.tvec ∧ t.core.asid = v.asid ∧
        t.core.cc = v.cc ∧ t.core.f = v.f ||| v.recorded.flags ∧ t.core.fpstat = v.fpstat ||| v.recorded.fp.setWidth 64) ∧
    (s.core.saved = [] → exec .evResume s = .next s) ∧
    (s.core.haltd = true → exec .evCctlResume s =
      .next (s.onCore fun k => { k with haltd := false, saved := k.saved.map fun v => { v with debug := false } })) ∧
    (s.core.haltd = false → exec .evCctlResume s = .next s) ∧
    (let a := s.at_.asid
     let c := s.ctxs[a]
     let bs := s.getPhys (c.ringbase + 128 * (c.cons % 2 ^ c.rlog)) 128
     let l := launchOf bs (s.ids + 1) c.cons a.val ((s.chipSet (pField bs 76 2)).getD (1, 0))
     let s0 := ({ s with ids := s.ids + 1 }.readsPhys (c.ringbase + 128 * (c.cons % 2 ^ c.rlog)) 128).readsSet (pField bs 76 2)
     (s.weak = [] → s0 = { s with ids := s.ids + 1 }) ∧
     (c.active = false ∨ s.island.cpres = false → exec .evLaunchPacket s = .next s) ∧
     (c.active = true → s.island.cpres = true →
       (c.lseq.toNat ≤ c.cons ∨ c.pktHeld = true → exec .evLaunchPacket s = .next s.feedAll) ∧
       (c.cons < c.lseq.toNat → c.pktHeld = false →
         (∀ m t, checkPacket l bs s0 = .ok m t →
           exec .evLaunchPacket s = .next ({ t with launches := t.launches ++ [m] }.consume a).feedAll) ∧
         (let refuse := fun (k : Nat) (t : State) => ({ t.launchFault a l.tag k c.cons with
             launches := (t.launchFault a l.tag k c.cons).launches ++ [{ l with status := 3 }] }.consume a).feedAll
          (∀ k t, checkPacket l bs s0 = .refused k t → exec .evLaunchPacket s = .next (refuse k t)) ∧
          (∀ va t, checkPacket l bs s0 = .miss va t → exec .evLaunchPacket s =
            .next (if c.pktDeclined then refuse 3 t else ((t.postUnit a l.tag va 0).onCtx a fun c => { c with pktHeld := true, pktAsked := true }).feedAll))) ∧
         (∀ t, checkPacket l bs s0 = .mig t → exec .evLaunchPacket s = .next (t.onCtx a fun c => { c with pktHeld := true }).feedAll) ∧
         (checkPacket l bs s0 = .wait → exec .evLaunchPacket s = .next s))) ∧
     (∀ m, (s.launches.find? fun l => l.asid == a.val && s.launchOver l && !l.held) = some m →
       (m.nchips = 1 ∨ m.status = 3 ∨ m.peers.isSome = true) ∧
       (∀ t x, s.writeVirt a m.tag m.compl (m.tally.record m.tally.finalStatus) = (.ok t, x) → exec .evLaunchComplete s = .next (completeLaunch m t).feedAll) ∧
       (∀ va t, s.writeVirt a m.tag m.compl (m.tally.record m.tally.finalStatus) = (.miss va, t) → exec .evLaunchComplete s =
         .next ((t.postUnit a m.tag va 1).onLaunch m.lid fun l => { l with held := true, asked := true })) ∧
       (∀ t, s.writeVirt a m.tag m.compl (m.tally.record m.tally.finalStatus) = (.mig, t) → exec .evLaunchComplete s =
         .next (t.onLaunch m.lid fun l => { l with held := true, asked := false }))) ∧
     ((s.launches.find? fun l => l.asid == a.val && s.launchOver l && !l.held) = none → exec .evLaunchComplete s = .next s))

/-- The race dies, the patrol, the exchange between dies, thermal control and resets (R92, R340, R351 to R353, R355, R371, R379, R392 to
R395, R399 to R402, R164, R416, R417, R430, R432, R433): registers take what they accept, grants go only to tiles that request, a levelling
commits or fails, no cell goes down in an exchange round, and a compute reset clears the cores and keeps the island. The model's readings: a write of
one ramp register is checked against what the other will hold (log entry 79), what a compute reset clears and keeps of the trace, the launches and
the rest (58), and which die a thermal record names (138). -/
def Obligations.DiesExchangeAndResets : Prop :=
  ∀ s : State,
    exec .evFillerStroke s = .next s ∧
    (s.cyc.toNat % 4 ≠ 0 ∨ s.island.cpres = false → exec .evSlewStep s = .next s) ∧
    (s.cyc.toNat % 4 = 0 → s.island.cpres = true → ∃ t, exec .evSlewStep s = .next t ∧ SameMemory s t ∧ t.cores = s.cores ∧
      (t.rdie[s.dieId]).prev = t.slewLevel s.dieId ∧
      (∀ x : TileId, dieOfTile x ≠ s.dieId → t.tile[x] = s.tile[x]) ∧
      ∀ x : TileId, (t.tile[x]).granted = true → (s.tile[x]).granted = false → s.requests (coreOfTile x) (engOfTile x) = true) ∧
    (∀ v : Word,
      (let d := s.dieId
       let x := s.rdie[d]
       (rampOk v (x.pendH.getD x.ramph) = true → exec (.evSlewRegisterWrite 0 v) s = .next (s.onRDie d fun x => { x with pendL := some v })) ∧
       (rampOk (x.pendL.getD x.rampl) v = true → exec (.evSlewRegisterWrite 1 v) s = .next (s.onRDie d fun x => { x with pendH := some v })) ∧
       (1 ≤ v.toNat % 128 → v.toNat % 128 ≤ 64 → exec (.evSlewRegisterWrite 2 v) s = .next (s.onRDie d fun x => { x with pendD := some (v.setWidth 7) })) ∧
       (¬(1 ≤ v.toNat % 128 ∧ v.toNat % 128 ≤ 64) → exec (.evSlewRegisterWrite 2 v) s = .next (s.refusedWrite (regOff (32 + d.val) 0x802) v.toNat)) ∧
       (bits 47 24 v.toNat ≠ 0 → 16 ≤ bits 20 16 v.toNat → bits 15 8 v.toNat ≠ 0 → bits 7 0 v.toNat ≠ 0 → v.getLsbD 62 = false →
         exec (.evLevellingRequestWrite v) s = .next (s.onRDie d fun x => { x with ruthr := BitVec.ofNat 24 (bits 47 24 v.toNat)
                                                                                   ruwin := BitVec.ofNat 5 (bits 20 16 v.toNat)
                                                                                   dt := BitVec.ofNat 8 (bits 15 8 v.toNat)
                                                                                   period := BitVec.ofNat 8 (bits 7 0 v.toNat) })) ∧
       (bits 47 24 v.toNat = 0 → exec (.evLevellingRequestWrite v) s = .next (s.refusedWrite (regOff (32 + d.val) 0x803) v.toNat))) ∧
      (s.at_.eng.val < 16 → bits 56 48 v.toNat ≤ 300 → ∃ t, exec (.evTrimTargetWrite v) s = .next t ∧
        (t.tile[s.tileId]).tgt = BitVec.ofNat 9 (bits 56 48 v.toNat) ∧ (t.tile[s.tileId]).pending = true) ∧
      (s.at_.eng.val < 16 → bits 56 48 v.toNat > 300 →
        exec (.evTrimTargetWrite v) s = .next (s.refusedWrite (regOff (32 + s.tileId.val / 64) (0xC00 + s.tileId.val % 64)) v.toNat))) ∧
    (let x := s.tile[s.tileId]
     s.at_.eng.val < 16 →
      (((s.rdie[dieOfTile s.tileId]).period.toNat * 1000000 ≤ (s.datum - x.began).toNat →
          exec .evLevellingPeriodExpiry s = .next (s.requestLevel s.tileId)) ∧
       (¬((s.rdie[dieOfTile s.tileId]).period.toNat * 1000000 ≤ (s.datum - x.began).toNat) → exec .evLevellingPeriodExpiry s = .next s)) ∧
      (∀ temp : BitVec 16, ∃ t, exec (.evTemperatureSample temp) s = .next t ∧ (t.tile[s.tileId]).temp = temp ∧ (t.tile[s.tileId]).pending =
        (x.pending || decide ((temp.toInt - x.tlvl.toInt).natAbs > 4 * (s.rdie[dieOfTile s.tileId]).dt.toNat))) ∧
      (s.power = true → s.levelDue s.tileId = true → x.lvl = false → x.dead = false → s.eng.cmd = none → x.granted = false → s.stepTaken s.tileId = false →
        ∃ t, exec .evLevellingStart s = .next t ∧ (t.tile[s.tileId]).lvl = true ∧ (t.tile[s.tileId]).pending = false ∧
          (t.tile[s.tileId]).began = s.datum) ∧
      (x.lvl = true ∨ x.dead = true → exec .evLevellingStart s = .next s) ∧
      ∀ (counts : List Nat) (g : BitVec 12) (p n : BitVec 8), (x.lvl = false → ∀ ok, exec (.evLevellingCommit ok counts g p n) s = .next s) ∧
        (let target := (2000000 / (900 + x.tgt.toNat) + 1) / 2
         (ringCounts target 4 counts = none → ∀ ok, exec (.evLevellingCommit ok counts g p n) s = .next s) ∧
         ∀ cs, x.lvl = true → ringCounts target 4 counts = some cs →
          (∃ t, exec (.evLevellingCommit true counts g p n) s = .next t ∧ (let y := t.tile[s.tileId]
            y.lvl = false ∧ y.fail = false ∧ y.vgain = g ∧ y.offp = p ∧ y.offn = n ∧ y.tlvl = x.temp ∧
            ∀ b : Nat, b < 4096 → (b : Int) = x.bias.toNat + 3 * (cs.map fun c : Nat => (c : Int) - target).sum → y.bias = BitVec.ofNat 12 b)) ∧
          (∃ t, exec (.evLevellingCommit false counts g p n) s = .next t ∧ (let y := t.tile[s.tileId]
            y.lvl = false ∧ y.fail = true ∧ y.bias = x.bias ∧ y.vgain = x.vgain ∧ y.offp = x.offp ∧ y.offn = x.offn ∧
            y.dead = (x.dead || x.fail))))) ∧
    (∀ (ch : Fin 256) (raced : List (Fin 32)),
      (let d : RaceDie := Fin.ofNat 8 (ch.val / 32)
       let row := match s.patrol.find? fun p => p.1 == ch.val with | some p => p.2 | none => 0
       let place := fun i : Fin 32 => linOf ch.val (2048 * row + 64 * i.val)
       let logs := fun k : Nat => ∃ j w, j < 64 * 2 ^ s.mc.rllog.toNat ∧ placeOf (s.mc.rlbase.toNat + j) = some (w, k)
       let went := (s.patrol.filter fun p => p.1 != ch.val) ++ [(ch.val, (row + 1) % 1048576)]
       ((s.rdie[d]).paten = false → ∀ c u, exec (.evPatrolVisit ch c u raced) s = .next s) ∧
       ((s.rdie[d]).paten = true → s.island.cpres = true → row < 1048576 →
         (∀ u : List (Fin 32), s.power = true → (∀ i ∈ u, s.badAt (place i) = false) → (∀ i : Fin 32, ∀ j < 64, ¬logs (place i + j)) → ∃ t, exec (.evPatrolVisit ch [] u raced) s = .next t ∧
           t.patrol = went ∧ ∀ i ∈ u, (place i, 64) ∈ t.bad) ∧
         ((∀ i : Fin 32, s.badAt (place i) = false ∧ ∀ w ∈ s.weak, w.place ≠ place i ∧ (w.place + w.size ≤ place i ∨ place i < w.place)) →
           exec (.evPatrolVisit ch [] [] raced) s = .next { s with patrol := went } ∧
           (s.power = true → (∀ k, logs k → s.badAt k = false) → ∀ i : Fin 32, ∃ t, exec (.evPatrolVisit ch [i] [] raced) s = .next t ∧ t.patrol = went ∧
             (∀ k, t.badAt k = s.badAt k) ∧
             t.weak = s.weak ∧ (t.rdie[d]).cecnt = (s.rdie[d]).cecnt + 1 ∧
             (t.rdie[d]).patskip = (s.rdie[d]).patskip + (if raced.contains i then 1 else 0)))))) ∧
    (s.island.cpres = true → ∃ t, exec .evExchangeRound s = .next t ∧ SameMemory s t ∧
      (s.pkg.round < bits 2 0 s.pkg.xctl.toNat → t.pkg.round = s.pkg.round + 1 ∧ t.pkg.xctl = s.pkg.xctl ∧ t.pkg.xsched = s.pkg.xsched) ∧
      (bits 2 0 s.pkg.xctl.toNat ≤ s.pkg.round → t.pkg.round = 0 ∧ t.pkg.xpend = []) ∧
      ∀ die slot off r, s.slotRec slot = some r → r.ltype.toNat < 6 →
        latJoin r.ltype.toNat (s.latGet die slot off r.ltype.toNat) (t.latGet die slot off r.ltype.toNat) = t.latGet die slot off r.ltype.toNat) ∧
    (∀ (i : Fin 8) (v : Word),
      (schedOk v = true → exec (.evXschedWrite (some i) v) s = .next { s with pkg := { s.pkg with xpend := s.pkg.xpend ++ [(i.val, v &&& 0xFFFFFFFFFF#64)] } }) ∧
      (schedOk v = false → exec (.evXschedWrite (some i) v) s = .next (s.refusedWrite (regOff 40 (0x821 + i.val)) v.toNat)) ∧
      (bits 15 8 v.toNat ≠ 0 → exec (.evXschedWrite none v) s = .next { s with pkg := { s.pkg with xpend := s.pkg.xpend ++ [(8, v &&& 0xFF07#64)] } })) ∧
    (∀ (d : HotDies) (watts flow tin : BitVec 16),
      (let top := if d.temp.toInt < d.rtemp.toInt then d.rtemp else d.temp
       (top.toInt < 1760 → ∃ t, exec (.evThermalSample d watts flow tin) s = .next t ∧ t.mc.tmax = top ∧ t.mc.pwr = watts ∧
         t.mc.flow = flow ∧ t.mc.tin = tin ∧ t.mc.cap = nextCap s.mc.cap d.rtemp.toInt watts.toNat s.mc.pcap.toNat ∧ t.power = s.power) ∧
       (1760 ≤ top.toInt → s.power = true → ∃ t, exec (.evThermalSample d watts flow tin) s = .next t ∧ t.power = false ∧
         t.hostLink = none ∧ t.island.cpres = false ∧ t.mc.trips = s.mc.trips + 1))) ∧
    (s.power = true →
      let cleared := fun (t : State) => t.island.cpres = false ∧ t.cyc = 0 ∧ (∀ n : CoreId, t.cores[n] = Core.reset) ∧ t.launches = [] ∧
        t.recs = [] ∧ t.lat = [] ∧ t.tlb = [] ∧ t.wcache = [] ∧ t.inflight = [] ∧ t.trace = Trace.reset ∧ t.island.datum = s.island.datum ∧
        (∀ c ∈ t.mem, c.1 < linTop) ∧
        t.island.state = (if s.island.state = .attached then .draining else s.island.state)
      (∃ t, exec .evComputeReset s = .next t ∧ cleared t ∧ t.power = true) ∧
      (s.hostLink.isSome = true → ∃ t, exec .evFunctionLevelReset s = .next t ∧ cleared t ∧ t.power = true ∧ t.hostLink = s.hostLink) ∧
      (∃ t, exec .evComputeRailLoss s = .next t ∧ cleared t ∧ t.power = false ∧ t.hostLink = none)) ∧
    (s.power = false → exec .evComputeReset s = .next s ∧ exec .evComputeRailLoss s = .next s ∧ exec .evFunctionLevelReset s = .next s ∧
      (s.island.state = .off ∨ s.island.state = .train → exec .evComputeRailUp s = .next s) ∧
      (s.island.state ≠ .off → s.island.state ≠ .train → ∃ t, exec .evComputeRailUp s = .next t ∧ t.power = true ∧
        ∀ x : TileId, (t.tile[x]).fenced = s.mcFence x ∧ (t.tile[x]).pending = !(s.mcFence x))) ∧
    (s.power = true → (∀ x : TileId, (s.tile[x]).fenced = true ∨ (s.tile[x]).dead = true ∨ ((s.tile[x]).pending = false ∧ (s.tile[x]).lvl = false)) →
      exec .evComputeResetComplete s = .next { s with island := { s.island with cpres := true } }) ∧
    (∀ x : TileId, (s.tile[x]).fenced = false → (s.tile[x]).dead = false → (s.tile[x]).pending = true ∨ (s.tile[x]).lvl = true →
      exec .evComputeResetComplete s = .next s) ∧
    (∀ gen7 wide, s.island.cpres = true → exec (.evPcieLinkTrains gen7 wide) s = .next { s with hostLink := some (gen7, wide) }) ∧
    (∀ gen7 wide, s.island.cpres = false → exec (.evPcieLinkTrains gen7 wide) s = .next s) ∧
    (s.hostLink.isSome = true → s.island.state ≠ .off → exec .evPtmDialogue s = .next { s with island := { s.island with dptm := s.island.datum } })

/-- The transit island (R323, R416 to R429): its states and their transitions, the datum that goes on through its loss, its alignment and
its offset, links, packets received, forwarded and admitted, and the system exchange of a port. The model's readings: the bytes that a packet of class
0 takes from its bucket (log entry 52), ABSENT with reason 3 in TRAIN (53), what an island reset clears (89), when LOCK is set and how SKEW is rounded
(90), that the 1 ms of the replays ends with each replay (8), and which neighbour is a chip's parent (136). -/
def Obligations.TheTransitIsland : Prop :=
  ∀ s : State,
    (s.island.state = .off → ∃ t, exec .evIslandRailUp s = .next t ∧ t.island.state = .train ∧ ∀ k : PortId, (t.island.ports[k]).lstate = 1) ∧
    (s.island.state ≠ .off → exec .evIslandRailUp s = .next s) ∧
    (∃ t, exec .evIslandRailLoss s = .next t ∧ t.island.state = .off ∧ t.datum = s.datum ∧ t.cores = s.cores) ∧
    (s.island.state = .forwardOnly → s.island.cpres = true → ∃ t, exec .evAttach s = .next t ∧ t.island.state = .attached ∧ t.island.shadowing = false) ∧
    (¬(s.island.state = .forwardOnly ∧ s.island.cpres = true) → exec .evAttach s = .next (s.refusedWrite (regOff 41 0x801) (2 ^ 60))) ∧
    (s.island.state = .attached → exec .evDetach s = .next { s with island := { s.island with state := .draining } }) ∧
    (s.island.state ≠ .attached → exec .evDetach s = .next (s.refusedWrite (regOff 41 0x801) (2 * 2 ^ 60))) ∧
    (∃ t, exec .evIslandReset s = .next t ∧ t.island.state = .train ∧ t.datum = s.datum ∧ t.island.datum = s.island.datum ∧
      t.island.cpres = s.island.cpres ∧ (∀ k : PortId, (t.island.ports[k]).lstate = 1) ∧
      (s.island.inbox = [] → t.island.resend = s.island.resend ∧ ∀ k : PortId, (t.island.ports[k]).wait0 = (s.island.ports[k]).wait0)) ∧
    (s.island.state = .draining → s.island.outbound = false → exec .evIslandDrainEnd s = .next { s with island := { s.island with state := .forwardOnly } }) ∧
    (s.island.state ≠ .draining ∨ s.island.outbound = true → exec .evIslandDrainEnd s = .next s) ∧
    (s.island.state = .train → s.island.root = true ∨ s.island.ext = ⟨1, 1, 1, 1⟩ ∨
        (s.island.lock = true ∧ ∃ k : PortId, (s.island.ports[k]).lstate = 2) → ∃ t, exec .evTrainComplete s = .next t ∧
      t.island.state = .forwardOnly ∧ t.island.lock = true) ∧
    (s.island.state = .train → s.island.root = false → s.island.ext ≠ ⟨1, 1, 1, 1⟩ → s.island.lock = false → exec .evTrainComplete s = .next s) ∧
    (s.island.state ≠ .off →
      (let k := s.at_.port
       (s.island.unused k = false → ∃ t, exec .evPortUp s = .next t ∧ (t.island.ports[k]).lstate = 2 ∧ t.island.state = s.island.state) ∧
       (∃ t, exec .evLinkDown s = .next t ∧ (t.island.ports[k]).lstate = 0 ∧ t.island.state = s.island.state) ∧
       (∃ t, exec .evRetrainPort s = .next t ∧ (t.island.ports[k]).lstate = 1 ∧ (t.island.ports[k]).retrain = (s.island.ports[k]).retrain + 1) ∧
       ((s.island.ports[k]).lstate = 2 →
         (∀ more : Nat, ∃ t, exec (.evFlitReplay more) s = .next t ∧
           (t.island.ports[k]).replay = (s.island.ports[k]).replay + BitVec.ofNat _ (more + 1) ∧
           (let within := ((s.island.ports[k]).recent.filter fun d => decide ((s.datum - d).toNat < 1000000)).length + (more + 1)
            (within ≤ 1024 → (t.island.ports[k]).lstate = 2 ∧ (t.island.ports[k]).retrain = (s.island.ports[k]).retrain) ∧
            (1024 < within → (t.island.ports[k]).lstate = 1 ∧ (t.island.ports[k]).retrain = (s.island.ports[k]).retrain + 1))) ∧
         (∀ p : Packet,
           (let near := (∃ b, p.body = .status b) ∨ ∃ b, p.body = .timing b
            (p.dst = s.island.me ∨ near → exec (.evPacketArrival p) s = .next (s.receive k p)) ∧
            (p.dst ≠ s.island.me → ¬near → s.island.state ≠ .train → exec (.evPacketArrival p) s = .next (s.sendPacket p)) ∧
            (p.dst ≠ s.island.me → ¬near → s.island.state = .train → exec (.evPacketArrival p) s = .next (s.answerAbsent p 3)) ∧
            (∀ id n e why, p.dst = s.island.me → p.body = .absent id n e why → exec (.evPacketArrival p) s = .next (s.copyAbsent n e id)))) ∧
         (∃ t fs, exec .evSystemExchangeRound s = .next t ∧ (t.island.ports[k]).sent = (s.island.ports[k]).sent ++
             ⟨s.island.me, s.island.neighbour k, false, [], [], .status (s.island.state == .attached && s.island.cpres)⟩ :: fs ∧
           ((s.island.state ≠ .attached ∨ s.island.cpres = false ∨ (s.island.ports[k]).ncpres = false) → fs = [])) ∧
         (∀ (pd : Word) (sixteenths : Fin 16) (root : Coord), s.island.root = false → s.island.ext ≠ ⟨1, 1, 1, 1⟩ →
           (s.island.towards root ≠ some k → exec (.evDatumAlign ⟨pd, sixteenths, root⟩) s = .next s) ∧
           (s.island.towards root = some k → s.island.state = .train → s.island.trained = false →
             ∃ t, exec (.evDatumAlign ⟨pd, sixteenths, root⟩) s = .next t ∧ t.island.datum = pd ∧ t.island.lock = true ∧
             t.island.parent = k ∧ t.island.skew = 0) ∧
           (s.island.towards root = some k → s.island.trained = true → ∃ t, exec (.evDatumAlign ⟨pd, sixteenths, root⟩) s = .next t ∧
             t.island.datum = s.island.datum ∧ t.island.parent = k ∧
             (let off : Int := 16 * (s.island.datum - pd).toInt + (s.island.frac * 16 / 21000000000 : Nat) - (sixteenths.val : Int)
              t.island.slew = -off * 1312500000 ∧ t.island.skew = sat32 off ∧ (off.natAbs ≤ 32 → t.island.lock = true))))) ∧
       (∀ p ps, (s.island.ports[k]).wait0 = p :: ps →
         ((s.island.ports[k]).lstate = 2 → 192 * flitsOf p ≤ (s.island.ports[k]).bucket → ∃ t, exec .evClass0Admission s = .next t ∧ (t.island.ports[k]).wait0 = ps ∧
           (t.island.ports[k]).sent = (s.island.ports[k]).sent ++ [p] ∧ (t.island.ports[k]).bucket = (s.island.ports[k]).bucket - 192 * flitsOf p) ∧
         ((s.island.ports[k]).lstate ≠ 2 ∨ (s.island.ports[k]).bucket < 192 * flitsOf p → exec .evClass0Admission s = .next s))) ∧
      (∀ v : Word,
        (s.island.state ≠ .attached ∨ v.toInt.natAbs ≤ 2 ^ 20 → exec (.evDatumOffsetWrite v) s =
          .next { s with island := { s.island with slew := s.island.slew + v.toInt * 21000000000 } }) ∧
        (s.island.state = .attached → v.toInt.natAbs > 2 ^ 20 → exec (.evDatumOffsetWrite v) s = .next (s.refusedWrite (regOff 41 0x804) v.toNat))) ∧
      (∀ b : Bool, (b ≠ s.island.root → exec (.evDatumRootWrite b) s = .next { s with island := { s.island with root := b, lock := b, slew := 0 } }) ∧
        (b = s.island.root → exec (.evDatumRootWrite b) s = .next { s with island := { s.island with lock := s.island.lock || b } }))) ∧
    (s.island.state = .off → exec .evPortUp s = .next s ∧ exec .evLinkDown s = .next s ∧ exec .evRetrainPort s = .next s ∧
      (∀ more, exec (.evFlitReplay more) s = .next s) ∧ (∀ p, exec (.evPacketArrival p) s = .next s) ∧ exec .evSystemExchangeRound s = .next s ∧
      (∀ pd sixteenths root, exec (.evDatumAlign ⟨pd, sixteenths, root⟩) s = .next s) ∧ (∀ v, exec (.evDatumOffsetWrite v) s = .next s) ∧ ∀ b, exec (.evDatumRootWrite b) s = .next s)

/-- The host and the driver (R6, R152, R157, R167, R372 to R376, R379 to R381, R385 to R387, R391, R408 to R411): context commands, CLRSLOT,
invalidation, XRETRY, seals, register writes, the windows and the trace streamer; and what each refuses. The model's readings: what RETIRE refuses (log
entry 83), accesses before the host link is up (127), whose queue a refused lattice write goes to (81), and that an
LWAIT whose walk was held walks again after XRETRY (101). -/
def Obligations.TheHostAndTheDriver : Prop :=
  ∀ s : State,
    (s.hostUp = true → s.pkg.ctxBusy = false →
      (∀ (j : Fin 64) (lt : BitVec 4) (sc : Bool), lt.toNat ≤ 7 → ∃ t, exec (.evClrslot j lt sc) s = .next t ∧
        (∀ die off ty, t.latGet die j.val off ty = latBottom ty) ∧ t.slotRec j.val = some ⟨j.val, lt, sc⟩ ∧
        (∀ die slot off ty, slot ≠ j.val → t.latGet die slot off ty = s.latGet die slot off ty) ∧ t.pkg.ctxResult = 0) ∧
      (∀ (j : Fin 64) (lt : BitVec 4) (sc : Bool), lt.toNat > 7 →
        exec (.evClrslot j lt sc) s = ctxRefuse 3 s.at_.asid.val (j.val + lt.toNat * 64 + if sc then 1024 else 0) s) ∧
      (let a := s.at_.asid
       let c := s.ctxs[a]
       (c.active = true → exec .evActivate s = ctxRefuse 1 a.val 0 s) ∧
       (c.active = false → c.cooling = none →
         (descriptorOk (s.getPhys (s.ctxAddr a) 256) = true → ∃ t, exec .evActivate s = .next t ∧
           t.ctxs[a] = ctxOf (s.getPhys (s.ctxAddr a) 256) ∧ (t.ctxs[a]).active = true ∧ (t.ctxs[a]).cons = 0 ∧ t.pkg.ctxResult = 0) ∧
         (descriptorOk (s.getPhys (s.ctxAddr a) 256) = false → exec .evActivate s = ctxRefuse 1 a.val 0 (s.readsPhys (s.ctxAddr a) 256))) ∧
       (∀ since, c.active = false → c.cooling = some since → s.datum.toNat < since.toNat + 64000 →
         ∃ t, exec .evActivate s = .next t ∧ t.pkg.ctxBusy = true ∧ t.pkg.stalled = some a.val ∧ t.ctxs = s.ctxs) ∧
       (a ≠ 0 → c.active = true → c.lseq.toNat ≤ c.cons → (∀ l ∈ s.launches, l.asid ≠ a.val) → ∃ t, exec .evRetire s = .next t ∧
         t.ctxs[a] = { Ctx.reset with cooling := some s.datum } ∧ t.pkg.ctxResult = 0) ∧
       (a = 0 ∨ c.active = false → exec .evRetire s = ctxRefuse 2 a.val 0 s) ∧
       (∀ buf : Nat, ∃ t, exec (.evDump buf) s = .next t ∧
         ∀ n : CoreId, (s.cores[n]).run.isSome = true → (s.cores[n]).asid = a.val → (t.cores[n]).preReq = true))) ∧
    (s.hostUp = true → s.pkg.ctxBusy = true → exec .evActivate s = .next (s.refusedCmd 1 s.at_.asid.val 0) ∧
      exec .evRetire s = .next (s.refusedCmd 2 s.at_.asid.val 0)) ∧
    (∀ since, (s.ctxs[s.at_.asid]).cooling = some since →
      (since.toNat + 64000 ≤ s.datum.toNat → s.pkg.stalled ≠ some s.at_.asid.val →
        exec .evCoolingEnd s = .next (s.onCtx s.at_.asid fun c => { c with cooling := none })) ∧
      (s.datum.toNat < since.toNat + 64000 → exec .evCoolingEnd s = .next s)) ∧
    (s.hostUp = true → ∀ v : Word,
      (s.pkg.invPhase ≠ 1 → s.pkg.invPhase ≠ 2 → ∃ t m, exec (.evInval v) s = .next t ∧ t.pkg.invPhase = 1 ∧ t.pkg.inv = v ∧
        t.pkg.invStart = s.datum ∧ t.pkg.marks = s.pkg.marks ++ [m] ∧ m.asid = bits 63 58 v.toNat ∧ m.lo = bits 55 16 v.toNat * 65536 ∧
        m.hi = bits 55 16 v.toNat * 65536 + (bits 15 0 v.toNat + 1) * 65536) ∧
      (s.pkg.invPhase = 1 ∨ s.pkg.invPhase = 2 → exec (.evInval v) s = .next (s.refusedWrite (regOff 40 0x804) v.toNat)) ∧
      (∀ n : Fin 16, exec (.evSealWrite n v) s = .next { s with pkg := { s.pkg with seals := vput s.pkg.seals n (v &&& 0x800FFFFFFFFFFFFF#64) } }) ∧
      (v.getLsbD 0 = false → ∃ t, exec (.evXretry v) s = .next t ∧
        (∀ (n : CoreId) (c : CluId) (a va : Nat) (mig fetching : Bool), ((s.cores[n]).clu[c]).hold = .translation a va mig fetching →
          ((t.cores[n]).clu[c]).hold = if a = bits 63 58 v.toNat then .none else .translation a va mig fetching) ∧
        (t.ctxs[(Fin.ofNat 64 (bits 63 58 v.toNat) : Fin 64)]).pktHeld = false ∧
        ∀ l ∈ t.launches, l.asid = bits 63 58 v.toNat → l.held = false)) ∧
    (∀ (a va : Nat) (fetching : Bool), Hold.retry a true (.translation a va false fetching) = .declined a va ∧
      Hold.retry a true (.translation a va true fetching) = .none) ∧
    (∀ (a va d x y : Nat) (w : Attr),
      Hold.retry a true (.lwait d x y w (some (a, false)) none) = .declined a x ∧
      (∀ mig, Hold.retry a false (.lwait d x y w (some (a, mig)) none) = .lwait d x y w none none) ∧
      Hold.retry a true (.lwait d x y w (some (a, true)) none) = .lwait d x y w none none) ∧
    (s.pkg.invPhase = 1 → s.pkg.invStart.toNat + (s.ctxs[(Fin.ofNat 64 (bits 63 58 s.pkg.inv.toNat) : Fin 64)]).leaseTicks ≤ s.datum.toNat →
      exec .evInvalLeaseExpiry s = .next { s with pkg := { s.pkg with invPhase := 2 } }) ∧
    (s.pkg.invPhase ≠ 1 → exec .evInvalLeaseExpiry s = .next s) ∧
    (s.pkg.invPhase = 2 → (s.olderAccess = false → ∃ t, exec .evInvalDone s = .next t ∧ t.pkg.invPhase = 3 ∧ t.pkg.invdone = s.datum) ∧
      (s.olderAccess = true → exec .evInvalDone s = .next s)) ∧
    (∀ (i : Nat) (t : Tlb), s.tlb[i]? = some t → exec (.evLeaseExpiry i) s =
      .next (if t.expiry.toNat ≤ s.datum.toNat then
        { s with tlb := s.tlb.eraseIdx i, wcache := s.wcache.filter fun w => decide (s.datum.toNat < w.expiry.toNat) } else s)) ∧
    (∀ v : Word, exec (.evQctlClear v) s = .next (s.onCore fun k => { k with frz := v.getLsbD 0, qctr := if v.getLsbD 1 then [] else k.qctr }) ∧
      (∃ t, exec (.evTrctlWrite v) s = .next t ∧ t.trace.ctl = v &&& 0xFFFFFFFF00FFFF0D#64 ∧ t.trace.stopped = (s.trace.stopped && !v.getLsbD 0) ∧
        t.trace.circle = s.trace.circle)) ∧
    (∀ r rs, s.trace.circle = r :: rs → Memory.wf s.host = true →
      (s.hostLink.isSome = true → (s.trace.wr - s.trace.rd).toNat < 2 ^ bits 4 0 s.trace.ring.toNat → ∃ t, exec .evTraceTransfer s = .next t ∧
        t.trace.circle = rs ∧ t.trace.wr = s.trace.wr + 1 ∧ ∀ i < 32, some (t.byteAt (hostBase + bits 63 12 s.trace.ring.toNat * 4096 +
          32 * (s.trace.wr.toNat % 2 ^ bits 4 0 s.trace.ring.toNat) + i)) = r.bytes[i]?) ∧
      (s.hostLink = none ∨ 2 ^ bits 4 0 s.trace.ring.toNat ≤ (s.trace.wr - s.trace.rd).toNat → exec .evTraceTransfer s = .next s)) ∧
    (s.trace.circle = [] → exec .evTraceTransfer s = .next s) ∧
    (∀ (off : BitVec 21) (v : Word),
      let u := off.toNat / 0x8000
      let ka := off.toNat % 0x8000 / 8
      (off.toNat % 8 ≠ 0 → exec (.evRegisterWrite off v) s = .next (s.hostError off.toNat true)) ∧
      (off.toNat % 8 = 0 → u = 42 → (∀ m, s.mc.write ka v = some m → exec (.evRegisterWrite off v) s = .next { s with mc := m }) ∧
        (s.mc.write ka v = none → exec (.evRegisterWrite off v) s = .next (s.refusedWrite off.toNat v.toNat))) ∧
      (off.toNat % 8 = 0 → u = 41 → s.island.state = .off → exec (.evRegisterWrite off v) s = .next s) ∧
      (off.toNat % 8 = 0 → u = 41 → s.island.state ≠ .off → ka = 0x801 →
        (bits 63 60 v.toNat = 1 → exec (.evRegisterWrite off v) s =
          if s.island.state = .forwardOnly ∧ s.island.cpres = true then exec .evAttach s else .next (s.refusedWrite off.toNat v.toNat)) ∧
        (bits 63 60 v.toNat = 2 → exec (.evRegisterWrite off v) s =
          if s.island.state = .attached then exec .evDetach s else .next (s.refusedWrite off.toNat v.toNat)) ∧
        (bits 63 60 v.toNat = 3 → exec (.evRegisterWrite off v) s = exec .evIslandReset s)) ∧
      (off.toNat % 8 = 0 → s.island.cpres = false → u ≠ 41 → u ≠ 42 → exec (.evRegisterWrite off v) s = .next s) ∧
      (off.toNat % 8 = 0 → s.hostLink = none → u < 32 ∨ 40 ≤ u → u ≠ 41 → u ≠ 42 → exec (.evRegisterWrite off v) s = .next s) ∧
      (off.toNat % 8 = 0 → s.hostUp = true →
        (43 ≤ u → exec (.evRegisterWrite off v) s = .next (s.refusedWrite off.toNat v.toNat)) ∧
        (u = 40 → ka = 0x803 → exec (.evRegisterWrite off v) s = .next { s with pkg := { s.pkg with dbghalt := v } }) ∧
        (u = 40 → ka = 0x804 → exec (.evRegisterWrite off v) s = exec (.evInval v) s) ∧
        (u = 40 → ka = 0x807 → exec (.evRegisterWrite off v) s = exec (.evXretry v) s) ∧
        (∀ k : Fin 16, u = 40 → ka = 0x810 + k.val → exec (.evRegisterWrite off v) s = exec (.evSealWrite k v) s) ∧
        (u = 40 → ka = 0x820 → exec (.evRegisterWrite off v) s = exec (.evXschedWrite none v) s) ∧
        (∀ k : Fin 8, u = 40 → ka = 0x821 + k.val → exec (.evRegisterWrite off v) s = exec (.evXschedWrite (some k) v) s) ∧
        (u = 40 → ka = 0x802 → exec (.evRegisterWrite off v) s = .next { s with pkg := { s.pkg with mwbase := v &&& 0x7FC0000000#64 } }) ∧
        (∀ n : CoreId, u = n.val → ka < 0x800 → (s.cores[n]).haltd = false →
          exec (.evRegisterWrite off v) s = .next (s.refusedWrite off.toNat v.toNat)))) ∧
    (s.hostUp = true → ∀ (off : Nat) (bs : List Byte), 65536 ≤ off → s.pkg.mwbase.toNat + off + bs.length ≤ 2 ^ 39 → s.inflight = [] →
      (∀ i < bs.length, s.badAt (ilPlace (s.pkg.mwbase.toNat + off + i)) = false) →
      (Memory.wf s.mem = true → (∀ i < bs.length, s.sealed (ilPlace (s.pkg.mwbase.toNat + off + i)) = false) →
        ∃ t, exec (.evMemoryWindowWrite off bs) s = .next t ∧ ∀ i < bs.length, some (t.byteAt (ilPlace (s.pkg.mwbase.toNat + off + i))) = bs[i]?) ∧
      (s.weak = [] → exec (.evMemoryWindowRead off bs.length) s = .next { s with hostOut := (List.range bs.length).map fun i => s.byteAt (ilPlace (s.pkg.mwbase.toNat + off + i)) })) ∧
    (∀ (off : BitVec 26) (v : Word),
      let a : Fin 64 := Fin.ofNat 64 (bits 25 20 off.toNat)
      let c := s.ctxs[a]
      (s.hostUp = false → exec (.evLatticeWindowWrite off (leBytes 8 v.toNat)) s = .next s ∧ exec (.evLatticeWindowRead off 8) s = .next s) ∧
      (s.hostUp = true → off.toNat % 8 = 0 →
      (c.active = true → bits 19 0 off.toNat = 0 →
        (c.lseq.toNat ≤ v.toNat → exec (.evLatticeWindowWrite off (leBytes 8 v.toNat)) s = .next (s.onCtx a fun c => { c with lseq := v })) ∧
        (v.toNat < c.lseq.toNat → exec (.evLatticeWindowWrite off (leBytes 8 v.toNat)) s = .next (s.refusedCell a off.toNat c.lseq.toNat v.toNat)) ∧
        exec (.evLatticeWindowRead off 8) s = .next { s with hostOut := leBytes 8 c.lseq.toNat }) ∧
      (c.active = false → exec (.evLatticeWindowWrite off (leBytes 8 v.toNat)) s = .next (s.refusedCell a off.toNat 0 v.toNat) ∧
        exec (.evLatticeWindowRead off 8) s = .next { s.refusedCell a off.toNat 0 0 with hostOut := List.replicate 8 0 })))
end

