-- ==== Sys2Proof/Laws/Arms.lean ====
section
/-!
SUPPORT. One equation for each arm of exec, and for each syllable and word of the encoder, so that no proof unfolds their cases.
-/
namespace Sys2Proof.Laws

open Machine

@[simp] theorem exec_add : ∀ q d a b s, exec (.add q d a b) s = execAdd q d a b s := fun _ _ _ _ _ => rfl
@[simp] theorem exec_sub : ∀ q d a b s, exec (.sub q d a b) s = execSub q d a b s := fun _ _ _ _ _ => rfl
@[simp] theorem exec_addi : ∀ q d a imm s, exec (.addi q d a imm) s = execAddi q d a imm s := fun _ _ _ _ _ => rfl
@[simp] theorem exec_mul : ∀ q d a b s, exec (.mul q d a b) s = execMul q d a b s := fun _ _ _ _ _ => rfl
@[simp] theorem exec_mulh : ∀ q d a b s, exec (.mulh q d a b) s = execMulh q d a b s := fun _ _ _ _ _ => rfl
@[simp] theorem exec_mulhu : ∀ q d a b s, exec (.mulhu q d a b) s = execMulhu q d a b s := fun _ _ _ _ _ => rfl
@[simp] theorem exec_div : ∀ q d a b s, exec (.div q d a b) s = execDiv q d a b s := fun _ _ _ _ _ => rfl
@[simp] theorem exec_divu : ∀ q d a b s, exec (.divu q d a b) s = execDivu q d a b s := fun _ _ _ _ _ => rfl
@[simp] theorem exec_rem : ∀ q d a b s, exec (.rem q d a b) s = execRem q d a b s := fun _ _ _ _ _ => rfl
@[simp] theorem exec_remu : ∀ q d a b s, exec (.remu q d a b) s = execRemu q d a b s := fun _ _ _ _ _ => rfl
@[simp] theorem exec_and : ∀ q d a b s, exec (.and q d a b) s = execAnd q d a b s := fun _ _ _ _ _ => rfl
@[simp] theorem exec_or : ∀ q d a b s, exec (.or q d a b) s = execOr q d a b s := fun _ _ _ _ _ => rfl
@[simp] theorem exec_xor : ∀ q d a b s, exec (.xor q d a b) s = execXor q d a b s := fun _ _ _ _ _ => rfl
@[simp] theorem exec_andn : ∀ q d a b s, exec (.andn q d a b) s = execAndn q d a b s := fun _ _ _ _ _ => rfl
@[simp] theorem exec_orn : ∀ q d a b s, exec (.orn q d a b) s = execOrn q d a b s := fun _ _ _ _ _ => rfl
@[simp] theorem exec_shl : ∀ q d a b s, exec (.shl q d a b) s = execShl q d a b s := fun _ _ _ _ _ => rfl
@[simp] theorem exec_shr : ∀ q d a b s, exec (.shr q d a b) s = execShr q d a b s := fun _ _ _ _ _ => rfl
@[simp] theorem exec_sar : ∀ q d a b s, exec (.sar q d a b) s = execSar q d a b s := fun _ _ _ _ _ => rfl
@[simp] theorem exec_rol : ∀ q d a b s, exec (.rol q d a b) s = execRol q d a b s := fun _ _ _ _ _ => rfl
@[simp] theorem exec_fshl : ∀ q d a b c s, exec (.fshl q d a b c) s = execFshl q d a b c s := fun _ _ _ _ _ _ => rfl
@[simp] theorem exec_fshr : ∀ q d a b c s, exec (.fshr q d a b c) s = execFshr q d a b c s := fun _ _ _ _ _ _ => rfl
@[simp] theorem exec_clz : ∀ q d a s, exec (.clz q d a) s = execClz q d a s := fun _ _ _ _ => rfl
@[simp] theorem exec_ctz : ∀ q d a s, exec (.ctz q d a) s = execCtz q d a s := fun _ _ _ _ => rfl
@[simp] theorem exec_popc : ∀ q d a s, exec (.popc q d a) s = execPopc q d a s := fun _ _ _ _ => rfl
@[simp] theorem exec_min : ∀ q d a b s, exec (.min q d a b) s = execMin q d a b s := fun _ _ _ _ _ => rfl
@[simp] theorem exec_max : ∀ q d a b s, exec (.max q d a b) s = execMax q d a b s := fun _ _ _ _ _ => rfl
@[simp] theorem exec_minu : ∀ q d a b s, exec (.minu q d a b) s = execMinu q d a b s := fun _ _ _ _ _ => rfl
@[simp] theorem exec_maxu : ∀ q d a b s, exec (.maxu q d a b) s = execMaxu q d a b s := fun _ _ _ _ _ => rfl
@[simp] theorem exec_sel : ∀ q d a b c s, exec (.sel q d a b c) s = execSel q d a b c s := fun _ _ _ _ _ _ => rfl
@[simp] theorem exec_li : ∀ q d imm s, exec (.li q d imm) s = execLi q d imm s := fun _ _ _ _ => rfl
@[simp] theorem exec_lih : ∀ q d imm s, exec (.lih q d imm) s = execLih q d imm s := fun _ _ _ _ => rfl
@[simp] theorem exec_ext : ∀ q d a pos wm1 s, exec (.ext q d a pos wm1) s = execExt q d a pos wm1 s := fun _ _ _ _ _ _ => rfl
@[simp] theorem exec_extu : ∀ q d a pos wm1 s, exec (.extu q d a pos wm1) s = execExtu q d a pos wm1 s := fun _ _ _ _ _ _ => rfl
@[simp] theorem exec_ins : ∀ q d a pos wm1 s, exec (.ins q d a pos wm1) s = execIns q d a pos wm1 s := fun _ _ _ _ _ _ => rfl
@[simp] theorem exec_bswap : ∀ q d a s, exec (.bswap q d a) s = execBswap q d a s := fun _ _ _ _ => rfl
@[simp] theorem exec_abs : ∀ q d a s, exec (.abs q d a) s = execAbs q d a s := fun _ _ _ _ => rfl
@[simp] theorem exec_cmp : ∀ q c pd a b s, exec (.cmp q c pd a b) s = execCmp q c pd a b s := fun _ _ _ _ _ _ => rfl
@[simp] theorem exec_cmpi : ∀ q c pd a imm s, exec (.cmpi q c pd a imm) s = execCmpi q c pd a imm s := fun _ _ _ _ _ _ => rfl
@[simp] theorem exec_tstb : ∀ q clr pd a bit s, exec (.tstb q clr pd a bit) s = execTstb q clr pd a bit s := fun _ _ _ _ _ _ => rfl
@[simp] theorem exec_pand : ∀ q pd pa pb s, exec (.pand q pd pa pb) s = execPand q pd pa pb s := fun _ _ _ _ _ => rfl
@[simp] theorem exec_por : ∀ q pd pa pb s, exec (.por q pd pa pb) s = execPor q pd pa pb s := fun _ _ _ _ _ => rfl
@[simp] theorem exec_pxor : ∀ q pd pa pb s, exec (.pxor q pd pa pb) s = execPxor q pd pa pb s := fun _ _ _ _ _ => rfl
@[simp] theorem exec_pandn : ∀ q pd pa pb s, exec (.pandn q pd pa pb) s = execPandn q pd pa pb s := fun _ _ _ _ _ => rfl
@[simp] theorem exec_br : ∀ q off s, exec (.br q off) s = execBr q off s := fun _ _ _ => rfl
@[simp] theorem exec_brcc : ∀ q cc off s, exec (.brcc q cc off) s = execBrcc q cc off s := fun _ _ _ _ => rfl
@[simp] theorem exec_call : ∀ q off s, exec (.call q off) s = execCall q off s := fun _ _ _ => rfl
@[simp] theorem exec_callr : ∀ q d a s, exec (.callr q d a) s = execCallr q d a s := fun _ _ _ _ => rfl
@[simp] theorem exec_ret : ∀ q a s, exec (.ret q a) s = execRet q a s := fun _ _ _ => rfl
@[simp] theorem exec_jmpr : ∀ q a s, exec (.jmpr q a) s = execJmpr q a s := fun _ _ _ => rfl
@[simp] theorem exec_loop : ∀ q st id rot sm1 lenm1 s, exec (.loop q st id rot sm1 lenm1) s = execLoop q st id rot sm1 lenm1 s := fun _ _ _ _ _ _ _ => rfl
@[simp] theorem exec_lbrk : ∀ q id off s, exec (.lbrk q id off) s = execLbrk q id off s := fun _ _ _ _ => rfl
@[simp] theorem exec_forkc : ∀ q mask off s, exec (.forkc q mask off) s = execForkc q mask off s := fun _ _ _ _ => rfl
@[simp] theorem exec_ccset : ∀ q mask s, exec (.ccset q mask) s = execCcset q mask s := fun _ _ _ => rfl
@[simp] theorem exec_ccclr : ∀ q mask s, exec (.ccclr q mask) s = execCcclr q mask s := fun _ _ _ => rfl
@[simp] theorem exec_ccwait : ∀ q mask s, exec (.ccwait q mask) s = execCcwait q mask s := fun _ _ _ => rfl
@[simp] theorem exec_sleepuntil : ∀ q a s, exec (.sleepuntil q a) s = execSleepuntil q a s := fun _ _ _ => rfl
@[simp] theorem exec_safe : ∀ vlive slive s, exec (.safe vlive slive) s = execSafe vlive slive s := fun _ _ _ => rfl
@[simp] theorem exec_spawn : ∀ q d a s, exec (.spawn q d a) s = execSpawn q d a s := fun _ _ _ _ => rfl
@[simp] theorem exec_join : ∀ q a s, exec (.join q a) s = execJoin q a s := fun _ _ _ => rfl
@[simp] theorem exec_yield : ∀ q a b s, exec (.yield q a b) s = execYield q a b s := fun _ _ _ _ => rfl
@[simp] theorem exec_exit : ∀ q s, exec (.exit q) s = execExit q s := fun _ _ => rfl
@[simp] theorem exec_mfk : ∀ q d k s, exec (.mfk q d k) s = execMfk q d k s := fun _ _ _ _ => rfl
@[simp] theorem exec_mtk : ∀ q k a s, exec (.mtk q k a) s = execMtk q k a s := fun _ _ _ _ => rfl
@[simp] theorem exec_rdcyc : ∀ q d s, exec (.rdcyc q d) s = execRdcyc q d s := fun _ _ _ => rfl
@[simp] theorem exec_rddatum : ∀ q d s, exec (.rddatum q d) s = execRddatum q d s := fun _ _ _ => rfl
@[simp] theorem exec_locality : ∀ q d a s, exec (.locality q d a) s = execLocality q d a s := fun _ _ _ _ => rfl
@[simp] theorem exec_trap : ∀ q code a s, exec (.trap q code a) s = execTrap q code a s := fun _ _ _ _ => rfl
@[simp] theorem exec_eret : ∀ q s, exec (.eret q) s = execEret q s := fun _ _ => rfl
@[simp] theorem exec_brkpt : ∀ q code s, exec (.brkpt q code) s = execBrkpt q code s := fun _ _ _ => rfl
@[simp] theorem exec_widle : ∀ q a s, exec (.widle q a) s = execWidle q a s := fun _ _ _ => rfl
@[simp] theorem exec_mempfx : ∀ o sc cp asp s, exec (.mempfx o sc cp asp) s = execMempfx o sc cp asp s := fun _ _ _ _ _ => rfl
@[simp] theorem exec_ld : ∀ q d m k s, exec (.ld q d m k) s = execLd q d m k s := fun _ _ _ _ _ => rfl
@[simp] theorem exec_st : ∀ q d m k s, exec (.st q d m k) s = execSt q d m k s := fun _ _ _ _ _ => rfl
@[simp] theorem exec_pref : ∀ q m s, exec (.pref q m) s = execPref q m s := fun _ _ _ => rfl
@[simp] theorem exec_vld : ∀ q d m k s, exec (.vld q d m k) s = execVld q d m k s := fun _ _ _ _ _ => rfl
@[simp] theorem exec_vst : ∀ q d m k s, exec (.vst q d m k) s = execVst q d m k s := fun _ _ _ _ _ => rfl
@[simp] theorem exec_vldu : ∀ q d m k s, exec (.vldu q d m k) s = execVldu q d m k s := fun _ _ _ _ _ => rfl
@[simp] theorem exec_vstm : ∀ q d m s, exec (.vstm q d m) s = execVstm q d m s := fun _ _ _ _ => rfl
@[simp] theorem exec_vlds : ∀ q d base x k s, exec (.vlds q d base x k) s = execVlds q d base x k s := fun _ _ _ _ _ _ => rfl
@[simp] theorem exec_vsts : ∀ q d base x k s, exec (.vsts q d base x k) s = execVsts q d base x k s := fun _ _ _ _ _ _ => rfl
@[simp] theorem exec_vgath : ∀ q d base x s, exec (.vgath q d base x) s = execVgath q d base x s := fun _ _ _ _ _ => rfl
@[simp] theorem exec_vscat : ∀ q d base x s, exec (.vscat q d base x) s = execVscat q d base x s := fun _ _ _ _ _ => rfl
@[simp] theorem exec_vldb : ∀ q d m k s, exec (.vldb q d m k) s = execVldb q d m k s := fun _ _ _ _ _ => rfl
@[simp] theorem exec_talloc : ∀ q d a b pd s, exec (.talloc q d a b pd) s = execTalloc q d a b pd s := fun _ _ _ _ _ _ => rfl
@[simp] theorem exec_tfree : ∀ q h s, exec (.tfree q h) s = execTfree q h s := fun _ _ _ => rfl
@[simp] theorem exec_tgive : ∀ q h s, exec (.tgive q h) s = execTgive q h s := fun _ _ _ => rfl
@[simp] theorem exec_ttake : ∀ q h s, exec (.ttake q h) s = execTtake q h s := fun _ _ _ => rfl
@[simp] theorem exec_evHandleReload : ∀ h s, exec (.evHandleReload h) s = execEvHandleReload h s := fun _ _ => rfl
@[simp] theorem exec_tld : ∀ q d h row k s, exec (.tld q d h row k) s = execTld q d h row k s := fun _ _ _ _ _ _ => rfl
@[simp] theorem exec_tst : ∀ q d h row k s, exec (.tst q d h row k) s = execTst q d h row k s := fun _ _ _ _ _ _ => rfl
@[simp] theorem exec_tinfo : ∀ q d h s, exec (.tinfo q d h) s = execTinfo q d h s := fun _ _ _ _ => rfl
@[simp] theorem exec_thold : ∀ q h s, exec (.thold q h) s = execThold q h s := fun _ _ _ => rfl
@[simp] theorem exec_trels : ∀ q h s, exec (.trels q h) s = execTrels q h s := fun _ _ _ => rfl
@[simp] theorem exec_amo : ∀ q op w64 d a b s, exec (.amo q op w64 d a b) s = execAmo q op w64 d a b s := fun _ _ _ _ _ _ _ => rfl
@[simp] theorem exec_cas : ∀ q w64 d a b s, exec (.cas q w64 d a b) s = execCas q w64 d a b s := fun _ _ _ _ _ _ => rfl
@[simp] theorem exec_cas2 : ∀ q d a b s, exec (.cas2 q d a b) s = execCas2 q d a b s := fun _ _ _ _ _ => rfl
@[simp] theorem exec_ljoin : ∀ q src m s, exec (.ljoin q src m) s = execLjoin q src m s := fun _ _ _ _ => rfl
@[simp] theorem exec_lld : ∀ q d m s, exec (.lld q d m) s = execLld q d m s := fun _ _ _ _ => rfl
@[simp] theorem exec_lwait : ∀ q pd a b c s, exec (.lwait q pd a b c) s = execLwait q pd a b c s := fun _ _ _ _ _ _ => rfl
@[simp] theorem exec_fence : ∀ q o sc s, exec (.fence q o sc) s = execFence q o sc s := fun _ _ _ _ => rfl
@[simp] theorem exec_fencesc : ∀ q sc s, exec (.fencesc q sc) s = execFencesc q sc s := fun _ _ _ => rfl
@[simp] theorem exec_fencea : ∀ q sc s, exec (.fencea q sc) s = execFencea q sc s := fun _ _ _ => rfl
@[simp] theorem exec_ifence : ∀ q s, exec (.ifence q) s = execIfence q s := fun _ _ => rfl
@[simp] theorem exec_eng : ∀ e func a b r w s, exec (.eng e func a b r w) s = execEng e func a b r w s := fun _ _ _ _ _ _ _ => rfl
@[simp] theorem exec_fork : ∀ l a b w s, exec (.fork l a b w) s = execFork l a b w s := fun _ _ _ _ _ => rfl
@[simp] theorem exec_rdv : ∀ q a s, exec (.rdv q a) s = execRdv q a s := fun _ _ _ => rfl
@[simp] theorem exec_setf : ∀ q f s, exec (.setf q f) s = execSetf q f s := fun _ _ _ => rfl
@[simp] theorem exec_clrf : ∀ q f s, exec (.clrf q f) s = execClrf q f s := fun _ _ _ => rfl
@[simp] theorem exec_waitf : ∀ q e f s, exec (.waitf q e f) s = execWaitf q e f s := fun _ _ _ _ => rfl
@[simp] theorem exec_qstat : ∀ q d e s, exec (.qstat q d e) s = execQstat q d e s := fun _ _ _ _ => rfl
@[simp] theorem exec_vadd : ∀ q ty d a b s, exec (.vadd q ty d a b) s = execVadd q ty d a b s := fun _ _ _ _ _ _ => rfl
@[simp] theorem exec_vsub : ∀ q ty d a b s, exec (.vsub q ty d a b) s = execVsub q ty d a b s := fun _ _ _ _ _ _ => rfl
@[simp] theorem exec_vmul : ∀ q ty d a b s, exec (.vmul q ty d a b) s = execVmul q ty d a b s := fun _ _ _ _ _ _ => rfl
@[simp] theorem exec_vfma : ∀ q ty d a b c s, exec (.vfma q ty d a b c) s = execVfma q ty d a b c s := fun _ _ _ _ _ _ _ => rfl
@[simp] theorem exec_vfms : ∀ q ty d a b c s, exec (.vfms q ty d a b c) s = execVfms q ty d a b c s := fun _ _ _ _ _ _ _ => rfl
@[simp] theorem exec_vfnma : ∀ q ty d a b c s, exec (.vfnma q ty d a b c) s = execVfnma q ty d a b c s := fun _ _ _ _ _ _ _ => rfl
@[simp] theorem exec_vfnms : ∀ q ty d a b c s, exec (.vfnms q ty d a b c) s = execVfnms q ty d a b c s := fun _ _ _ _ _ _ _ => rfl
@[simp] theorem exec_vmin : ∀ q ty d a b s, exec (.vmin q ty d a b) s = execVmin q ty d a b s := fun _ _ _ _ _ _ => rfl
@[simp] theorem exec_vmax : ∀ q ty d a b s, exec (.vmax q ty d a b) s = execVmax q ty d a b s := fun _ _ _ _ _ _ => rfl
@[simp] theorem exec_vminn : ∀ q ty d a b s, exec (.vminn q ty d a b) s = execVminn q ty d a b s := fun _ _ _ _ _ _ => rfl
@[simp] theorem exec_vmaxn : ∀ q ty d a b s, exec (.vmaxn q ty d a b) s = execVmaxn q ty d a b s := fun _ _ _ _ _ _ => rfl
@[simp] theorem exec_vabs : ∀ q ty d a s, exec (.vabs q ty d a) s = execVabs q ty d a s := fun _ _ _ _ _ => rfl
@[simp] theorem exec_vneg : ∀ q ty d a s, exec (.vneg q ty d a) s = execVneg q ty d a s := fun _ _ _ _ _ => rfl
@[simp] theorem exec_vcpys : ∀ q ty d a b s, exec (.vcpys q ty d a b) s = execVcpys q ty d a b s := fun _ _ _ _ _ _ => rfl
@[simp] theorem exec_vcmp : ∀ q ty c e1 md a b s, exec (.vcmp q ty c e1 md a b) s = execVcmp q ty c e1 md a b s := fun _ _ _ _ _ _ _ _ => rfl
@[simp] theorem exec_vclass : ∀ q ty d a s, exec (.vclass q ty d a) s = execVclass q ty d a s := fun _ _ _ _ _ => rfl
@[simp] theorem exec_vrnd : ∀ q ty d a s, exec (.vrnd q ty d a) s = execVrnd q ty d a s := fun _ _ _ _ _ => rfl
@[simp] theorem exec_vscale : ∀ q ty d a b s, exec (.vscale q ty d a b) s = execVscale q ty d a b s := fun _ _ _ _ _ _ => rfl
@[simp] theorem exec_viadd : ∀ q ty d a b s, exec (.viadd q ty d a b) s = execViadd q ty d a b s := fun _ _ _ _ _ _ => rfl
@[simp] theorem exec_visub : ∀ q ty d a b s, exec (.visub q ty d a b) s = execVisub q ty d a b s := fun _ _ _ _ _ _ => rfl
@[simp] theorem exec_vimul : ∀ q ty d a b s, exec (.vimul q ty d a b) s = execVimul q ty d a b s := fun _ _ _ _ _ _ => rfl
@[simp] theorem exec_vimin : ∀ q ty d a b s, exec (.vimin q ty d a b) s = execVimin q ty d a b s := fun _ _ _ _ _ _ => rfl
@[simp] theorem exec_vimax : ∀ q ty d a b s, exec (.vimax q ty d a b) s = execVimax q ty d a b s := fun _ _ _ _ _ _ => rfl
@[simp] theorem exec_viminu : ∀ q ty d a b s, exec (.viminu q ty d a b) s = execViminu q ty d a b s := fun _ _ _ _ _ _ => rfl
@[simp] theorem exec_vimaxu : ∀ q ty d a b s, exec (.vimaxu q ty d a b) s = execVimaxu q ty d a b s := fun _ _ _ _ _ _ => rfl
@[simp] theorem exec_vand : ∀ q ty d a b s, exec (.vand q ty d a b) s = execVand q ty d a b s := fun _ _ _ _ _ _ => rfl
@[simp] theorem exec_vor : ∀ q ty d a b s, exec (.vor q ty d a b) s = execVor q ty d a b s := fun _ _ _ _ _ _ => rfl
@[simp] theorem exec_vxor : ∀ q ty d a b s, exec (.vxor q ty d a b) s = execVxor q ty d a b s := fun _ _ _ _ _ _ => rfl
@[simp] theorem exec_vandn : ∀ q ty d a b s, exec (.vandn q ty d a b) s = execVandn q ty d a b s := fun _ _ _ _ _ _ => rfl
@[simp] theorem exec_vshl : ∀ q ty d a b s, exec (.vshl q ty d a b) s = execVshl q ty d a b s := fun _ _ _ _ _ _ => rfl
@[simp] theorem exec_vshr : ∀ q ty d a b s, exec (.vshr q ty d a b) s = execVshr q ty d a b s := fun _ _ _ _ _ _ => rfl
@[simp] theorem exec_vsar : ∀ q ty d a b s, exec (.vsar q ty d a b) s = execVsar q ty d a b s := fun _ _ _ _ _ _ => rfl
@[simp] theorem exec_vfshl : ∀ q ty d a b c s, exec (.vfshl q ty d a b c) s = execVfshl q ty d a b c s := fun _ _ _ _ _ _ _ => rfl
@[simp] theorem exec_vfshr : ∀ q ty d a b c s, exec (.vfshr q ty d a b c) s = execVfshr q ty d a b c s := fun _ _ _ _ _ _ _ => rfl
@[simp] theorem exec_vclz : ∀ q ty d a s, exec (.vclz q ty d a) s = execVclz q ty d a s := fun _ _ _ _ _ => rfl
@[simp] theorem exec_vpopc : ∀ q ty d a s, exec (.vpopc q ty d a) s = execVpopc q ty d a s := fun _ _ _ _ _ => rfl
@[simp] theorem exec_vicmp : ∀ q ty c e md a b s, exec (.vicmp q ty c e md a b) s = execVicmp q ty c e md a b s := fun _ _ _ _ _ _ _ _ => rfl
@[simp] theorem exec_vsatn : ∀ q n8 d a b s, exec (.vsatn q n8 d a b) s = execVsatn q n8 d a b s := fun _ _ _ _ _ _ => rfl
@[simp] theorem exec_viabs : ∀ q ty d a s, exec (.viabs q ty d a) s = execViabs q ty d a s := fun _ _ _ _ _ => rfl
@[simp] theorem exec_vredadd : ∀ q ty d a m s, exec (.vredadd q ty d a m) s = execVredadd q ty d a m s := fun _ _ _ _ _ _ => rfl
@[simp] theorem exec_vredmax : ∀ q ty d a m s, exec (.vredmax q ty d a m) s = execVredmax q ty d a m s := fun _ _ _ _ _ _ => rfl
@[simp] theorem exec_vredmin : ∀ q ty d a m s, exec (.vredmin q ty d a m) s = execVredmin q ty d a m s := fun _ _ _ _ _ _ => rfl
@[simp] theorem exec_vgmax : ∀ q ty d a m n s, exec (.vgmax q ty d a m n) s = execVgmax q ty d a m n s := fun _ _ _ _ _ _ _ => rfl
@[simp] theorem exec_vgsum : ∀ q ty d a m n s, exec (.vgsum q ty d a m n) s = execVgsum q ty d a m n s := fun _ _ _ _ _ _ _ => rfl
@[simp] theorem exec_vscanadd : ∀ q ty d a m s, exec (.vscanadd q ty d a m) s = execVscanadd q ty d a m s := fun _ _ _ _ _ _ => rfl
@[simp] theorem exec_vscanaff : ∀ q d a b c s, exec (.vscanaff q d a b c) s = execVscanaff q d a b c s := fun _ _ _ _ _ _ => rfl
@[simp] theorem exec_vbsr : ∀ q d a b c s, exec (.vbsr q d a b c) s = execVbsr q d a b c s := fun _ _ _ _ _ _ => rfl
@[simp] theorem exec_vbsw : ∀ q d a b c s, exec (.vbsw q d a b c) s = execVbsw q d a b c s := fun _ _ _ _ _ _ => rfl
@[simp] theorem exec_vmov : ∀ q d a s, exec (.vmov q d a) s = execVmov q d a s := fun _ _ _ _ => rfl
@[simp] theorem exec_vsplat : ∀ q ty d src s, exec (.vsplat q ty d src) s = execVsplat q ty d src s := fun _ _ _ _ _ => rfl
@[simp] theorem exec_vli : ∀ q d imm s, exec (.vli q d imm) s = execVli q d imm s := fun _ _ _ _ => rfl
@[simp] theorem exec_vmvs : ∀ q d a b s, exec (.vmvs q d a b) s = execVmvs q d a b s := fun _ _ _ _ _ => rfl
@[simp] theorem exec_vins : ∀ q d a b s, exec (.vins q d a b) s = execVins q d a b s := fun _ _ _ _ _ => rfl
@[simp] theorem exec_vperm : ∀ q d a b c s, exec (.vperm q d a b c) s = execVperm q d a b c s := fun _ _ _ _ _ _ => rfl
@[simp] theorem exec_vrotl : ∀ q d a b s, exec (.vrotl q d a b) s = execVrotl q d a b s := fun _ _ _ _ _ => rfl
@[simp] theorem exec_vslide : ∀ q d a b c s, exec (.vslide q d a b c) s = execVslide q d a b c s := fun _ _ _ _ _ _ => rfl
@[simp] theorem exec_vzip : ∀ q ty d a b s, exec (.vzip q ty d a b) s = execVzip q ty d a b s := fun _ _ _ _ _ _ => rfl
@[simp] theorem exec_vunzip : ∀ q ty d a b s, exec (.vunzip q ty d a b) s = execVunzip q ty d a b s := fun _ _ _ _ _ _ => rfl
@[simp] theorem exec_vsel : ∀ q d a m c s, exec (.vsel q d a m c) s = execVsel q d a m c s := fun _ _ _ _ _ _ => rfl
@[simp] theorem exec_mlog : ∀ q op md ma mb s, exec (.mlog q op md ma mb) s = execMlog q op md ma mb s := fun _ _ _ _ _ _ => rfl
@[simp] theorem exec_mpopc : ∀ q sel d ma s, exec (.mpopc q sel d ma) s = execMpopc q sel d ma s := fun _ _ _ _ _ => rfl
@[simp] theorem exec_vcvt : ∀ q sel d a b s, exec (.vcvt q sel d a b) s = execVcvt q sel d a b s := fun _ _ _ _ _ _ => rfl
@[simp] theorem exec_vqmx : ∀ q f d a s, exec (.vqmx q f d a) s = execVqmx q f d a s := fun _ _ _ _ _ => rfl
@[simp] theorem exec_vdqmx : ∀ q f d a s, exec (.vdqmx q f d a) s = execVdqmx q f d a s := fun _ _ _ _ _ => rfl
@[simp] theorem exec_vpack : ∀ q sel d a b s, exec (.vpack q sel d a b) s = execVpack q sel d a b s := fun _ _ _ _ _ _ => rfl
@[simp] theorem exec_vunpk : ∀ q sel d a s, exec (.vunpk q sel d a) s = execVunpk q sel d a s := fun _ _ _ _ _ => rfl
@[simp] theorem exec_wLit : ∀ imm s, exec (.wLit imm) s = execWLit imm s := fun _ _ => rfl
@[simp] theorem exec_wLitx : ∀ imm s, exec (.wLitx imm) s = execWLitx imm s := fun _ _ => rfl
@[simp] theorem exec_wPick : ∀ n s, exec (.wPick n) s = execWPick n s := fun _ _ => rfl
@[simp] theorem exec_wShl : ∀ n s, exec (.wShl n) s = execWShl n s := fun _ _ => rfl
@[simp] theorem exec_wShr : ∀ n s, exec (.wShr n) s = execWShr n s := fun _ _ => rfl
@[simp] theorem exec_wJmp : ∀ off s, exec (.wJmp off) s = execWJmp off s := fun _ _ => rfl
@[simp] theorem exec_wJz : ∀ off s, exec (.wJz off) s = execWJz off s := fun _ _ => rfl
@[simp] theorem exec_wJnz : ∀ off s, exec (.wJnz off) s = execWJnz off s := fun _ _ => rfl
@[simp] theorem exec_wLoopn : ∀ off s, exec (.wLoopn off) s = execWLoopn off s := fun _ _ => rfl
@[simp] theorem exec_wWaitf : ∀ f s, exec (.wWaitf f) s = execWWaitf f s := fun _ _ => rfl
@[simp] theorem exec_wSetf : ∀ f s, exec (.wSetf f) s = execWSetf f s := fun _ _ => rfl
@[simp] theorem exec_wCalls : ∀ e s, exec (.wCalls e) s = execWCalls e s := fun _ _ => rfl
@[simp] theorem exec_wMma : ∀ shape aclr s, exec (.wMma shape aclr) s = execWMma shape aclr s := fun _ _ _ => rfl
@[simp] theorem exec_wQnt : ∀ l s, exec (.wQnt l) s = execWQnt l s := fun _ _ => rfl
@[simp] theorem exec_wRmin : ∀ k s, exec (.wRmin k) s = execWRmin k s := fun _ _ => rfl
@[simp] theorem exec_wRmax : ∀ k s, exec (.wRmax k) s = execWRmax k s := fun _ _ => rfl
@[simp] theorem exec_wRsort : ∀ k s, exec (.wRsort k) s = execWRsort k s := fun _ _ => rfl
@[simp] theorem exec_wRtopk : ∀ k lf s, exec (.wRtopk k lf) s = execWRtopk k lf s := fun _ _ _ => rfl
@[simp] theorem exec_wTbld : ∀ big s, exec (.wTbld big) s = execWTbld big s := fun _ _ => rfl
@[simp] theorem exec_wTbl : ∀ big aclr s, exec (.wTbl big aclr) s = execWTbl big aclr s := fun _ _ _ => rfl
@[simp] theorem exec_wScan : ∀ op excl s, exec (.wScan op excl) s = execWScan op excl s := fun _ _ _ => rfl
@[simp] theorem exec_wReduce : ∀ op s, exec (.wReduce op) s = execWReduce op s := fun _ _ => rfl
@[simp] theorem exec_wCpy : ∀ sc s, exec (.wCpy sc) s = execWCpy sc s := fun _ _ => rfl
@[simp] theorem exec_wCpy2d : ∀ sc s, exec (.wCpy2d sc) s = execWCpy2d sc s := fun _ _ => rfl
@[simp] theorem exec_wCpyx : ∀ sc s, exec (.wCpyx sc) s = execWCpyx sc s := fun _ _ => rfl
@[simp] theorem exec_wCpyg : ∀ sc s, exec (.wCpyg sc) s = execWCpyg sc s := fun _ _ => rfl
@[simp] theorem exec_wCrcc : ∀ sc last s, exec (.wCrcc sc last) s = execWCrcc sc last s := fun _ _ _ => rfl
@[simp] theorem exec_wExp2 : ∀ f s, exec (.wExp2 f) s = execWExp2 f s := fun _ _ => rfl
@[simp] theorem exec_wLog2 : ∀ f s, exec (.wLog2 f) s = execWLog2 f s := fun _ _ => rfl
@[simp] theorem exec_wRcp : ∀ f s, exec (.wRcp f) s = execWRcp f s := fun _ _ => rfl
@[simp] theorem exec_wRsqrt : ∀ f s, exec (.wRsqrt f) s = execWRsqrt f s := fun _ _ => rfl
@[simp] theorem exec_wSinpi : ∀ f s, exec (.wSinpi f) s = execWSinpi f s := fun _ _ => rfl
@[simp] theorem exec_wCospi : ∀ f s, exec (.wCospi f) s = execWCospi f s := fun _ _ => rfl
@[simp] theorem exec_wTanh : ∀ f s, exec (.wTanh f) s = execWTanh f s := fun _ _ => rfl
@[simp] theorem exec_wSigm : ∀ f s, exec (.wSigm f) s = execWSigm f s := fun _ _ => rfl
@[simp] theorem exec_evQueueHeadIssue : ∀ plumbOk s, exec (.evQueueHeadIssue plumbOk) s = execEvQueueHeadIssue plumbOk s := fun _ _ => rfl
@[simp] theorem exec_evStroke : ∀ misread s, exec (.evStroke misread) s = execEvStroke misread s := fun _ _ => rfl
@[simp] theorem exec_evRacePass : ∀ s, exec .evRacePass s = execEvRacePass s := fun _ => rfl
@[simp] theorem exec_evEvxCounterEvent : ∀ k s, exec (.evEvxCounterEvent k) s = execEvEvxCounterEvent k s := fun _ _ => rfl
@[simp] theorem exec_evEvxTermEdge : ∀ k s, exec (.evEvxTermEdge k) s = execEvEvxTermEdge k s := fun _ _ => rfl
@[simp] theorem exec_evRecordPop : ∀ helper s, exec (.evRecordPop helper) s = execEvRecordPop helper s := fun _ _ => rfl
@[simp] theorem exec_evLevellingCommit : ∀ pass counts vgain offp offn s, exec (.evLevellingCommit pass counts vgain offp offn) s = execEvLevellingCommit pass counts vgain offp offn s := fun _ _ _ _ _ _ => rfl
@[simp] theorem exec_evTemperatureSample : ∀ temp s, exec (.evTemperatureSample temp) s = execEvTemperatureSample temp s := fun _ _ => rfl
@[simp] theorem exec_evPatrolVisit : ∀ ch corrected uncorrectable raced s, exec (.evPatrolVisit ch corrected uncorrectable raced) s = execEvPatrolVisit ch corrected uncorrectable raced s := fun _ _ _ _ _ => rfl
@[simp] theorem exec_evLatticeWindowWrite : ∀ off bytes s, exec (.evLatticeWindowWrite off bytes) s = execEvLatticeWindowWrite off bytes s := fun _ _ _ => rfl
@[simp] theorem exec_evLatticeWindowRead : ∀ off len s, exec (.evLatticeWindowRead off len) s = execEvLatticeWindowRead off len s := fun _ _ _ => rfl
@[simp] theorem exec_evMemoryWindowWrite : ∀ off bytes s, exec (.evMemoryWindowWrite off bytes) s = execEvMemoryWindowWrite off bytes s := fun _ _ _ => rfl
@[simp] theorem exec_evMemoryWindowRead : ∀ off len s, exec (.evMemoryWindowRead off len) s = execEvMemoryWindowRead off len s := fun _ _ _ => rfl
@[simp] theorem exec_evClrslot : ∀ j ltype lscope s, exec (.evClrslot j ltype lscope) s = execEvClrslot j ltype lscope s := fun _ _ _ _ => rfl
@[simp] theorem exec_evDump : ∀ buf s, exec (.evDump buf) s = execEvDump buf s := fun _ _ => rfl
@[simp] theorem exec_evInval : ∀ v s, exec (.evInval v) s = execEvInval v s := fun _ _ => rfl
@[simp] theorem exec_evLeaseExpiry : ∀ idx s, exec (.evLeaseExpiry idx) s = execEvLeaseExpiry idx s := fun _ _ => rfl
@[simp] theorem exec_evXretry : ∀ v s, exec (.evXretry v) s = execEvXretry v s := fun _ _ => rfl
@[simp] theorem exec_evSealWrite : ∀ n v s, exec (.evSealWrite n v) s = execEvSealWrite n v s := fun _ _ _ => rfl
@[simp] theorem exec_evXschedWrite : ∀ r v s, exec (.evXschedWrite r v) s = execEvXschedWrite r v s := fun _ _ _ => rfl
@[simp] theorem exec_evSlewRegisterWrite : ∀ r v s, exec (.evSlewRegisterWrite r v) s = execEvSlewRegisterWrite r v s := fun _ _ _ => rfl
@[simp] theorem exec_evLevellingRequestWrite : ∀ v s, exec (.evLevellingRequestWrite v) s = execEvLevellingRequestWrite v s := fun _ _ => rfl
@[simp] theorem exec_evTrimTargetWrite : ∀ v s, exec (.evTrimTargetWrite v) s = execEvTrimTargetWrite v s := fun _ _ => rfl
@[simp] theorem exec_evQctlClear : ∀ v s, exec (.evQctlClear v) s = execEvQctlClear v s := fun _ _ => rfl
@[simp] theorem exec_evTrctlWrite : ∀ v s, exec (.evTrctlWrite v) s = execEvTrctlWrite v s := fun _ _ => rfl
@[simp] theorem exec_evRegisterWrite : ∀ off v s, exec (.evRegisterWrite off v) s = execEvRegisterWrite off v s := fun _ _ _ => rfl
@[simp] theorem exec_evPacketArrival : ∀ p s, exec (.evPacketArrival p) s = execEvPacketArrival p s := fun _ _ => rfl
@[simp] theorem exec_evFlitReplay : ∀ more s, exec (.evFlitReplay more) s = execEvFlitReplay more s := fun _ _ => rfl
@[simp] theorem exec_evDatumAlign : ∀ parent s, exec (.evDatumAlign parent) s = execEvDatumAlign parent s := fun _ _ => rfl
@[simp] theorem exec_evDatumOffsetWrite : ∀ v s, exec (.evDatumOffsetWrite v) s = execEvDatumOffsetWrite v s := fun _ _ => rfl
@[simp] theorem exec_evThermalSample : ∀ hot watts flow tin s, exec (.evThermalSample hot watts flow tin) s = execEvThermalSample hot watts flow tin s :=
  fun _ _ _ _ _ => rfl
@[simp] theorem exec_evPcieLinkTrains : ∀ gen7 wide16 s, exec (.evPcieLinkTrains gen7 wide16) s = execEvPcieLinkTrains gen7 wide16 s := fun _ _ _ => rfl
@[simp] theorem exec_evAccessPerformed : ∀ id group s, exec (.evAccessPerformed id group) s = execEvAccessPerformed id group s := fun _ _ _ => rfl
@[simp] theorem exec_evDatumRootWrite : ∀ root s, exec (.evDatumRootWrite root) s = execEvDatumRootWrite root s := fun _ _ => rfl
@[simp] theorem exec_nop : ∀ s, exec .nop s = execNop s := fun _ => rfl
@[simp] theorem exec_evCcwaitRelease : ∀ s, exec .evCcwaitRelease s = execEvCcwaitRelease s := fun _ => rfl
@[simp] theorem exec_evSleepuntilWake : ∀ s, exec .evSleepuntilWake s = execEvSleepuntilWake s := fun _ => rfl
@[simp] theorem exec_evWidleComplete : ∀ s, exec .evWidleComplete s = execEvWidleComplete s := fun _ => rfl
@[simp] theorem exec_evTtakeComplete : ∀ s, exec .evTtakeComplete s = execEvTtakeComplete s := fun _ => rfl
@[simp] theorem exec_evLwaitPass : ∀ s, exec .evLwaitPass s = execEvLwaitPass s := fun _ => rfl
@[simp] theorem exec_evLwaitTimeout : ∀ s, exec .evLwaitTimeout s = execEvLwaitTimeout s := fun _ => rfl
@[simp] theorem exec_evRdvComplete : ∀ s, exec .evRdvComplete s = execEvRdvComplete s := fun _ => rfl
@[simp] theorem exec_evWaitEntryRelease : ∀ s, exec .evWaitEntryRelease s = execEvWaitEntryRelease s := fun _ => rfl
@[simp] theorem exec_wDup : ∀ s, exec .wDup s = execWDup s := fun _ => rfl
@[simp] theorem exec_wDrop : ∀ s, exec .wDrop s = execWDrop s := fun _ => rfl
@[simp] theorem exec_wSwap : ∀ s, exec .wSwap s = execWSwap s := fun _ => rfl
@[simp] theorem exec_wOver : ∀ s, exec .wOver s = execWOver s := fun _ => rfl
@[simp] theorem exec_wRot : ∀ s, exec .wRot s = execWRot s := fun _ => rfl
@[simp] theorem exec_wAdd : ∀ s, exec .wAdd s = execWAdd s := fun _ => rfl
@[simp] theorem exec_wSub : ∀ s, exec .wSub s = execWSub s := fun _ => rfl
@[simp] theorem exec_wAnd : ∀ s, exec .wAnd s = execWAnd s := fun _ => rfl
@[simp] theorem exec_wOr : ∀ s, exec .wOr s = execWOr s := fun _ => rfl
@[simp] theorem exec_wXor : ∀ s, exec .wXor s = execWXor s := fun _ => rfl
@[simp] theorem exec_wInc : ∀ s, exec .wInc s = execWInc s := fun _ => rfl
@[simp] theorem exec_wDec : ∀ s, exec .wDec s = execWDec s := fun _ => rfl
@[simp] theorem exec_wNeg : ∀ s, exec .wNeg s = execWNeg s := fun _ => rfl
@[simp] theorem exec_wMin : ∀ s, exec .wMin s = execWMin s := fun _ => rfl
@[simp] theorem exec_wMax : ∀ s, exec .wMax s = execWMax s := fun _ => rfl
@[simp] theorem exec_wEqz : ∀ s, exec .wEqz s = execWEqz s := fun _ => rfl
@[simp] theorem exec_wEnd : ∀ s, exec .wEnd s = execWEnd s := fun _ => rfl
@[simp] theorem exec_wReply : ∀ s, exec .wReply s = execWReply s := fun _ => rfl
@[simp] theorem exec_wBound : ∀ s, exec .wBound s = execWBound s := fun _ => rfl
@[simp] theorem exec_wJoin : ∀ s, exec .wJoin s = execWJoin s := fun _ => rfl
@[simp] theorem exec_wRets : ∀ s, exec .wRets s = execWRets s := fun _ => rfl
@[simp] theorem exec_wDesc : ∀ s, exec .wDesc s = execWDesc s := fun _ => rfl
@[simp] theorem exec_wMload : ∀ s, exec .wMload s = execWMload s := fun _ => rfl
@[simp] theorem exec_wAccz : ∀ s, exec .wAccz s = execWAccz s := fun _ => rfl
@[simp] theorem exec_wAccout : ∀ s, exec .wAccout s = execWAccout s := fun _ => rfl
@[simp] theorem exec_wCrci : ∀ s, exec .wCrci s = execWCrci s := fun _ => rfl
@[simp] theorem exec_evFolioIssue : ∀ s, exec .evFolioIssue s = execEvFolioIssue s := fun _ => rfl
@[simp] theorem exec_evEngineOverrun : ∀ s, exec .evEngineOverrun s = execEvEngineOverrun s := fun _ => rfl
@[simp] theorem exec_evMloadBankActivate : ∀ s, exec .evMloadBankActivate s = execEvMloadBankActivate s := fun _ => rfl
@[simp] theorem exec_evCopyComplete : ∀ s, exec .evCopyComplete s = execEvCopyComplete s := fun _ => rfl
@[simp] theorem exec_evPromiseMiss : ∀ s, exec .evPromiseMiss s = execEvPromiseMiss s := fun _ => rfl
@[simp] theorem exec_evCopyResend : ∀ s, exec .evCopyResend s = execEvCopyResend s := fun _ => rfl
@[simp] theorem exec_evBoundaryTrap : ∀ s, exec .evBoundaryTrap s = execEvBoundaryTrap s := fun _ => rfl
@[simp] theorem exec_evSafePointDrought : ∀ s, exec .evSafePointDrought s = execEvSafePointDrought s := fun _ => rfl
@[simp] theorem exec_evSideLogReplay : ∀ s, exec .evSideLogReplay s = execEvSideLogReplay s := fun _ => rfl
@[simp] theorem exec_evRecordReady : ∀ s, exec .evRecordReady s = execEvRecordReady s := fun _ => rfl
@[simp] theorem exec_evStrandStart : ∀ s, exec .evStrandStart s = execEvStrandStart s := fun _ => rfl
@[simp] theorem exec_evImageLoad : ∀ s, exec .evImageLoad s = execEvImageLoad s := fun _ => rfl
@[simp] theorem exec_evRecordRetire : ∀ s, exec .evRecordRetire s = execEvRecordRetire s := fun _ => rfl
@[simp] theorem exec_evPreemptionRequest : ∀ s, exec .evPreemptionRequest s = execEvPreemptionRequest s := fun _ => rfl
@[simp] theorem exec_evCoreHalt : ∀ s, exec .evCoreHalt s = execEvCoreHalt s := fun _ => rfl
@[simp] theorem exec_evResume : ∀ s, exec .evResume s = execEvResume s := fun _ => rfl
@[simp] theorem exec_evSlewStep : ∀ s, exec .evSlewStep s = execEvSlewStep s := fun _ => rfl
@[simp] theorem exec_evFillerStroke : ∀ s, exec .evFillerStroke s = execEvFillerStroke s := fun _ => rfl
@[simp] theorem exec_evLevellingStart : ∀ s, exec .evLevellingStart s = execEvLevellingStart s := fun _ => rfl
@[simp] theorem exec_evLevellingPeriodExpiry : ∀ s, exec .evLevellingPeriodExpiry s = execEvLevellingPeriodExpiry s := fun _ => rfl
@[simp] theorem exec_evExchangeRound : ∀ s, exec .evExchangeRound s = execEvExchangeRound s := fun _ => rfl
@[simp] theorem exec_evSystemExchangeRound : ∀ s, exec .evSystemExchangeRound s = execEvSystemExchangeRound s := fun _ => rfl
@[simp] theorem exec_evLaunchPacket : ∀ s, exec .evLaunchPacket s = execEvLaunchPacket s := fun _ => rfl
@[simp] theorem exec_evLaunchComplete : ∀ s, exec .evLaunchComplete s = execEvLaunchComplete s := fun _ => rfl
@[simp] theorem exec_evActivate : ∀ s, exec .evActivate s = execEvActivate s := fun _ => rfl
@[simp] theorem exec_evRetire : ∀ s, exec .evRetire s = execEvRetire s := fun _ => rfl
@[simp] theorem exec_evCoolingEnd : ∀ s, exec .evCoolingEnd s = execEvCoolingEnd s := fun _ => rfl
@[simp] theorem exec_evInvalLeaseExpiry : ∀ s, exec .evInvalLeaseExpiry s = execEvInvalLeaseExpiry s := fun _ => rfl
@[simp] theorem exec_evInvalDone : ∀ s, exec .evInvalDone s = execEvInvalDone s := fun _ => rfl
@[simp] theorem exec_evPreempt : ∀ s, exec .evPreempt s = execEvPreempt s := fun _ => rfl
@[simp] theorem exec_evCctlResume : ∀ s, exec .evCctlResume s = execEvCctlResume s := fun _ => rfl
@[simp] theorem exec_evTraceTransfer : ∀ s, exec .evTraceTransfer s = execEvTraceTransfer s := fun _ => rfl
@[simp] theorem exec_evComputeReset : ∀ s, exec .evComputeReset s = execEvComputeReset s := fun _ => rfl
@[simp] theorem exec_evFunctionLevelReset : ∀ s, exec .evFunctionLevelReset s = execEvFunctionLevelReset s := fun _ => rfl
@[simp] theorem exec_evComputeRailLoss : ∀ s, exec .evComputeRailLoss s = execEvComputeRailLoss s := fun _ => rfl
@[simp] theorem exec_evIslandRailUp : ∀ s, exec .evIslandRailUp s = execEvIslandRailUp s := fun _ => rfl
@[simp] theorem exec_evIslandRailLoss : ∀ s, exec .evIslandRailLoss s = execEvIslandRailLoss s := fun _ => rfl
@[simp] theorem exec_evAttach : ∀ s, exec .evAttach s = execEvAttach s := fun _ => rfl
@[simp] theorem exec_evDetach : ∀ s, exec .evDetach s = execEvDetach s := fun _ => rfl
@[simp] theorem exec_evIslandReset : ∀ s, exec .evIslandReset s = execEvIslandReset s := fun _ => rfl
@[simp] theorem exec_evRetrainPort : ∀ s, exec .evRetrainPort s = execEvRetrainPort s := fun _ => rfl
@[simp] theorem exec_evIslandDrainEnd : ∀ s, exec .evIslandDrainEnd s = execEvIslandDrainEnd s := fun _ => rfl
@[simp] theorem exec_evTrainComplete : ∀ s, exec .evTrainComplete s = execEvTrainComplete s := fun _ => rfl
@[simp] theorem exec_evPortUp : ∀ s, exec .evPortUp s = execEvPortUp s := fun _ => rfl
@[simp] theorem exec_evLinkDown : ∀ s, exec .evLinkDown s = execEvLinkDown s := fun _ => rfl
@[simp] theorem exec_evClass0Admission : ∀ s, exec .evClass0Admission s = execEvClass0Admission s := fun _ => rfl
@[simp] theorem exec_evPtmDialogue : ∀ s, exec .evPtmDialogue s = execEvPtmDialogue s := fun _ => rfl
@[simp] theorem exec_evComputeRailUp : ∀ s, exec .evComputeRailUp s = execEvComputeRailUp s := fun _ => rfl
@[simp] theorem exec_evComputeResetComplete : ∀ s, exec .evComputeResetComplete s = execEvComputeResetComplete s := fun _ => rfl

theorem encodeSyl_add : ∀ q d a b, encodeSyl (.add q d a b) = encRrr 0x01 q d a b := fun _ _ _ _ => rfl
theorem encodeSyl_sub : ∀ q d a b, encodeSyl (.sub q d a b) = encRrr 0x02 q d a b := fun _ _ _ _ => rfl
theorem encodeSyl_addi : ∀ q d a i, encodeSyl (.addi q d a i) = encRri 0x03 q d a i := fun _ _ _ _ => rfl
theorem encodeSyl_mul : ∀ q d a b, encodeSyl (.mul q d a b) = encRrr 0x04 q d a b := fun _ _ _ _ => rfl
theorem encodeSyl_mulh : ∀ q d a b, encodeSyl (.mulh q d a b) = encRrr 0x05 q d a b := fun _ _ _ _ => rfl
theorem encodeSyl_mulhu : ∀ q d a b, encodeSyl (.mulhu q d a b) = encRrr 0x06 q d a b := fun _ _ _ _ => rfl
theorem encodeSyl_div : ∀ q d a b, encodeSyl (.div q d a b) = encRrr 0x07 q d a b := fun _ _ _ _ => rfl
theorem encodeSyl_divu : ∀ q d a b, encodeSyl (.divu q d a b) = encRrr 0x08 q d a b := fun _ _ _ _ => rfl
theorem encodeSyl_rem : ∀ q d a b, encodeSyl (.rem q d a b) = encRrr 0x09 q d a b := fun _ _ _ _ => rfl
theorem encodeSyl_remu : ∀ q d a b, encodeSyl (.remu q d a b) = encRrr 0x0A q d a b := fun _ _ _ _ => rfl
theorem encodeSyl_and : ∀ q d a b, encodeSyl (.and q d a b) = encRrr 0x0B q d a b := fun _ _ _ _ => rfl
theorem encodeSyl_or : ∀ q d a b, encodeSyl (.or q d a b) = encRrr 0x0C q d a b := fun _ _ _ _ => rfl
theorem encodeSyl_xor : ∀ q d a b, encodeSyl (.xor q d a b) = encRrr 0x0D q d a b := fun _ _ _ _ => rfl
theorem encodeSyl_andn : ∀ q d a b, encodeSyl (.andn q d a b) = encRrr 0x0E q d a b := fun _ _ _ _ => rfl
theorem encodeSyl_orn : ∀ q d a b, encodeSyl (.orn q d a b) = encRrr 0x0F q d a b := fun _ _ _ _ => rfl
theorem encodeSyl_shl : ∀ q d a b, encodeSyl (.shl q d a b) = encRrr 0x10 q d a b := fun _ _ _ _ => rfl
theorem encodeSyl_shr : ∀ q d a b, encodeSyl (.shr q d a b) = encRrr 0x11 q d a b := fun _ _ _ _ => rfl
theorem encodeSyl_sar : ∀ q d a b, encodeSyl (.sar q d a b) = encRrr 0x12 q d a b := fun _ _ _ _ => rfl
theorem encodeSyl_rol : ∀ q d a b, encodeSyl (.rol q d a b) = encRrr 0x13 q d a b := fun _ _ _ _ => rfl
theorem encodeSyl_fshl : ∀ q d a b c, encodeSyl (.fshl q d a b c) = encRrrr 0x14 q d a b c := fun _ _ _ _ _ => rfl
theorem encodeSyl_fshr : ∀ q d a b c, encodeSyl (.fshr q d a b c) = encRrrr 0x15 q d a b c := fun _ _ _ _ _ => rfl
theorem encodeSyl_clz : ∀ q d a, encodeSyl (.clz q d a) = encRr 0x16 q d a := fun _ _ _ => rfl
theorem encodeSyl_ctz : ∀ q d a, encodeSyl (.ctz q d a) = encRr 0x17 q d a := fun _ _ _ => rfl
theorem encodeSyl_popc : ∀ q d a, encodeSyl (.popc q d a) = encRr 0x18 q d a := fun _ _ _ => rfl
theorem encodeSyl_min : ∀ q d a b, encodeSyl (.min q d a b) = encRrr 0x19 q d a b := fun _ _ _ _ => rfl
theorem encodeSyl_max : ∀ q d a b, encodeSyl (.max q d a b) = encRrr 0x1A q d a b := fun _ _ _ _ => rfl
theorem encodeSyl_minu : ∀ q d a b, encodeSyl (.minu q d a b) = encRrr 0x1B q d a b := fun _ _ _ _ => rfl
theorem encodeSyl_maxu : ∀ q d a b, encodeSyl (.maxu q d a b) = encRrr 0x1C q d a b := fun _ _ _ _ => rfl
theorem encodeSyl_sel : ∀ q d a b c, encodeSyl (.sel q d a b c) = encRrrp 0x1D q d a b c := fun _ _ _ _ _ => rfl
theorem encodeSyl_li : ∀ q d i, encodeSyl (.li q d i) = encLi 0x1E q d i := fun _ _ _ => rfl
theorem encodeSyl_lih : ∀ q d i, encodeSyl (.lih q d i) = encLih 0x1F q d i := fun _ _ _ => rfl
theorem encodeSyl_ext : ∀ q d a p n, encodeSyl (.ext q d a p n) = encExt 0x20 q d a p n := fun _ _ _ _ _ => rfl
theorem encodeSyl_extu : ∀ q d a p n, encodeSyl (.extu q d a p n) = encExt 0x21 q d a p n := fun _ _ _ _ _ => rfl
theorem encodeSyl_ins : ∀ q d a p n, encodeSyl (.ins q d a p n) = encIns 0x22 q d a p n := fun _ _ _ _ _ => rfl
theorem encodeSyl_bswap : ∀ q d a, encodeSyl (.bswap q d a) = encRr 0x23 q d a := fun _ _ _ => rfl
theorem encodeSyl_abs : ∀ q d a, encodeSyl (.abs q d a) = encRr 0x24 q d a := fun _ _ _ => rfl
theorem encodeSyl_cmp : ∀ q c pd a b, encodeSyl (.cmp q c pd a b) = encCmp 0x40 q c pd a b := fun _ _ _ _ _ => rfl
theorem encodeSyl_cmpi : ∀ q c pd a i, encodeSyl (.cmpi q c pd a i) = encCmpi 0x41 q c pd a i := fun _ _ _ _ _ => rfl
theorem encodeSyl_tstb : ∀ q r pd a b, encodeSyl (.tstb q r pd a b) = encTstb 0x42 q r pd a b := fun _ _ _ _ _ => rfl
theorem encodeSyl_pand : ∀ q pd pa pb, encodeSyl (.pand q pd pa pb) = encPpp 0x43 q pd pa pb := fun _ _ _ _ => rfl
theorem encodeSyl_por : ∀ q pd pa pb, encodeSyl (.por q pd pa pb) = encPpp 0x44 q pd pa pb := fun _ _ _ _ => rfl
theorem encodeSyl_pxor : ∀ q pd pa pb, encodeSyl (.pxor q pd pa pb) = encPpp 0x45 q pd pa pb := fun _ _ _ _ => rfl
theorem encodeSyl_pandn : ∀ q pd pa pb, encodeSyl (.pandn q pd pa pb) = encPpp 0x46 q pd pa pb := fun _ _ _ _ => rfl
theorem encodeSyl_br : ∀ q off, encodeSyl (.br q off) = encBr 0x60 q off := fun _ _ => rfl
theorem encodeSyl_brcc : ∀ q cc off, encodeSyl (.brcc q cc off) = encBrcc 0x61 q cc off := fun _ _ _ => rfl
theorem encodeSyl_call : ∀ q off, encodeSyl (.call q off) = encBr 0x62 q off := fun _ _ => rfl
theorem encodeSyl_callr : ∀ q d a, encodeSyl (.callr q d a) = encCallr 0x63 q d a := fun _ _ _ => rfl
theorem encodeSyl_ret : ∀ q a, encodeSyl (.ret q a) = encRa 0x64 q a := fun _ _ => rfl
theorem encodeSyl_jmpr : ∀ q a, encodeSyl (.jmpr q a) = encRa 0x65 q a := fun _ _ => rfl
theorem encodeSyl_loop : ∀ q st id rot sm1 lenm1, encodeSyl (.loop q st id rot sm1 lenm1) = encLoop 0x66 q st id rot sm1 lenm1 := fun _ _ _ _ _ _ => rfl
theorem encodeSyl_lbrk : ∀ q id off, encodeSyl (.lbrk q id off) = encLbrk 0x67 q id off := fun _ _ _ => rfl
theorem encodeSyl_forkc : ∀ q mask off, encodeSyl (.forkc q mask off) = encForkc 0x68 q mask off := fun _ _ _ => rfl
theorem encodeSyl_ccset : ∀ q mask, encodeSyl (.ccset q mask) = encCc 0x69 q mask := fun _ _ => rfl
theorem encodeSyl_ccclr : ∀ q mask, encodeSyl (.ccclr q mask) = encCc 0x6A q mask := fun _ _ => rfl
theorem encodeSyl_ccwait : ∀ q mask, encodeSyl (.ccwait q mask) = encCc 0x6B q mask := fun _ _ => rfl
theorem encodeSyl_sleepuntil : ∀ q a, encodeSyl (.sleepuntil q a) = encRa 0x6C q a := fun _ _ => rfl
theorem encodeSyl_safe : ∀ vl sl, encodeSyl (.safe vl sl) = encSafe 0x6D vl sl := fun _ _ => rfl
theorem encodeSyl_spawn : ∀ q d a, encodeSyl (.spawn q d a) = encRr 0x6E q d a := fun _ _ _ => rfl
theorem encodeSyl_join : ∀ q a, encodeSyl (.join q a) = encRa 0x6F q a := fun _ _ => rfl
theorem encodeSyl_yield : ∀ q a b, encodeSyl (.yield q a b) = encRab 0x70 q a b := fun _ _ _ => rfl
theorem encodeSyl_exit : ∀ q, encodeSyl (.exit q) = encQ 0x71 q := fun _ => rfl
theorem encodeSyl_mfk : ∀ q d k, encodeSyl (.mfk q d k) = encMfk 0x80 q d k := fun _ _ _ => rfl
theorem encodeSyl_mtk : ∀ q k a, encodeSyl (.mtk q k a) = encMtk 0x81 q k a := fun _ _ _ => rfl
theorem encodeSyl_rdcyc : ∀ q d, encodeSyl (.rdcyc q d) = encD 0x82 q d := fun _ _ => rfl
theorem encodeSyl_rddatum : ∀ q d, encodeSyl (.rddatum q d) = encD 0x83 q d := fun _ _ => rfl
theorem encodeSyl_locality : ∀ q d a, encodeSyl (.locality q d a) = encRr 0x84 q d a := fun _ _ _ => rfl
theorem encodeSyl_trap : ∀ q code a, encodeSyl (.trap q code a) = encTrap 0x85 q code a := fun _ _ _ => rfl
theorem encodeSyl_eret : ∀ q, encodeSyl (.eret q) = encQ 0x86 q := fun _ => rfl
theorem encodeSyl_brkpt : ∀ q code, encodeSyl (.brkpt q code) = encBrkpt 0x87 q code := fun _ _ => rfl
theorem encodeSyl_widle : ∀ q a, encodeSyl (.widle q a) = encRa 0x88 q a := fun _ _ => rfl
theorem encodeSyl_mempfx : ∀ o sc cp asp, encodeSyl (.mempfx o sc cp asp) = encMempfx 0x90 o sc cp asp := fun _ _ _ _ => rfl
theorem encodeSyl_ld : ∀ q d m k, encodeSyl (.ld q d m k) = encLd 0x01 q d m k := fun _ _ _ _ => rfl
theorem encodeSyl_st : ∀ q d m k, encodeSyl (.st q d m k) = encSt 0x02 q d m k := fun _ _ _ _ => rfl
theorem encodeSyl_pref : ∀ q m, encodeSyl (.pref q m) = encPref 0x03 q m := fun _ _ => rfl
theorem encodeSyl_vld : ∀ q d m k, encodeSyl (.vld q d m k) = encVld 0x20 q d m k := fun _ _ _ _ => rfl
theorem encodeSyl_vst : ∀ q d m k, encodeSyl (.vst q d m k) = encVst 0x21 q d m k := fun _ _ _ _ => rfl
theorem encodeSyl_vldu : ∀ q d m k, encodeSyl (.vldu q d m k) = encVldk 0x22 q d m k := fun _ _ _ _ => rfl
theorem encodeSyl_vstm : ∀ q d m, encodeSyl (.vstm q d m) = encVstm 0x23 q d m := fun _ _ _ => rfl
theorem encodeSyl_vlds : ∀ q d base x k, encodeSyl (.vlds q d base x k) = encVlds 0x24 q d base x k := fun _ _ _ _ _ => rfl
theorem encodeSyl_vsts : ∀ q d base x k, encodeSyl (.vsts q d base x k) = encVsts 0x25 q d base x k := fun _ _ _ _ _ => rfl
theorem encodeSyl_vgath : ∀ q d base x, encodeSyl (.vgath q d base x) = encVgs 0x26 q d base x := fun _ _ _ _ => rfl
theorem encodeSyl_vscat : ∀ q d base x, encodeSyl (.vscat q d base x) = encVgs 0x27 q d base x := fun _ _ _ _ => rfl
theorem encodeSyl_vldb : ∀ q d m k, encodeSyl (.vldb q d m k) = encVldk 0x28 q d m k := fun _ _ _ _ => rfl
theorem encodeSyl_talloc : ∀ q d a b pd, encodeSyl (.talloc q d a b pd) = encRrrp 0x40 q d a b pd := fun _ _ _ _ _ => rfl
theorem encodeSyl_tfree : ∀ q h, encodeSyl (.tfree q h) = encHq 0x41 q h := fun _ _ => rfl
theorem encodeSyl_tgive : ∀ q h, encodeSyl (.tgive q h) = encHq 0x42 q h := fun _ _ => rfl
theorem encodeSyl_ttake : ∀ q h, encodeSyl (.ttake q h) = encHq 0x43 q h := fun _ _ => rfl
theorem encodeSyl_tld : ∀ q d h row k, encodeSyl (.tld q d h row k) = encTx 0x44 q d h row k := fun _ _ _ _ _ => rfl
theorem encodeSyl_tst : ∀ q d h row k, encodeSyl (.tst q d h row k) = encTx 0x45 q d h row k := fun _ _ _ _ _ => rfl
theorem encodeSyl_tinfo : ∀ q d h, encodeSyl (.tinfo q d h) = encTinfo 0x46 q d h := fun _ _ _ => rfl
theorem encodeSyl_thold : ∀ q h, encodeSyl (.thold q h) = encHq 0x47 q h := fun _ _ => rfl
theorem encodeSyl_trels : ∀ q h, encodeSyl (.trels q h) = encHq 0x48 q h := fun _ _ => rfl
theorem encodeSyl_amo : ∀ q op w64 d a b, encodeSyl (.amo q op w64 d a b) = encAmo 0x60 q op w64 d a b := fun _ _ _ _ _ _ => rfl
theorem encodeSyl_cas : ∀ q w64 d a b, encodeSyl (.cas q w64 d a b) = encCas 0x61 q w64 d a b := fun _ _ _ _ _ => rfl
theorem encodeSyl_cas2 : ∀ q d a b, encodeSyl (.cas2 q d a b) = encCas2 0x62 q d a b := fun _ _ _ _ => rfl
theorem encodeSyl_ljoin : ∀ q src m, encodeSyl (.ljoin q src m) = encLjoin 0x70 q src m := fun _ _ _ => rfl
theorem encodeSyl_lld : ∀ q d m, encodeSyl (.lld q d m) = encLld 0x71 q d m := fun _ _ _ => rfl
theorem encodeSyl_lwait : ∀ q pd a b c, encodeSyl (.lwait q pd a b c) = encLwait 0x72 q pd a b c := fun _ _ _ _ _ => rfl
theorem encodeSyl_fence : ∀ q o sc, encodeSyl (.fence q o sc) = encFence 0x80 q o sc := fun _ _ _ => rfl
theorem encodeSyl_fencesc : ∀ q sc, encodeSyl (.fencesc q sc) = encFsc 0x81 q sc := fun _ _ => rfl
theorem encodeSyl_fencea : ∀ q sc, encodeSyl (.fencea q sc) = encFsc 0x82 q sc := fun _ _ => rfl
theorem encodeSyl_ifence : ∀ q, encodeSyl (.ifence q) = encQ 0x83 q := fun _ => rfl
theorem encodeSyl_eng : ∀ e f a b r w, encodeSyl (.eng e f a b r w) = encEng 0x90 e f a b r w := fun _ _ _ _ _ _ => rfl
theorem encodeSyl_fork : ∀ l a b w, encodeSyl (.fork l a b w) = encFork 0x91 l a b w := fun _ _ _ _ => rfl
theorem encodeSyl_rdv : ∀ q a, encodeSyl (.rdv q a) = encRa 0x92 q a := fun _ _ => rfl
theorem encodeSyl_setf : ∀ q f, encodeSyl (.setf q f) = encFlag 0x93 q f := fun _ _ => rfl
theorem encodeSyl_clrf : ∀ q f, encodeSyl (.clrf q f) = encFlag 0x94 q f := fun _ _ => rfl
theorem encodeSyl_waitf : ∀ q e f, encodeSyl (.waitf q e f) = encWaitf 0x95 q e f := fun _ _ _ => rfl
theorem encodeSyl_qstat : ∀ q d e, encodeSyl (.qstat q d e) = encQstat 0x96 q d e := fun _ _ _ => rfl
theorem encodeSyl_vadd : ∀ q ty d a b, encodeSyl (.vadd q ty d a b) = encFv3 0x01 q ty d a b := fun _ _ _ _ _ => rfl
theorem encodeSyl_vsub : ∀ q ty d a b, encodeSyl (.vsub q ty d a b) = encFv3 0x02 q ty d a b := fun _ _ _ _ _ => rfl
theorem encodeSyl_vmul : ∀ q ty d a b, encodeSyl (.vmul q ty d a b) = encFv3 0x03 q ty d a b := fun _ _ _ _ _ => rfl
theorem encodeSyl_vfma : ∀ q ty d a b c, encodeSyl (.vfma q ty d a b c) = encFv4 0x04 q ty d a b c := fun _ _ _ _ _ _ => rfl
theorem encodeSyl_vfms : ∀ q ty d a b c, encodeSyl (.vfms q ty d a b c) = encFv4 0x05 q ty d a b c := fun _ _ _ _ _ _ => rfl
theorem encodeSyl_vfnma : ∀ q ty d a b c, encodeSyl (.vfnma q ty d a b c) = encFv4 0x06 q ty d a b c := fun _ _ _ _ _ _ => rfl
theorem encodeSyl_vfnms : ∀ q ty d a b c, encodeSyl (.vfnms q ty d a b c) = encFv4 0x07 q ty d a b c := fun _ _ _ _ _ _ => rfl
theorem encodeSyl_vmin : ∀ q ty d a b, encodeSyl (.vmin q ty d a b) = encFv3 0x08 q ty d a b := fun _ _ _ _ _ => rfl
theorem encodeSyl_vmax : ∀ q ty d a b, encodeSyl (.vmax q ty d a b) = encFv3 0x09 q ty d a b := fun _ _ _ _ _ => rfl
theorem encodeSyl_vminn : ∀ q ty d a b, encodeSyl (.vminn q ty d a b) = encFv3 0x0A q ty d a b := fun _ _ _ _ _ => rfl
theorem encodeSyl_vmaxn : ∀ q ty d a b, encodeSyl (.vmaxn q ty d a b) = encFv3 0x0B q ty d a b := fun _ _ _ _ _ => rfl
theorem encodeSyl_vabs : ∀ q ty d a, encodeSyl (.vabs q ty d a) = encFv2 0x0C q ty d a := fun _ _ _ _ => rfl
theorem encodeSyl_vneg : ∀ q ty d a, encodeSyl (.vneg q ty d a) = encFv2 0x0D q ty d a := fun _ _ _ _ => rfl
theorem encodeSyl_vcpys : ∀ q ty d a b, encodeSyl (.vcpys q ty d a b) = encFv3 0x0E q ty d a b := fun _ _ _ _ _ => rfl
theorem encodeSyl_vcmp : ∀ q ty c e md a b, encodeSyl (.vcmp q ty c e md a b) = encVcmp 0x0F q ty c e md a b := fun _ _ _ _ _ _ _ => rfl
theorem encodeSyl_vclass : ∀ q ty d a, encodeSyl (.vclass q ty d a) = encFv2 0x10 q ty d a := fun _ _ _ _ => rfl
theorem encodeSyl_vrnd : ∀ q ty d a, encodeSyl (.vrnd q ty d a) = encFv2 0x11 q ty d a := fun _ _ _ _ => rfl
theorem encodeSyl_vscale : ∀ q ty d a b, encodeSyl (.vscale q ty d a b) = encFv3 0x12 q ty d a b := fun _ _ _ _ _ => rfl
theorem encodeSyl_viadd : ∀ q ty d a b, encodeSyl (.viadd q ty d a b) = encIv3 0x40 q ty d a b := fun _ _ _ _ _ => rfl
theorem encodeSyl_visub : ∀ q ty d a b, encodeSyl (.visub q ty d a b) = encIv3 0x41 q ty d a b := fun _ _ _ _ _ => rfl
theorem encodeSyl_vimul : ∀ q ty d a b, encodeSyl (.vimul q ty d a b) = encIv3 0x42 q ty d a b := fun _ _ _ _ _ => rfl
theorem encodeSyl_vimin : ∀ q ty d a b, encodeSyl (.vimin q ty d a b) = encIv3 0x43 q ty d a b := fun _ _ _ _ _ => rfl
theorem encodeSyl_vimax : ∀ q ty d a b, encodeSyl (.vimax q ty d a b) = encIv3 0x44 q ty d a b := fun _ _ _ _ _ => rfl
theorem encodeSyl_viminu : ∀ q ty d a b, encodeSyl (.viminu q ty d a b) = encIv3 0x45 q ty d a b := fun _ _ _ _ _ => rfl
theorem encodeSyl_vimaxu : ∀ q ty d a b, encodeSyl (.vimaxu q ty d a b) = encIv3 0x46 q ty d a b := fun _ _ _ _ _ => rfl
theorem encodeSyl_vand : ∀ q ty d a b, encodeSyl (.vand q ty d a b) = encIv3 0x47 q ty d a b := fun _ _ _ _ _ => rfl
theorem encodeSyl_vor : ∀ q ty d a b, encodeSyl (.vor q ty d a b) = encIv3 0x48 q ty d a b := fun _ _ _ _ _ => rfl
theorem encodeSyl_vxor : ∀ q ty d a b, encodeSyl (.vxor q ty d a b) = encIv3 0x49 q ty d a b := fun _ _ _ _ _ => rfl
theorem encodeSyl_vandn : ∀ q ty d a b, encodeSyl (.vandn q ty d a b) = encIv3 0x4A q ty d a b := fun _ _ _ _ _ => rfl
theorem encodeSyl_vshl : ∀ q ty d a b, encodeSyl (.vshl q ty d a b) = encIv3 0x4B q ty d a b := fun _ _ _ _ _ => rfl
theorem encodeSyl_vshr : ∀ q ty d a b, encodeSyl (.vshr q ty d a b) = encIv3 0x4C q ty d a b := fun _ _ _ _ _ => rfl
theorem encodeSyl_vsar : ∀ q ty d a b, encodeSyl (.vsar q ty d a b) = encIv3 0x4D q ty d a b := fun _ _ _ _ _ => rfl
theorem encodeSyl_vfshl : ∀ q ty d a b c, encodeSyl (.vfshl q ty d a b c) = encIv4 0x4E q ty d a b c := fun _ _ _ _ _ _ => rfl
theorem encodeSyl_vfshr : ∀ q ty d a b c, encodeSyl (.vfshr q ty d a b c) = encIv4 0x4F q ty d a b c := fun _ _ _ _ _ _ => rfl
theorem encodeSyl_vclz : ∀ q ty d a, encodeSyl (.vclz q ty d a) = encIv2 0x50 q ty d a := fun _ _ _ _ => rfl
theorem encodeSyl_vpopc : ∀ q ty d a, encodeSyl (.vpopc q ty d a) = encIv2 0x51 q ty d a := fun _ _ _ _ => rfl
theorem encodeSyl_vicmp : ∀ q ty c e md a b, encodeSyl (.vicmp q ty c e md a b) = encVicmp 0x52 q ty c e md a b := fun _ _ _ _ _ _ _ => rfl
theorem encodeSyl_vsatn : ∀ q n8 d a b, encodeSyl (.vsatn q n8 d a b) = encVsatn 0x53 q n8 d a b := fun _ _ _ _ _ => rfl
theorem encodeSyl_viabs : ∀ q ty d a, encodeSyl (.viabs q ty d a) = encIv2 0x54 q ty d a := fun _ _ _ _ => rfl
theorem encodeSyl_vredadd : ∀ q ty d a m, encodeSyl (.vredadd q ty d a m) = encRed 0x60 q ty d a m := fun _ _ _ _ _ => rfl
theorem encodeSyl_vredmax : ∀ q ty d a m, encodeSyl (.vredmax q ty d a m) = encRed 0x61 q ty d a m := fun _ _ _ _ _ => rfl
theorem encodeSyl_vredmin : ∀ q ty d a m, encodeSyl (.vredmin q ty d a m) = encRed 0x62 q ty d a m := fun _ _ _ _ _ => rfl
theorem encodeSyl_vgmax : ∀ q ty d a m n, encodeSyl (.vgmax q ty d a m n) = encGrp 0x63 q ty d a m n := fun _ _ _ _ _ _ => rfl
theorem encodeSyl_vgsum : ∀ q ty d a m n, encodeSyl (.vgsum q ty d a m n) = encGrp 0x64 q ty d a m n := fun _ _ _ _ _ _ => rfl
theorem encodeSyl_vscanadd : ∀ q ty d a m, encodeSyl (.vscanadd q ty d a m) = encRed 0x65 q ty d a m := fun _ _ _ _ _ => rfl
theorem encodeSyl_vscanaff : ∀ q d a b c, encodeSyl (.vscanaff q d a b c) = encZ4 0x66 q d a b c := fun _ _ _ _ _ => rfl
theorem encodeSyl_vbsr : ∀ q d a b c, encodeSyl (.vbsr q d a b c) = encVbsr 0x67 q d a b c := fun _ _ _ _ _ => rfl
theorem encodeSyl_vbsw : ∀ q d a b c, encodeSyl (.vbsw q d a b c) = encVbsw 0x68 q d a b c := fun _ _ _ _ _ => rfl
theorem encodeSyl_vmov : ∀ q d a, encodeSyl (.vmov q d a) = encVmov 0x80 q d a := fun _ _ _ => rfl
theorem encodeSyl_vsplat : ∀ q ty d src, encodeSyl (.vsplat q ty d src) = encVsplat 0x81 q ty d src := fun _ _ _ _ => rfl
theorem encodeSyl_vli : ∀ q d i, encodeSyl (.vli q d i) = encVli 0x82 q d i := fun _ _ _ => rfl
theorem encodeSyl_vmvs : ∀ q d a b, encodeSyl (.vmvs q d a b) = encVmvs 0x83 q d a b := fun _ _ _ _ => rfl
theorem encodeSyl_vins : ∀ q d a b, encodeSyl (.vins q d a b) = encVins 0x84 q d a b := fun _ _ _ _ => rfl
theorem encodeSyl_vperm : ∀ q d a b c, encodeSyl (.vperm q d a b c) = encZ4 0x85 q d a b c := fun _ _ _ _ _ => rfl
theorem encodeSyl_vrotl : ∀ q d a b, encodeSyl (.vrotl q d a b) = encVrotl 0x86 q d a b := fun _ _ _ _ => rfl
theorem encodeSyl_vslide : ∀ q d a b c, encodeSyl (.vslide q d a b c) = encVslide 0x87 q d a b c := fun _ _ _ _ _ => rfl
theorem encodeSyl_vzip : ∀ q ty d a b, encodeSyl (.vzip q ty d a b) = encZip 0x88 q ty d a b := fun _ _ _ _ _ => rfl
theorem encodeSyl_vunzip : ∀ q ty d a b, encodeSyl (.vunzip q ty d a b) = encZip 0x89 q ty d a b := fun _ _ _ _ _ => rfl
theorem encodeSyl_vsel : ∀ q d a m c, encodeSyl (.vsel q d a m c) = encVsel 0x8A q d a m c := fun _ _ _ _ _ => rfl
theorem encodeSyl_mlog : ∀ q op md ma mb, encodeSyl (.mlog q op md ma mb) = encMlog 0x8B q op md ma mb := fun _ _ _ _ _ => rfl
theorem encodeSyl_mpopc : ∀ q sel d ma, encodeSyl (.mpopc q sel d ma) = encMpopc 0x8C q sel d ma := fun _ _ _ _ => rfl
theorem encodeSyl_vcvt : ∀ q sel d a b, encodeSyl (.vcvt q sel d a b) = encVcvt 0xA0 q sel d a b := fun _ _ _ _ _ => rfl
theorem encodeSyl_vqmx : ∀ q f d a, encodeSyl (.vqmx q f d a) = encMx 0xA1 q f d a := fun _ _ _ _ => rfl
theorem encodeSyl_vdqmx : ∀ q f d a, encodeSyl (.vdqmx q f d a) = encMx 0xA2 q f d a := fun _ _ _ _ => rfl
theorem encodeSyl_vpack : ∀ q sel d a b, encodeSyl (.vpack q sel d a b) = encVpack 0xA3 q sel d a b := fun _ _ _ _ _ => rfl
theorem encodeSyl_vunpk : ∀ q sel d a, encodeSyl (.vunpk q sel d a) = encVunpk 0xA4 q sel d a := fun _ _ _ _ => rfl

theorem encodeWord_wLit : ∀ i, encodeWord (.wLit i) = i.toNat := fun _ => rfl
theorem encodeWord_wLitx : ∀ i, encodeWord (.wLitx i) = 0x1000 + i.toNat := fun _ => rfl
theorem encodeWord_wDup : encodeWord .wDup = 0x2000 := rfl
theorem encodeWord_wDrop : encodeWord .wDrop = 0x2040 := rfl
theorem encodeWord_wSwap : encodeWord .wSwap = 0x2080 := rfl
theorem encodeWord_wOver : encodeWord .wOver = 0x20C0 := rfl
theorem encodeWord_wRot : encodeWord .wRot = 0x2100 := rfl
theorem encodeWord_wPick : ∀ n, encodeWord (.wPick n) = 0x2140 + n.val := fun _ => rfl
theorem encodeWord_wAdd : encodeWord .wAdd = 0x2180 := rfl
theorem encodeWord_wSub : encodeWord .wSub = 0x21C0 := rfl
theorem encodeWord_wAnd : encodeWord .wAnd = 0x2200 := rfl
theorem encodeWord_wOr : encodeWord .wOr = 0x2240 := rfl
theorem encodeWord_wXor : encodeWord .wXor = 0x2280 := rfl
theorem encodeWord_wShl : ∀ n, encodeWord (.wShl n) = 0x22C0 + n.val := fun _ => rfl
theorem encodeWord_wShr : ∀ n, encodeWord (.wShr n) = 0x2300 + n.val := fun _ => rfl
theorem encodeWord_wInc : encodeWord .wInc = 0x2340 := rfl
theorem encodeWord_wDec : encodeWord .wDec = 0x2380 := rfl
theorem encodeWord_wNeg : encodeWord .wNeg = 0x23C0 := rfl
theorem encodeWord_wMin : encodeWord .wMin = 0x2400 := rfl
theorem encodeWord_wMax : encodeWord .wMax = 0x2440 := rfl
theorem encodeWord_wEqz : encodeWord .wEqz = 0x2480 := rfl
theorem encodeWord_wJmp : ∀ o, encodeWord (.wJmp o) = 0x3000 + o.toNat := fun _ => rfl
theorem encodeWord_wJz : ∀ o, encodeWord (.wJz o) = 0x3400 + o.toNat := fun _ => rfl
theorem encodeWord_wJnz : ∀ o, encodeWord (.wJnz o) = 0x3800 + o.toNat := fun _ => rfl
theorem encodeWord_wLoopn : ∀ o, encodeWord (.wLoopn o) = 0x3C00 + o.toNat := fun _ => rfl
theorem encodeWord_wEnd : encodeWord .wEnd = 0x4000 := rfl
theorem encodeWord_wReply : encodeWord .wReply = 0x4100 := rfl
theorem encodeWord_wWaitf : ∀ f, encodeWord (.wWaitf f) = 0x4200 + f.val := fun _ => rfl
theorem encodeWord_wSetf : ∀ f, encodeWord (.wSetf f) = 0x4300 + f.val := fun _ => rfl
theorem encodeWord_wBound : encodeWord .wBound = 0x4400 := rfl
theorem encodeWord_wJoin : encodeWord .wJoin = 0x4500 := rfl
theorem encodeWord_wCalls : ∀ e, encodeWord (.wCalls e) = 0x4600 + e.val := fun _ => rfl
theorem encodeWord_wRets : encodeWord .wRets = 0x4700 := rfl
theorem encodeWord_wDesc : encodeWord .wDesc = 0x4800 := rfl
theorem encodeWord_wMload : encodeWord .wMload = 0x5000 := rfl
theorem encodeWord_wMma : ∀ sh c, encodeWord (.wMma sh c) = 0x5200 + sh.val * 32 + bit c * 16 := fun _ _ => rfl
theorem encodeWord_wAccz : encodeWord .wAccz = 0x5400 := rfl
theorem encodeWord_wAccout : encodeWord .wAccout = 0x5600 := rfl
theorem encodeWord_wQnt : ∀ l, encodeWord (.wQnt l) = 0x5800 + qntCode l * 128 := fun _ => rfl
theorem encodeWord_wRmin : ∀ k, encodeWord (.wRmin k) = 0x6000 + keyCode k * 64 := fun _ => rfl
theorem encodeWord_wRmax : ∀ k, encodeWord (.wRmax k) = 0x6400 + keyCode k * 64 := fun _ => rfl
theorem encodeWord_wRsort : ∀ k, encodeWord (.wRsort k) = 0x6800 + keyCode k * 64 := fun _ => rfl
theorem encodeWord_wRtopk : ∀ k lf, encodeWord (.wRtopk k lf) = 0x6C00 + keyCode k * 64 + bit lf * 32 := fun _ _ => rfl
theorem encodeWord_wTbld : ∀ b, encodeWord (.wTbld b) = 0x7000 + (9 + bit b) * 128 := fun _ => rfl
theorem encodeWord_wTbl : ∀ b c, encodeWord (.wTbl b c) = 0x7800 + (9 + bit b) * 128 + bit c * 64 := fun _ _ => rfl
theorem encodeWord_wScan : ∀ op x, encodeWord (.wScan op x) = 0x8000 + collCode op * 256 + bit x * 128 := fun _ _ => rfl
theorem encodeWord_wReduce : ∀ op, encodeWord (.wReduce op) = 0x8800 + collCode op * 256 := fun _ => rfl
theorem encodeWord_wCpy : ∀ sc, encodeWord (.wCpy sc) = 0x9000 + scopeCode sc * 128 := fun _ => rfl
theorem encodeWord_wCpy2d : ∀ sc, encodeWord (.wCpy2d sc) = 0x9200 + scopeCode sc * 128 := fun _ => rfl
theorem encodeWord_wCpyx : ∀ sc, encodeWord (.wCpyx sc) = 0x9400 + scopeCode sc * 128 := fun _ => rfl
theorem encodeWord_wCpyg : ∀ sc, encodeWord (.wCpyg sc) = 0x9600 + scopeCode sc * 128 := fun _ => rfl
theorem encodeWord_wCrci : encodeWord .wCrci = 0x9800 := rfl
theorem encodeWord_wCrcc : ∀ sc l, encodeWord (.wCrcc sc l) = 0x9A00 + scopeCode sc * 128 + bit l * 64 := fun _ _ => rfl
theorem encodeWord_wExp2 : ∀ f, encodeWord (.wExp2 f) = 0xA000 + fnFmtCode f * 64 := fun _ => rfl
theorem encodeWord_wLog2 : ∀ f, encodeWord (.wLog2 f) = 0xA100 + fnFmtCode f * 64 := fun _ => rfl
theorem encodeWord_wRcp : ∀ f, encodeWord (.wRcp f) = 0xA200 + fnFmtCode f * 64 := fun _ => rfl
theorem encodeWord_wRsqrt : ∀ f, encodeWord (.wRsqrt f) = 0xA300 + fnFmtCode f * 64 := fun _ => rfl
theorem encodeWord_wSinpi : ∀ f, encodeWord (.wSinpi f) = 0xA400 + fnFmtCode f * 64 := fun _ => rfl
theorem encodeWord_wCospi : ∀ f, encodeWord (.wCospi f) = 0xA500 + fnFmtCode f * 64 := fun _ => rfl
theorem encodeWord_wTanh : ∀ f, encodeWord (.wTanh f) = 0xA600 + fnFmtCode f * 64 := fun _ => rfl
theorem encodeWord_wSigm : ∀ f, encodeWord (.wSigm f) = 0xA700 + fnFmtCode f * 64 := fun _ => rfl

end Sys2Proof.Laws
end

