-- ==== Sys2Proof/Laws/State.lean ====
section
/-!
SUPPORT. What each named update of a state leaves of it, field by field: one lemma per field and update, so that no proof unfolds a
record update; and what reads back of a core, a cluster, an engine and a register after an update.
-/
namespace Sys2Proof.Machine

-- Elements of a vector after one of them is replaced.

@[simp] theorem vput_get {α : Type} {n : Nat} (v : Vector α n) (i : Fin n) (a : α) (k : Nat) (h : k < n) :
    (vput v i a)[k] = if i.val = k then a else v[k] := by
  simp [vput, Vector.getElem_set]

@[simp] theorem vmod_get {α : Type} {n : Nat} (v : Vector α n) (i : Fin n) (g : α → α) (k : Nat) (h : k < n) :
    (vmod v i g)[k] = if i.val = k then g v[k] else v[k] := by
  unfold vmod; by_cases e : i.val = k
  · subst e; simp
  · simp [e]

@[simp] theorem vall_get {α : Type} {n : Nat} (v : Vector α n) (g : Fin n → α → α) (k : Nat) (h : k < n) : (vall v g)[k] = g ⟨k, h⟩ v[k] := by
  simp [vall]

theorem vmod_vmod {α : Type} {n : Nat} (v : Vector α n) (i : Fin n) (g h : α → α) : vmod (vmod v i g) i h = vmod v i (fun x => h (g x)) := by
  simp [vmod, vput]

-- The fields of a state that an update leaves.

@[simp] theorem State.coreUpd_tile (n : CoreId) (g : Core → Core) (s : State) : (s.coreUpd n g).tile = s.tile := rfl
@[simp] theorem State.coreUpd_rdie (n : CoreId) (g : Core → Core) (s : State) : (s.coreUpd n g).rdie = s.rdie := rfl
@[simp] theorem State.coreUpd_mem (n : CoreId) (g : Core → Core) (s : State) : (s.coreUpd n g).mem = s.mem := rfl
@[simp] theorem State.coreUpd_host (n : CoreId) (g : Core → Core) (s : State) : (s.coreUpd n g).host = s.host := rfl
@[simp] theorem State.coreUpd_bad (n : CoreId) (g : Core → Core) (s : State) : (s.coreUpd n g).bad = s.bad := rfl
@[simp] theorem State.coreUpd_weak (n : CoreId) (g : Core → Core) (s : State) : (s.coreUpd n g).weak = s.weak := rfl
@[simp] theorem State.coreUpd_inflight (n : CoreId) (g : Core → Core) (s : State) : (s.coreUpd n g).inflight = s.inflight := rfl
@[simp] theorem State.coreUpd_lat (n : CoreId) (g : Core → Core) (s : State) : (s.coreUpd n g).lat = s.lat := rfl
@[simp] theorem State.coreUpd_dirty (n : CoreId) (g : Core → Core) (s : State) : (s.coreUpd n g).dirty = s.dirty := rfl
@[simp] theorem State.coreUpd_carried (n : CoreId) (g : Core → Core) (s : State) : (s.coreUpd n g).carried = s.carried := rfl
@[simp] theorem State.coreUpd_sysDirty (n : CoreId) (g : Core → Core) (s : State) : (s.coreUpd n g).sysDirty = s.sysDirty := rfl
@[simp] theorem State.coreUpd_slots (n : CoreId) (g : Core → Core) (s : State) : (s.coreUpd n g).slots = s.slots := rfl
@[simp] theorem State.coreUpd_tlb (n : CoreId) (g : Core → Core) (s : State) : (s.coreUpd n g).tlb = s.tlb := rfl
@[simp] theorem State.coreUpd_wcache (n : CoreId) (g : Core → Core) (s : State) : (s.coreUpd n g).wcache = s.wcache := rfl
@[simp] theorem State.coreUpd_ctxs (n : CoreId) (g : Core → Core) (s : State) : (s.coreUpd n g).ctxs = s.ctxs := rfl
@[simp] theorem State.coreUpd_launches (n : CoreId) (g : Core → Core) (s : State) : (s.coreUpd n g).launches = s.launches := rfl
@[simp] theorem State.coreUpd_recs (n : CoreId) (g : Core → Core) (s : State) : (s.coreUpd n g).recs = s.recs := rfl
@[simp] theorem State.coreUpd_coll (n : CoreId) (g : Core → Core) (s : State) : (s.coreUpd n g).coll = s.coll := rfl
@[simp] theorem State.coreUpd_pkg (n : CoreId) (g : Core → Core) (s : State) : (s.coreUpd n g).pkg = s.pkg := rfl
@[simp] theorem State.coreUpd_mc (n : CoreId) (g : Core → Core) (s : State) : (s.coreUpd n g).mc = s.mc := rfl
@[simp] theorem State.coreUpd_trace (n : CoreId) (g : Core → Core) (s : State) : (s.coreUpd n g).trace = s.trace := rfl
@[simp] theorem State.coreUpd_island (n : CoreId) (g : Core → Core) (s : State) : (s.coreUpd n g).island = s.island := rfl
@[simp] theorem State.coreUpd_cyc (n : CoreId) (g : Core → Core) (s : State) : (s.coreUpd n g).cyc = s.cyc := rfl
@[simp] theorem State.coreUpd_power (n : CoreId) (g : Core → Core) (s : State) : (s.coreUpd n g).power = s.power := rfl
@[simp] theorem State.coreUpd_hostLink (n : CoreId) (g : Core → Core) (s : State) : (s.coreUpd n g).hostLink = s.hostLink := rfl
@[simp] theorem State.coreUpd_msi (n : CoreId) (g : Core → Core) (s : State) : (s.coreUpd n g).msi = s.msi := rfl
@[simp] theorem State.coreUpd_posts (n : CoreId) (g : Core → Core) (s : State) : (s.coreUpd n g).posts = s.posts := rfl
@[simp] theorem State.coreUpd_patrol (n : CoreId) (g : Core → Core) (s : State) : (s.coreUpd n g).patrol = s.patrol := rfl
@[simp] theorem State.coreUpd_at_ (n : CoreId) (g : Core → Core) (s : State) : (s.coreUpd n g).at_ = s.at_ := rfl
@[simp] theorem State.coreUpd_iss (n : CoreId) (g : Core → Core) (s : State) : (s.coreUpd n g).iss = s.iss := rfl
@[simp] theorem State.coreUpd_agenda (n : CoreId) (g : Core → Core) (s : State) : (s.coreUpd n g).agenda = s.agenda := rfl
@[simp] theorem State.coreUpd_rr (n : CoreId) (g : Core → Core) (s : State) : (s.coreUpd n g).rr = s.rr := rfl
@[simp] theorem State.coreUpd_issued (n : CoreId) (g : Core → Core) (s : State) : (s.coreUpd n g).issued = s.issued := rfl
@[simp] theorem State.coreUpd_fresh (n : CoreId) (g : Core → Core) (s : State) : (s.coreUpd n g).fresh = s.fresh := rfl
@[simp] theorem State.coreUpd_ids (n : CoreId) (g : Core → Core) (s : State) : (s.coreUpd n g).ids = s.ids := rfl
@[simp] theorem State.coreUpd_hostOut (n : CoreId) (g : Core → Core) (s : State) : (s.coreUpd n g).hostOut = s.hostOut := rfl
@[simp] theorem State.coreUpd_hostHeld (n : CoreId) (g : Core → Core) (s : State) : (s.coreUpd n g).hostHeld = s.hostHeld := rfl

@[simp] theorem State.cluUpd_tile (n : CoreId) (c : CluId) (g : Cluster → Cluster) (s : State) : (s.cluUpd n c g).tile = s.tile := rfl
@[simp] theorem State.cluUpd_rdie (n : CoreId) (c : CluId) (g : Cluster → Cluster) (s : State) : (s.cluUpd n c g).rdie = s.rdie := rfl
@[simp] theorem State.cluUpd_mem (n : CoreId) (c : CluId) (g : Cluster → Cluster) (s : State) : (s.cluUpd n c g).mem = s.mem := rfl
@[simp] theorem State.cluUpd_host (n : CoreId) (c : CluId) (g : Cluster → Cluster) (s : State) : (s.cluUpd n c g).host = s.host := rfl
@[simp] theorem State.cluUpd_bad (n : CoreId) (c : CluId) (g : Cluster → Cluster) (s : State) : (s.cluUpd n c g).bad = s.bad := rfl
@[simp] theorem State.cluUpd_weak (n : CoreId) (c : CluId) (g : Cluster → Cluster) (s : State) : (s.cluUpd n c g).weak = s.weak := rfl
@[simp] theorem State.cluUpd_inflight (n : CoreId) (c : CluId) (g : Cluster → Cluster) (s : State) : (s.cluUpd n c g).inflight = s.inflight := rfl
@[simp] theorem State.cluUpd_lat (n : CoreId) (c : CluId) (g : Cluster → Cluster) (s : State) : (s.cluUpd n c g).lat = s.lat := rfl
@[simp] theorem State.cluUpd_dirty (n : CoreId) (c : CluId) (g : Cluster → Cluster) (s : State) : (s.cluUpd n c g).dirty = s.dirty := rfl
@[simp] theorem State.cluUpd_carried (n : CoreId) (c : CluId) (g : Cluster → Cluster) (s : State) : (s.cluUpd n c g).carried = s.carried := rfl
@[simp] theorem State.cluUpd_sysDirty (n : CoreId) (c : CluId) (g : Cluster → Cluster) (s : State) : (s.cluUpd n c g).sysDirty = s.sysDirty := rfl
@[simp] theorem State.cluUpd_slots (n : CoreId) (c : CluId) (g : Cluster → Cluster) (s : State) : (s.cluUpd n c g).slots = s.slots := rfl
@[simp] theorem State.cluUpd_tlb (n : CoreId) (c : CluId) (g : Cluster → Cluster) (s : State) : (s.cluUpd n c g).tlb = s.tlb := rfl
@[simp] theorem State.cluUpd_wcache (n : CoreId) (c : CluId) (g : Cluster → Cluster) (s : State) : (s.cluUpd n c g).wcache = s.wcache := rfl
@[simp] theorem State.cluUpd_ctxs (n : CoreId) (c : CluId) (g : Cluster → Cluster) (s : State) : (s.cluUpd n c g).ctxs = s.ctxs := rfl
@[simp] theorem State.cluUpd_launches (n : CoreId) (c : CluId) (g : Cluster → Cluster) (s : State) : (s.cluUpd n c g).launches = s.launches := rfl
@[simp] theorem State.cluUpd_recs (n : CoreId) (c : CluId) (g : Cluster → Cluster) (s : State) : (s.cluUpd n c g).recs = s.recs := rfl
@[simp] theorem State.cluUpd_coll (n : CoreId) (c : CluId) (g : Cluster → Cluster) (s : State) : (s.cluUpd n c g).coll = s.coll := rfl
@[simp] theorem State.cluUpd_pkg (n : CoreId) (c : CluId) (g : Cluster → Cluster) (s : State) : (s.cluUpd n c g).pkg = s.pkg := rfl
@[simp] theorem State.cluUpd_mc (n : CoreId) (c : CluId) (g : Cluster → Cluster) (s : State) : (s.cluUpd n c g).mc = s.mc := rfl
@[simp] theorem State.cluUpd_trace (n : CoreId) (c : CluId) (g : Cluster → Cluster) (s : State) : (s.cluUpd n c g).trace = s.trace := rfl
@[simp] theorem State.cluUpd_island (n : CoreId) (c : CluId) (g : Cluster → Cluster) (s : State) : (s.cluUpd n c g).island = s.island := rfl
@[simp] theorem State.cluUpd_cyc (n : CoreId) (c : CluId) (g : Cluster → Cluster) (s : State) : (s.cluUpd n c g).cyc = s.cyc := rfl
@[simp] theorem State.cluUpd_power (n : CoreId) (c : CluId) (g : Cluster → Cluster) (s : State) : (s.cluUpd n c g).power = s.power := rfl
@[simp] theorem State.cluUpd_hostLink (n : CoreId) (c : CluId) (g : Cluster → Cluster) (s : State) : (s.cluUpd n c g).hostLink = s.hostLink := rfl
@[simp] theorem State.cluUpd_msi (n : CoreId) (c : CluId) (g : Cluster → Cluster) (s : State) : (s.cluUpd n c g).msi = s.msi := rfl
@[simp] theorem State.cluUpd_posts (n : CoreId) (c : CluId) (g : Cluster → Cluster) (s : State) : (s.cluUpd n c g).posts = s.posts := rfl
@[simp] theorem State.cluUpd_patrol (n : CoreId) (c : CluId) (g : Cluster → Cluster) (s : State) : (s.cluUpd n c g).patrol = s.patrol := rfl
@[simp] theorem State.cluUpd_at_ (n : CoreId) (c : CluId) (g : Cluster → Cluster) (s : State) : (s.cluUpd n c g).at_ = s.at_ := rfl
@[simp] theorem State.cluUpd_iss (n : CoreId) (c : CluId) (g : Cluster → Cluster) (s : State) : (s.cluUpd n c g).iss = s.iss := rfl
@[simp] theorem State.cluUpd_agenda (n : CoreId) (c : CluId) (g : Cluster → Cluster) (s : State) : (s.cluUpd n c g).agenda = s.agenda := rfl
@[simp] theorem State.cluUpd_rr (n : CoreId) (c : CluId) (g : Cluster → Cluster) (s : State) : (s.cluUpd n c g).rr = s.rr := rfl
@[simp] theorem State.cluUpd_issued (n : CoreId) (c : CluId) (g : Cluster → Cluster) (s : State) : (s.cluUpd n c g).issued = s.issued := rfl
@[simp] theorem State.cluUpd_fresh (n : CoreId) (c : CluId) (g : Cluster → Cluster) (s : State) : (s.cluUpd n c g).fresh = s.fresh := rfl
@[simp] theorem State.cluUpd_ids (n : CoreId) (c : CluId) (g : Cluster → Cluster) (s : State) : (s.cluUpd n c g).ids = s.ids := rfl
@[simp] theorem State.cluUpd_hostOut (n : CoreId) (c : CluId) (g : Cluster → Cluster) (s : State) : (s.cluUpd n c g).hostOut = s.hostOut := rfl
@[simp] theorem State.cluUpd_hostHeld (n : CoreId) (c : CluId) (g : Cluster → Cluster) (s : State) : (s.cluUpd n c g).hostHeld = s.hostHeld := rfl

@[simp] theorem State.engUpd_tile (n : CoreId) (e : Eng) (g : Engine → Engine) (s : State) : (s.engUpd n e g).tile = s.tile := rfl
@[simp] theorem State.engUpd_rdie (n : CoreId) (e : Eng) (g : Engine → Engine) (s : State) : (s.engUpd n e g).rdie = s.rdie := rfl
@[simp] theorem State.engUpd_mem (n : CoreId) (e : Eng) (g : Engine → Engine) (s : State) : (s.engUpd n e g).mem = s.mem := rfl
@[simp] theorem State.engUpd_host (n : CoreId) (e : Eng) (g : Engine → Engine) (s : State) : (s.engUpd n e g).host = s.host := rfl
@[simp] theorem State.engUpd_bad (n : CoreId) (e : Eng) (g : Engine → Engine) (s : State) : (s.engUpd n e g).bad = s.bad := rfl
@[simp] theorem State.engUpd_weak (n : CoreId) (e : Eng) (g : Engine → Engine) (s : State) : (s.engUpd n e g).weak = s.weak := rfl
@[simp] theorem State.engUpd_inflight (n : CoreId) (e : Eng) (g : Engine → Engine) (s : State) : (s.engUpd n e g).inflight = s.inflight := rfl
@[simp] theorem State.engUpd_lat (n : CoreId) (e : Eng) (g : Engine → Engine) (s : State) : (s.engUpd n e g).lat = s.lat := rfl
@[simp] theorem State.engUpd_dirty (n : CoreId) (e : Eng) (g : Engine → Engine) (s : State) : (s.engUpd n e g).dirty = s.dirty := rfl
@[simp] theorem State.engUpd_carried (n : CoreId) (e : Eng) (g : Engine → Engine) (s : State) : (s.engUpd n e g).carried = s.carried := rfl
@[simp] theorem State.engUpd_sysDirty (n : CoreId) (e : Eng) (g : Engine → Engine) (s : State) : (s.engUpd n e g).sysDirty = s.sysDirty := rfl
@[simp] theorem State.engUpd_slots (n : CoreId) (e : Eng) (g : Engine → Engine) (s : State) : (s.engUpd n e g).slots = s.slots := rfl
@[simp] theorem State.engUpd_tlb (n : CoreId) (e : Eng) (g : Engine → Engine) (s : State) : (s.engUpd n e g).tlb = s.tlb := rfl
@[simp] theorem State.engUpd_wcache (n : CoreId) (e : Eng) (g : Engine → Engine) (s : State) : (s.engUpd n e g).wcache = s.wcache := rfl
@[simp] theorem State.engUpd_ctxs (n : CoreId) (e : Eng) (g : Engine → Engine) (s : State) : (s.engUpd n e g).ctxs = s.ctxs := rfl
@[simp] theorem State.engUpd_launches (n : CoreId) (e : Eng) (g : Engine → Engine) (s : State) : (s.engUpd n e g).launches = s.launches := rfl
@[simp] theorem State.engUpd_recs (n : CoreId) (e : Eng) (g : Engine → Engine) (s : State) : (s.engUpd n e g).recs = s.recs := rfl
@[simp] theorem State.engUpd_coll (n : CoreId) (e : Eng) (g : Engine → Engine) (s : State) : (s.engUpd n e g).coll = s.coll := rfl
@[simp] theorem State.engUpd_pkg (n : CoreId) (e : Eng) (g : Engine → Engine) (s : State) : (s.engUpd n e g).pkg = s.pkg := rfl
@[simp] theorem State.engUpd_mc (n : CoreId) (e : Eng) (g : Engine → Engine) (s : State) : (s.engUpd n e g).mc = s.mc := rfl
@[simp] theorem State.engUpd_trace (n : CoreId) (e : Eng) (g : Engine → Engine) (s : State) : (s.engUpd n e g).trace = s.trace := rfl
@[simp] theorem State.engUpd_island (n : CoreId) (e : Eng) (g : Engine → Engine) (s : State) : (s.engUpd n e g).island = s.island := rfl
@[simp] theorem State.engUpd_cyc (n : CoreId) (e : Eng) (g : Engine → Engine) (s : State) : (s.engUpd n e g).cyc = s.cyc := rfl
@[simp] theorem State.engUpd_power (n : CoreId) (e : Eng) (g : Engine → Engine) (s : State) : (s.engUpd n e g).power = s.power := rfl
@[simp] theorem State.engUpd_hostLink (n : CoreId) (e : Eng) (g : Engine → Engine) (s : State) : (s.engUpd n e g).hostLink = s.hostLink := rfl
@[simp] theorem State.engUpd_msi (n : CoreId) (e : Eng) (g : Engine → Engine) (s : State) : (s.engUpd n e g).msi = s.msi := rfl
@[simp] theorem State.engUpd_posts (n : CoreId) (e : Eng) (g : Engine → Engine) (s : State) : (s.engUpd n e g).posts = s.posts := rfl
@[simp] theorem State.engUpd_patrol (n : CoreId) (e : Eng) (g : Engine → Engine) (s : State) : (s.engUpd n e g).patrol = s.patrol := rfl
@[simp] theorem State.engUpd_at_ (n : CoreId) (e : Eng) (g : Engine → Engine) (s : State) : (s.engUpd n e g).at_ = s.at_ := rfl
@[simp] theorem State.engUpd_iss (n : CoreId) (e : Eng) (g : Engine → Engine) (s : State) : (s.engUpd n e g).iss = s.iss := rfl
@[simp] theorem State.engUpd_agenda (n : CoreId) (e : Eng) (g : Engine → Engine) (s : State) : (s.engUpd n e g).agenda = s.agenda := rfl
@[simp] theorem State.engUpd_rr (n : CoreId) (e : Eng) (g : Engine → Engine) (s : State) : (s.engUpd n e g).rr = s.rr := rfl
@[simp] theorem State.engUpd_issued (n : CoreId) (e : Eng) (g : Engine → Engine) (s : State) : (s.engUpd n e g).issued = s.issued := rfl
@[simp] theorem State.engUpd_fresh (n : CoreId) (e : Eng) (g : Engine → Engine) (s : State) : (s.engUpd n e g).fresh = s.fresh := rfl
@[simp] theorem State.engUpd_ids (n : CoreId) (e : Eng) (g : Engine → Engine) (s : State) : (s.engUpd n e g).ids = s.ids := rfl
@[simp] theorem State.engUpd_hostOut (n : CoreId) (e : Eng) (g : Engine → Engine) (s : State) : (s.engUpd n e g).hostOut = s.hostOut := rfl
@[simp] theorem State.engUpd_hostHeld (n : CoreId) (e : Eng) (g : Engine → Engine) (s : State) : (s.engUpd n e g).hostHeld = s.hostHeld := rfl

@[simp] theorem State.onCore_tile (g : Core → Core) (s : State) : (s.onCore g).tile = s.tile := rfl
@[simp] theorem State.onCore_rdie (g : Core → Core) (s : State) : (s.onCore g).rdie = s.rdie := rfl
@[simp] theorem State.onCore_mem (g : Core → Core) (s : State) : (s.onCore g).mem = s.mem := rfl
@[simp] theorem State.onCore_host (g : Core → Core) (s : State) : (s.onCore g).host = s.host := rfl
@[simp] theorem State.onCore_bad (g : Core → Core) (s : State) : (s.onCore g).bad = s.bad := rfl
@[simp] theorem State.onCore_weak (g : Core → Core) (s : State) : (s.onCore g).weak = s.weak := rfl
@[simp] theorem State.onCore_inflight (g : Core → Core) (s : State) : (s.onCore g).inflight = s.inflight := rfl
@[simp] theorem State.onCore_lat (g : Core → Core) (s : State) : (s.onCore g).lat = s.lat := rfl
@[simp] theorem State.onCore_dirty (g : Core → Core) (s : State) : (s.onCore g).dirty = s.dirty := rfl
@[simp] theorem State.onCore_carried (g : Core → Core) (s : State) : (s.onCore g).carried = s.carried := rfl
@[simp] theorem State.onCore_sysDirty (g : Core → Core) (s : State) : (s.onCore g).sysDirty = s.sysDirty := rfl
@[simp] theorem State.onCore_slots (g : Core → Core) (s : State) : (s.onCore g).slots = s.slots := rfl
@[simp] theorem State.onCore_tlb (g : Core → Core) (s : State) : (s.onCore g).tlb = s.tlb := rfl
@[simp] theorem State.onCore_wcache (g : Core → Core) (s : State) : (s.onCore g).wcache = s.wcache := rfl
@[simp] theorem State.onCore_ctxs (g : Core → Core) (s : State) : (s.onCore g).ctxs = s.ctxs := rfl
@[simp] theorem State.onCore_launches (g : Core → Core) (s : State) : (s.onCore g).launches = s.launches := rfl
@[simp] theorem State.onCore_recs (g : Core → Core) (s : State) : (s.onCore g).recs = s.recs := rfl
@[simp] theorem State.onCore_coll (g : Core → Core) (s : State) : (s.onCore g).coll = s.coll := rfl
@[simp] theorem State.onCore_pkg (g : Core → Core) (s : State) : (s.onCore g).pkg = s.pkg := rfl
@[simp] theorem State.onCore_mc (g : Core → Core) (s : State) : (s.onCore g).mc = s.mc := rfl
@[simp] theorem State.onCore_trace (g : Core → Core) (s : State) : (s.onCore g).trace = s.trace := rfl
@[simp] theorem State.onCore_island (g : Core → Core) (s : State) : (s.onCore g).island = s.island := rfl
@[simp] theorem State.onCore_cyc (g : Core → Core) (s : State) : (s.onCore g).cyc = s.cyc := rfl
@[simp] theorem State.onCore_power (g : Core → Core) (s : State) : (s.onCore g).power = s.power := rfl
@[simp] theorem State.onCore_hostLink (g : Core → Core) (s : State) : (s.onCore g).hostLink = s.hostLink := rfl
@[simp] theorem State.onCore_msi (g : Core → Core) (s : State) : (s.onCore g).msi = s.msi := rfl
@[simp] theorem State.onCore_posts (g : Core → Core) (s : State) : (s.onCore g).posts = s.posts := rfl
@[simp] theorem State.onCore_patrol (g : Core → Core) (s : State) : (s.onCore g).patrol = s.patrol := rfl
@[simp] theorem State.onCore_at_ (g : Core → Core) (s : State) : (s.onCore g).at_ = s.at_ := rfl
@[simp] theorem State.onCore_iss (g : Core → Core) (s : State) : (s.onCore g).iss = s.iss := rfl
@[simp] theorem State.onCore_agenda (g : Core → Core) (s : State) : (s.onCore g).agenda = s.agenda := rfl
@[simp] theorem State.onCore_rr (g : Core → Core) (s : State) : (s.onCore g).rr = s.rr := rfl
@[simp] theorem State.onCore_issued (g : Core → Core) (s : State) : (s.onCore g).issued = s.issued := rfl
@[simp] theorem State.onCore_fresh (g : Core → Core) (s : State) : (s.onCore g).fresh = s.fresh := rfl
@[simp] theorem State.onCore_ids (g : Core → Core) (s : State) : (s.onCore g).ids = s.ids := rfl
@[simp] theorem State.onCore_hostOut (g : Core → Core) (s : State) : (s.onCore g).hostOut = s.hostOut := rfl
@[simp] theorem State.onCore_hostHeld (g : Core → Core) (s : State) : (s.onCore g).hostHeld = s.hostHeld := rfl

@[simp] theorem State.onClu_tile (g : Cluster → Cluster) (s : State) : (s.onClu g).tile = s.tile := rfl
@[simp] theorem State.onClu_rdie (g : Cluster → Cluster) (s : State) : (s.onClu g).rdie = s.rdie := rfl
@[simp] theorem State.onClu_mem (g : Cluster → Cluster) (s : State) : (s.onClu g).mem = s.mem := rfl
@[simp] theorem State.onClu_host (g : Cluster → Cluster) (s : State) : (s.onClu g).host = s.host := rfl
@[simp] theorem State.onClu_bad (g : Cluster → Cluster) (s : State) : (s.onClu g).bad = s.bad := rfl
@[simp] theorem State.onClu_weak (g : Cluster → Cluster) (s : State) : (s.onClu g).weak = s.weak := rfl
@[simp] theorem State.onClu_inflight (g : Cluster → Cluster) (s : State) : (s.onClu g).inflight = s.inflight := rfl
@[simp] theorem State.onClu_lat (g : Cluster → Cluster) (s : State) : (s.onClu g).lat = s.lat := rfl
@[simp] theorem State.onClu_dirty (g : Cluster → Cluster) (s : State) : (s.onClu g).dirty = s.dirty := rfl
@[simp] theorem State.onClu_carried (g : Cluster → Cluster) (s : State) : (s.onClu g).carried = s.carried := rfl
@[simp] theorem State.onClu_sysDirty (g : Cluster → Cluster) (s : State) : (s.onClu g).sysDirty = s.sysDirty := rfl
@[simp] theorem State.onClu_slots (g : Cluster → Cluster) (s : State) : (s.onClu g).slots = s.slots := rfl
@[simp] theorem State.onClu_tlb (g : Cluster → Cluster) (s : State) : (s.onClu g).tlb = s.tlb := rfl
@[simp] theorem State.onClu_wcache (g : Cluster → Cluster) (s : State) : (s.onClu g).wcache = s.wcache := rfl
@[simp] theorem State.onClu_ctxs (g : Cluster → Cluster) (s : State) : (s.onClu g).ctxs = s.ctxs := rfl
@[simp] theorem State.onClu_launches (g : Cluster → Cluster) (s : State) : (s.onClu g).launches = s.launches := rfl
@[simp] theorem State.onClu_recs (g : Cluster → Cluster) (s : State) : (s.onClu g).recs = s.recs := rfl
@[simp] theorem State.onClu_coll (g : Cluster → Cluster) (s : State) : (s.onClu g).coll = s.coll := rfl
@[simp] theorem State.onClu_pkg (g : Cluster → Cluster) (s : State) : (s.onClu g).pkg = s.pkg := rfl
@[simp] theorem State.onClu_mc (g : Cluster → Cluster) (s : State) : (s.onClu g).mc = s.mc := rfl
@[simp] theorem State.onClu_trace (g : Cluster → Cluster) (s : State) : (s.onClu g).trace = s.trace := rfl
@[simp] theorem State.onClu_island (g : Cluster → Cluster) (s : State) : (s.onClu g).island = s.island := rfl
@[simp] theorem State.onClu_cyc (g : Cluster → Cluster) (s : State) : (s.onClu g).cyc = s.cyc := rfl
@[simp] theorem State.onClu_power (g : Cluster → Cluster) (s : State) : (s.onClu g).power = s.power := rfl
@[simp] theorem State.onClu_hostLink (g : Cluster → Cluster) (s : State) : (s.onClu g).hostLink = s.hostLink := rfl
@[simp] theorem State.onClu_msi (g : Cluster → Cluster) (s : State) : (s.onClu g).msi = s.msi := rfl
@[simp] theorem State.onClu_posts (g : Cluster → Cluster) (s : State) : (s.onClu g).posts = s.posts := rfl
@[simp] theorem State.onClu_patrol (g : Cluster → Cluster) (s : State) : (s.onClu g).patrol = s.patrol := rfl
@[simp] theorem State.onClu_at_ (g : Cluster → Cluster) (s : State) : (s.onClu g).at_ = s.at_ := rfl
@[simp] theorem State.onClu_iss (g : Cluster → Cluster) (s : State) : (s.onClu g).iss = s.iss := rfl
@[simp] theorem State.onClu_agenda (g : Cluster → Cluster) (s : State) : (s.onClu g).agenda = s.agenda := rfl
@[simp] theorem State.onClu_rr (g : Cluster → Cluster) (s : State) : (s.onClu g).rr = s.rr := rfl
@[simp] theorem State.onClu_issued (g : Cluster → Cluster) (s : State) : (s.onClu g).issued = s.issued := rfl
@[simp] theorem State.onClu_fresh (g : Cluster → Cluster) (s : State) : (s.onClu g).fresh = s.fresh := rfl
@[simp] theorem State.onClu_ids (g : Cluster → Cluster) (s : State) : (s.onClu g).ids = s.ids := rfl
@[simp] theorem State.onClu_hostOut (g : Cluster → Cluster) (s : State) : (s.onClu g).hostOut = s.hostOut := rfl
@[simp] theorem State.onClu_hostHeld (g : Cluster → Cluster) (s : State) : (s.onClu g).hostHeld = s.hostHeld := rfl

@[simp] theorem State.onEng_tile (g : Engine → Engine) (s : State) : (s.onEng g).tile = s.tile := rfl
@[simp] theorem State.onEng_rdie (g : Engine → Engine) (s : State) : (s.onEng g).rdie = s.rdie := rfl
@[simp] theorem State.onEng_mem (g : Engine → Engine) (s : State) : (s.onEng g).mem = s.mem := rfl
@[simp] theorem State.onEng_host (g : Engine → Engine) (s : State) : (s.onEng g).host = s.host := rfl
@[simp] theorem State.onEng_bad (g : Engine → Engine) (s : State) : (s.onEng g).bad = s.bad := rfl
@[simp] theorem State.onEng_weak (g : Engine → Engine) (s : State) : (s.onEng g).weak = s.weak := rfl
@[simp] theorem State.onEng_inflight (g : Engine → Engine) (s : State) : (s.onEng g).inflight = s.inflight := rfl
@[simp] theorem State.onEng_lat (g : Engine → Engine) (s : State) : (s.onEng g).lat = s.lat := rfl
@[simp] theorem State.onEng_dirty (g : Engine → Engine) (s : State) : (s.onEng g).dirty = s.dirty := rfl
@[simp] theorem State.onEng_carried (g : Engine → Engine) (s : State) : (s.onEng g).carried = s.carried := rfl
@[simp] theorem State.onEng_sysDirty (g : Engine → Engine) (s : State) : (s.onEng g).sysDirty = s.sysDirty := rfl
@[simp] theorem State.onEng_slots (g : Engine → Engine) (s : State) : (s.onEng g).slots = s.slots := rfl
@[simp] theorem State.onEng_tlb (g : Engine → Engine) (s : State) : (s.onEng g).tlb = s.tlb := rfl
@[simp] theorem State.onEng_wcache (g : Engine → Engine) (s : State) : (s.onEng g).wcache = s.wcache := rfl
@[simp] theorem State.onEng_ctxs (g : Engine → Engine) (s : State) : (s.onEng g).ctxs = s.ctxs := rfl
@[simp] theorem State.onEng_launches (g : Engine → Engine) (s : State) : (s.onEng g).launches = s.launches := rfl
@[simp] theorem State.onEng_recs (g : Engine → Engine) (s : State) : (s.onEng g).recs = s.recs := rfl
@[simp] theorem State.onEng_coll (g : Engine → Engine) (s : State) : (s.onEng g).coll = s.coll := rfl
@[simp] theorem State.onEng_pkg (g : Engine → Engine) (s : State) : (s.onEng g).pkg = s.pkg := rfl
@[simp] theorem State.onEng_mc (g : Engine → Engine) (s : State) : (s.onEng g).mc = s.mc := rfl
@[simp] theorem State.onEng_trace (g : Engine → Engine) (s : State) : (s.onEng g).trace = s.trace := rfl
@[simp] theorem State.onEng_island (g : Engine → Engine) (s : State) : (s.onEng g).island = s.island := rfl
@[simp] theorem State.onEng_cyc (g : Engine → Engine) (s : State) : (s.onEng g).cyc = s.cyc := rfl
@[simp] theorem State.onEng_power (g : Engine → Engine) (s : State) : (s.onEng g).power = s.power := rfl
@[simp] theorem State.onEng_hostLink (g : Engine → Engine) (s : State) : (s.onEng g).hostLink = s.hostLink := rfl
@[simp] theorem State.onEng_msi (g : Engine → Engine) (s : State) : (s.onEng g).msi = s.msi := rfl
@[simp] theorem State.onEng_posts (g : Engine → Engine) (s : State) : (s.onEng g).posts = s.posts := rfl
@[simp] theorem State.onEng_patrol (g : Engine → Engine) (s : State) : (s.onEng g).patrol = s.patrol := rfl
@[simp] theorem State.onEng_at_ (g : Engine → Engine) (s : State) : (s.onEng g).at_ = s.at_ := rfl
@[simp] theorem State.onEng_iss (g : Engine → Engine) (s : State) : (s.onEng g).iss = s.iss := rfl
@[simp] theorem State.onEng_agenda (g : Engine → Engine) (s : State) : (s.onEng g).agenda = s.agenda := rfl
@[simp] theorem State.onEng_rr (g : Engine → Engine) (s : State) : (s.onEng g).rr = s.rr := rfl
@[simp] theorem State.onEng_issued (g : Engine → Engine) (s : State) : (s.onEng g).issued = s.issued := rfl
@[simp] theorem State.onEng_fresh (g : Engine → Engine) (s : State) : (s.onEng g).fresh = s.fresh := rfl
@[simp] theorem State.onEng_ids (g : Engine → Engine) (s : State) : (s.onEng g).ids = s.ids := rfl
@[simp] theorem State.onEng_hostOut (g : Engine → Engine) (s : State) : (s.onEng g).hostOut = s.hostOut := rfl
@[simp] theorem State.onEng_hostHeld (g : Engine → Engine) (s : State) : (s.onEng g).hostHeld = s.hostHeld := rfl

@[simp] theorem State.onTile_cores (t : TileId) (g : TileRegs → TileRegs) (s : State) : (s.onTile t g).cores = s.cores := rfl
@[simp] theorem State.onTile_rdie (t : TileId) (g : TileRegs → TileRegs) (s : State) : (s.onTile t g).rdie = s.rdie := rfl
@[simp] theorem State.onTile_mem (t : TileId) (g : TileRegs → TileRegs) (s : State) : (s.onTile t g).mem = s.mem := rfl
@[simp] theorem State.onTile_host (t : TileId) (g : TileRegs → TileRegs) (s : State) : (s.onTile t g).host = s.host := rfl
@[simp] theorem State.onTile_bad (t : TileId) (g : TileRegs → TileRegs) (s : State) : (s.onTile t g).bad = s.bad := rfl
@[simp] theorem State.onTile_weak (t : TileId) (g : TileRegs → TileRegs) (s : State) : (s.onTile t g).weak = s.weak := rfl
@[simp] theorem State.onTile_inflight (t : TileId) (g : TileRegs → TileRegs) (s : State) : (s.onTile t g).inflight = s.inflight := rfl
@[simp] theorem State.onTile_lat (t : TileId) (g : TileRegs → TileRegs) (s : State) : (s.onTile t g).lat = s.lat := rfl
@[simp] theorem State.onTile_dirty (t : TileId) (g : TileRegs → TileRegs) (s : State) : (s.onTile t g).dirty = s.dirty := rfl
@[simp] theorem State.onTile_carried (t : TileId) (g : TileRegs → TileRegs) (s : State) : (s.onTile t g).carried = s.carried := rfl
@[simp] theorem State.onTile_sysDirty (t : TileId) (g : TileRegs → TileRegs) (s : State) : (s.onTile t g).sysDirty = s.sysDirty := rfl
@[simp] theorem State.onTile_slots (t : TileId) (g : TileRegs → TileRegs) (s : State) : (s.onTile t g).slots = s.slots := rfl
@[simp] theorem State.onTile_tlb (t : TileId) (g : TileRegs → TileRegs) (s : State) : (s.onTile t g).tlb = s.tlb := rfl
@[simp] theorem State.onTile_wcache (t : TileId) (g : TileRegs → TileRegs) (s : State) : (s.onTile t g).wcache = s.wcache := rfl
@[simp] theorem State.onTile_ctxs (t : TileId) (g : TileRegs → TileRegs) (s : State) : (s.onTile t g).ctxs = s.ctxs := rfl
@[simp] theorem State.onTile_launches (t : TileId) (g : TileRegs → TileRegs) (s : State) : (s.onTile t g).launches = s.launches := rfl
@[simp] theorem State.onTile_recs (t : TileId) (g : TileRegs → TileRegs) (s : State) : (s.onTile t g).recs = s.recs := rfl
@[simp] theorem State.onTile_coll (t : TileId) (g : TileRegs → TileRegs) (s : State) : (s.onTile t g).coll = s.coll := rfl
@[simp] theorem State.onTile_pkg (t : TileId) (g : TileRegs → TileRegs) (s : State) : (s.onTile t g).pkg = s.pkg := rfl
@[simp] theorem State.onTile_mc (t : TileId) (g : TileRegs → TileRegs) (s : State) : (s.onTile t g).mc = s.mc := rfl
@[simp] theorem State.onTile_trace (t : TileId) (g : TileRegs → TileRegs) (s : State) : (s.onTile t g).trace = s.trace := rfl
@[simp] theorem State.onTile_island (t : TileId) (g : TileRegs → TileRegs) (s : State) : (s.onTile t g).island = s.island := rfl
@[simp] theorem State.onTile_cyc (t : TileId) (g : TileRegs → TileRegs) (s : State) : (s.onTile t g).cyc = s.cyc := rfl
@[simp] theorem State.onTile_power (t : TileId) (g : TileRegs → TileRegs) (s : State) : (s.onTile t g).power = s.power := rfl
@[simp] theorem State.onTile_hostLink (t : TileId) (g : TileRegs → TileRegs) (s : State) : (s.onTile t g).hostLink = s.hostLink := rfl
@[simp] theorem State.onTile_msi (t : TileId) (g : TileRegs → TileRegs) (s : State) : (s.onTile t g).msi = s.msi := rfl
@[simp] theorem State.onTile_posts (t : TileId) (g : TileRegs → TileRegs) (s : State) : (s.onTile t g).posts = s.posts := rfl
@[simp] theorem State.onTile_patrol (t : TileId) (g : TileRegs → TileRegs) (s : State) : (s.onTile t g).patrol = s.patrol := rfl
@[simp] theorem State.onTile_at_ (t : TileId) (g : TileRegs → TileRegs) (s : State) : (s.onTile t g).at_ = s.at_ := rfl
@[simp] theorem State.onTile_iss (t : TileId) (g : TileRegs → TileRegs) (s : State) : (s.onTile t g).iss = s.iss := rfl
@[simp] theorem State.onTile_agenda (t : TileId) (g : TileRegs → TileRegs) (s : State) : (s.onTile t g).agenda = s.agenda := rfl
@[simp] theorem State.onTile_rr (t : TileId) (g : TileRegs → TileRegs) (s : State) : (s.onTile t g).rr = s.rr := rfl
@[simp] theorem State.onTile_issued (t : TileId) (g : TileRegs → TileRegs) (s : State) : (s.onTile t g).issued = s.issued := rfl
@[simp] theorem State.onTile_fresh (t : TileId) (g : TileRegs → TileRegs) (s : State) : (s.onTile t g).fresh = s.fresh := rfl
@[simp] theorem State.onTile_ids (t : TileId) (g : TileRegs → TileRegs) (s : State) : (s.onTile t g).ids = s.ids := rfl
@[simp] theorem State.onTile_hostOut (t : TileId) (g : TileRegs → TileRegs) (s : State) : (s.onTile t g).hostOut = s.hostOut := rfl
@[simp] theorem State.onTile_hostHeld (t : TileId) (g : TileRegs → TileRegs) (s : State) : (s.onTile t g).hostHeld = s.hostHeld := rfl

@[simp] theorem State.onRDie_cores (d : RaceDie) (g : RDie → RDie) (s : State) : (s.onRDie d g).cores = s.cores := rfl
@[simp] theorem State.onRDie_tile (d : RaceDie) (g : RDie → RDie) (s : State) : (s.onRDie d g).tile = s.tile := rfl
@[simp] theorem State.onRDie_mem (d : RaceDie) (g : RDie → RDie) (s : State) : (s.onRDie d g).mem = s.mem := rfl
@[simp] theorem State.onRDie_host (d : RaceDie) (g : RDie → RDie) (s : State) : (s.onRDie d g).host = s.host := rfl
@[simp] theorem State.onRDie_bad (d : RaceDie) (g : RDie → RDie) (s : State) : (s.onRDie d g).bad = s.bad := rfl
@[simp] theorem State.onRDie_weak (d : RaceDie) (g : RDie → RDie) (s : State) : (s.onRDie d g).weak = s.weak := rfl
@[simp] theorem State.onRDie_inflight (d : RaceDie) (g : RDie → RDie) (s : State) : (s.onRDie d g).inflight = s.inflight := rfl
@[simp] theorem State.onRDie_lat (d : RaceDie) (g : RDie → RDie) (s : State) : (s.onRDie d g).lat = s.lat := rfl
@[simp] theorem State.onRDie_dirty (d : RaceDie) (g : RDie → RDie) (s : State) : (s.onRDie d g).dirty = s.dirty := rfl
@[simp] theorem State.onRDie_carried (d : RaceDie) (g : RDie → RDie) (s : State) : (s.onRDie d g).carried = s.carried := rfl
@[simp] theorem State.onRDie_sysDirty (d : RaceDie) (g : RDie → RDie) (s : State) : (s.onRDie d g).sysDirty = s.sysDirty := rfl
@[simp] theorem State.onRDie_slots (d : RaceDie) (g : RDie → RDie) (s : State) : (s.onRDie d g).slots = s.slots := rfl
@[simp] theorem State.onRDie_tlb (d : RaceDie) (g : RDie → RDie) (s : State) : (s.onRDie d g).tlb = s.tlb := rfl
@[simp] theorem State.onRDie_wcache (d : RaceDie) (g : RDie → RDie) (s : State) : (s.onRDie d g).wcache = s.wcache := rfl
@[simp] theorem State.onRDie_ctxs (d : RaceDie) (g : RDie → RDie) (s : State) : (s.onRDie d g).ctxs = s.ctxs := rfl
@[simp] theorem State.onRDie_launches (d : RaceDie) (g : RDie → RDie) (s : State) : (s.onRDie d g).launches = s.launches := rfl
@[simp] theorem State.onRDie_recs (d : RaceDie) (g : RDie → RDie) (s : State) : (s.onRDie d g).recs = s.recs := rfl
@[simp] theorem State.onRDie_coll (d : RaceDie) (g : RDie → RDie) (s : State) : (s.onRDie d g).coll = s.coll := rfl
@[simp] theorem State.onRDie_pkg (d : RaceDie) (g : RDie → RDie) (s : State) : (s.onRDie d g).pkg = s.pkg := rfl
@[simp] theorem State.onRDie_mc (d : RaceDie) (g : RDie → RDie) (s : State) : (s.onRDie d g).mc = s.mc := rfl
@[simp] theorem State.onRDie_trace (d : RaceDie) (g : RDie → RDie) (s : State) : (s.onRDie d g).trace = s.trace := rfl
@[simp] theorem State.onRDie_island (d : RaceDie) (g : RDie → RDie) (s : State) : (s.onRDie d g).island = s.island := rfl
@[simp] theorem State.onRDie_cyc (d : RaceDie) (g : RDie → RDie) (s : State) : (s.onRDie d g).cyc = s.cyc := rfl
@[simp] theorem State.onRDie_power (d : RaceDie) (g : RDie → RDie) (s : State) : (s.onRDie d g).power = s.power := rfl
@[simp] theorem State.onRDie_hostLink (d : RaceDie) (g : RDie → RDie) (s : State) : (s.onRDie d g).hostLink = s.hostLink := rfl
@[simp] theorem State.onRDie_msi (d : RaceDie) (g : RDie → RDie) (s : State) : (s.onRDie d g).msi = s.msi := rfl
@[simp] theorem State.onRDie_posts (d : RaceDie) (g : RDie → RDie) (s : State) : (s.onRDie d g).posts = s.posts := rfl
@[simp] theorem State.onRDie_patrol (d : RaceDie) (g : RDie → RDie) (s : State) : (s.onRDie d g).patrol = s.patrol := rfl
@[simp] theorem State.onRDie_at_ (d : RaceDie) (g : RDie → RDie) (s : State) : (s.onRDie d g).at_ = s.at_ := rfl
@[simp] theorem State.onRDie_iss (d : RaceDie) (g : RDie → RDie) (s : State) : (s.onRDie d g).iss = s.iss := rfl
@[simp] theorem State.onRDie_agenda (d : RaceDie) (g : RDie → RDie) (s : State) : (s.onRDie d g).agenda = s.agenda := rfl
@[simp] theorem State.onRDie_rr (d : RaceDie) (g : RDie → RDie) (s : State) : (s.onRDie d g).rr = s.rr := rfl
@[simp] theorem State.onRDie_issued (d : RaceDie) (g : RDie → RDie) (s : State) : (s.onRDie d g).issued = s.issued := rfl
@[simp] theorem State.onRDie_fresh (d : RaceDie) (g : RDie → RDie) (s : State) : (s.onRDie d g).fresh = s.fresh := rfl
@[simp] theorem State.onRDie_ids (d : RaceDie) (g : RDie → RDie) (s : State) : (s.onRDie d g).ids = s.ids := rfl
@[simp] theorem State.onRDie_hostOut (d : RaceDie) (g : RDie → RDie) (s : State) : (s.onRDie d g).hostOut = s.hostOut := rfl
@[simp] theorem State.onRDie_hostHeld (d : RaceDie) (g : RDie → RDie) (s : State) : (s.onRDie d g).hostHeld = s.hostHeld := rfl

@[simp] theorem State.onCtx_cores (a : Fin 64) (g : Ctx → Ctx) (s : State) : (s.onCtx a g).cores = s.cores := rfl
@[simp] theorem State.onCtx_tile (a : Fin 64) (g : Ctx → Ctx) (s : State) : (s.onCtx a g).tile = s.tile := rfl
@[simp] theorem State.onCtx_rdie (a : Fin 64) (g : Ctx → Ctx) (s : State) : (s.onCtx a g).rdie = s.rdie := rfl
@[simp] theorem State.onCtx_mem (a : Fin 64) (g : Ctx → Ctx) (s : State) : (s.onCtx a g).mem = s.mem := rfl
@[simp] theorem State.onCtx_host (a : Fin 64) (g : Ctx → Ctx) (s : State) : (s.onCtx a g).host = s.host := rfl
@[simp] theorem State.onCtx_bad (a : Fin 64) (g : Ctx → Ctx) (s : State) : (s.onCtx a g).bad = s.bad := rfl
@[simp] theorem State.onCtx_weak (a : Fin 64) (g : Ctx → Ctx) (s : State) : (s.onCtx a g).weak = s.weak := rfl
@[simp] theorem State.onCtx_inflight (a : Fin 64) (g : Ctx → Ctx) (s : State) : (s.onCtx a g).inflight = s.inflight := rfl
@[simp] theorem State.onCtx_lat (a : Fin 64) (g : Ctx → Ctx) (s : State) : (s.onCtx a g).lat = s.lat := rfl
@[simp] theorem State.onCtx_dirty (a : Fin 64) (g : Ctx → Ctx) (s : State) : (s.onCtx a g).dirty = s.dirty := rfl
@[simp] theorem State.onCtx_carried (a : Fin 64) (g : Ctx → Ctx) (s : State) : (s.onCtx a g).carried = s.carried := rfl
@[simp] theorem State.onCtx_sysDirty (a : Fin 64) (g : Ctx → Ctx) (s : State) : (s.onCtx a g).sysDirty = s.sysDirty := rfl
@[simp] theorem State.onCtx_slots (a : Fin 64) (g : Ctx → Ctx) (s : State) : (s.onCtx a g).slots = s.slots := rfl
@[simp] theorem State.onCtx_tlb (a : Fin 64) (g : Ctx → Ctx) (s : State) : (s.onCtx a g).tlb = s.tlb := rfl
@[simp] theorem State.onCtx_wcache (a : Fin 64) (g : Ctx → Ctx) (s : State) : (s.onCtx a g).wcache = s.wcache := rfl
@[simp] theorem State.onCtx_launches (a : Fin 64) (g : Ctx → Ctx) (s : State) : (s.onCtx a g).launches = s.launches := rfl
@[simp] theorem State.onCtx_recs (a : Fin 64) (g : Ctx → Ctx) (s : State) : (s.onCtx a g).recs = s.recs := rfl
@[simp] theorem State.onCtx_coll (a : Fin 64) (g : Ctx → Ctx) (s : State) : (s.onCtx a g).coll = s.coll := rfl
@[simp] theorem State.onCtx_pkg (a : Fin 64) (g : Ctx → Ctx) (s : State) : (s.onCtx a g).pkg = s.pkg := rfl
@[simp] theorem State.onCtx_mc (a : Fin 64) (g : Ctx → Ctx) (s : State) : (s.onCtx a g).mc = s.mc := rfl
@[simp] theorem State.onCtx_trace (a : Fin 64) (g : Ctx → Ctx) (s : State) : (s.onCtx a g).trace = s.trace := rfl
@[simp] theorem State.onCtx_island (a : Fin 64) (g : Ctx → Ctx) (s : State) : (s.onCtx a g).island = s.island := rfl
@[simp] theorem State.onCtx_cyc (a : Fin 64) (g : Ctx → Ctx) (s : State) : (s.onCtx a g).cyc = s.cyc := rfl
@[simp] theorem State.onCtx_power (a : Fin 64) (g : Ctx → Ctx) (s : State) : (s.onCtx a g).power = s.power := rfl
@[simp] theorem State.onCtx_hostLink (a : Fin 64) (g : Ctx → Ctx) (s : State) : (s.onCtx a g).hostLink = s.hostLink := rfl
@[simp] theorem State.onCtx_msi (a : Fin 64) (g : Ctx → Ctx) (s : State) : (s.onCtx a g).msi = s.msi := rfl
@[simp] theorem State.onCtx_posts (a : Fin 64) (g : Ctx → Ctx) (s : State) : (s.onCtx a g).posts = s.posts := rfl
@[simp] theorem State.onCtx_patrol (a : Fin 64) (g : Ctx → Ctx) (s : State) : (s.onCtx a g).patrol = s.patrol := rfl
@[simp] theorem State.onCtx_at_ (a : Fin 64) (g : Ctx → Ctx) (s : State) : (s.onCtx a g).at_ = s.at_ := rfl
@[simp] theorem State.onCtx_iss (a : Fin 64) (g : Ctx → Ctx) (s : State) : (s.onCtx a g).iss = s.iss := rfl
@[simp] theorem State.onCtx_agenda (a : Fin 64) (g : Ctx → Ctx) (s : State) : (s.onCtx a g).agenda = s.agenda := rfl
@[simp] theorem State.onCtx_rr (a : Fin 64) (g : Ctx → Ctx) (s : State) : (s.onCtx a g).rr = s.rr := rfl
@[simp] theorem State.onCtx_issued (a : Fin 64) (g : Ctx → Ctx) (s : State) : (s.onCtx a g).issued = s.issued := rfl
@[simp] theorem State.onCtx_fresh (a : Fin 64) (g : Ctx → Ctx) (s : State) : (s.onCtx a g).fresh = s.fresh := rfl
@[simp] theorem State.onCtx_ids (a : Fin 64) (g : Ctx → Ctx) (s : State) : (s.onCtx a g).ids = s.ids := rfl
@[simp] theorem State.onCtx_hostOut (a : Fin 64) (g : Ctx → Ctx) (s : State) : (s.onCtx a g).hostOut = s.hostOut := rfl
@[simp] theorem State.onCtx_hostHeld (a : Fin 64) (g : Ctx → Ctx) (s : State) : (s.onCtx a g).hostHeld = s.hostHeld := rfl

@[simp] theorem State.onLaunch_cores (lid : Nat) (g : Launch → Launch) (s : State) : (s.onLaunch lid g).cores = s.cores := rfl
@[simp] theorem State.onLaunch_tile (lid : Nat) (g : Launch → Launch) (s : State) : (s.onLaunch lid g).tile = s.tile := rfl
@[simp] theorem State.onLaunch_rdie (lid : Nat) (g : Launch → Launch) (s : State) : (s.onLaunch lid g).rdie = s.rdie := rfl
@[simp] theorem State.onLaunch_mem (lid : Nat) (g : Launch → Launch) (s : State) : (s.onLaunch lid g).mem = s.mem := rfl
@[simp] theorem State.onLaunch_host (lid : Nat) (g : Launch → Launch) (s : State) : (s.onLaunch lid g).host = s.host := rfl
@[simp] theorem State.onLaunch_bad (lid : Nat) (g : Launch → Launch) (s : State) : (s.onLaunch lid g).bad = s.bad := rfl
@[simp] theorem State.onLaunch_weak (lid : Nat) (g : Launch → Launch) (s : State) : (s.onLaunch lid g).weak = s.weak := rfl
@[simp] theorem State.onLaunch_inflight (lid : Nat) (g : Launch → Launch) (s : State) : (s.onLaunch lid g).inflight = s.inflight := rfl
@[simp] theorem State.onLaunch_lat (lid : Nat) (g : Launch → Launch) (s : State) : (s.onLaunch lid g).lat = s.lat := rfl
@[simp] theorem State.onLaunch_dirty (lid : Nat) (g : Launch → Launch) (s : State) : (s.onLaunch lid g).dirty = s.dirty := rfl
@[simp] theorem State.onLaunch_carried (lid : Nat) (g : Launch → Launch) (s : State) : (s.onLaunch lid g).carried = s.carried := rfl
@[simp] theorem State.onLaunch_sysDirty (lid : Nat) (g : Launch → Launch) (s : State) : (s.onLaunch lid g).sysDirty = s.sysDirty := rfl
@[simp] theorem State.onLaunch_slots (lid : Nat) (g : Launch → Launch) (s : State) : (s.onLaunch lid g).slots = s.slots := rfl
@[simp] theorem State.onLaunch_tlb (lid : Nat) (g : Launch → Launch) (s : State) : (s.onLaunch lid g).tlb = s.tlb := rfl
@[simp] theorem State.onLaunch_wcache (lid : Nat) (g : Launch → Launch) (s : State) : (s.onLaunch lid g).wcache = s.wcache := rfl
@[simp] theorem State.onLaunch_ctxs (lid : Nat) (g : Launch → Launch) (s : State) : (s.onLaunch lid g).ctxs = s.ctxs := rfl
@[simp] theorem State.onLaunch_recs (lid : Nat) (g : Launch → Launch) (s : State) : (s.onLaunch lid g).recs = s.recs := rfl
@[simp] theorem State.onLaunch_coll (lid : Nat) (g : Launch → Launch) (s : State) : (s.onLaunch lid g).coll = s.coll := rfl
@[simp] theorem State.onLaunch_pkg (lid : Nat) (g : Launch → Launch) (s : State) : (s.onLaunch lid g).pkg = s.pkg := rfl
@[simp] theorem State.onLaunch_mc (lid : Nat) (g : Launch → Launch) (s : State) : (s.onLaunch lid g).mc = s.mc := rfl
@[simp] theorem State.onLaunch_trace (lid : Nat) (g : Launch → Launch) (s : State) : (s.onLaunch lid g).trace = s.trace := rfl
@[simp] theorem State.onLaunch_island (lid : Nat) (g : Launch → Launch) (s : State) : (s.onLaunch lid g).island = s.island := rfl
@[simp] theorem State.onLaunch_cyc (lid : Nat) (g : Launch → Launch) (s : State) : (s.onLaunch lid g).cyc = s.cyc := rfl
@[simp] theorem State.onLaunch_power (lid : Nat) (g : Launch → Launch) (s : State) : (s.onLaunch lid g).power = s.power := rfl
@[simp] theorem State.onLaunch_hostLink (lid : Nat) (g : Launch → Launch) (s : State) : (s.onLaunch lid g).hostLink = s.hostLink := rfl
@[simp] theorem State.onLaunch_msi (lid : Nat) (g : Launch → Launch) (s : State) : (s.onLaunch lid g).msi = s.msi := rfl
@[simp] theorem State.onLaunch_posts (lid : Nat) (g : Launch → Launch) (s : State) : (s.onLaunch lid g).posts = s.posts := rfl
@[simp] theorem State.onLaunch_patrol (lid : Nat) (g : Launch → Launch) (s : State) : (s.onLaunch lid g).patrol = s.patrol := rfl
@[simp] theorem State.onLaunch_at_ (lid : Nat) (g : Launch → Launch) (s : State) : (s.onLaunch lid g).at_ = s.at_ := rfl
@[simp] theorem State.onLaunch_iss (lid : Nat) (g : Launch → Launch) (s : State) : (s.onLaunch lid g).iss = s.iss := rfl
@[simp] theorem State.onLaunch_agenda (lid : Nat) (g : Launch → Launch) (s : State) : (s.onLaunch lid g).agenda = s.agenda := rfl
@[simp] theorem State.onLaunch_rr (lid : Nat) (g : Launch → Launch) (s : State) : (s.onLaunch lid g).rr = s.rr := rfl
@[simp] theorem State.onLaunch_issued (lid : Nat) (g : Launch → Launch) (s : State) : (s.onLaunch lid g).issued = s.issued := rfl
@[simp] theorem State.onLaunch_fresh (lid : Nat) (g : Launch → Launch) (s : State) : (s.onLaunch lid g).fresh = s.fresh := rfl
@[simp] theorem State.onLaunch_ids (lid : Nat) (g : Launch → Launch) (s : State) : (s.onLaunch lid g).ids = s.ids := rfl
@[simp] theorem State.onLaunch_hostOut (lid : Nat) (g : Launch → Launch) (s : State) : (s.onLaunch lid g).hostOut = s.hostOut := rfl
@[simp] theorem State.onLaunch_hostHeld (lid : Nat) (g : Launch → Launch) (s : State) : (s.onLaunch lid g).hostHeld = s.hostHeld := rfl

@[simp] theorem State.onRec_cores (lid seq : Nat) (g : Rec → Rec) (s : State) : (s.onRec lid seq g).cores = s.cores := rfl
@[simp] theorem State.onRec_tile (lid seq : Nat) (g : Rec → Rec) (s : State) : (s.onRec lid seq g).tile = s.tile := rfl
@[simp] theorem State.onRec_rdie (lid seq : Nat) (g : Rec → Rec) (s : State) : (s.onRec lid seq g).rdie = s.rdie := rfl
@[simp] theorem State.onRec_mem (lid seq : Nat) (g : Rec → Rec) (s : State) : (s.onRec lid seq g).mem = s.mem := rfl
@[simp] theorem State.onRec_host (lid seq : Nat) (g : Rec → Rec) (s : State) : (s.onRec lid seq g).host = s.host := rfl
@[simp] theorem State.onRec_bad (lid seq : Nat) (g : Rec → Rec) (s : State) : (s.onRec lid seq g).bad = s.bad := rfl
@[simp] theorem State.onRec_weak (lid seq : Nat) (g : Rec → Rec) (s : State) : (s.onRec lid seq g).weak = s.weak := rfl
@[simp] theorem State.onRec_inflight (lid seq : Nat) (g : Rec → Rec) (s : State) : (s.onRec lid seq g).inflight = s.inflight := rfl
@[simp] theorem State.onRec_lat (lid seq : Nat) (g : Rec → Rec) (s : State) : (s.onRec lid seq g).lat = s.lat := rfl
@[simp] theorem State.onRec_dirty (lid seq : Nat) (g : Rec → Rec) (s : State) : (s.onRec lid seq g).dirty = s.dirty := rfl
@[simp] theorem State.onRec_carried (lid seq : Nat) (g : Rec → Rec) (s : State) : (s.onRec lid seq g).carried = s.carried := rfl
@[simp] theorem State.onRec_sysDirty (lid seq : Nat) (g : Rec → Rec) (s : State) : (s.onRec lid seq g).sysDirty = s.sysDirty := rfl
@[simp] theorem State.onRec_slots (lid seq : Nat) (g : Rec → Rec) (s : State) : (s.onRec lid seq g).slots = s.slots := rfl
@[simp] theorem State.onRec_tlb (lid seq : Nat) (g : Rec → Rec) (s : State) : (s.onRec lid seq g).tlb = s.tlb := rfl
@[simp] theorem State.onRec_wcache (lid seq : Nat) (g : Rec → Rec) (s : State) : (s.onRec lid seq g).wcache = s.wcache := rfl
@[simp] theorem State.onRec_ctxs (lid seq : Nat) (g : Rec → Rec) (s : State) : (s.onRec lid seq g).ctxs = s.ctxs := rfl
@[simp] theorem State.onRec_launches (lid seq : Nat) (g : Rec → Rec) (s : State) : (s.onRec lid seq g).launches = s.launches := rfl
@[simp] theorem State.onRec_coll (lid seq : Nat) (g : Rec → Rec) (s : State) : (s.onRec lid seq g).coll = s.coll := rfl
@[simp] theorem State.onRec_pkg (lid seq : Nat) (g : Rec → Rec) (s : State) : (s.onRec lid seq g).pkg = s.pkg := rfl
@[simp] theorem State.onRec_mc (lid seq : Nat) (g : Rec → Rec) (s : State) : (s.onRec lid seq g).mc = s.mc := rfl
@[simp] theorem State.onRec_trace (lid seq : Nat) (g : Rec → Rec) (s : State) : (s.onRec lid seq g).trace = s.trace := rfl
@[simp] theorem State.onRec_island (lid seq : Nat) (g : Rec → Rec) (s : State) : (s.onRec lid seq g).island = s.island := rfl
@[simp] theorem State.onRec_cyc (lid seq : Nat) (g : Rec → Rec) (s : State) : (s.onRec lid seq g).cyc = s.cyc := rfl
@[simp] theorem State.onRec_power (lid seq : Nat) (g : Rec → Rec) (s : State) : (s.onRec lid seq g).power = s.power := rfl
@[simp] theorem State.onRec_hostLink (lid seq : Nat) (g : Rec → Rec) (s : State) : (s.onRec lid seq g).hostLink = s.hostLink := rfl
@[simp] theorem State.onRec_msi (lid seq : Nat) (g : Rec → Rec) (s : State) : (s.onRec lid seq g).msi = s.msi := rfl
@[simp] theorem State.onRec_posts (lid seq : Nat) (g : Rec → Rec) (s : State) : (s.onRec lid seq g).posts = s.posts := rfl
@[simp] theorem State.onRec_patrol (lid seq : Nat) (g : Rec → Rec) (s : State) : (s.onRec lid seq g).patrol = s.patrol := rfl
@[simp] theorem State.onRec_at_ (lid seq : Nat) (g : Rec → Rec) (s : State) : (s.onRec lid seq g).at_ = s.at_ := rfl
@[simp] theorem State.onRec_iss (lid seq : Nat) (g : Rec → Rec) (s : State) : (s.onRec lid seq g).iss = s.iss := rfl
@[simp] theorem State.onRec_agenda (lid seq : Nat) (g : Rec → Rec) (s : State) : (s.onRec lid seq g).agenda = s.agenda := rfl
@[simp] theorem State.onRec_rr (lid seq : Nat) (g : Rec → Rec) (s : State) : (s.onRec lid seq g).rr = s.rr := rfl
@[simp] theorem State.onRec_issued (lid seq : Nat) (g : Rec → Rec) (s : State) : (s.onRec lid seq g).issued = s.issued := rfl
@[simp] theorem State.onRec_fresh (lid seq : Nat) (g : Rec → Rec) (s : State) : (s.onRec lid seq g).fresh = s.fresh := rfl
@[simp] theorem State.onRec_ids (lid seq : Nat) (g : Rec → Rec) (s : State) : (s.onRec lid seq g).ids = s.ids := rfl
@[simp] theorem State.onRec_hostOut (lid seq : Nat) (g : Rec → Rec) (s : State) : (s.onRec lid seq g).hostOut = s.hostOut := rfl
@[simp] theorem State.onRec_hostHeld (lid seq : Nat) (g : Rec → Rec) (s : State) : (s.onRec lid seq g).hostHeld = s.hostHeld := rfl

-- The acting core, cluster and engine after an update.

@[simp] theorem State.core_onCore (g : Core → Core) (s : State) : (s.onCore g).core = g s.core := by
  simp [State.core, State.onCore, State.coreUpd]

@[simp] theorem State.clu_onClu (g : Cluster → Cluster) (s : State) : (s.onClu g).clu = g s.clu := by
  simp [State.clu, State.core, State.onClu, State.cluUpd, State.coreUpd]

@[simp] theorem State.eng_onEng (g : Engine → Engine) (s : State) : (s.onEng g).eng = g s.eng := by
  simp [State.eng, State.core, State.onEng, State.engUpd, State.coreUpd]

theorem State.core_onClu (g : Cluster → Cluster) (s : State) : (s.onClu g).core = { s.core with clu := vmod s.core.clu s.at_.clu g } := by
  simp [State.core, State.onClu, State.cluUpd, State.coreUpd]

theorem State.core_onEng (g : Engine → Engine) (s : State) : (s.onEng g).core = { s.core with eng := vmod s.core.eng s.at_.eng g } := by
  simp [State.core, State.onEng, State.engUpd, State.coreUpd]

@[simp] theorem State.core_onClu_eng (g : Cluster → Cluster) (s : State) : (s.onClu g).core.eng = s.core.eng := by rw [State.core_onClu]
@[simp] theorem State.core_onClu_numctl (g : Cluster → Cluster) (s : State) : (s.onClu g).core.numctl = s.core.numctl := by rw [State.core_onClu]
@[simp] theorem State.core_onClu_fpstat (g : Cluster → Cluster) (s : State) : (s.onClu g).core.fpstat = s.core.fpstat := by rw [State.core_onClu]
@[simp] theorem State.core_onClu_memdef (g : Cluster → Cluster) (s : State) : (s.onClu g).core.memdef = s.core.memdef := by rw [State.core_onClu]
@[simp] theorem State.core_onClu_agectl (g : Cluster → Cluster) (s : State) : (s.onClu g).core.agectl = s.core.agectl := by rw [State.core_onClu]
@[simp] theorem State.core_onClu_unpk (g : Cluster → Cluster) (s : State) : (s.onClu g).core.unpk = s.core.unpk := by rw [State.core_onClu]
@[simp] theorem State.core_onClu_tvec (g : Cluster → Cluster) (s : State) : (s.onClu g).core.tvec = s.core.tvec := by rw [State.core_onClu]
@[simp] theorem State.core_onClu_xb (g : Cluster → Cluster) (s : State) : (s.onClu g).core.xb = s.core.xb := by rw [State.core_onClu]
@[simp] theorem State.core_onClu_cc (g : Cluster → Cluster) (s : State) : (s.onClu g).core.cc = s.core.cc := by rw [State.core_onClu]
@[simp] theorem State.core_onClu_ccSet (g : Cluster → Cluster) (s : State) : (s.onClu g).core.ccSet = s.core.ccSet := by rw [State.core_onClu]
@[simp] theorem State.core_onClu_ccClr (g : Cluster → Cluster) (s : State) : (s.onClu g).core.ccClr = s.core.ccClr := by rw [State.core_onClu]
@[simp] theorem State.core_onClu_cck (g : Cluster → Cluster) (s : State) : (s.onClu g).core.cck = s.core.cck := by rw [State.core_onClu]
@[simp] theorem State.core_onClu_f (g : Cluster → Cluster) (s : State) : (s.onClu g).core.f = s.core.f := by rw [State.core_onClu]
@[simp] theorem State.core_onClu_fSet (g : Cluster → Cluster) (s : State) : (s.onClu g).core.fSet = s.core.fSet := by rw [State.core_onClu]
@[simp] theorem State.core_onClu_fClr (g : Cluster → Cluster) (s : State) : (s.onClu g).core.fClr = s.core.fClr := by rw [State.core_onClu]
@[simp] theorem State.core_onClu_fpSetNow (g : Cluster → Cluster) (s : State) : (s.onClu g).core.fpSetNow = s.core.fpSetNow := by rw [State.core_onClu]
@[simp] theorem State.core_onClu_exNow (g : Cluster → Cluster) (s : State) : (s.onClu g).core.exNow = s.core.exNow := by rw [State.core_onClu]
@[simp] theorem State.core_onClu_kpend (g : Cluster → Cluster) (s : State) : (s.onClu g).core.kpend = s.core.kpend := by rw [State.core_onClu]
@[simp] theorem State.core_onClu_granted (g : Cluster → Cluster) (s : State) : (s.onClu g).core.granted = s.core.granted := by rw [State.core_onClu]
@[simp] theorem State.core_onClu_folioNo (g : Cluster → Cluster) (s : State) : (s.onClu g).core.folioNo = s.core.folioNo := by rw [State.core_onClu]
@[simp] theorem State.core_onClu_asid (g : Cluster → Cluster) (s : State) : (s.onClu g).core.asid = s.core.asid := by rw [State.core_onClu]
@[simp] theorem State.core_onClu_run (g : Cluster → Cluster) (s : State) : (s.onClu g).core.run = s.core.run := by rw [State.core_onClu]
@[simp] theorem State.core_onClu_popped (g : Cluster → Cluster) (s : State) : (s.onClu g).core.popped = s.core.popped := by rw [State.core_onClu]
@[simp] theorem State.core_onClu_tiles (g : Cluster → Cluster) (s : State) : (s.onClu g).core.tiles = s.core.tiles := by rw [State.core_onClu]
@[simp] theorem State.core_onClu_qctr (g : Cluster → Cluster) (s : State) : (s.onClu g).core.qctr = s.core.qctr := by rw [State.core_onClu]
@[simp] theorem State.core_onClu_frz (g : Cluster → Cluster) (s : State) : (s.onClu g).core.frz = s.core.frz := by rw [State.core_onClu]
@[simp] theorem State.core_onClu_preReq (g : Cluster → Cluster) (s : State) : (s.onClu g).core.preReq = s.core.preReq := by rw [State.core_onClu]
@[simp] theorem State.core_onClu_haltd (g : Cluster → Cluster) (s : State) : (s.onClu g).core.haltd = s.core.haltd := by rw [State.core_onClu]
@[simp] theorem State.core_onClu_dbgHalted (g : Cluster → Cluster) (s : State) : (s.onClu g).core.dbgHalted = s.core.dbgHalted := by rw [State.core_onClu]
@[simp] theorem State.core_onClu_pstop (g : Cluster → Cluster) (s : State) : (s.onClu g).core.pstop = s.core.pstop := by rw [State.core_onClu]
@[simp] theorem State.core_onClu_staging (g : Cluster → Cluster) (s : State) : (s.onClu g).core.staging = s.core.staging := by rw [State.core_onClu]
@[simp] theorem State.core_onClu_joins (g : Cluster → Cluster) (s : State) : (s.onClu g).core.joins = s.core.joins := by rw [State.core_onClu]
@[simp] theorem State.core_onClu_left (g : Cluster → Cluster) (s : State) : (s.onClu g).core.left = s.core.left := by rw [State.core_onClu]
@[simp] theorem State.core_onClu_imgTag (g : Cluster → Cluster) (s : State) : (s.onClu g).core.imgTag = s.core.imgTag := by rw [State.core_onClu]
@[simp] theorem State.core_onClu_saved (g : Cluster → Cluster) (s : State) : (s.onClu g).core.saved = s.core.saved := by rw [State.core_onClu]
@[simp] theorem State.core_onClu_lastEnd (g : Cluster → Cluster) (s : State) : (s.onClu g).core.lastEnd = s.core.lastEnd := by rw [State.core_onClu]
@[simp] theorem State.core_onClu_runs (g : Cluster → Cluster) (s : State) : (s.onClu g).core.runs = s.core.runs := by rw [State.core_onClu]
@[simp] theorem State.core_onClu_stamps (g : Cluster → Cluster) (s : State) : (s.onClu g).core.stamps = s.core.stamps := by rw [State.core_onClu]

@[simp] theorem State.core_onEng_clu (g : Engine → Engine) (s : State) : (s.onEng g).core.clu = s.core.clu := by rw [State.core_onEng]
@[simp] theorem State.core_onEng_numctl (g : Engine → Engine) (s : State) : (s.onEng g).core.numctl = s.core.numctl := by rw [State.core_onEng]
@[simp] theorem State.core_onEng_fpstat (g : Engine → Engine) (s : State) : (s.onEng g).core.fpstat = s.core.fpstat := by rw [State.core_onEng]
@[simp] theorem State.core_onEng_memdef (g : Engine → Engine) (s : State) : (s.onEng g).core.memdef = s.core.memdef := by rw [State.core_onEng]
@[simp] theorem State.core_onEng_agectl (g : Engine → Engine) (s : State) : (s.onEng g).core.agectl = s.core.agectl := by rw [State.core_onEng]
@[simp] theorem State.core_onEng_unpk (g : Engine → Engine) (s : State) : (s.onEng g).core.unpk = s.core.unpk := by rw [State.core_onEng]
@[simp] theorem State.core_onEng_tvec (g : Engine → Engine) (s : State) : (s.onEng g).core.tvec = s.core.tvec := by rw [State.core_onEng]
@[simp] theorem State.core_onEng_xb (g : Engine → Engine) (s : State) : (s.onEng g).core.xb = s.core.xb := by rw [State.core_onEng]
@[simp] theorem State.core_onEng_cc (g : Engine → Engine) (s : State) : (s.onEng g).core.cc = s.core.cc := by rw [State.core_onEng]
@[simp] theorem State.core_onEng_ccSet (g : Engine → Engine) (s : State) : (s.onEng g).core.ccSet = s.core.ccSet := by rw [State.core_onEng]
@[simp] theorem State.core_onEng_ccClr (g : Engine → Engine) (s : State) : (s.onEng g).core.ccClr = s.core.ccClr := by rw [State.core_onEng]
@[simp] theorem State.core_onEng_cck (g : Engine → Engine) (s : State) : (s.onEng g).core.cck = s.core.cck := by rw [State.core_onEng]
@[simp] theorem State.core_onEng_f (g : Engine → Engine) (s : State) : (s.onEng g).core.f = s.core.f := by rw [State.core_onEng]
@[simp] theorem State.core_onEng_fSet (g : Engine → Engine) (s : State) : (s.onEng g).core.fSet = s.core.fSet := by rw [State.core_onEng]
@[simp] theorem State.core_onEng_fClr (g : Engine → Engine) (s : State) : (s.onEng g).core.fClr = s.core.fClr := by rw [State.core_onEng]
@[simp] theorem State.core_onEng_fpSetNow (g : Engine → Engine) (s : State) : (s.onEng g).core.fpSetNow = s.core.fpSetNow := by rw [State.core_onEng]
@[simp] theorem State.core_onEng_exNow (g : Engine → Engine) (s : State) : (s.onEng g).core.exNow = s.core.exNow := by rw [State.core_onEng]
@[simp] theorem State.core_onEng_kpend (g : Engine → Engine) (s : State) : (s.onEng g).core.kpend = s.core.kpend := by rw [State.core_onEng]
@[simp] theorem State.core_onEng_granted (g : Engine → Engine) (s : State) : (s.onEng g).core.granted = s.core.granted := by rw [State.core_onEng]
@[simp] theorem State.core_onEng_folioNo (g : Engine → Engine) (s : State) : (s.onEng g).core.folioNo = s.core.folioNo := by rw [State.core_onEng]
@[simp] theorem State.core_onEng_asid (g : Engine → Engine) (s : State) : (s.onEng g).core.asid = s.core.asid := by rw [State.core_onEng]
@[simp] theorem State.core_onEng_run (g : Engine → Engine) (s : State) : (s.onEng g).core.run = s.core.run := by rw [State.core_onEng]
@[simp] theorem State.core_onEng_popped (g : Engine → Engine) (s : State) : (s.onEng g).core.popped = s.core.popped := by rw [State.core_onEng]
@[simp] theorem State.core_onEng_tiles (g : Engine → Engine) (s : State) : (s.onEng g).core.tiles = s.core.tiles := by rw [State.core_onEng]
@[simp] theorem State.core_onEng_qctr (g : Engine → Engine) (s : State) : (s.onEng g).core.qctr = s.core.qctr := by rw [State.core_onEng]
@[simp] theorem State.core_onEng_frz (g : Engine → Engine) (s : State) : (s.onEng g).core.frz = s.core.frz := by rw [State.core_onEng]
@[simp] theorem State.core_onEng_preReq (g : Engine → Engine) (s : State) : (s.onEng g).core.preReq = s.core.preReq := by rw [State.core_onEng]
@[simp] theorem State.core_onEng_haltd (g : Engine → Engine) (s : State) : (s.onEng g).core.haltd = s.core.haltd := by rw [State.core_onEng]
@[simp] theorem State.core_onEng_dbgHalted (g : Engine → Engine) (s : State) : (s.onEng g).core.dbgHalted = s.core.dbgHalted := by rw [State.core_onEng]
@[simp] theorem State.core_onEng_pstop (g : Engine → Engine) (s : State) : (s.onEng g).core.pstop = s.core.pstop := by rw [State.core_onEng]
@[simp] theorem State.core_onEng_staging (g : Engine → Engine) (s : State) : (s.onEng g).core.staging = s.core.staging := by rw [State.core_onEng]
@[simp] theorem State.core_onEng_joins (g : Engine → Engine) (s : State) : (s.onEng g).core.joins = s.core.joins := by rw [State.core_onEng]
@[simp] theorem State.core_onEng_left (g : Engine → Engine) (s : State) : (s.onEng g).core.left = s.core.left := by rw [State.core_onEng]
@[simp] theorem State.core_onEng_imgTag (g : Engine → Engine) (s : State) : (s.onEng g).core.imgTag = s.core.imgTag := by rw [State.core_onEng]
@[simp] theorem State.core_onEng_saved (g : Engine → Engine) (s : State) : (s.onEng g).core.saved = s.core.saved := by rw [State.core_onEng]
@[simp] theorem State.core_onEng_lastEnd (g : Engine → Engine) (s : State) : (s.onEng g).core.lastEnd = s.core.lastEnd := by rw [State.core_onEng]
@[simp] theorem State.core_onEng_runs (g : Engine → Engine) (s : State) : (s.onEng g).core.runs = s.core.runs := by rw [State.core_onEng]
@[simp] theorem State.core_onEng_stamps (g : Engine → Engine) (s : State) : (s.onEng g).core.stamps = s.core.stamps := by rw [State.core_onEng]

@[simp] theorem State.eng_onClu (g : Cluster → Cluster) (s : State) : (s.onClu g).eng = s.eng := by simp [State.eng]
@[simp] theorem State.clu_onEng (g : Engine → Engine) (s : State) : (s.onEng g).clu = s.clu := by simp [State.clu]
@[simp] theorem State.asid_onClu (g : Cluster → Cluster) (s : State) : (s.onClu g).asid = s.asid := by simp [State.asid]
@[simp] theorem State.launch_onCore (g : Core → Core) (s : State) (l : Nat) : (s.onCore g).launch l = s.launch l := rfl
@[simp] theorem State.launch_onClu (g : Cluster → Cluster) (s : State) (l : Nat) : (s.onClu g).launch l = s.launch l := rfl
@[simp] theorem State.launch_onEng (g : Engine → Engine) (s : State) (l : Nat) : (s.onEng g).launch l = s.launch l := rfl

-- Two updates of the same unit are one.

theorem State.onClu_onClu (g h : Cluster → Cluster) (s : State) : (s.onClu g).onClu h = s.onClu fun c => h (g c) := by
  simp [State.onClu, State.cluUpd, State.coreUpd, vmod_vmod]

theorem State.onCore_onCore (g h : Core → Core) (s : State) : (s.onCore g).onCore h = s.onCore fun c => h (g c) := by
  simp [State.onCore, State.coreUpd, vmod_vmod]

theorem State.onEng_onEng (g h : Engine → Engine) (s : State) : (s.onEng g).onEng h = s.onEng fun c => h (g c) := by
  simp [State.onEng, State.engUpd, State.coreUpd, vmod_vmod]

-- Other cores, clusters and engines after an update of the acting one.

theorem State.other_core_onCore (g : Core → Core) (s : State) (n : CoreId) (h : n ≠ s.at_.core) : ((s.onCore g).cores[n]) = s.cores[n] := by
  have e : s.at_.core.val ≠ n.val := fun e => h (Fin.ext e.symm)
  simp [State.onCore, State.coreUpd, e]

theorem State.other_clu_onClu (g : Cluster → Cluster) (s : State) (n : CoreId) (c : CluId) (h : (n, c) ≠ (s.at_.core, s.at_.clu)) :
    ((s.onClu g).cores[n]).clu[c] = (s.cores[n]).clu[c] := by
  by_cases hn : s.at_.core = n
  · subst hn
    have hc : s.at_.clu.val ≠ c.val := fun e => h (by rw [Fin.ext e])
    simp [State.onClu, State.cluUpd, State.coreUpd, hc]
  · have e : s.at_.core.val ≠ n.val := fun e => hn (Fin.ext e)
    simp [State.onClu, State.cluUpd, State.coreUpd, e]

-- Reads of memory do not see the cores' registers.

@[simp] theorem State.readByte_onCore (g : Core → Core) (s : State) (o : Obs) (w k : Nat) : (s.onCore g).readByte o w k = s.readByte o w k := rfl
@[simp] theorem State.readByte_onClu (g : Cluster → Cluster) (s : State) (o : Obs) (w k : Nat) : (s.onClu g).readByte o w k = s.readByte o w k := rfl
@[simp] theorem State.readByte_onEng (g : Engine → Engine) (s : State) (o : Obs) (w k : Nat) : (s.onEng g).readByte o w k = s.readByte o w k := rfl

end Sys2Proof.Machine
end

