-- ==== Sys2Proof/Laws/Memory.lean ====
section
/-!
SUPPORT. Memory: the canonical form, what a byte reads as after a write, and that every operation on memory keeps the canonical form;
reset has it.
-/
namespace Sys2Proof.Machine

-- The canonical form.

/-- The canonical form, one entry at a time: the entry is not blank, its address lies below every later one, and the rest has the form. -/
theorem wf_cons (a : Nat) (v : Byte) (m : List Host.Cell) :
    Memory.wf ((a, v) :: m) = true ↔ v ≠ blank ∧ (∀ x ∈ m, a < x.1) ∧ Memory.wf m = true := by
  induction m generalizing a v with
  | nil => simp [Memory.wf]
  | cons p m ih =>
    obtain ⟨b, w⟩ := p
    simp only [Memory.wf, Bool.and_eq_true, decide_eq_true_eq, bne_iff_ne, List.mem_cons, forall_eq_or_imp]
    constructor
    · rintro ⟨⟨hv, hab⟩, hm⟩
      exact ⟨hv, ⟨hab, fun x hx => Nat.lt_trans hab (((ih b w).1 hm).2.1 x hx)⟩, hm⟩
    · rintro ⟨hv, ⟨hab, -⟩, hm⟩
      exact ⟨⟨hv, hab⟩, hm⟩

/-- Where a memory's entries come from after a write: the entry written, or an entry that stood before. -/
theorem mem_memPut (m : List Host.Cell) (a : Nat) (x : Byte) (p : Host.Cell) (h : p ∈ memPut m a x) : p = (a, x) ∨ p ∈ m := by
  induction m with
  | nil => unfold memPut at h; split at h <;> simp_all
  | cons q m ih =>
    obtain ⟨b, w⟩ := q
    unfold memPut at h
    split at h
    · split at h <;> simp_all
    · split at h
      · split at h
        · simp [h]
        · simp only [List.mem_cons] at h ⊢
          rcases h with h | h <;> simp_all
      · simp only [List.mem_cons] at h ⊢
        rcases h with h | h
        · simp [h]
        · rcases ih h with h | h <;> simp [h]

/-- A write keeps the canonical form. -/
theorem wf_memPut (m : List Host.Cell) (a : Nat) (x : Byte) (h : Memory.wf m = true) : Memory.wf (memPut m a x) = true := by
  induction m with
  | nil => unfold memPut; split <;> simp_all [Memory.wf]
  | cons q m ih =>
    obtain ⟨b, w⟩ := q
    obtain ⟨hw, hlt, hm⟩ := (wf_cons b w m).1 h
    unfold memPut
    split
    · split
      · exact h
      · rename_i hab hx
        refine (wf_cons _ _ _).2 ⟨hx, fun p hp => ?_, h⟩
        rcases List.mem_cons.1 hp with rfl | hp
        · exact hab
        · exact Nat.lt_trans hab (hlt p hp)
    · split
      · rename_i hab hb
        split
        · exact hm
        · rename_i hx
          exact (wf_cons _ _ _).2 ⟨hx, fun p hp => by rw [hb]; exact hlt p hp, hm⟩
      · rename_i hab hb
        refine (wf_cons _ _ _).2 ⟨hw, fun p hp => ?_, ih hm⟩
        rcases mem_memPut m a x p hp with rfl | hp
        · show b < a; omega
        · exact hlt p hp

/-- Writes in order keep the canonical form. -/
theorem wf_memPuts (bs : List (Nat × Byte)) : ∀ m : List Host.Cell, Memory.wf m = true → Memory.wf (memPuts m bs) = true := by
  induction bs with
  | nil => exact fun m h => h
  | cons p bs ih => exact fun m h => ih _ (wf_memPut m p.1 p.2 h)

/-- Dropping entries keeps the canonical form. -/
theorem wf_filter (f : Host.Cell → Bool) (m : List Host.Cell) (h : Memory.wf m = true) : Memory.wf (m.filter f) = true := by
  induction m with
  | nil => rfl
  | cons q m ih =>
    obtain ⟨b, w⟩ := q
    obtain ⟨hw, hlt, hm⟩ := (wf_cons b w m).1 h
    rw [List.filter_cons]
    split
    · exact (wf_cons _ _ _).2 ⟨hw, fun p hp => hlt p (List.mem_filter.1 hp).1, ih hm⟩
    · exact ih hm

/-- An address below every entry reads as blank. -/
theorem memGet_below (m : List Host.Cell) (a : Nat) (h : ∀ x ∈ m, a < x.1) : memGet m a = blank := by
  induction m with
  | nil => rfl
  | cons q m ih =>
    obtain ⟨b, w⟩ := q
    have hb : a < b := h (b, w) (by simp)
    rw [memGet, if_neg (by omega)]
    exact ih fun x hx => h x (by simp [hx])

/-- What a byte reads as after a write: the byte written at its address, and the byte before it anywhere else. -/
theorem memGet_memPut (m : List Host.Cell) (a : Nat) (x : Byte) (h : Memory.wf m = true) (b : Nat) :
    memGet (memPut m a x) b = if b = a then x else memGet m b := by
  induction m with
  | nil => unfold memPut; split <;> by_cases e : b = a <;> simp_all [memGet]
  | cons q m ih =>
    obtain ⟨c, w⟩ := q
    obtain ⟨hw, hlt, hm⟩ := (wf_cons c w m).1 h
    have below : ∀ y, y < c → memGet ((c, w) :: m) y = blank := fun y hy =>
      memGet_below _ _ (fun p hp => by
        rcases List.mem_cons.1 hp with rfl | hp
        · exact hy
        · exact Nat.lt_trans hy (hlt p hp))
    unfold memPut
    split
    · rename_i hac
      split
      · rename_i hx
        by_cases e : b = a
        · rw [if_pos e, e, below a hac, hx]
        · rw [if_neg e]
      · by_cases e : b = a <;> simp [memGet, e]
    · split
      · rename_i hac hc
        subst hc
        split
        · rename_i hx
          by_cases e : b = a
          · rw [if_pos e, e, memGet_below m a hlt, hx]
          · simp [memGet, e]
        · by_cases e : b = a <;> simp [memGet, e]
      · rename_i hac hc
        by_cases e : b = c
        · have : b ≠ a := by omega
          simp [memGet, e, show c ≠ a by omega]
        · simp only [memGet, if_neg e]
          exact ih hm

/-- Memory at reset is in canonical form. -/
theorem reset_memory_wf : Memory.wf State.reset.mem = true ∧ Memory.wf State.reset.host = true := ⟨rfl, rfl⟩

end Sys2Proof.Machine

namespace Sys2Proof.Safety

open Machine

-- The operations that write memory keep the canonical form.

/-- The form depends on device memory and host memory alone. -/
theorem memoryOk_of_eq {s t : State} (hm : t.mem = s.mem) (hh : t.host = s.host) (h : MemoryOk s) : MemoryOk t := by
  unfold MemoryOk at *; rw [hm, hh]; exact h

theorem memoryOk_putByte (s : State) (k : Nat) (x : Byte) (h : MemoryOk s) : MemoryOk (s.putByte k x) := by
  unfold State.putByte; split
  · exact ⟨h.1, wf_memPut _ _ _ h.2⟩
  · exact ⟨wf_memPut _ _ _ h.1, h.2⟩

/-- A fold of steps that keep the form keeps it. -/
theorem memoryOk_foldl {α : Type} (f : State → α → State) (hf : ∀ s x, MemoryOk s → MemoryOk (f s x)) (l : List α) :
    ∀ s, MemoryOk s → MemoryOk (l.foldl f s) := by
  induction l with
  | nil => exact fun s h => h
  | cons x l ih => exact fun s h => ih _ (hf s x h)

theorem memoryOk_putBytes (bs : List (Nat × Byte)) (s : State) (h : MemoryOk s) : MemoryOk (s.putBytes bs) :=
  memoryOk_foldl _ (fun s p hs => memoryOk_putByte s p.1 p.2 hs) bs s h

-- The reliability log, the counting of corrected errors, and writes that an uncorrectable place may lose.

theorem memoryOk_putLog (pa : Nat) (bs : List Byte) (s : State) (h : MemoryOk s) : MemoryOk (s.putLog pa bs) :=
  memoryOk_putBytes _ _ (memoryOk_of_eq (s := s) rfl rfl h)

theorem memoryOk_relLog (s : State) (ty sub die unit a0 a1 a2 a3 : Nat) (h : MemoryOk s) : MemoryOk (s.relLog ty sub die unit a0 a1 a2 a3) := by
  unfold State.relLog
  dsimp only
  split
  · exact memoryOk_of_eq (s := s) rfl rfl h
  · have h1 := fun pa bs => memoryOk_putLog pa bs s h
    generalize hu : s.putLog _ _ = u
    have h2 : MemoryOk u := hu ▸ h1 _ _
    exact memoryOk_of_eq (s := u) rfl rfl h2

theorem memoryOk_cecntAt (k : Nat) (s : State) (h : MemoryOk s) : MemoryOk (s.cecntAt k) := by
  unfold State.cecntAt; split
  · exact h
  · exact memoryOk_of_eq rfl rfl h

theorem memoryOk_correctedError (k : Nat) (s : State) (h : MemoryOk s) : MemoryOk (s.correctedError k) := by
  have h0 := memoryOk_cecntAt k s h
  unfold State.correctedError
  dsimp only
  generalize s.cecntAt k = s0 at h0 ⊢
  have h1 : ∀ m : McRegs, MemoryOk ({ s0 with mc := m } : State) := fun m => memoryOk_of_eq (s := s0) rfl rfl h0
  split
  · generalize countRow (chanOf k) (qOf k / 2048) s.datum s.mc.cewin s.mc.cethr.toNat s.mc.rows = p
    obtain ⟨rows, log, gone⟩ := p
    dsimp only
    cases log <;> cases gone <;> dsimp only
    · exact h1 _
    · exact memoryOk_relLog _ _ _ _ _ _ _ _ _ (h1 _)
    · exact memoryOk_relLog _ _ _ _ _ _ _ _ _ (h1 _)
    · exact memoryOk_relLog _ _ _ _ _ _ _ _ _ (memoryOk_relLog _ _ _ _ _ _ _ _ _ (h1 _))
  · generalize countRow (k / 8) 0 s.datum s.mc.cewin s.mc.cethr.toNat s.mc.words = p
    obtain ⟨rows, log, gone⟩ := p
    dsimp only
    cases log <;> dsimp only
    · exact h1 _
    · exact memoryOk_relLog _ _ _ _ _ _ _ _ _ (h1 _)

theorem memoryOk_correctOne (w : Weak) (s : State) (h : MemoryOk s) : MemoryOk (correctOne w s) := by
  unfold correctOne
  dsimp only
  split
  · exact ⟨h.1, h.2⟩
  · have h1 := memoryOk_correctedError w.place s h
    exact ⟨h1.1, h1.2⟩

/-- Correcting what a read meets keeps the form. -/
theorem memoryOk_correct (hit : Nat → Nat → Bool) (s : State) (h : MemoryOk s) : MemoryOk (s.correct hit) :=
  memoryOk_foldl _ (fun s w hs => memoryOk_correctOne w s hs) _ s h
theorem memoryOk_correctAt (ks : List Nat) (s : State) (h : MemoryOk s) : MemoryOk (s.correctAt ks) := memoryOk_correct _ s h
theorem memoryOk_readsPhys (pa n : Nat) (s : State) (h : MemoryOk s) : MemoryOk (s.readsPhys pa n) := by
  unfold State.readsPhys; split
  · exact h
  · exact memoryOk_correctAt _ s h

theorem memoryOk_dropBad (s : State) (bs : List (Nat × Byte)) (h : MemoryOk s) : MemoryOk (dropBad s bs).2 := by
  unfold dropBad
  have key : ∀ (l : List (Nat × Nat)) (f : List (Nat × Byte) × State → Nat × Nat → List (Nat × Byte) × State)
      (_ : ∀ p b, MemoryOk p.2 → MemoryOk (f p b).2) (p : List (Nat × Byte) × State), MemoryOk p.2 → MemoryOk (l.foldl f p).2 := by
    intro l f hf
    induction l with
    | nil => exact fun p hp => hp
    | cons b l ih => exact fun p hp => ih _ (hf p b hp)
  refine key s.bad _ (fun p b hp => ?_) _ (memoryOk_of_eq (s := s) rfl rfl h)
  dsimp only
  split
  · exact hp
  · split
    · exact ⟨hp.1, hp.2⟩
    · dsimp only
      split <;> exact memoryOk_relLog _ _ _ _ _ _ _ _ _ hp

theorem memoryOk_putPhys (pa : Nat) (bs : List Byte) (s : State) (h : MemoryOk s) : MemoryOk (s.putPhys pa bs) :=
  memoryOk_putBytes _ _ (memoryOk_dropBad s _ h)

theorem memoryOk_putAt (base : Nat) (xs : List (Nat × List Byte)) (s : State) (h : MemoryOk s) : MemoryOk (State.putAt base xs s) :=
  memoryOk_foldl _ (fun s _ hs => memoryOk_putPhys _ _ s hs) xs s h

-- Updates of cores, contexts, launches and records do not touch memory.

theorem memoryOk_coreUpd (n : CoreId) (g : Core → Core) (s : State) (h : MemoryOk s) : MemoryOk (s.coreUpd n g) := memoryOk_of_eq rfl rfl h
theorem memoryOk_onCore (g : Core → Core) (s : State) (h : MemoryOk s) : MemoryOk (s.onCore g) := memoryOk_of_eq rfl rfl h
theorem memoryOk_onClu (g : Cluster → Cluster) (s : State) (h : MemoryOk s) : MemoryOk (s.onClu g) := memoryOk_of_eq rfl rfl h
theorem memoryOk_onEng (g : Engine → Engine) (s : State) (h : MemoryOk s) : MemoryOk (s.onEng g) := memoryOk_of_eq rfl rfl h
theorem memoryOk_onCtx (a : Fin 64) (g : Ctx → Ctx) (s : State) (h : MemoryOk s) : MemoryOk (s.onCtx a g) := memoryOk_of_eq rfl rfl h
theorem memoryOk_onLaunch (l : Nat) (g : Launch → Launch) (s : State) (h : MemoryOk s) : MemoryOk (s.onLaunch l g) := memoryOk_of_eq rfl rfl h
theorem memoryOk_onRec (l q : Nat) (g : Rec → Rec) (s : State) (h : MemoryOk s) : MemoryOk (s.onRec l q g) := memoryOk_of_eq rfl rfl h

-- Stores in flight.

theorem memoryOk_launchStore (s : State) (n : CoreId) (c : CluId) (w : Nat) (bs : List (Nat × Byte)) (a : Attr) (o : Origin)
    (h : MemoryOk s) : MemoryOk (s.launchStore n c w bs a o) := memoryOk_of_eq rfl rfl h

theorem memoryOk_showTo (s : State) (id g : Nat) (h : MemoryOk s) : MemoryOk (s.showTo id g) := by
  unfold State.showTo
  dsimp only
  repeat' split
  all_goals first
    | exact h
    | exact memoryOk_putBytes _ _ (memoryOk_of_eq rfl rfl h)

theorem memoryOk_drain (s : State) (h : MemoryOk s) : MemoryOk s.drain :=
  memoryOk_foldl _ (fun s _ hs => memoryOk_foldl _ (fun s g hs => memoryOk_showTo s _ g hs) _ s hs) _ s h

theorem memoryOk_settleSeen (s : State) (h : MemoryOk s) : MemoryOk s.settleSeen := memoryOk_putBytes _ _ (memoryOk_of_eq rfl rfl h)

theorem memoryOk_reissue (f : InFlight) (s : State) (h : MemoryOk s) : MemoryOk (s.reissue f) := by
  unfold State.reissue
  dsimp only
  split
  · exact h
  · split
    · exact h
    · exact memoryOk_of_eq (s := s) rfl rfl h

theorem memoryOk_drainAll (s : State) (h : MemoryOk s) : MemoryOk s.drainAll :=
  memoryOk_drain _ (memoryOk_foldl State.reissue (fun s f hs => memoryOk_reissue f s hs) _ s h)

-- Records that the part writes, and traps.

theorem memoryOk_faultRec (s : State) (a : Fin 64) (ty sub core clu eng : Nat) (wid tag a0 a1 a2 a3 : Word) (h : MemoryOk s) :
    MemoryOk (s.faultRec a ty sub core clu eng wid tag a0 a1 a2 a3) := by
  have key : ∀ (g : Ctx → Ctx) (pa pb pc n : Nat) (xs ys : List Byte), MemoryOk ((((s.readsPhys pc n).putPhys pa xs).onCtx a g).putPhys pb ys) :=
    fun g pa pb pc n xs ys => memoryOk_putPhys pb ys _ (memoryOk_onCtx a g _ (memoryOk_putPhys pa xs _ (memoryOk_readsPhys pc n s h)))
  unfold State.faultRec
  dsimp only
  split
  · exact h
  · split
    · exact memoryOk_onCtx _ _ s h
    · split
      · unfold MemoryOk; dsimp only
        exact key _ _ _ _ _ _ _
      · exact key _ _ _ _ _ _ _

theorem memoryOk_refusedWrite (s : State) (off v : Nat) (h : MemoryOk s) : MemoryOk (s.refusedWrite off v) := memoryOk_faultRec s _ _ _ _ _ _ _ _ _ _ _ _ h

theorem memoryOk_hostError (s : State) (x : Nat) (w : Bool) (h : MemoryOk s) : MemoryOk (s.hostError x w) := memoryOk_faultRec s _ _ _ _ _ _ _ _ _ _ _ _ h

theorem memoryOk_traceOne (s : State) (lp : Option LoopRec) (ty core unit : Nat) (arg : Word) (sq : Option Nat) (h : MemoryOk s) :
    MemoryOk (s.traceOne lp ty core unit arg sq).1 := by
  unfold State.traceOne
  dsimp only
  split
  · exact h
  · exact ⟨h.1, h.2⟩

theorem memoryOk_preciseStop (s : State) (h : MemoryOk s) : MemoryOk s.preciseStop := by
  unfold State.preciseStop
  refine memoryOk_foldl _ (fun s n hs => ?_) _ s h
  exact memoryOk_traceOne _ none 11 n 0 0 none ⟨hs.1, hs.2⟩

theorem memoryOk_captureIn (s : State) (lp : Option LoopRec) (ty core unit : Nat) (arg : Word) (sq : Option Nat) (h : MemoryOk s) :
    MemoryOk (s.captureIn lp ty core unit arg sq) := by
  unfold State.captureIn
  have h1 := memoryOk_traceOne s lp ty core unit arg sq h
  generalize s.traceOne lp ty core unit arg sq = p at h1
  obtain ⟨s1, hit⟩ := p
  dsimp only at h1 ⊢
  split
  · exact memoryOk_preciseStop _ h1
  · exact h1

theorem memoryOk_capture (s : State) (ty core unit : Nat) (arg : Word) (sq : Option Nat) (h : MemoryOk s) : MemoryOk (s.capture ty core unit arg sq) :=
  memoryOk_captureIn s _ ty core unit arg sq h

theorem memoryOk_ungrant (lid seq : Nat) (s : State) (h : MemoryOk s) : MemoryOk (s.ungrant lid seq) :=
  memoryOk_of_eq (s := s) (by unfold State.ungrant; rfl) (by unfold State.ungrant; rfl) h

theorem memoryOk_writeRing (lid seq : Nat) (s : State) (h : MemoryOk s) : MemoryOk (s.writeRing lid seq) := by
  unfold State.writeRing; split
  · exact memoryOk_putPhys _ _ s h
  · exact h

theorem memoryOk_abortLaunch (s : State) (lid : Nat) (h : MemoryOk s) : MemoryOk (s.abortLaunch lid) := by
  unfold State.abortLaunch
  split
  · exact h
  · rename_i l _
    have h1 : ∀ gone : List Rec, MemoryOk (gone.foldl (fun s r => (s.faultRec (Fin.ofNat 64 l.asid) 0x22 0
        (match r.core with | some n => n | none => 0xFF) 0xFF 0xFF r.wid l.tag 0 0 0 0).onRec lid r.seq fun r => { r with state := .lost }) s) :=
      fun gone => memoryOk_foldl _ (fun s r hs => memoryOk_onRec _ _ _ _ (memoryOk_faultRec s _ _ _ _ _ _ _ _ _ _ _ _ hs)) _ s h
    have h2 : ∀ (gone : List Rec) (t : State), MemoryOk t → MemoryOk (gone.foldl (fun (s : State) (r : Rec) => s.ungrant lid r.seq) t) :=
      fun gone t ht => memoryOk_foldl (fun (s : State) (r : Rec) => s.ungrant lid r.seq) (fun s r hs => memoryOk_ungrant lid r.seq s hs) gone t ht
    dsimp only
    refine memoryOk_onLaunch _ _ _ ?_
    have h3 := h2 (s.recs.filter fun r => r.lid == lid && r.state != .retired && r.state != .lost) _
      (h1 (s.recs.filter fun r => r.lid == lid && r.state != .retired && r.state != .lost))
    unfold MemoryOk at h3 ⊢
    exact h3

theorem memoryOk_rollbackRecs (s : State) (l : Launch) (r : Rec) (cause : Nat) (h : MemoryOk s) : MemoryOk (s.rollbackRecs l r cause) :=
  memoryOk_foldl _ (fun s _ hs => memoryOk_faultRec s _ _ _ _ _ _ _ _ _ _ _ _ hs) _ s h

theorem memoryOk_recover (s : State) (lid seq cause : Nat) (h : MemoryOk s) : MemoryOk (s.recover lid seq cause) := by
  unfold State.recover
  split
  · rename_i l r _ _
    split
    · exact memoryOk_abortLaunch s lid h
    · dsimp only
      refine memoryOk_writeRing _ _ _ (memoryOk_onRec _ _ _ _ ?_)
      have h1 := memoryOk_ungrant lid seq _ (memoryOk_rollbackRecs s l r cause h)
      unfold MemoryOk at h1 ⊢
      dsimp only
      exact h1
  · exact h

theorem memoryOk_uncorrectable (k consumer : Nat) (s : State) (h : MemoryOk s) : MemoryOk (s.uncorrectable k consumer) := by
  unfold State.uncorrectable
  dsimp only
  refine memoryOk_relLog _ _ _ _ _ _ _ _ _ ?_
  split
  · exact h
  · exact memoryOk_of_eq rfl rfl h

theorem memoryOk_consumed (s : State) (pa : Nat) (h : MemoryOk s) : MemoryOk (s.consumed pa) := by
  have h1 := memoryOk_uncorrectable pa 0 s h
  unfold State.consumed State.consumedFor
  dsimp only
  split
  · exact h1
  · split
    · exact h1
    · exact memoryOk_recover _ _ _ _ (memoryOk_faultRec _ _ _ _ _ _ _ _ _ _ _ _ _ h1)

theorem memoryOk_failLaunch (s : State) (h : MemoryOk s) : MemoryOk s.failLaunch := by
  unfold State.failLaunch
  split
  · exact memoryOk_abortLaunch s _ h
  · exact h

theorem memoryOk_reportTrap (s : State) (t : TrapRec) (h : MemoryOk s) : MemoryOk (s.reportTrap t) := by
  unfold State.reportTrap
  split
  · exact h
  · exact memoryOk_faultRec s _ _ _ _ _ _ _ _ _ _ _ _ h

theorem memoryOk_doubleFault (s : State) (t : TrapRec) (h : MemoryOk s) : MemoryOk (s.doubleFault t) := by
  unfold State.doubleFault
  split
  · exact h
  · dsimp only
    split
    · split
      · exact memoryOk_recover _ _ _ _ (memoryOk_faultRec s _ _ _ _ _ _ _ _ _ _ _ _ h)
      · exact memoryOk_abortLaunch _ _ (memoryOk_faultRec s _ _ _ _ _ _ _ _ _ _ _ _ h)
    · exact memoryOk_faultRec s _ _ _ _ _ _ _ _ _ _ _ _ h

/-- Taking a trap keeps the form, whichever way it is taken. -/
theorem memoryOk_takeTrap (t : TrapRec) (resume : Word) (s : State) (h : MemoryOk s) : MemoryOk (takeTrap t resume s) := by
  unfold takeTrap
  dsimp only
  split
  · exact memoryOk_doubleFault _ t (memoryOk_of_eq rfl rfl h)
  · split
    · exact memoryOk_capture _ _ _ _ _ none (memoryOk_of_eq rfl rfl h)
    · exact memoryOk_failLaunch _ (memoryOk_reportTrap _ t (memoryOk_of_eq rfl rfl h))

theorem memoryOk_lineTrap (t : TrapRec) (s u : State) (h : MemoryOk s) (e : lineTrap t s = .next u) : MemoryOk u := by
  cases e; exact memoryOk_takeTrap t _ s h

theorem memoryOk_leaveTrap (s : State) (h : MemoryOk s) : MemoryOk (leaveTrap s) := by
  unfold leaveTrap
  dsimp only
  split <;> exact memoryOk_of_eq rfl rfl h

-- Register writes and holds.

theorem memoryOk_writeS (r : SReg) (x : Word) (s : State) (h : MemoryOk s) : MemoryOk (writeS r x s) := by
  unfold writeS; split
  · exact h
  · exact memoryOk_onClu _ s h
theorem memoryOk_writeD (d : SDst) (x : Word) (s : State) (h : MemoryOk s) : MemoryOk (writeD d x s) := by
  unfold writeD; split
  · exact h
  · exact memoryOk_writeS _ x s h
theorem memoryOk_writeP (r : PReg) (b : Bool) (s : State) (h : MemoryOk s) : MemoryOk (writeP r b s) := by
  unfold writeP; split
  · exact h
  · exact memoryOk_onClu _ s h
theorem memoryOk_writeM (r : MReg) (x : Mask) (s : State) (h : MemoryOk s) : MemoryOk (writeM r x s) := by
  unfold writeM; split
  · exact h
  · exact memoryOk_onClu _ s h
theorem memoryOk_writeV (r : VReg) (x : VecReg) (s : State) (h : MemoryOk s) : MemoryOk (writeV r x s) := memoryOk_onClu _ s h

theorem memoryOk_holdLine (k : Hold) (s u : State) (h : MemoryOk s) (e : holdLine k s = .next u) : MemoryOk u := by
  cases e; exact memoryOk_of_eq rfl rfl h

/-- A predicated syllable keeps the form where its effect does: its other ways are no effect and the illegal-operation trap. -/
theorem memoryOk_whenQ (slot : Nat) (q : PReg) (s u : State) (k : Res) (h : MemoryOk s) (hk : k = .next u → MemoryOk u)
    (e : whenQ slot q s k = .next u) : MemoryOk u := by
  unfold whenQ at e
  split at e
  · exact hk e
  · cases e; exact h
  · exact memoryOk_lineTrap _ s u h e

end Sys2Proof.Safety
end

