-- ==== Sys2Proof/Laws/Ops.lean ====
section
/-!
SUPPORT. What each shared operation can do, once: conditions, waits, register writes, records, trace capture, traps, translated loads, the
frame of a stream word, and the stores of lattice cells and of handles.
-/
namespace Sys2Proof.Machine

-- Conditions and waits.

/-- A syllable whose condition holds has its effect. -/
theorem whenQ_active {slot : Nat} {q : PReg} {s : State} {k : Res} (h : qCond q s = some true) : whenQ slot q s k = k := by
  simp [whenQ, h]

/-- A syllable whose condition is false does nothing. -/
theorem whenQ_false {slot : Nat} {q : PReg} {s : State} {k : Res} (h : qCond q s = some false) : whenQ slot q s k = .next s := by
  simp [whenQ, h]

/-- A reserved condition is an illegal operation of its slot. -/
theorem whenQ_reserved {slot : Nat} {q : PReg} {s : State} {k : Res} (h : qCond q s = none) : whenQ slot q s k = illegalOp slot s := by
  simp [whenQ, h]

/-- A wait that is met, or was let through, is over. -/
theorem waitFor_met {h : Hold} {met : Bool} {s : State} {k : Res} (e : s.passed = true ∨ met = true) : waitFor h met s k = k := by
  rcases e with e | e <;> simp [waitFor, e]

/-- A wait that is not met holds the cluster at its line. -/
theorem waitFor_held {h : Hold} {met : Bool} {s : State} {k : Res} (e : s.passed = false) (f : met = false) : waitFor h met s k = holdLine h s := by
  simp [waitFor, e, f]

/-- What waits for the side log goes on where it is empty and what it replayed is performed. -/
theorem afterLog_met {s : State} {k : Res} (e : s.passed = true ∨ (s.clu.slog = [] ∧ s.replayed s.at_.core s.at_.clu = true)) : afterLog s k = k := by
  unfold afterLog
  rcases e with e | ⟨e, f⟩
  · rw [waitFor_met (.inl e), waitFor_met (.inl e)]
  · rw [waitFor_met (.inr (by simp [e])), waitFor_met (.inr f)]

/-- A release whose accesses before it are performed goes on. -/
theorem releaseAt_met {sc : Scope} {s : State} {k : Res}
    (e : s.passed = true ∨ (s.clu.slog = [] ∧ s.replayed s.at_.core s.at_.clu = true ∧ s.settled s.at_.core s.at_.clu sc = true)) :
    releaseAt sc s k = k := by
  unfold releaseAt
  rcases e with e | ⟨e, g, f⟩
  · rw [afterLog_met (.inl e), waitFor_met (.inl e)]
  · rw [afterLog_met (.inr ⟨e, g⟩), waitFor_met (.inr f)]

/-- A release of a cluster whose side log is not empty holds for its replay. -/
theorem releaseAt_sideLog {sc : Scope} {s : State} {k : Res} (e : s.passed = false) (f : s.clu.slog ≠ []) : releaseAt sc s k = holdLine .sideLog s := by
  unfold releaseAt afterLog
  exact waitFor_held e (by simpa using f)

-- Register writes: every one is an update of the acting cluster's file.

/-- Changing an element to itself leaves the vector. -/
theorem vmod_id {α : Type} {n : Nat} (v : Vector α n) (i : Fin n) : (vmod v i fun x => x) = v := by
  ext k hk
  rw [vmod_get]
  split <;> rfl

/-- An update that changes nothing leaves the state. -/
theorem State.onClu_id (s : State) : (s.onClu fun c => c) = s := by
  simp only [State.onClu, State.cluUpd, State.coreUpd, vmod_id]

/-- A scalar write: s0 keeps, another register takes the value, and nothing but the scalar file differs. -/
theorem writeS_eq (r : SReg) (x : Word) (s : State) :
    writeS r x s = s.onClu fun c => { c with s := if r.val = 0 then c.s else vput c.s r x } := by
  unfold writeS
  split
  · simp [State.onClu_id, *]
  · simp [*]

@[simp] theorem writeD_none (x : Word) (s : State) : writeD none x s = s := rfl
@[simp] theorem writeD_some (r : SReg) (x : Word) (s : State) : writeD (some r) x s = writeS r x s := rfl

/-- A predicate write. -/
theorem writeP_eq (r : PReg) (b : Bool) (s : State) :
    writeP r b s = s.onClu fun c => { c with p := if r.val = 0 then c.p else setPBit c.p r.val b } := by
  unfold writeP
  split
  · simp [State.onClu_id, *]
  · simp [*]

/-- A mask write. -/
theorem writeM_eq (r : MReg) (x : Mask) (s : State) :
    writeM r x s = s.onClu fun c => { c with m := if r.val = 0 then c.m else vput c.m r x } := by
  unfold writeM
  split
  · simp [State.onClu_id, *]
  · simp [*]

/-- The bits of a predicate file with one bit replaced. -/
theorem setPBit_get (p : BitVec 16) (k : Nat) (b : Bool) (i : Nat) (h : k < 16) :
    (setPBit p k b).getLsbD i = if i = k then b else p.getLsbD i := by
  have key : (BitVec.ofNat 16 (2 ^ k)).getLsbD i = decide (i = k) := by
    rw [BitVec.getLsbD_ofNat, Nat.testBit_two_pow]
    by_cases e : i = k
    · subst e; simp [h]
    · simp [e, Ne.symm e]
  unfold setPBit
  by_cases hi : i < 16
  · by_cases e : i = k
    · have key' : (BitVec.ofNat 16 (2 ^ k)).getLsbD k = true := by rw [e] at key; simpa using key
      subst e
      cases b <;> simp only [if_true, if_false, BitVec.getLsbD_or, BitVec.getLsbD_and, BitVec.getLsbD_not, key', Bool.or_true, Bool.not_true,
        Bool.and_false, Bool.false_eq_true]
    · cases b <;> simp only [if_true, if_false, BitVec.getLsbD_or, BitVec.getLsbD_and, BitVec.getLsbD_not, key, e, hi, decide_true,
        decide_false, Bool.false_eq_true] <;> simp
  · have : i ≠ k := by omega
    cases b <;> simp [this, BitVec.getLsbD_of_ge _ _ (Nat.le_of_not_lt hi)]

-- Records that the part writes, and trace capture.

/-- Nothing but memory, its error state and the registers that count its errors may differ. -/
def MemoryOnly (s t : State) : Prop := ∃ m h b w r g, t = { s with mem := m, host := h, bad := b, weak := w, rdie := r, mc := g }

theorem MemoryOnly.rfl {s : State} : MemoryOnly s s := ⟨_, _, _, _, _, _, Eq.refl _⟩

theorem MemoryOnly.trans {s t u : State} (a : MemoryOnly s t) (b : MemoryOnly t u) : MemoryOnly s u := by
  obtain ⟨_, _, _, _, _, _, e⟩ := a
  obtain ⟨_, _, _, _, _, _, e'⟩ := b
  subst e; subst e'
  exact ⟨_, _, _, _, _, _, Eq.refl _⟩

theorem MemoryOnly.foldl {α : Type} (f : State → α → State) (h : ∀ s x, MemoryOnly s (f s x)) : ∀ (l : List α) (s : State), MemoryOnly s (l.foldl f s)
  | [], _ => .rfl
  | x :: l, s => (h s x).trans (MemoryOnly.foldl f h l (f s x))

/-- Bytes written by the part touch memory alone. -/
theorem putBytes_frame (bs : List (Nat × Byte)) (s : State) : MemoryOnly s (s.putBytes bs) := by
  unfold State.putBytes
  refine MemoryOnly.foldl _ (fun t p => ?_) bs s
  unfold State.putByte
  split <;> exact ⟨_, _, _, _, _, _, Eq.refl _⟩

/-- A record of the reliability log touches memory and its registers alone. -/
theorem relLog_frame (s : State) (ty sub die unit a0 a1 a2 a3 : Nat) : MemoryOnly s (s.relLog ty sub die unit a0 a1 a2 a3) := by
  have put : ∀ (t : State) pa bs, MemoryOnly t (t.putLog pa bs) := fun t pa bs =>
    MemoryOnly.trans (t := { t with bad := _ }) ⟨_, _, _, _, _, _, Eq.refl _⟩ (putBytes_frame _ _)
  unfold State.relLog
  dsimp only
  split
  · exact ⟨_, _, _, _, _, _, Eq.refl _⟩
  · exact (put s _ _).trans ⟨_, _, _, _, _, _, Eq.refl _⟩

/-- What writes leave of uncorrectable places touches memory's error state alone. -/
theorem dropBad_frame (s : State) (bs : List (Nat × Byte)) : MemoryOnly s (dropBad s bs).2 := by
  have go : ∀ (l : List (Nat × Nat)) (p : List (Nat × Byte) × State), MemoryOnly s p.2 →
      MemoryOnly s (l.foldl (fun (p : List (Nat × Byte) × State) b =>
        let hits := p.1.filter fun x => decide (b.1 ≤ x.1) && decide (x.1 < b.1 + b.2)
        if hits = [] then p
        else if (upto b.2).all fun i => hits.any fun x => x.1 == b.1 + i then (p.1, { p.2 with bad := p.2.bad.filter fun c => c != b })
        else (p.1.filter (fun x => !(decide (b.1 ≤ x.1) && decide (x.1 < b.1 + b.2))),
          if b.1 < linTop then p.2.relLog 4 0 (dieOf b.1) (chanOf b.1) (qOf b.1) 0 0 0
          else p.2.relLog 4 ((sramOf b.1).1 + 1) (dieOf b.1) (errUnit b.1) (sramOf b.1).2 0 0 0)) p).2 := by
    intro l
    induction l with
    | nil => exact fun _ h => h
    | cons b l ih =>
      intro p h
      refine ih _ ?_
      dsimp only
      split
      · exact h
      · split
        · exact h.trans ⟨_, _, _, _, _, _, Eq.refl _⟩
        · split <;> exact h.trans (relLog_frame _ _ _ _ _ _ _ _ _)
  exact go _ _ ⟨_, _, _, _, _, _, Eq.refl _⟩

/-- A write of the part touches memory and its error state alone. -/
theorem putPhys_frame (s : State) (pa : Nat) (bs : List Byte) : MemoryOnly s (s.putPhys pa bs) :=
  (dropBad_frame s _).trans (putBytes_frame _ _)

/-- A corrected error touches the counts and the log alone. -/
theorem correctedError_frame (k : Nat) (s : State) : MemoryOnly s (s.correctedError k) := by
  have count : MemoryOnly s (s.cecntAt k) := by
    unfold State.cecntAt
    split <;> exact ⟨_, _, _, _, _, _, Eq.refl _⟩
  have rows : ∀ (t : State) g, MemoryOnly t { t with mc := g } := fun _ _ => ⟨_, _, _, _, _, _, Eq.refl _⟩
  unfold State.correctedError
  dsimp only
  split
  · have gone : ∀ o : Option ErrRow, MemoryOnly s (match o with
        | some o => ({ s.cecntAt k with mc := { (s.cecntAt k).mc with
            rows := (countRow (chanOf k) (qOf k / 2048) s.datum s.mc.cewin s.mc.cethr.toNat s.mc.rows).1 } } : State).relLog 9 0 (1 + o.place / 32) o.place
            (o.place * 1048576 + o.row) 0 0 0
        | none => { s.cecntAt k with mc := { (s.cecntAt k).mc with
            rows := (countRow (chanOf k) (qOf k / 2048) s.datum s.mc.cewin s.mc.cethr.toNat s.mc.rows).1 } }) := by
      intro o
      cases o
      · exact count.trans (rows _ _)
      · exact (count.trans (rows _ _)).trans (relLog_frame _ _ _ _ _ _ _ _ _)
    split
    · exact (gone _).trans (relLog_frame _ _ _ _ _ _ _ _ _)
    · exact gone _
  · split
    · exact (count.trans (rows _ _)).trans (relLog_frame _ _ _ _ _ _ _ _ _)
    · exact count.trans (rows _ _)

/-- A read of places that the code corrects touches the error state alone. -/
theorem correctAt_frame (ks : List Nat) (s : State) : MemoryOnly s (s.correctAt ks) := by
  refine MemoryOnly.foldl _ (fun t w => ?_) _ s
  unfold correctOne
  split
  · exact ⟨_, _, _, _, _, _, Eq.refl _⟩
  · exact (correctedError_frame _ _).trans ⟨_, _, _, _, _, _, Eq.refl _⟩

/-- A fault record touches memory with its error state, the context's queue and the MSI-X list, and nothing else. -/
theorem faultRec_frame (s : State) (a : Fin 64) (ty sub core clu eng : Nat) (wid tag a0 a1 a2 a3 : Word) :
    ∃ m h b w r g c i, s.faultRec a ty sub core clu eng wid tag a0 a1 a2 a3 =
      { s with mem := m, host := h, bad := b, weak := w, rdie := r, mc := g, ctxs := c, msi := i } := by
  unfold State.faultRec
  dsimp only
  split
  · exact ⟨_, _, _, _, _, _, _, _, rfl⟩
  · split
    · exact ⟨_, _, _, _, _, _, _, _, rfl⟩
    · have reads : MemoryOnly s (s.readsPhys (s.ctxAddr a + 44) 4) := by
        unfold State.readsPhys
        split
        · exact .rfl
        · exact correctAt_frame _ _
      obtain ⟨m, h, b, w, r, g, e⟩ := reads.trans (putPhys_frame _ ((s.ctxs[a]).fqbase + 64 * ((s.ctxs[a]).fqtail % 2 ^ (s.ctxs[a]).fqlog))
        (leBytes 1 ty ++ leBytes 1 sub ++ leBytes 1 core ++ leBytes 1 clu ++ leBytes 1 eng ++ leBytes 3 0 ++
          leBytes 8 wid.toNat ++ leBytes 8 tag.toNat ++ leBytes 8 s.datum.toNat ++
          leBytes 8 a0.toNat ++ leBytes 8 a1.toNat ++ leBytes 8 a2.toNat ++ leBytes 8 a3.toNat))
      rw [e]
      obtain ⟨m', h', b', w', r', g', e'⟩ := putPhys_frame
        (({ s with mem := m, host := h, bad := b, weak := w, rdie := r, mc := g } : State).onCtx a fun c => { c with fqtail := c.fqtail + 1 })
        (s.ctxAddr a + 48) (leBytes 4 ((s.ctxs[a]).fqtail + 1))
      rw [e']
      split <;> exact ⟨_, _, _, _, _, _, _, _, rfl⟩

/-- Capturing one record touches the trace unit alone. -/
theorem traceOne_frame (s : State) (lp : Option LoopRec) (ty core unit : Nat) (arg : Word) (sq : Option Nat) :
    ∃ t, (s.traceOne lp ty core unit arg sq).1 = { s with trace := t } := by
  unfold State.traceOne
  dsimp only
  split <;> exact ⟨_, rfl⟩

/-- Capturing an event touches the trace unit, and, at a precise stop, asks cores to halt; clusters, engines and handles stand. -/
theorem capture_frame (s : State) (ty core unit : Nat) (arg : Word) (sq : Option Nat) :
    ∃ t k, s.capture ty core unit arg sq = { s with trace := t, cores := k } ∧
      ∀ n : CoreId, k[n].clu = (s.cores[n]).clu ∧ k[n].eng = (s.cores[n]).eng ∧ k[n].tiles = (s.cores[n]).tiles ∧ k[n].staging = (s.cores[n]).staging := by
  have stop : ∀ (l : List Nat) (t : State), ∃ u k, l.foldl (fun (s : State) n =>
      ({ s with cores := vmod s.cores (Fin.ofNat 32 n) fun k => { k with dbgHalted := true, pstop := true } }.traceOne none 11 n 0 0 none).1) t =
      { t with trace := u, cores := k } ∧
      ∀ n : CoreId, k[n].clu = (t.cores[n]).clu ∧ k[n].eng = (t.cores[n]).eng ∧ k[n].tiles = (t.cores[n]).tiles ∧ k[n].staging = (t.cores[n]).staging := by
    intro l
    induction l with
    | nil => exact fun t => ⟨_, _, rfl, fun _ => ⟨rfl, rfl, rfl, rfl⟩⟩
    | cons n l ih =>
      intro t
      rw [List.foldl_cons]
      obtain ⟨v, hv⟩ := traceOne_frame { t with cores := vmod t.cores (Fin.ofNat 32 n) fun k => { k with dbgHalted := true, pstop := true } } none 11 n 0 0 none
      rw [hv]
      obtain ⟨u, k, e, f⟩ := ih { t with cores := vmod t.cores (Fin.ofNat 32 n) (fun k => { k with dbgHalted := true, pstop := true }), trace := v }
      refine ⟨u, k, e, fun i => ?_⟩
      obtain ⟨f1, f2, f3, f4⟩ := f i
      rw [f1, f2, f3, f4]
      simp only [Fin.getElem_fin, vmod_get]
      split <;> exact ⟨rfl, rfl, rfl, rfl⟩
  unfold State.capture State.captureIn
  generalize (if unit < 128 && core < 32 then s.cores[Fin.ofNat 32 core].clu[Fin.ofNat 4 unit].loops.head? else none) = lp
  obtain ⟨v, hv⟩ := traceOne_frame s lp ty core unit arg sq
  generalize s.traceOne lp ty core unit arg sq = p at hv
  obtain ⟨s1, hit⟩ := p
  dsimp only at hv ⊢
  subst hv
  split
  · obtain ⟨u, k, e, f⟩ := stop ((upto 32).filter fun n => v.ctl.getLsbD (32 + n) && (s.cores[Fin.ofNat 32 n]).run.isSome) { s with trace := v }
    exact ⟨u, k, e, f⟩
  · exact ⟨_, _, rfl, fun _ => ⟨rfl, rfl, rfl, rfl⟩⟩

-- Traps.

/-- In handler mode a trap is a double fault. -/
theorem takeTrap_handler {t : TrapRec} {r : Word} {s : State} (h : s.clu.hm = true) :
    takeTrap t r s = State.doubleFault { s with iss := { s.iss with ev := .trap t } } t := by
  unfold takeTrap; simp [h]

/-- Outside handler mode, with a handler installed, the cluster enters it. -/
theorem takeTrap_enters {t : TrapRec} {r : Word} {s : State} (h : s.clu.hm = false) (v : s.core.tvec.getLsbD 0 = true) :
    takeTrap t r s = (State.onClu (enterTrap t r s.core.tvec) { s with iss := { s.iss with ev := .trap t } }).capture 5 s.at_.core.val s.at_.clu.val
      (BitVec.ofNat 64 (t.cause.toNat + 256 * t.sub.toNat)) := by
  unfold takeTrap
  dsimp only
  rw [if_neg (by simp [h]), if_pos v]

/-- Outside handler mode, with none installed, the launch fails. -/
theorem takeTrap_fails {t : TrapRec} {r : Word} {s : State} (h : s.clu.hm = false) (v : s.core.tvec.getLsbD 0 = false) :
    takeTrap t r s = (State.reportTrap { s with iss := { s.iss with ev := .trap t } } t).failLaunch := by
  unfold takeTrap
  dsimp only
  rw [if_neg (by simp [h]), if_neg (by rw [v]; exact Bool.false_ne_true)]

/-- Holding a line changes the cluster's hold, and what the issue comes to. -/
theorem holdLine_eq (h : Hold) (s : State) :
    holdLine h s = .next { (s.onClu fun c => { c with hold := h }) with iss := { s.iss with ev := .held h } } := rfl

-- Translated accesses.

/-- A page that the unit holds translates to what it holds, and nothing changes (R385). -/
theorem xlatePage_cached {a : Attr} {va : Nat} {s : State} {t : Tlb} (p : a.asp ≠ .phys) (h : canonical va = true)
    (c : s.cached s.unit (s.spaceOf a.asp).val (va % 2 ^ 56) = some t) : xlatePage a va s = (.ok t, s) := by
  unfold xlatePage
  cases e : a.asp with
  | phys => exact absurd e p
  | ctx => rw [e] at c; simp only [xlate, h, c]; rfl
  | drv => rw [e] at c; simp only [xlate, h, c]; rfl

/-- An address that is no 56-bit address translates to nothing, and nothing changes (R230, R382). -/
theorem xlatePage_noncanonical {a : Attr} {va : Nat} {s : State} (p : a.asp ≠ .phys) (h : canonical va = false) :
    xlatePage a va s = (.unmapped, s) := by
  unfold xlatePage
  cases e : a.asp with
  | phys => exact absurd e p
  | ctx => simp only [xlate, h]; rfl
  | drv => simp only [xlate, h]; rfl

/-- Pages that all translate without a change of state, with their permission, are all found. -/
theorem xlatePages_ok (a : Attr) (k : AccKind) (s : State) (tr : Nat → Tlb) : ∀ vas : List Nat,
    (∀ va ∈ vas, s.declinedAt a va = false ∧ xlatePage a va s = (.ok (tr (va / 65536)), s) ∧
      (match k with | .load => (tr (va / 65536)).r | .fetch => (tr (va / 65536)).x | _ => (tr (va / 65536)).w) = true ∧ (tr (va / 65536)).tt ≤ 5) →
    xlatePages a k s vas = .ok (vas.map fun va => (va / 65536, tr (va / 65536))) s := by
  intro vas
  induction vas with
  | nil => intro _; rfl
  | cons va vas ih =>
    intro h
    obtain ⟨h1, h2, h3, h5⟩ := h va (by simp)
    have h4 := ih fun x hx => h x (by simp [hx])
    unfold xlatePages
    have h6 : ¬ (tr (va / 65536)).tt > 5 := by omega
    cases k <;> simp_all

/-- The pages of some addresses are addresses among them, one for each page. -/
theorem mem_pagesOf (vas : List Nat) : ∀ x ∈ pagesOf vas, x ∈ vas := by
  have key : ∀ (l acc : List Nat), ∀ x ∈ l.foldl (fun l a => if l.any fun b => b / 65536 == a / 65536 then l else l ++ [a]) acc, x ∈ acc ∨ x ∈ l := by
    intro l
    induction l with
    | nil => exact fun acc x hx => .inl hx
    | cons a l ih =>
      intro acc x hx
      rw [List.foldl_cons] at hx
      rcases ih _ x hx with h | h
      · split at h
        · exact .inl h
        · rcases List.mem_append.1 h with h | h
          · exact .inl h
          · exact .inr (by simp_all)
      · exact .inr (by simp [h])
  intro x hx
  simpa using key vas [] x hx

/-- The page of every address is among the pages. -/
theorem pagesOf_covers (vas : List Nat) : ∀ x ∈ vas, ∃ y ∈ pagesOf vas, y / 65536 = x / 65536 := by
  have key : ∀ (l acc : List Nat), let r := l.foldl (fun l a => if l.any fun b => b / 65536 == a / 65536 then l else l ++ [a]) acc
      (∀ y ∈ acc, y ∈ r) ∧ ∀ x ∈ l, ∃ y ∈ r, y / 65536 = x / 65536 := by
    intro l
    induction l with
    | nil => exact fun acc => ⟨fun y h => h, fun x h => by simp at h⟩
    | cons a l ih =>
      intro acc
      simp only [List.foldl_cons]
      split
      · rename_i h
        obtain ⟨i1, i2⟩ := ih acc
        refine ⟨i1, fun x hx => ?_⟩
        rcases List.mem_cons.1 hx with rfl | hx
        · obtain ⟨b, hb, hp⟩ := List.any_eq_true.1 h
          exact ⟨b, i1 b hb, by simpa using hp⟩
        · exact i2 x hx
      · obtain ⟨i1, i2⟩ := ih (acc ++ [a])
        refine ⟨fun y hy => i1 y (by simp [hy]), fun x hx => ?_⟩
        rcases List.mem_cons.1 hx with rfl | hx
        · exact ⟨x, i1 x (by simp), rfl⟩
        · exact i2 x hx
  exact (key vas []).2

/-- The entry of an address among pages found by a function of the page. -/
theorem entryOf_map (tr : Nat → Tlb) (ps : List Nat) (va : Nat) (h : ∃ y ∈ ps, y / 65536 = va / 65536) :
    entryOf (ps.map fun a => (a / 65536, tr (a / 65536))) va = some (tr (va / 65536)) := by
  induction ps with
  | nil => obtain ⟨y, hy, _⟩ := h; simp at hy
  | cons p ps ih =>
    by_cases e : p / 65536 = va / 65536
    · simp [entryOf, e]
    · have : ∃ y ∈ ps, y / 65536 = va / 65536 := by
        obtain ⟨y, hy, f⟩ := h
        rcases List.mem_cons.1 hy with rfl | hy
        · exact absurd f e
        · exact ⟨y, hy, f⟩
      have hb : (p / 65536 == va / 65536) = false := by simpa using e
      rw [← ih this]
      simp only [entryOf, List.map_cons, List.find?_cons, hb]

/-- A stream word's access whose pages are all found, none of them sealed and no byte read uncorrectable, reaches memory: the word goes on
with the pages (R313, R387, R402). -/
theorem engAccess_reaches {c : Cmd} {reads writes : List Nat} {s s1 s2 : State} {ps qs : List (Nat × Tlb)} (h : c.stall = .none)
    (r : engPages c false (pagesOf reads) (s.takeMarkers c) = .ok ps s1) (w : engPages c true (pagesOf writes) s1 = .ok qs s2)
    (d : ((placesOf ps reads ++ placesOf qs writes).any s2.sealed) = false) (b : (placesOf ps reads).find? s2.badAt = none)
    (k : List (Nat × Tlb) → List (Nat × Tlb) → State → State) : engAccess c reads writes s k = k ps qs (s2.correctAt (placesOf ps reads)) := by
  unfold engAccess
  simp only [h, r, w]
  rw [if_neg (by rw [d]; exact Bool.false_ne_true), b]

-- Stream words.

/-- Without a running command a word does nothing. -/
theorem inWord_none {i : Instr} {need : Nat} {s : State} {k : Cmd → Res} (h : s.eng.cmd = none) : inWord i need s k = .next s := by
  simp [inWord, h]

/-- A word that its engine runs, at a boundary, with its operands on the stack, has its effect. -/
theorem inWord_runs {i : Instr} {need : Nat} {s : State} {k : Cmd → Res} {c : Cmd} (h : s.eng.cmd = some c) (j : c.job = none)
    (r : kindRuns s.at_.eng.val (encodeWord i) = true) (n : need ≤ c.stk.length) : inWord i need s k = k c := by
  simp [inWord, h, j, r, Nat.not_lt.2 n]

/-- A word of another engine kind is the illegal-word fault. -/
theorem inWord_kind {i : Instr} {need : Nat} {s : State} {k : Cmd → Res} {c : Cmd} (h : s.eng.cmd = some c) (j : c.job = none)
    (r : kindRuns s.at_.eng.val (encodeWord i) = false) : inWord i need s k = .next (engFault .illegalWord s) := by
  simp [inWord, h, j, r, wordFault]

/-- Too shallow a stack is the stack fault. -/
theorem inWord_shallow {i : Instr} {need : Nat} {s : State} {k : Cmd → Res} {c : Cmd} (h : s.eng.cmd = some c) (j : c.job = none)
    (r : kindRuns s.at_.eng.val (encodeWord i) = true) (n : c.stk.length < need) : inWord i need s k = .next (engFault .stack s) := by
  simp [inWord, h, j, r, n, wordFault]

/-- A word that leaves at most eight entries is done. -/
theorem nextWith_fits {c : Cmd} {stk : List Word} {s : State} (h : stk.length ≤ 8) :
    nextWith c stk s = .next (setCmd { c with stk := stk, ip := c.ip + 1 } s) := by
  simp [nextWith, Nat.not_lt.2 h]

/-- A word that would leave more is the stack fault. -/
theorem nextWith_over {c : Cmd} {stk : List Word} {s : State} (h : 8 < stk.length) : nextWith c stk s = .next (engFault .stack s) := by
  simp [nextWith, h, wordFault]

@[simp] theorem cmd_setCmd (c : Cmd) (s : State) : (setCmd c s).eng.cmd = some c := by simp [setCmd]

-- Lattice cells and handles.

/-- Dropping what one test takes does not change the first that a test apart from it takes. -/
theorem find?_drop {α : Type} (p q : α → Bool) (l : List α) (h : ∀ x, q x = true → p x = false) :
    (l.filter fun x => !(p x)).find? q = l.find? q := by
  induction l with
  | nil => rfl
  | cons x l ih =>
    rw [List.filter_cons, List.find?_cons]
    by_cases hq : q x = true
    · simp [h x hq, hq]
    · by_cases hp : p x = true <;> simp [hp, hq, ih]

/-- After dropping what a test takes, it takes nothing. -/
theorem find?_dropped {α : Type} (p : α → Bool) (l : List α) : (l.filter fun x => !(p x)).find? p = none := by
  rw [List.find?_eq_none]
  intro x hx
  simpa using (List.mem_filter.1 hx).2

/-- A lattice cell after one is stored: the value at its place, and every other cell of the type as before. -/
theorem latGet_latPut (s : State) (die slot off lt v die' slot' off' : Nat) :
    (s.latPut die slot off lt v).latGet die' slot' off' lt =
      if die' = die ∧ slot' = slot ∧ off' = off then v else s.latGet die' slot' off' lt := by
  unfold State.latPut State.latGet
  by_cases e : die' = die ∧ slot' = slot ∧ off' = off
  · obtain ⟨rfl, rfl, rfl⟩ := e
    have gone := find?_dropped (fun c : LatCell => c.die == die' && c.slot == slot' && c.off == off') s.lat
    rw [if_pos ⟨rfl, rfl, rfl⟩]
    dsimp only
    by_cases hv : v = latBottom lt
    · rw [if_pos hv, gone, hv]
    · rw [if_neg hv, List.find?_append, gone]; simp
  · have keep := find?_drop (fun c : LatCell => c.die == die && c.slot == slot && c.off == off)
      (fun c : LatCell => c.die == die' && c.slot == slot' && c.off == off') s.lat (by
        intro c hc
        simp only [Bool.and_eq_true, beq_iff_eq] at hc
        obtain ⟨⟨h1, h2⟩, h3⟩ := hc
        cases hp : (c.die == die && c.slot == slot && c.off == off)
        · rfl
        · simp only [Bool.and_eq_true, beq_iff_eq] at hp
          obtain ⟨⟨g1, g2⟩, g3⟩ := hp
          exact absurd ⟨h1 ▸ g1, h2 ▸ g2, h3 ▸ g3⟩ e)
    have other : (die == die' && slot == slot' && off == off') = false := by
      cases hp : (die == die' && slot == slot' && off == off')
      · rfl
      · simp only [Bool.and_eq_true, beq_iff_eq] at hp
        obtain ⟨⟨g1, g2⟩, g3⟩ := hp
        exact absurd ⟨g1.symm, g2.symm, g3.symm⟩ e
    rw [if_neg e]
    dsimp only
    by_cases hv : v = latBottom lt
    · rw [if_pos hv, keep]
    · rw [if_neg hv, List.find?_append, keep]
      simp only [List.find?_cons, other, List.find?_nil, Option.or_none]

/-- A handle's written byte after one is put: the byte at its offset, and every other as before. -/
theorem find_cellPut (m : List Host.Cell) (a : Nat) (x : Byte) (b : Nat) :
    ((cellPut m a x).find? fun p => p.1 == b).map Prod.snd = if b = a then some x else (m.find? fun p => p.1 == b).map Prod.snd := by
  induction m with
  | nil =>
    by_cases e : b = a
    · simp [cellPut, e]
    · simp [cellPut, e, Ne.symm e]
  | cons p m ih =>
    obtain ⟨c, w⟩ := p
    unfold cellPut
    split
    · by_cases e : b = a
      · simp [e]
      · simp [List.find?_cons, e, Ne.symm e]
    · split
      · rename_i h; subst h
        by_cases e : b = a
        · simp [e]
        · simp [Ne.symm e, e]
      · rename_i h1 h2
        by_cases e : b = c
        · have : b ≠ a := by omega
          simp [e, Ne.symm h2]
        · simp only [List.find?_cons]
          have : (c == b) = false := by simpa using Ne.symm e
          simp [this, ih]

end Sys2Proof.Machine
end

