-- ==== Sys2Proof/Laws/PerInstr.lean ====
section
/-!
SUPPORT. The family Fits: the syllable of every instruction fits in 40 bits and its word in 16 (R182, R193), one lemma per constructor,
over the bounds of the operand codes and of the formats.
-/
namespace Sys2Proof.Laws

-- The operand codes are within their fields.

theorem encSDst_lt (d : SDst) : encSDst d < 128 := by
  cases d <;> simp only [encSDst] <;> omega
theorem encVOrS_lt (d : VOrS) : encVOrS d < 128 := by
  cases d <;> simp only [encVOrS] <;> omega
theorem encVSDst_lt (d : VSDst) : encVSDst d < 128 := by
  cases d <;> simp only [encVSDst] <;> omega
theorem condCode_lt (k : Cond) : condCode k < 8 := by cases k <;> decide
theorem ldKindCode_lt (k : LdKind) : ldKindCode k < 8 := by cases k <;> decide
theorem stKindCode_lt (k : StKind) : stKindCode k < 8 := by cases k <;> decide
theorem vKindCode_lt (k : VKind) : vKindCode k < 8 := by cases k <;> decide
theorem vLdKindCode_lt (k : VLdKind) : vLdKindCode k < 16 := by
  cases k
  · have := vKindCode_lt ‹_›; simp only [vLdKindCode]; omega
  · simp only [vLdKindCode]; omega
theorem vStKindCode_lt (k : VStKind) : vStKindCode k < 8 := by cases k <;> decide
theorem tKindCode_lt (k : TKind) : tKindCode k < 4 := by cases k <;> decide
theorem amoCode_lt (k : AmoOp) : amoCode k < 16 := by cases k <;> decide
theorem ordCode_lt (k : Ord) : ordCode k < 8 := by cases k <;> decide
theorem scopeCode_lt (k : Scope) : scopeCode k < 4 := by cases k <;> decide
theorem cpolCode_lt (k : CPol) : cpolCode k < 4 := by cases k <;> decide
theorem aspCode_lt (k : Asp) : aspCode k < 4 := by cases k <;> decide
theorem fenceOrdCode_lt (k : FenceOrd) : fenceOrdCode k < 4 := by cases k <;> decide
theorem fTyCode_lt (k : FTy) : fTyCode k < 4 := by cases k <;> decide
theorem iTyCode_lt (k : ITy) : iTyCode k < 4 := by cases k <;> decide
theorem rTyCode_lt (k : RTy) : rTyCode k < 4 := by cases k <;> decide
theorem fCondCode_lt (k : FCond) : fCondCode k < 8 := by cases k <;> decide
theorem iCondCode_lt (k : ICond) : iCondCode k < 8 := by cases k <;> decide
theorem mOpCode_lt (k : MOp) : mOpCode k < 8 := by cases k <;> decide
theorem mSelCode_lt (k : MSel) : mSelCode k < 4 := by cases k <;> decide
theorem mxCode_lt (k : MxFmt) : mxCode k < 4 := by cases k <;> decide
theorem packCode_lt (k : PackSel) : packCode k < 4 := by cases k <;> decide
theorem keyCode_lt (k : Key) : keyCode k < 16 := by cases k <;> decide
theorem collCode_lt (k : CollOp) : collCode k < 4 := by cases k <;> decide
theorem fnFmtCode_lt (k : FnFmt) : fnFmtCode k < 4 := by cases k <;> decide
theorem qntCode_lt (k : QntLen) : qntCode k < 4 := by cases k <;> decide
theorem bit_lt (b : Bool) : bit b < 2 := by cases b <;> decide
theorem encMAddr_lt (m : MAddr) : (encMAddr m).1 < 64 ∧ (encMAddr m).2 < 1024 := by
  cases m <;> simp only [encMAddr] <;> omega
theorem encMAddrM_lt (m : MAddrM) : (encMAddrM m).1 < 64 ∧ (encMAddrM m).2 < 1024 := by
  cases m <;> simp only [encMAddrM] <;> omega
theorem encH_lt (h : HRef) : (encH h).1 < 1024 ∧ (encH h).2 < 2 := by
  cases h <;> simp only [encH] <;> omega

-- Each operand form fits.

theorem encRrr_fits (op : Nat) (q : PReg) (d : SDst) (a : SReg) (b : SReg) (hop : op < 256) : encRrr op q d a b < 2 ^ 40 := by
  have h2 := encSDst_lt d
  simp only [encRrr, pkFA]; omega
theorem encRri_fits (op : Nat) (q : PReg) (d : SDst) (a : SReg) (i : BitVec 14) (hop : op < 256) : encRri op q d a i < 2 ^ 40 := by
  have h2 := encSDst_lt d
  simp only [encRri, pkFI]; omega
theorem encRrrr_fits (op : Nat) (q : PReg) (d : SDst) (a : SReg) (b : SReg) (c : SReg) (hop : op < 256) : encRrrr op q d a b c < 2 ^ 40 := by
  have h2 := encSDst_lt d
  simp only [encRrrr, pkFA]; omega
theorem encRrrp_fits (op : Nat) (q : PReg) (d : SDst) (a : SReg) (b : SReg) (c : PReg) (hop : op < 256) : encRrrp op q d a b c < 2 ^ 40 := by
  have h2 := encSDst_lt d
  simp only [encRrrp, pkFA]; omega
theorem encRr_fits (op : Nat) (q : PReg) (d : SDst) (a : SReg) (hop : op < 256) : encRr op q d a < 2 ^ 40 := by
  have h2 := encSDst_lt d
  simp only [encRr, pkFA]; omega
theorem encLi_fits (op : Nat) (q : PReg) (d : SDst) (i : BitVec 21) (hop : op < 256) : encLi op q d i < 2 ^ 40 := by
  have h2 := encSDst_lt d
  simp only [encLi, pkFL]; omega
theorem encLih_fits (op : Nat) (q : PReg) (d : SDst) (i : BitVec 16) (hop : op < 256) : encLih op q d i < 2 ^ 40 := by
  have h2 := encSDst_lt d
  simp only [encLih, pkFL]; omega
theorem encExt_fits (op : Nat) (q : PReg) (d : SDst) (a : SReg) (p : Fin 64) (n : Fin 64) (hop : op < 256) : encExt op q d a p n < 2 ^ 40 := by
  have h2 := encSDst_lt d
  simp only [encExt, pkFI]; omega
theorem encIns_fits (op : Nat) (q : PReg) (d : SReg) (a : SReg) (p : Fin 64) (n : Fin 64) (hop : op < 256) : encIns op q d a p n < 2 ^ 40 := by
  simp only [encIns, pkFI]; omega
theorem encCmp_fits (op : Nat) (q : PReg) (c : Cond) (pd : PReg) (a : SReg) (b : SReg) (hop : op < 256) : encCmp op q c pd a b < 2 ^ 40 := by
  have h2 := condCode_lt c
  simp only [encCmp, pkFA]; omega
theorem encCmpi_fits (op : Nat) (q : PReg) (c : Cond) (pd : PReg) (a : SReg) (i : BitVec 14) (hop : op < 256) : encCmpi op q c pd a i < 2 ^ 40 := by
  have h2 := condCode_lt c
  simp only [encCmpi, pkFI]; omega
theorem encTstb_fits (op : Nat) (q : PReg) (r : Bool) (pd : PReg) (a : SReg) (b : Fin 64) (hop : op < 256) : encTstb op q r pd a b < 2 ^ 40 := by
  have h2 := bit_lt r
  simp only [encTstb, pkFI]; omega
theorem encPpp_fits (op : Nat) (q : PReg) (pd : PReg) (pa : PReg) (pb : PReg) (hop : op < 256) : encPpp op q pd pa pb < 2 ^ 40 := by
  simp only [encPpp, pkFA]; omega
theorem encBr_fits (op : Nat) (q : PReg) (off : BitVec 24) (hop : op < 256) : encBr op q off < 2 ^ 40 := by
  simp only [encBr, pkFB]; omega
theorem encBrcc_fits (op : Nat) (q : PReg) (cc : Fin 16) (off : BitVec 24) (hop : op < 256) : encBrcc op q cc off < 2 ^ 40 := by
  simp only [encBrcc, pkFB]; omega
theorem encCallr_fits (op : Nat) (q : PReg) (d : SReg) (a : SReg) (hop : op < 256) : encCallr op q d a < 2 ^ 40 := by
  simp only [encCallr, pkFA]; omega
theorem encRa_fits (op : Nat) (q : PReg) (a : SReg) (hop : op < 256) : encRa op q a < 2 ^ 40 := by
  simp only [encRa, pkFA]; omega
theorem encRab_fits (op : Nat) (q : PReg) (a : SReg) (b : SReg) (hop : op < 256) : encRab op q a b < 2 ^ 40 := by
  simp only [encRab, pkFA]; omega
theorem encQ_fits (op : Nat) (q : PReg) (hop : op < 256) : encQ op q < 2 ^ 40 := by
  simp only [encQ, pkFA]; omega
theorem encLoop_fits (op : Nat) (q : PReg) (st : SReg) (id : Fin 8) (rot : Bool) (sm1 : Fin 8) (lenm1 : BitVec 14) (hop : op < 256) : encLoop op q st id rot sm1 lenm1 < 2 ^ 40 := by
  have h4 := bit_lt rot
  simp only [encLoop, pkFL]; omega
theorem encLbrk_fits (op : Nat) (q : PReg) (id : Fin 8) (off : BitVec 24) (hop : op < 256) : encLbrk op q id off < 2 ^ 40 := by
  simp only [encLbrk, pkFB]; omega
theorem encForkc_fits (op : Nat) (q : PReg) (mask : BitVec 4) (off : BitVec 24) (hop : op < 256) : encForkc op q mask off < 2 ^ 40 := by
  simp only [encForkc, pkFB]; omega
theorem encCc_fits (op : Nat) (q : PReg) (mask : BitVec 16) (hop : op < 256) : encCc op q mask < 2 ^ 40 := by
  simp only [encCc, pkFL]; omega
theorem encSafe_fits (op : Nat) (vl : BitVec 24) (sl : BitVec 8) (hop : op < 256) : encSafe op vl sl < 2 ^ 40 := by
  simp only [encSafe]; omega
theorem encMfk_fits (op : Nat) (q : PReg) (d : SReg) (k : BitVec 12) (hop : op < 256) : encMfk op q d k < 2 ^ 40 := by
  simp only [encMfk, pkFI]; omega
theorem encMtk_fits (op : Nat) (q : PReg) (k : BitVec 12) (a : SReg) (hop : op < 256) : encMtk op q k a < 2 ^ 40 := by
  simp only [encMtk, pkFI]; omega
theorem encD_fits (op : Nat) (q : PReg) (d : SDst) (hop : op < 256) : encD op q d < 2 ^ 40 := by
  have h2 := encSDst_lt d
  simp only [encD, pkFA]; omega
theorem encTrap_fits (op : Nat) (q : PReg) (code : BitVec 16) (a : SReg) (hop : op < 256) : encTrap op q code a < 2 ^ 40 := by
  simp only [encTrap, pkFL]; omega
theorem encBrkpt_fits (op : Nat) (q : PReg) (code : BitVec 16) (hop : op < 256) : encBrkpt op q code < 2 ^ 40 := by
  simp only [encBrkpt, pkFL]; omega
theorem encMempfx_fits (op : Nat) (o : Ord) (sc : Scope) (cp : CPol) (asp : Asp) (hop : op < 256) : encMempfx op o sc cp asp < 2 ^ 40 := by
  have h1 := ordCode_lt o
  have h2 := scopeCode_lt sc
  have h3 := cpolCode_lt cp
  have h4 := aspCode_lt asp
  simp only [encMempfx]; omega
theorem encLd_fits (op : Nat) (q : PReg) (d : SDst) (m : MAddr) (k : LdKind) (hop : op < 256) : encLd op q d m k < 2 ^ 40 := by
  have h2 := encSDst_lt d
  have h3 := encMAddr_lt m
  have h4 := ldKindCode_lt k
  simp only [encLd, pkFM]; omega
theorem encSt_fits (op : Nat) (q : PReg) (d : SReg) (m : MAddr) (k : StKind) (hop : op < 256) : encSt op q d m k < 2 ^ 40 := by
  have h3 := encMAddr_lt m
  have h4 := stKindCode_lt k
  simp only [encSt, pkFM]; omega
theorem encPref_fits (op : Nat) (q : PReg) (m : MAddr) (hop : op < 256) : encPref op q m < 2 ^ 40 := by
  have h2 := encMAddr_lt m
  simp only [encPref, pkFM]; omega
theorem encVld_fits (op : Nat) (q : PReg) (d : VReg) (m : MAddr) (k : VLdKind) (hop : op < 256) : encVld op q d m k < 2 ^ 40 := by
  have h3 := encMAddr_lt m
  have h4 := vLdKindCode_lt k
  simp only [encVld, pkFM, encVCode]; omega
theorem encVst_fits (op : Nat) (q : PReg) (d : VReg) (m : MAddr) (k : VStKind) (hop : op < 256) : encVst op q d m k < 2 ^ 40 := by
  have h3 := encMAddr_lt m
  have h4 := vStKindCode_lt k
  simp only [encVst, pkFM, encVCode]; omega
theorem encVldk_fits (op : Nat) (q : PReg) (d : VReg) (m : MAddr) (k : VKind) (hop : op < 256) : encVldk op q d m k < 2 ^ 40 := by
  have h3 := encMAddr_lt m
  have h4 := vKindCode_lt k
  simp only [encVldk, pkFM, encVCode]; omega
theorem encVstm_fits (op : Nat) (q : PReg) (d : VReg) (m : MAddrM) (hop : op < 256) : encVstm op q d m < 2 ^ 40 := by
  have h3 := encMAddrM_lt m
  simp only [encVstm, pkFM, encVCode]; omega
theorem encVlds_fits (op : Nat) (q : PReg) (d : VReg) (b : SReg) (x : SReg) (k : VKind) (hop : op < 256) : encVlds op q d b x k < 2 ^ 40 := by
  have h5 := vKindCode_lt k
  simp only [encVlds, pkFM, encVCode]; omega
theorem encVsts_fits (op : Nat) (q : PReg) (d : VReg) (b : SReg) (x : SReg) (k : VStKind) (hop : op < 256) : encVsts op q d b x k < 2 ^ 40 := by
  have h5 := vStKindCode_lt k
  simp only [encVsts, pkFM, encVCode]; omega
theorem encVgs_fits (op : Nat) (q : PReg) (d : VReg) (b : SReg) (x : VReg) (hop : op < 256) : encVgs op q d b x < 2 ^ 40 := by
  simp only [encVgs, pkFM, encVCode]; omega
theorem encHq_fits (op : Nat) (q : PReg) (h : HRef) (hop : op < 256) : encHq op q h < 2 ^ 40 := by
  have h2 := encH_lt h
  simp only [encHq, pkFT]; omega
theorem encTx_fits (op : Nat) (q : PReg) (d : VReg) (h : HRef) (row : SReg) (k : TKind) (hop : op < 256) : encTx op q d h row k < 2 ^ 40 := by
  have h3 := encH_lt h
  have h5 := tKindCode_lt k
  simp only [encTx, pkFT, encVCode]; omega
theorem encTinfo_fits (op : Nat) (q : PReg) (d : SReg) (h : HRef) (hop : op < 256) : encTinfo op q d h < 2 ^ 40 := by
  have h3 := encH_lt h
  simp only [encTinfo, pkFT]; omega
theorem encAmo_fits (op : Nat) (q : PReg) (o : AmoOp) (w64 : Bool) (d : SDst) (a : SReg) (b : SReg) (hop : op < 256) : encAmo op q o w64 d a b < 2 ^ 40 := by
  have h2 := amoCode_lt o
  have h3 := bit_lt w64
  have h4 := encSDst_lt d
  simp only [encAmo, pkFA]; omega
theorem encCas_fits (op : Nat) (q : PReg) (w64 : Bool) (d : SReg) (a : SReg) (b : SReg) (hop : op < 256) : encCas op q w64 d a b < 2 ^ 40 := by
  have h2 := bit_lt w64
  simp only [encCas, pkFA]; omega
theorem encCas2_fits (op : Nat) (q : PReg) (d : SReg) (a : SReg) (b : SReg) (hop : op < 256) : encCas2 op q d a b < 2 ^ 40 := by
  simp only [encCas2, pkFA]; omega
theorem encLjoin_fits (op : Nat) (q : PReg) (d : VOrS) (m : MAddr) (hop : op < 256) : encLjoin op q d m < 2 ^ 40 := by
  have h2 := encVOrS_lt d
  have h3 := encMAddr_lt m
  simp only [encLjoin, pkFM]; omega
theorem encLld_fits (op : Nat) (q : PReg) (d : VSDst) (m : MAddr) (hop : op < 256) : encLld op q d m < 2 ^ 40 := by
  have h2 := encVSDst_lt d
  have h3 := encMAddr_lt m
  simp only [encLld, pkFM]; omega
theorem encLwait_fits (op : Nat) (q : PReg) (pd : PReg) (a : SReg) (b : SReg) (c : SReg) (hop : op < 256) : encLwait op q pd a b c < 2 ^ 40 := by
  simp only [encLwait, pkFA]; omega
theorem encFence_fits (op : Nat) (q : PReg) (o : FenceOrd) (sc : Scope) (hop : op < 256) : encFence op q o sc < 2 ^ 40 := by
  have h2 := fenceOrdCode_lt o
  have h3 := scopeCode_lt sc
  simp only [encFence, pkFI]; omega
theorem encFsc_fits (op : Nat) (q : PReg) (sc : Scope) (hop : op < 256) : encFsc op q sc < 2 ^ 40 := by
  have h2 := scopeCode_lt sc
  simp only [encFsc, pkFI]; omega
theorem encEng_fits (op : Nat) (e : Eng) (f : Fin 128) (a : SReg) (b : SReg) (r : Option SReg) (w : Bool) (hop : op < 256) : encEng op e f a b r w < 2 ^ 40 := by
  have h6 := bit_lt w
  cases r <;> (simp only [encEng, pkFE]; omega)
theorem encFork_fits (op : Nat) (l : SReg) (a : SReg) (b : SReg) (w : Bool) (hop : op < 256) : encFork op l a b w < 2 ^ 40 := by
  have h4 := bit_lt w
  simp only [encFork, pkFE]; omega
theorem encFlag_fits (op : Nat) (q : PReg) (f : Fin 64) (hop : op < 256) : encFlag op q f < 2 ^ 40 := by
  simp only [encFlag, pkFI]; omega
theorem encWaitf_fits (op : Nat) (q : PReg) (e : Eng) (f : Fin 64) (hop : op < 256) : encWaitf op q e f < 2 ^ 40 := by
  simp only [encWaitf, pkFI]; omega
theorem encQstat_fits (op : Nat) (q : PReg) (d : SReg) (e : Eng) (hop : op < 256) : encQstat op q d e < 2 ^ 40 := by
  simp only [encQstat, pkFI]; omega
theorem encFv3_fits (op : Nat) (q : PReg) (ty : FTy) (d : VReg) (a : VReg) (b : VOrS) (hop : op < 256) : encFv3 op q ty d a b < 2 ^ 40 := by
  have h2 := fTyCode_lt ty
  have h5 := encVOrS_lt b
  simp only [encFv3, pkFV, encVCode]; omega
theorem encFv4_fits (op : Nat) (q : PReg) (ty : FTy) (d : VReg) (a : VReg) (b : VOrS) (c : VReg) (hop : op < 256) : encFv4 op q ty d a b c < 2 ^ 40 := by
  have h2 := fTyCode_lt ty
  have h5 := encVOrS_lt b
  simp only [encFv4, pkFV, encVCode]; omega
theorem encFv2_fits (op : Nat) (q : PReg) (ty : FTy) (d : VReg) (a : VReg) (hop : op < 256) : encFv2 op q ty d a < 2 ^ 40 := by
  have h2 := fTyCode_lt ty
  simp only [encFv2, pkFV, encVCode]; omega
theorem encVcmp_fits (op : Nat) (q : PReg) (ty : FTy) (c : FCond) (e1 : Bool) (md : MReg) (a : VReg) (b : VOrS) (hop : op < 256) : encVcmp op q ty c e1 md a b < 2 ^ 40 := by
  have h2 := fTyCode_lt ty
  have h3 := fCondCode_lt c
  have h4 := bit_lt e1
  have h7 := encVOrS_lt b
  simp only [encVcmp, pkFV, encVCode]; omega
theorem encIv3_fits (op : Nat) (q : PReg) (ty : ITy) (d : VReg) (a : VReg) (b : VOrS) (hop : op < 256) : encIv3 op q ty d a b < 2 ^ 40 := by
  have h2 := iTyCode_lt ty
  have h5 := encVOrS_lt b
  simp only [encIv3, pkFV, encVCode, encIv3]; omega
theorem encIv4_fits (op : Nat) (q : PReg) (ty : ITy) (d : VReg) (a : VReg) (b : VOrS) (c : VReg) (hop : op < 256) : encIv4 op q ty d a b c < 2 ^ 40 := by
  have h2 := iTyCode_lt ty
  have h5 := encVOrS_lt b
  simp only [encIv4, pkFV, encVCode, encIv4]; omega
theorem encIv2_fits (op : Nat) (q : PReg) (ty : ITy) (d : VReg) (a : VReg) (hop : op < 256) : encIv2 op q ty d a < 2 ^ 40 := by
  have h2 := iTyCode_lt ty
  simp only [encIv2, pkFV, encVCode]; omega
theorem encVicmp_fits (op : Nat) (q : PReg) (ty : ITy) (c : ICond) (e : Fin 4) (md : MReg) (a : VReg) (b : VOrS) (hop : op < 256) : encVicmp op q ty c e md a b < 2 ^ 40 := by
  have h2 := iTyCode_lt ty
  have h3 := iCondCode_lt c
  have h7 := encVOrS_lt b
  simp only [encVicmp, pkFV, encVCode]; omega
theorem encVsatn_fits (op : Nat) (q : PReg) (n8 : Bool) (d : VReg) (a : VReg) (b : VOrS) (hop : op < 256) : encVsatn op q n8 d a b < 2 ^ 40 := by
  have h2 := bit_lt n8
  have h5 := encVOrS_lt b
  simp only [encVsatn, pkFV, encVCode]; omega
theorem encRed_fits (op : Nat) (q : PReg) (ty : RTy) (d : VReg) (a : VReg) (m : MReg) (hop : op < 256) : encRed op q ty d a m < 2 ^ 40 := by
  have h2 := rTyCode_lt ty
  simp only [encRed, pkFV, encVCode, encMCode]; omega
theorem encGrp_fits (op : Nat) (q : PReg) (ty : RTy) (d : VReg) (a : VReg) (m : MReg) (n : Fin 8) (hop : op < 256) : encGrp op q ty d a m n < 2 ^ 40 := by
  have h2 := rTyCode_lt ty
  simp only [encGrp, pkFV, encVCode, encMCode]; omega
theorem encZ4_fits (op : Nat) (q : PReg) (d : VReg) (a : VReg) (b : VOrS) (c : VReg) (hop : op < 256) : encZ4 op q d a b c < 2 ^ 40 := by
  have h4 := encVOrS_lt b
  simp only [encZ4, pkFV, encVCode]; omega
theorem encVbsr_fits (op : Nat) (q : PReg) (d : VReg) (a : VReg) (b : VReg) (c : VReg) (hop : op < 256) : encVbsr op q d a b c < 2 ^ 40 := by
  simp only [encVbsr, pkFV, encVCode]; omega
theorem encVbsw_fits (op : Nat) (q : PReg) (d : VReg) (a : VReg) (b : VOrS) (c : VReg) (hop : op < 256) : encVbsw op q d a b c < 2 ^ 40 := by
  have h4 := encVOrS_lt b
  simp only [encVbsw, encZ4, pkFV, encVCode]; omega
theorem encVmov_fits (op : Nat) (q : PReg) (d : VReg) (a : VOrS) (hop : op < 256) : encVmov op q d a < 2 ^ 40 := by
  have h3 := encVOrS_lt a
  simp only [encVmov, pkFV]; omega
theorem encVsplat_fits (op : Nat) (q : PReg) (ty : ITy) (d : VReg) (src : SplatSrc) (hop : op < 256) : encVsplat op q ty d src < 2 ^ 40 := by
  have h2 := iTyCode_lt ty
  cases src <;> (simp only [encVsplat, pkFV, encVCode]; omega)
theorem encVli_fits (op : Nat) (q : PReg) (d : VReg) (i : VliImm) (hop : op < 256) : encVli op q d i < 2 ^ 40 := by
  cases i <;> (simp only [encVli, pkFL, encVCode]; omega)
theorem encVmvs_fits (op : Nat) (q : PReg) (d : SDst) (a : VReg) (b : SReg) (hop : op < 256) : encVmvs op q d a b < 2 ^ 40 := by
  have h2 := encSDst_lt d
  simp only [encVmvs, pkFA, encVCode]; omega
theorem encVins_fits (op : Nat) (q : PReg) (d : VReg) (a : SReg) (b : SReg) (hop : op < 256) : encVins op q d a b < 2 ^ 40 := by
  simp only [encVins, pkFA, encVCode]; omega
theorem encVrotl_fits (op : Nat) (q : PReg) (d : VReg) (a : VReg) (b : SReg) (hop : op < 256) : encVrotl op q d a b < 2 ^ 40 := by
  simp only [encVrotl, pkFV, encVCode]; omega
theorem encVslide_fits (op : Nat) (q : PReg) (d : VReg) (a : VReg) (b : SReg) (c : VReg) (hop : op < 256) : encVslide op q d a b c < 2 ^ 40 := by
  simp only [encVslide, pkFV, encVCode]; omega
theorem encZip_fits (op : Nat) (q : PReg) (ty : ITy) (d : VReg) (a : VReg) (b : VOrS) (hop : op < 256) : encZip op q ty d a b < 2 ^ 40 := by
  have h2 := iTyCode_lt ty
  have h5 := encVOrS_lt b
  simp only [encZip, encIv3, pkFV, encVCode]; omega
theorem encVsel_fits (op : Nat) (q : PReg) (d : VReg) (a : VReg) (m : MReg) (c : VReg) (hop : op < 256) : encVsel op q d a m c < 2 ^ 40 := by
  simp only [encVsel, pkFV, encVCode, encMCode]; omega
theorem encMlog_fits (op : Nat) (q : PReg) (o : MOp) (md : MReg) (ma : MReg) (mb : MReg) (hop : op < 256) : encMlog op q o md ma mb < 2 ^ 40 := by
  have h2 := mOpCode_lt o
  simp only [encMlog, pkFA, encMCode]; omega
theorem encMpopc_fits (op : Nat) (q : PReg) (sel : MSel) (d : SReg) (ma : MReg) (hop : op < 256) : encMpopc op q sel d ma < 2 ^ 40 := by
  have h2 := mSelCode_lt sel
  simp only [encMpopc, pkFA, encMCode]; omega
theorem encVcvt_fits (op : Nat) (q : PReg) (sel : Fin 36) (d : VReg) (a : VReg) (b : Option VOrS) (hop : op < 256) : encVcvt op q sel d a b < 2 ^ 40 := by
  cases b with
  | none => simp only [encVcvt, pkFV, encVCode]; omega
  | some v => have h5 := encVOrS_lt v; simp only [encVcvt, pkFV, encVCode]; omega
theorem encMx_fits (op : Nat) (q : PReg) (f : MxFmt) (d : VReg) (a : VReg) (hop : op < 256) : encMx op q f d a < 2 ^ 40 := by
  have h2 := mxCode_lt f
  simp only [encMx, pkFV, encVCode]; omega
theorem encVpack_fits (op : Nat) (q : PReg) (sel : PackSel) (d : VReg) (a : VReg) (b : VOrS) (hop : op < 256) : encVpack op q sel d a b < 2 ^ 40 := by
  have h2 := packCode_lt sel
  have h5 := encVOrS_lt b
  simp only [encVpack, pkFV, encVCode]; omega
theorem encVunpk_fits (op : Nat) (q : PReg) (sel : Fin 12) (d : VReg) (a : VReg) (hop : op < 256) : encVunpk op q sel d a < 2 ^ 40 := by
  simp only [encVunpk, pkFV, encVCode]; omega

-- The family.

/-- The syllable fits in 40 bits and the word in 16. -/
def Fits.Statement (i : Instr) : Prop := encodeSyl i < 2 ^ 40 ∧ encodeWord i < 2 ^ 16

theorem zero40 : 0 < 2 ^ 40 := by decide
theorem zero16 : 0 < 2 ^ 16 := by decide

theorem Fits.add : ∀ q d a b, Fits.Statement (.add q d a b) := fun _ _ _ _ => ⟨encRrr_fits _ _ _ _ _ (by decide), zero16⟩
theorem Fits.sub : ∀ q d a b, Fits.Statement (.sub q d a b) := fun _ _ _ _ => ⟨encRrr_fits _ _ _ _ _ (by decide), zero16⟩
theorem Fits.addi : ∀ q d a imm, Fits.Statement (.addi q d a imm) := fun _ _ _ _ => ⟨encRri_fits _ _ _ _ _ (by decide), zero16⟩
theorem Fits.mul : ∀ q d a b, Fits.Statement (.mul q d a b) := fun _ _ _ _ => ⟨encRrr_fits _ _ _ _ _ (by decide), zero16⟩
theorem Fits.mulh : ∀ q d a b, Fits.Statement (.mulh q d a b) := fun _ _ _ _ => ⟨encRrr_fits _ _ _ _ _ (by decide), zero16⟩
theorem Fits.mulhu : ∀ q d a b, Fits.Statement (.mulhu q d a b) := fun _ _ _ _ => ⟨encRrr_fits _ _ _ _ _ (by decide), zero16⟩
theorem Fits.div : ∀ q d a b, Fits.Statement (.div q d a b) := fun _ _ _ _ => ⟨encRrr_fits _ _ _ _ _ (by decide), zero16⟩
theorem Fits.divu : ∀ q d a b, Fits.Statement (.divu q d a b) := fun _ _ _ _ => ⟨encRrr_fits _ _ _ _ _ (by decide), zero16⟩
theorem Fits.rem : ∀ q d a b, Fits.Statement (.rem q d a b) := fun _ _ _ _ => ⟨encRrr_fits _ _ _ _ _ (by decide), zero16⟩
theorem Fits.remu : ∀ q d a b, Fits.Statement (.remu q d a b) := fun _ _ _ _ => ⟨encRrr_fits _ _ _ _ _ (by decide), zero16⟩
theorem Fits.and : ∀ q d a b, Fits.Statement (.and q d a b) := fun _ _ _ _ => ⟨encRrr_fits _ _ _ _ _ (by decide), zero16⟩
theorem Fits.or : ∀ q d a b, Fits.Statement (.or q d a b) := fun _ _ _ _ => ⟨encRrr_fits _ _ _ _ _ (by decide), zero16⟩
theorem Fits.xor : ∀ q d a b, Fits.Statement (.xor q d a b) := fun _ _ _ _ => ⟨encRrr_fits _ _ _ _ _ (by decide), zero16⟩
theorem Fits.andn : ∀ q d a b, Fits.Statement (.andn q d a b) := fun _ _ _ _ => ⟨encRrr_fits _ _ _ _ _ (by decide), zero16⟩
theorem Fits.orn : ∀ q d a b, Fits.Statement (.orn q d a b) := fun _ _ _ _ => ⟨encRrr_fits _ _ _ _ _ (by decide), zero16⟩
theorem Fits.shl : ∀ q d a b, Fits.Statement (.shl q d a b) := fun _ _ _ _ => ⟨encRrr_fits _ _ _ _ _ (by decide), zero16⟩
theorem Fits.shr : ∀ q d a b, Fits.Statement (.shr q d a b) := fun _ _ _ _ => ⟨encRrr_fits _ _ _ _ _ (by decide), zero16⟩
theorem Fits.sar : ∀ q d a b, Fits.Statement (.sar q d a b) := fun _ _ _ _ => ⟨encRrr_fits _ _ _ _ _ (by decide), zero16⟩
theorem Fits.rol : ∀ q d a b, Fits.Statement (.rol q d a b) := fun _ _ _ _ => ⟨encRrr_fits _ _ _ _ _ (by decide), zero16⟩
theorem Fits.fshl : ∀ q d a b c, Fits.Statement (.fshl q d a b c) := fun _ _ _ _ _ => ⟨encRrrr_fits _ _ _ _ _ _ (by decide), zero16⟩
theorem Fits.fshr : ∀ q d a b c, Fits.Statement (.fshr q d a b c) := fun _ _ _ _ _ => ⟨encRrrr_fits _ _ _ _ _ _ (by decide), zero16⟩
theorem Fits.clz : ∀ q d a, Fits.Statement (.clz q d a) := fun _ _ _ => ⟨encRr_fits _ _ _ _ (by decide), zero16⟩
theorem Fits.ctz : ∀ q d a, Fits.Statement (.ctz q d a) := fun _ _ _ => ⟨encRr_fits _ _ _ _ (by decide), zero16⟩
theorem Fits.popc : ∀ q d a, Fits.Statement (.popc q d a) := fun _ _ _ => ⟨encRr_fits _ _ _ _ (by decide), zero16⟩
theorem Fits.min : ∀ q d a b, Fits.Statement (.min q d a b) := fun _ _ _ _ => ⟨encRrr_fits _ _ _ _ _ (by decide), zero16⟩
theorem Fits.max : ∀ q d a b, Fits.Statement (.max q d a b) := fun _ _ _ _ => ⟨encRrr_fits _ _ _ _ _ (by decide), zero16⟩
theorem Fits.minu : ∀ q d a b, Fits.Statement (.minu q d a b) := fun _ _ _ _ => ⟨encRrr_fits _ _ _ _ _ (by decide), zero16⟩
theorem Fits.maxu : ∀ q d a b, Fits.Statement (.maxu q d a b) := fun _ _ _ _ => ⟨encRrr_fits _ _ _ _ _ (by decide), zero16⟩
theorem Fits.sel : ∀ q d a b c, Fits.Statement (.sel q d a b c) := fun _ _ _ _ _ => ⟨encRrrp_fits _ _ _ _ _ _ (by decide), zero16⟩
theorem Fits.li : ∀ q d imm, Fits.Statement (.li q d imm) := fun _ _ _ => ⟨encLi_fits _ _ _ _ (by decide), zero16⟩
theorem Fits.lih : ∀ q d imm, Fits.Statement (.lih q d imm) := fun _ _ _ => ⟨encLih_fits _ _ _ _ (by decide), zero16⟩
theorem Fits.ext : ∀ q d a pos wm1, Fits.Statement (.ext q d a pos wm1) := fun _ _ _ _ _ => ⟨encExt_fits _ _ _ _ _ _ (by decide), zero16⟩
theorem Fits.extu : ∀ q d a pos wm1, Fits.Statement (.extu q d a pos wm1) := fun _ _ _ _ _ => ⟨encExt_fits _ _ _ _ _ _ (by decide), zero16⟩
theorem Fits.ins : ∀ q d a pos wm1, Fits.Statement (.ins q d a pos wm1) := fun _ _ _ _ _ => ⟨encIns_fits _ _ _ _ _ _ (by decide), zero16⟩
theorem Fits.bswap : ∀ q d a, Fits.Statement (.bswap q d a) := fun _ _ _ => ⟨encRr_fits _ _ _ _ (by decide), zero16⟩
theorem Fits.abs : ∀ q d a, Fits.Statement (.abs q d a) := fun _ _ _ => ⟨encRr_fits _ _ _ _ (by decide), zero16⟩
theorem Fits.cmp : ∀ q c pd a b, Fits.Statement (.cmp q c pd a b) := fun _ _ _ _ _ => ⟨encCmp_fits _ _ _ _ _ _ (by decide), zero16⟩
theorem Fits.cmpi : ∀ q c pd a imm, Fits.Statement (.cmpi q c pd a imm) := fun _ _ _ _ _ => ⟨encCmpi_fits _ _ _ _ _ _ (by decide), zero16⟩
theorem Fits.tstb : ∀ q clr pd a bit, Fits.Statement (.tstb q clr pd a bit) := fun _ _ _ _ _ => ⟨encTstb_fits _ _ _ _ _ _ (by decide), zero16⟩
theorem Fits.pand : ∀ q pd pa pb, Fits.Statement (.pand q pd pa pb) := fun _ _ _ _ => ⟨encPpp_fits _ _ _ _ _ (by decide), zero16⟩
theorem Fits.por : ∀ q pd pa pb, Fits.Statement (.por q pd pa pb) := fun _ _ _ _ => ⟨encPpp_fits _ _ _ _ _ (by decide), zero16⟩
theorem Fits.pxor : ∀ q pd pa pb, Fits.Statement (.pxor q pd pa pb) := fun _ _ _ _ => ⟨encPpp_fits _ _ _ _ _ (by decide), zero16⟩
theorem Fits.pandn : ∀ q pd pa pb, Fits.Statement (.pandn q pd pa pb) := fun _ _ _ _ => ⟨encPpp_fits _ _ _ _ _ (by decide), zero16⟩
theorem Fits.br : ∀ q off, Fits.Statement (.br q off) := fun _ _ => ⟨encBr_fits _ _ _ (by decide), zero16⟩
theorem Fits.brcc : ∀ q cc off, Fits.Statement (.brcc q cc off) := fun _ _ _ => ⟨encBrcc_fits _ _ _ _ (by decide), zero16⟩
theorem Fits.call : ∀ q off, Fits.Statement (.call q off) := fun _ _ => ⟨encBr_fits _ _ _ (by decide), zero16⟩
theorem Fits.callr : ∀ q d a, Fits.Statement (.callr q d a) := fun _ _ _ => ⟨encCallr_fits _ _ _ _ (by decide), zero16⟩
theorem Fits.ret : ∀ q a, Fits.Statement (.ret q a) := fun _ _ => ⟨encRa_fits _ _ _ (by decide), zero16⟩
theorem Fits.jmpr : ∀ q a, Fits.Statement (.jmpr q a) := fun _ _ => ⟨encRa_fits _ _ _ (by decide), zero16⟩
theorem Fits.loop : ∀ q st id rot sm1 lenm1, Fits.Statement (.loop q st id rot sm1 lenm1) := fun _ _ _ _ _ _ => ⟨encLoop_fits _ _ _ _ _ _ _ (by decide), zero16⟩
theorem Fits.lbrk : ∀ q id off, Fits.Statement (.lbrk q id off) := fun _ _ _ => ⟨encLbrk_fits _ _ _ _ (by decide), zero16⟩
theorem Fits.forkc : ∀ q mask off, Fits.Statement (.forkc q mask off) := fun _ _ _ => ⟨encForkc_fits _ _ _ _ (by decide), zero16⟩
theorem Fits.ccset : ∀ q mask, Fits.Statement (.ccset q mask) := fun _ _ => ⟨encCc_fits _ _ _ (by decide), zero16⟩
theorem Fits.ccclr : ∀ q mask, Fits.Statement (.ccclr q mask) := fun _ _ => ⟨encCc_fits _ _ _ (by decide), zero16⟩
theorem Fits.ccwait : ∀ q mask, Fits.Statement (.ccwait q mask) := fun _ _ => ⟨encCc_fits _ _ _ (by decide), zero16⟩
theorem Fits.sleepuntil : ∀ q a, Fits.Statement (.sleepuntil q a) := fun _ _ => ⟨encRa_fits _ _ _ (by decide), zero16⟩
theorem Fits.safe : ∀ vlive slive, Fits.Statement (.safe vlive slive) := fun _ _ => ⟨encSafe_fits _ _ _ (by decide), zero16⟩
theorem Fits.spawn : ∀ q d a, Fits.Statement (.spawn q d a) := fun _ _ _ => ⟨encRr_fits _ _ _ _ (by decide), zero16⟩
theorem Fits.join : ∀ q a, Fits.Statement (.join q a) := fun _ _ => ⟨encRa_fits _ _ _ (by decide), zero16⟩
theorem Fits.yield : ∀ q a b, Fits.Statement (.yield q a b) := fun _ _ _ => ⟨encRab_fits _ _ _ _ (by decide), zero16⟩
theorem Fits.exit : ∀ q, Fits.Statement (.exit q) := fun _ => ⟨encQ_fits _ _ (by decide), zero16⟩
theorem Fits.mfk : ∀ q d k, Fits.Statement (.mfk q d k) := fun _ _ _ => ⟨encMfk_fits _ _ _ _ (by decide), zero16⟩
theorem Fits.mtk : ∀ q k a, Fits.Statement (.mtk q k a) := fun _ _ _ => ⟨encMtk_fits _ _ _ _ (by decide), zero16⟩
theorem Fits.rdcyc : ∀ q d, Fits.Statement (.rdcyc q d) := fun _ _ => ⟨encD_fits _ _ _ (by decide), zero16⟩
theorem Fits.rddatum : ∀ q d, Fits.Statement (.rddatum q d) := fun _ _ => ⟨encD_fits _ _ _ (by decide), zero16⟩
theorem Fits.locality : ∀ q d a, Fits.Statement (.locality q d a) := fun _ _ _ => ⟨encRr_fits _ _ _ _ (by decide), zero16⟩
theorem Fits.trap : ∀ q code a, Fits.Statement (.trap q code a) := fun _ _ _ => ⟨encTrap_fits _ _ _ _ (by decide), zero16⟩
theorem Fits.eret : ∀ q, Fits.Statement (.eret q) := fun _ => ⟨encQ_fits _ _ (by decide), zero16⟩
theorem Fits.brkpt : ∀ q code, Fits.Statement (.brkpt q code) := fun _ _ => ⟨encBrkpt_fits _ _ _ (by decide), zero16⟩
theorem Fits.widle : ∀ q a, Fits.Statement (.widle q a) := fun _ _ => ⟨encRa_fits _ _ _ (by decide), zero16⟩
theorem Fits.mempfx : ∀ o sc cp asp, Fits.Statement (.mempfx o sc cp asp) := fun _ _ _ _ => ⟨encMempfx_fits _ _ _ _ _ (by decide), zero16⟩
theorem Fits.ld : ∀ q d m k, Fits.Statement (.ld q d m k) := fun _ _ _ _ => ⟨encLd_fits _ _ _ _ _ (by decide), zero16⟩
theorem Fits.st : ∀ q d m k, Fits.Statement (.st q d m k) := fun _ _ _ _ => ⟨encSt_fits _ _ _ _ _ (by decide), zero16⟩
theorem Fits.pref : ∀ q m, Fits.Statement (.pref q m) := fun _ _ => ⟨encPref_fits _ _ _ (by decide), zero16⟩
theorem Fits.vld : ∀ q d m k, Fits.Statement (.vld q d m k) := fun _ _ _ _ => ⟨encVld_fits _ _ _ _ _ (by decide), zero16⟩
theorem Fits.vst : ∀ q d m k, Fits.Statement (.vst q d m k) := fun _ _ _ _ => ⟨encVst_fits _ _ _ _ _ (by decide), zero16⟩
theorem Fits.vldu : ∀ q d m k, Fits.Statement (.vldu q d m k) := fun _ _ _ _ => ⟨encVldk_fits _ _ _ _ _ (by decide), zero16⟩
theorem Fits.vstm : ∀ q d m, Fits.Statement (.vstm q d m) := fun _ _ _ => ⟨encVstm_fits _ _ _ _ (by decide), zero16⟩
theorem Fits.vlds : ∀ q d base x k, Fits.Statement (.vlds q d base x k) := fun _ _ _ _ _ => ⟨encVlds_fits _ _ _ _ _ _ (by decide), zero16⟩
theorem Fits.vsts : ∀ q d base x k, Fits.Statement (.vsts q d base x k) := fun _ _ _ _ _ => ⟨encVsts_fits _ _ _ _ _ _ (by decide), zero16⟩
theorem Fits.vgath : ∀ q d base x, Fits.Statement (.vgath q d base x) := fun _ _ _ _ => ⟨encVgs_fits _ _ _ _ _ (by decide), zero16⟩
theorem Fits.vscat : ∀ q d base x, Fits.Statement (.vscat q d base x) := fun _ _ _ _ => ⟨encVgs_fits _ _ _ _ _ (by decide), zero16⟩
theorem Fits.vldb : ∀ q d m k, Fits.Statement (.vldb q d m k) := fun _ _ _ _ => ⟨encVldk_fits _ _ _ _ _ (by decide), zero16⟩
theorem Fits.talloc : ∀ q d a b pd, Fits.Statement (.talloc q d a b pd) := fun _ _ _ _ _ => ⟨encRrrp_fits _ _ _ _ _ _ (by decide), zero16⟩
theorem Fits.tfree : ∀ q h, Fits.Statement (.tfree q h) := fun _ _ => ⟨encHq_fits _ _ _ (by decide), zero16⟩
theorem Fits.tgive : ∀ q h, Fits.Statement (.tgive q h) := fun _ _ => ⟨encHq_fits _ _ _ (by decide), zero16⟩
theorem Fits.ttake : ∀ q h, Fits.Statement (.ttake q h) := fun _ _ => ⟨encHq_fits _ _ _ (by decide), zero16⟩
theorem Fits.evHandleReload : ∀ h, Fits.Statement (.evHandleReload h) := fun _ => ⟨zero40, zero16⟩
theorem Fits.tld : ∀ q d h row k, Fits.Statement (.tld q d h row k) := fun _ _ _ _ _ => ⟨encTx_fits _ _ _ _ _ _ (by decide), zero16⟩
theorem Fits.tst : ∀ q d h row k, Fits.Statement (.tst q d h row k) := fun _ _ _ _ _ => ⟨encTx_fits _ _ _ _ _ _ (by decide), zero16⟩
theorem Fits.tinfo : ∀ q d h, Fits.Statement (.tinfo q d h) := fun _ _ _ => ⟨encTinfo_fits _ _ _ _ (by decide), zero16⟩
theorem Fits.thold : ∀ q h, Fits.Statement (.thold q h) := fun _ _ => ⟨encHq_fits _ _ _ (by decide), zero16⟩
theorem Fits.trels : ∀ q h, Fits.Statement (.trels q h) := fun _ _ => ⟨encHq_fits _ _ _ (by decide), zero16⟩
theorem Fits.amo : ∀ q op w64 d a b, Fits.Statement (.amo q op w64 d a b) := fun _ _ _ _ _ _ => ⟨encAmo_fits _ _ _ _ _ _ _ (by decide), zero16⟩
theorem Fits.cas : ∀ q w64 d a b, Fits.Statement (.cas q w64 d a b) := fun _ _ _ _ _ => ⟨encCas_fits _ _ _ _ _ _ (by decide), zero16⟩
theorem Fits.cas2 : ∀ q d a b, Fits.Statement (.cas2 q d a b) := fun _ _ _ _ => ⟨encCas2_fits _ _ _ _ _ (by decide), zero16⟩
theorem Fits.ljoin : ∀ q src m, Fits.Statement (.ljoin q src m) := fun _ _ _ => ⟨encLjoin_fits _ _ _ _ (by decide), zero16⟩
theorem Fits.lld : ∀ q d m, Fits.Statement (.lld q d m) := fun _ _ _ => ⟨encLld_fits _ _ _ _ (by decide), zero16⟩
theorem Fits.lwait : ∀ q pd a b c, Fits.Statement (.lwait q pd a b c) := fun _ _ _ _ _ => ⟨encLwait_fits _ _ _ _ _ _ (by decide), zero16⟩
theorem Fits.fence : ∀ q o sc, Fits.Statement (.fence q o sc) := fun _ _ _ => ⟨encFence_fits _ _ _ _ (by decide), zero16⟩
theorem Fits.fencesc : ∀ q sc, Fits.Statement (.fencesc q sc) := fun _ _ => ⟨encFsc_fits _ _ _ (by decide), zero16⟩
theorem Fits.fencea : ∀ q sc, Fits.Statement (.fencea q sc) := fun _ _ => ⟨encFsc_fits _ _ _ (by decide), zero16⟩
theorem Fits.ifence : ∀ q, Fits.Statement (.ifence q) := fun _ => ⟨encQ_fits _ _ (by decide), zero16⟩
theorem Fits.eng : ∀ e func a b r w, Fits.Statement (.eng e func a b r w) := fun _ _ _ _ _ _ => ⟨encEng_fits _ _ _ _ _ _ _ (by decide), zero16⟩
theorem Fits.fork : ∀ l a b w, Fits.Statement (.fork l a b w) := fun _ _ _ _ => ⟨encFork_fits _ _ _ _ _ (by decide), zero16⟩
theorem Fits.rdv : ∀ q a, Fits.Statement (.rdv q a) := fun _ _ => ⟨encRa_fits _ _ _ (by decide), zero16⟩
theorem Fits.setf : ∀ q f, Fits.Statement (.setf q f) := fun _ _ => ⟨encFlag_fits _ _ _ (by decide), zero16⟩
theorem Fits.clrf : ∀ q f, Fits.Statement (.clrf q f) := fun _ _ => ⟨encFlag_fits _ _ _ (by decide), zero16⟩
theorem Fits.waitf : ∀ q e f, Fits.Statement (.waitf q e f) := fun _ _ _ => ⟨encWaitf_fits _ _ _ _ (by decide), zero16⟩
theorem Fits.qstat : ∀ q d e, Fits.Statement (.qstat q d e) := fun _ _ _ => ⟨encQstat_fits _ _ _ _ (by decide), zero16⟩
theorem Fits.vadd : ∀ q ty d a b, Fits.Statement (.vadd q ty d a b) := fun _ _ _ _ _ => ⟨encFv3_fits _ _ _ _ _ _ (by decide), zero16⟩
theorem Fits.vsub : ∀ q ty d a b, Fits.Statement (.vsub q ty d a b) := fun _ _ _ _ _ => ⟨encFv3_fits _ _ _ _ _ _ (by decide), zero16⟩
theorem Fits.vmul : ∀ q ty d a b, Fits.Statement (.vmul q ty d a b) := fun _ _ _ _ _ => ⟨encFv3_fits _ _ _ _ _ _ (by decide), zero16⟩
theorem Fits.vfma : ∀ q ty d a b c, Fits.Statement (.vfma q ty d a b c) := fun _ _ _ _ _ _ => ⟨encFv4_fits _ _ _ _ _ _ _ (by decide), zero16⟩
theorem Fits.vfms : ∀ q ty d a b c, Fits.Statement (.vfms q ty d a b c) := fun _ _ _ _ _ _ => ⟨encFv4_fits _ _ _ _ _ _ _ (by decide), zero16⟩
theorem Fits.vfnma : ∀ q ty d a b c, Fits.Statement (.vfnma q ty d a b c) := fun _ _ _ _ _ _ => ⟨encFv4_fits _ _ _ _ _ _ _ (by decide), zero16⟩
theorem Fits.vfnms : ∀ q ty d a b c, Fits.Statement (.vfnms q ty d a b c) := fun _ _ _ _ _ _ => ⟨encFv4_fits _ _ _ _ _ _ _ (by decide), zero16⟩
theorem Fits.vmin : ∀ q ty d a b, Fits.Statement (.vmin q ty d a b) := fun _ _ _ _ _ => ⟨encFv3_fits _ _ _ _ _ _ (by decide), zero16⟩
theorem Fits.vmax : ∀ q ty d a b, Fits.Statement (.vmax q ty d a b) := fun _ _ _ _ _ => ⟨encFv3_fits _ _ _ _ _ _ (by decide), zero16⟩
theorem Fits.vminn : ∀ q ty d a b, Fits.Statement (.vminn q ty d a b) := fun _ _ _ _ _ => ⟨encFv3_fits _ _ _ _ _ _ (by decide), zero16⟩
theorem Fits.vmaxn : ∀ q ty d a b, Fits.Statement (.vmaxn q ty d a b) := fun _ _ _ _ _ => ⟨encFv3_fits _ _ _ _ _ _ (by decide), zero16⟩
theorem Fits.vabs : ∀ q ty d a, Fits.Statement (.vabs q ty d a) := fun _ _ _ _ => ⟨encFv2_fits _ _ _ _ _ (by decide), zero16⟩
theorem Fits.vneg : ∀ q ty d a, Fits.Statement (.vneg q ty d a) := fun _ _ _ _ => ⟨encFv2_fits _ _ _ _ _ (by decide), zero16⟩
theorem Fits.vcpys : ∀ q ty d a b, Fits.Statement (.vcpys q ty d a b) := fun _ _ _ _ _ => ⟨encFv3_fits _ _ _ _ _ _ (by decide), zero16⟩
theorem Fits.vcmp : ∀ q ty c e1 md a b, Fits.Statement (.vcmp q ty c e1 md a b) := fun _ _ _ _ _ _ _ => ⟨encVcmp_fits _ _ _ _ _ _ _ _ (by decide), zero16⟩
theorem Fits.vclass : ∀ q ty d a, Fits.Statement (.vclass q ty d a) := fun _ _ _ _ => ⟨encFv2_fits _ _ _ _ _ (by decide), zero16⟩
theorem Fits.vrnd : ∀ q ty d a, Fits.Statement (.vrnd q ty d a) := fun _ _ _ _ => ⟨encFv2_fits _ _ _ _ _ (by decide), zero16⟩
theorem Fits.vscale : ∀ q ty d a b, Fits.Statement (.vscale q ty d a b) := fun _ _ _ _ _ => ⟨encFv3_fits _ _ _ _ _ _ (by decide), zero16⟩
theorem Fits.viadd : ∀ q ty d a b, Fits.Statement (.viadd q ty d a b) := fun _ _ _ _ _ => ⟨encIv3_fits _ _ _ _ _ _ (by decide), zero16⟩
theorem Fits.visub : ∀ q ty d a b, Fits.Statement (.visub q ty d a b) := fun _ _ _ _ _ => ⟨encIv3_fits _ _ _ _ _ _ (by decide), zero16⟩
theorem Fits.vimul : ∀ q ty d a b, Fits.Statement (.vimul q ty d a b) := fun _ _ _ _ _ => ⟨encIv3_fits _ _ _ _ _ _ (by decide), zero16⟩
theorem Fits.vimin : ∀ q ty d a b, Fits.Statement (.vimin q ty d a b) := fun _ _ _ _ _ => ⟨encIv3_fits _ _ _ _ _ _ (by decide), zero16⟩
theorem Fits.vimax : ∀ q ty d a b, Fits.Statement (.vimax q ty d a b) := fun _ _ _ _ _ => ⟨encIv3_fits _ _ _ _ _ _ (by decide), zero16⟩
theorem Fits.viminu : ∀ q ty d a b, Fits.Statement (.viminu q ty d a b) := fun _ _ _ _ _ => ⟨encIv3_fits _ _ _ _ _ _ (by decide), zero16⟩
theorem Fits.vimaxu : ∀ q ty d a b, Fits.Statement (.vimaxu q ty d a b) := fun _ _ _ _ _ => ⟨encIv3_fits _ _ _ _ _ _ (by decide), zero16⟩
theorem Fits.vand : ∀ q ty d a b, Fits.Statement (.vand q ty d a b) := fun _ _ _ _ _ => ⟨encIv3_fits _ _ _ _ _ _ (by decide), zero16⟩
theorem Fits.vor : ∀ q ty d a b, Fits.Statement (.vor q ty d a b) := fun _ _ _ _ _ => ⟨encIv3_fits _ _ _ _ _ _ (by decide), zero16⟩
theorem Fits.vxor : ∀ q ty d a b, Fits.Statement (.vxor q ty d a b) := fun _ _ _ _ _ => ⟨encIv3_fits _ _ _ _ _ _ (by decide), zero16⟩
theorem Fits.vandn : ∀ q ty d a b, Fits.Statement (.vandn q ty d a b) := fun _ _ _ _ _ => ⟨encIv3_fits _ _ _ _ _ _ (by decide), zero16⟩
theorem Fits.vshl : ∀ q ty d a b, Fits.Statement (.vshl q ty d a b) := fun _ _ _ _ _ => ⟨encIv3_fits _ _ _ _ _ _ (by decide), zero16⟩
theorem Fits.vshr : ∀ q ty d a b, Fits.Statement (.vshr q ty d a b) := fun _ _ _ _ _ => ⟨encIv3_fits _ _ _ _ _ _ (by decide), zero16⟩
theorem Fits.vsar : ∀ q ty d a b, Fits.Statement (.vsar q ty d a b) := fun _ _ _ _ _ => ⟨encIv3_fits _ _ _ _ _ _ (by decide), zero16⟩
theorem Fits.vfshl : ∀ q ty d a b c, Fits.Statement (.vfshl q ty d a b c) := fun _ _ _ _ _ _ => ⟨encIv4_fits _ _ _ _ _ _ _ (by decide), zero16⟩
theorem Fits.vfshr : ∀ q ty d a b c, Fits.Statement (.vfshr q ty d a b c) := fun _ _ _ _ _ _ => ⟨encIv4_fits _ _ _ _ _ _ _ (by decide), zero16⟩
theorem Fits.vclz : ∀ q ty d a, Fits.Statement (.vclz q ty d a) := fun _ _ _ _ => ⟨encIv2_fits _ _ _ _ _ (by decide), zero16⟩
theorem Fits.vpopc : ∀ q ty d a, Fits.Statement (.vpopc q ty d a) := fun _ _ _ _ => ⟨encIv2_fits _ _ _ _ _ (by decide), zero16⟩
theorem Fits.vicmp : ∀ q ty c e md a b, Fits.Statement (.vicmp q ty c e md a b) := fun _ _ _ _ _ _ _ => ⟨encVicmp_fits _ _ _ _ _ _ _ _ (by decide), zero16⟩
theorem Fits.vsatn : ∀ q n8 d a b, Fits.Statement (.vsatn q n8 d a b) := fun _ _ _ _ _ => ⟨encVsatn_fits _ _ _ _ _ _ (by decide), zero16⟩
theorem Fits.viabs : ∀ q ty d a, Fits.Statement (.viabs q ty d a) := fun _ _ _ _ => ⟨encIv2_fits _ _ _ _ _ (by decide), zero16⟩
theorem Fits.vredadd : ∀ q ty d a m, Fits.Statement (.vredadd q ty d a m) := fun _ _ _ _ _ => ⟨encRed_fits _ _ _ _ _ _ (by decide), zero16⟩
theorem Fits.vredmax : ∀ q ty d a m, Fits.Statement (.vredmax q ty d a m) := fun _ _ _ _ _ => ⟨encRed_fits _ _ _ _ _ _ (by decide), zero16⟩
theorem Fits.vredmin : ∀ q ty d a m, Fits.Statement (.vredmin q ty d a m) := fun _ _ _ _ _ => ⟨encRed_fits _ _ _ _ _ _ (by decide), zero16⟩
theorem Fits.vgmax : ∀ q ty d a m n, Fits.Statement (.vgmax q ty d a m n) := fun _ _ _ _ _ _ => ⟨encGrp_fits _ _ _ _ _ _ _ (by decide), zero16⟩
theorem Fits.vgsum : ∀ q ty d a m n, Fits.Statement (.vgsum q ty d a m n) := fun _ _ _ _ _ _ => ⟨encGrp_fits _ _ _ _ _ _ _ (by decide), zero16⟩
theorem Fits.vscanadd : ∀ q ty d a m, Fits.Statement (.vscanadd q ty d a m) := fun _ _ _ _ _ => ⟨encRed_fits _ _ _ _ _ _ (by decide), zero16⟩
theorem Fits.vscanaff : ∀ q d a b c, Fits.Statement (.vscanaff q d a b c) := fun _ _ _ _ _ => ⟨encZ4_fits _ _ _ _ _ _ (by decide), zero16⟩
theorem Fits.vbsr : ∀ q d a b c, Fits.Statement (.vbsr q d a b c) := fun _ _ _ _ _ => ⟨encVbsr_fits _ _ _ _ _ _ (by decide), zero16⟩
theorem Fits.vbsw : ∀ q d a b c, Fits.Statement (.vbsw q d a b c) := fun _ _ _ _ _ => ⟨encVbsw_fits _ _ _ _ _ _ (by decide), zero16⟩
theorem Fits.vmov : ∀ q d a, Fits.Statement (.vmov q d a) := fun _ _ _ => ⟨encVmov_fits _ _ _ _ (by decide), zero16⟩
theorem Fits.vsplat : ∀ q ty d src, Fits.Statement (.vsplat q ty d src) := fun _ _ _ _ => ⟨encVsplat_fits _ _ _ _ _ (by decide), zero16⟩
theorem Fits.vli : ∀ q d imm, Fits.Statement (.vli q d imm) := fun _ _ _ => ⟨encVli_fits _ _ _ _ (by decide), zero16⟩
theorem Fits.vmvs : ∀ q d a b, Fits.Statement (.vmvs q d a b) := fun _ _ _ _ => ⟨encVmvs_fits _ _ _ _ _ (by decide), zero16⟩
theorem Fits.vins : ∀ q d a b, Fits.Statement (.vins q d a b) := fun _ _ _ _ => ⟨encVins_fits _ _ _ _ _ (by decide), zero16⟩
theorem Fits.vperm : ∀ q d a b c, Fits.Statement (.vperm q d a b c) := fun _ _ _ _ _ => ⟨encZ4_fits _ _ _ _ _ _ (by decide), zero16⟩
theorem Fits.vrotl : ∀ q d a b, Fits.Statement (.vrotl q d a b) := fun _ _ _ _ => ⟨encVrotl_fits _ _ _ _ _ (by decide), zero16⟩
theorem Fits.vslide : ∀ q d a b c, Fits.Statement (.vslide q d a b c) := fun _ _ _ _ _ => ⟨encVslide_fits _ _ _ _ _ _ (by decide), zero16⟩
theorem Fits.vzip : ∀ q ty d a b, Fits.Statement (.vzip q ty d a b) := fun _ _ _ _ _ => ⟨encZip_fits _ _ _ _ _ _ (by decide), zero16⟩
theorem Fits.vunzip : ∀ q ty d a b, Fits.Statement (.vunzip q ty d a b) := fun _ _ _ _ _ => ⟨encZip_fits _ _ _ _ _ _ (by decide), zero16⟩
theorem Fits.vsel : ∀ q d a m c, Fits.Statement (.vsel q d a m c) := fun _ _ _ _ _ => ⟨encVsel_fits _ _ _ _ _ _ (by decide), zero16⟩
theorem Fits.mlog : ∀ q op md ma mb, Fits.Statement (.mlog q op md ma mb) := fun _ _ _ _ _ => ⟨encMlog_fits _ _ _ _ _ _ (by decide), zero16⟩
theorem Fits.mpopc : ∀ q sel d ma, Fits.Statement (.mpopc q sel d ma) := fun _ _ _ _ => ⟨encMpopc_fits _ _ _ _ _ (by decide), zero16⟩
theorem Fits.vcvt : ∀ q sel d a b, Fits.Statement (.vcvt q sel d a b) := fun _ _ _ _ _ => ⟨encVcvt_fits _ _ _ _ _ _ (by decide), zero16⟩
theorem Fits.vqmx : ∀ q f d a, Fits.Statement (.vqmx q f d a) := fun _ _ _ _ => ⟨encMx_fits _ _ _ _ _ (by decide), zero16⟩
theorem Fits.vdqmx : ∀ q f d a, Fits.Statement (.vdqmx q f d a) := fun _ _ _ _ => ⟨encMx_fits _ _ _ _ _ (by decide), zero16⟩
theorem Fits.vpack : ∀ q sel d a b, Fits.Statement (.vpack q sel d a b) := fun _ _ _ _ _ => ⟨encVpack_fits _ _ _ _ _ _ (by decide), zero16⟩
theorem Fits.vunpk : ∀ q sel d a, Fits.Statement (.vunpk q sel d a) := fun _ _ _ _ => ⟨encVunpk_fits _ _ _ _ _ (by decide), zero16⟩
theorem Fits.wLit : ∀ i, Fits.Statement (.wLit i) := fun i => ⟨zero40, by show i.toNat < 2 ^ 16; omega⟩
theorem Fits.wLitx : ∀ i, Fits.Statement (.wLitx i) := fun i => ⟨zero40, by show 0x1000 + i.toNat < 2 ^ 16; omega⟩
theorem Fits.wPick : ∀ n, Fits.Statement (.wPick n) := fun n => ⟨zero40, by show 0x2140 + n.val < 2 ^ 16; omega⟩
theorem Fits.wShl : ∀ n, Fits.Statement (.wShl n) := fun n => ⟨zero40, by show 0x22C0 + n.val < 2 ^ 16; omega⟩
theorem Fits.wShr : ∀ n, Fits.Statement (.wShr n) := fun n => ⟨zero40, by show 0x2300 + n.val < 2 ^ 16; omega⟩
theorem Fits.wJmp : ∀ o, Fits.Statement (.wJmp o) := fun o => ⟨zero40, by show 0x3000 + o.toNat < 2 ^ 16; omega⟩
theorem Fits.wJz : ∀ o, Fits.Statement (.wJz o) := fun o => ⟨zero40, by show 0x3400 + o.toNat < 2 ^ 16; omega⟩
theorem Fits.wJnz : ∀ o, Fits.Statement (.wJnz o) := fun o => ⟨zero40, by show 0x3800 + o.toNat < 2 ^ 16; omega⟩
theorem Fits.wLoopn : ∀ o, Fits.Statement (.wLoopn o) := fun o => ⟨zero40, by show 0x3C00 + o.toNat < 2 ^ 16; omega⟩
theorem Fits.wWaitf : ∀ f, Fits.Statement (.wWaitf f) := fun f => ⟨zero40, by show 0x4200 + f.val < 2 ^ 16; omega⟩
theorem Fits.wSetf : ∀ f, Fits.Statement (.wSetf f) := fun f => ⟨zero40, by show 0x4300 + f.val < 2 ^ 16; omega⟩
theorem Fits.wCalls : ∀ e, Fits.Statement (.wCalls e) := fun e => ⟨zero40, by show 0x4600 + e.val < 2 ^ 16; omega⟩
theorem Fits.wMma : ∀ sh c, Fits.Statement (.wMma sh c) := fun sh c => ⟨zero40, by have h1 := bit_lt c; show 0x5200 + sh.val * 32 + bit c * 16 < 2 ^ 16; omega⟩
theorem Fits.wQnt : ∀ l, Fits.Statement (.wQnt l) := fun l => ⟨zero40, by have h0 := qntCode_lt l; show 0x5800 + qntCode l * 128 < 2 ^ 16; omega⟩
theorem Fits.wRmin : ∀ k, Fits.Statement (.wRmin k) := fun k => ⟨zero40, by have h0 := keyCode_lt k; show 0x6000 + keyCode k * 64 < 2 ^ 16; omega⟩
theorem Fits.wRmax : ∀ k, Fits.Statement (.wRmax k) := fun k => ⟨zero40, by have h0 := keyCode_lt k; show 0x6400 + keyCode k * 64 < 2 ^ 16; omega⟩
theorem Fits.wRsort : ∀ k, Fits.Statement (.wRsort k) := fun k => ⟨zero40, by have h0 := keyCode_lt k; show 0x6800 + keyCode k * 64 < 2 ^ 16; omega⟩
theorem Fits.wRtopk : ∀ k lf, Fits.Statement (.wRtopk k lf) := fun k lf => ⟨zero40, by have h0 := keyCode_lt k; have h1 := bit_lt lf; show 0x6C00 + keyCode k * 64 + bit lf * 32 < 2 ^ 16; omega⟩
theorem Fits.wTbld : ∀ b, Fits.Statement (.wTbld b) := fun b => ⟨zero40, by have h0 := bit_lt b; show 0x7000 + (9 + bit b) * 128 < 2 ^ 16; omega⟩
theorem Fits.wTbl : ∀ b c, Fits.Statement (.wTbl b c) := fun b c => ⟨zero40, by have h0 := bit_lt b; have h1 := bit_lt c; show 0x7800 + (9 + bit b) * 128 + bit c * 64 < 2 ^ 16; omega⟩
theorem Fits.wScan : ∀ op x, Fits.Statement (.wScan op x) := fun op x => ⟨zero40, by have h0 := collCode_lt op; have h1 := bit_lt x; show 0x8000 + collCode op * 256 + bit x * 128 < 2 ^ 16; omega⟩
theorem Fits.wReduce : ∀ op, Fits.Statement (.wReduce op) := fun op => ⟨zero40, by have h0 := collCode_lt op; show 0x8800 + collCode op * 256 < 2 ^ 16; omega⟩
theorem Fits.wCpy : ∀ sc, Fits.Statement (.wCpy sc) := fun sc => ⟨zero40, by have h0 := scopeCode_lt sc; show 0x9000 + scopeCode sc * 128 < 2 ^ 16; omega⟩
theorem Fits.wCpy2d : ∀ sc, Fits.Statement (.wCpy2d sc) := fun sc => ⟨zero40, by have h0 := scopeCode_lt sc; show 0x9200 + scopeCode sc * 128 < 2 ^ 16; omega⟩
theorem Fits.wCpyx : ∀ sc, Fits.Statement (.wCpyx sc) := fun sc => ⟨zero40, by have h0 := scopeCode_lt sc; show 0x9400 + scopeCode sc * 128 < 2 ^ 16; omega⟩
theorem Fits.wCpyg : ∀ sc, Fits.Statement (.wCpyg sc) := fun sc => ⟨zero40, by have h0 := scopeCode_lt sc; show 0x9600 + scopeCode sc * 128 < 2 ^ 16; omega⟩
theorem Fits.wCrcc : ∀ sc l, Fits.Statement (.wCrcc sc l) := fun sc l => ⟨zero40, by have h0 := scopeCode_lt sc; have h1 := bit_lt l; show 0x9A00 + scopeCode sc * 128 + bit l * 64 < 2 ^ 16; omega⟩
theorem Fits.wExp2 : ∀ f, Fits.Statement (.wExp2 f) := fun f => ⟨zero40, by have h0 := fnFmtCode_lt f; show 0xA000 + fnFmtCode f * 64 < 2 ^ 16; omega⟩
theorem Fits.wLog2 : ∀ f, Fits.Statement (.wLog2 f) := fun f => ⟨zero40, by have h0 := fnFmtCode_lt f; show 0xA100 + fnFmtCode f * 64 < 2 ^ 16; omega⟩
theorem Fits.wRcp : ∀ f, Fits.Statement (.wRcp f) := fun f => ⟨zero40, by have h0 := fnFmtCode_lt f; show 0xA200 + fnFmtCode f * 64 < 2 ^ 16; omega⟩
theorem Fits.wRsqrt : ∀ f, Fits.Statement (.wRsqrt f) := fun f => ⟨zero40, by have h0 := fnFmtCode_lt f; show 0xA300 + fnFmtCode f * 64 < 2 ^ 16; omega⟩
theorem Fits.wSinpi : ∀ f, Fits.Statement (.wSinpi f) := fun f => ⟨zero40, by have h0 := fnFmtCode_lt f; show 0xA400 + fnFmtCode f * 64 < 2 ^ 16; omega⟩
theorem Fits.wCospi : ∀ f, Fits.Statement (.wCospi f) := fun f => ⟨zero40, by have h0 := fnFmtCode_lt f; show 0xA500 + fnFmtCode f * 64 < 2 ^ 16; omega⟩
theorem Fits.wTanh : ∀ f, Fits.Statement (.wTanh f) := fun f => ⟨zero40, by have h0 := fnFmtCode_lt f; show 0xA600 + fnFmtCode f * 64 < 2 ^ 16; omega⟩
theorem Fits.wSigm : ∀ f, Fits.Statement (.wSigm f) := fun f => ⟨zero40, by have h0 := fnFmtCode_lt f; show 0xA700 + fnFmtCode f * 64 < 2 ^ 16; omega⟩
theorem Fits.evQueueHeadIssue : ∀ plumbOk, Fits.Statement (.evQueueHeadIssue plumbOk) := fun _ => ⟨zero40, zero16⟩
theorem Fits.evStroke : ∀ misread, Fits.Statement (.evStroke misread) := fun _ => ⟨zero40, zero16⟩
theorem Fits.evRacePass : Fits.Statement .evRacePass := ⟨zero40, zero16⟩
theorem Fits.evEvxCounterEvent : ∀ k, Fits.Statement (.evEvxCounterEvent k) := fun _ => ⟨zero40, zero16⟩
theorem Fits.evEvxTermEdge : ∀ k, Fits.Statement (.evEvxTermEdge k) := fun _ => ⟨zero40, zero16⟩
theorem Fits.evRecordPop : ∀ helper, Fits.Statement (.evRecordPop helper) := fun _ => ⟨zero40, zero16⟩
theorem Fits.evLevellingCommit : ∀ pass counts vgain offp offn, Fits.Statement (.evLevellingCommit pass counts vgain offp offn) := fun _ _ _ _ _ => ⟨zero40, zero16⟩
theorem Fits.evTemperatureSample : ∀ temp, Fits.Statement (.evTemperatureSample temp) := fun _ => ⟨zero40, zero16⟩
theorem Fits.evPatrolVisit : ∀ ch corrected uncorrectable raced, Fits.Statement (.evPatrolVisit ch corrected uncorrectable raced) := fun _ _ _ _ => ⟨zero40, zero16⟩
theorem Fits.evLatticeWindowWrite : ∀ off bytes, Fits.Statement (.evLatticeWindowWrite off bytes) := fun _ _ => ⟨zero40, zero16⟩
theorem Fits.evLatticeWindowRead : ∀ off len, Fits.Statement (.evLatticeWindowRead off len) := fun _ _ => ⟨zero40, zero16⟩
theorem Fits.evMemoryWindowWrite : ∀ off bytes, Fits.Statement (.evMemoryWindowWrite off bytes) := fun _ _ => ⟨zero40, zero16⟩
theorem Fits.evMemoryWindowRead : ∀ off len, Fits.Statement (.evMemoryWindowRead off len) := fun _ _ => ⟨zero40, zero16⟩
theorem Fits.evClrslot : ∀ j ltype lscope, Fits.Statement (.evClrslot j ltype lscope) := fun _ _ _ => ⟨zero40, zero16⟩
theorem Fits.evDump : ∀ buf, Fits.Statement (.evDump buf) := fun _ => ⟨zero40, zero16⟩
theorem Fits.evInval : ∀ v, Fits.Statement (.evInval v) := fun _ => ⟨zero40, zero16⟩
theorem Fits.evLeaseExpiry : ∀ idx, Fits.Statement (.evLeaseExpiry idx) := fun _ => ⟨zero40, zero16⟩
theorem Fits.evXretry : ∀ v, Fits.Statement (.evXretry v) := fun _ => ⟨zero40, zero16⟩
theorem Fits.evSealWrite : ∀ n v, Fits.Statement (.evSealWrite n v) := fun _ _ => ⟨zero40, zero16⟩
theorem Fits.evXschedWrite : ∀ r v, Fits.Statement (.evXschedWrite r v) := fun _ _ => ⟨zero40, zero16⟩
theorem Fits.evSlewRegisterWrite : ∀ r v, Fits.Statement (.evSlewRegisterWrite r v) := fun _ _ => ⟨zero40, zero16⟩
theorem Fits.evLevellingRequestWrite : ∀ v, Fits.Statement (.evLevellingRequestWrite v) := fun _ => ⟨zero40, zero16⟩
theorem Fits.evTrimTargetWrite : ∀ v, Fits.Statement (.evTrimTargetWrite v) := fun _ => ⟨zero40, zero16⟩
theorem Fits.evQctlClear : ∀ v, Fits.Statement (.evQctlClear v) := fun _ => ⟨zero40, zero16⟩
theorem Fits.evTrctlWrite : ∀ v, Fits.Statement (.evTrctlWrite v) := fun _ => ⟨zero40, zero16⟩
theorem Fits.evRegisterWrite : ∀ off v, Fits.Statement (.evRegisterWrite off v) := fun _ _ => ⟨zero40, zero16⟩
theorem Fits.evPacketArrival : ∀ p, Fits.Statement (.evPacketArrival p) := fun _ => ⟨zero40, zero16⟩
theorem Fits.evFlitReplay : ∀ more, Fits.Statement (.evFlitReplay more) := fun _ => ⟨zero40, zero16⟩
theorem Fits.evDatumAlign : ∀ parent, Fits.Statement (.evDatumAlign parent) := fun _ => ⟨zero40, zero16⟩
theorem Fits.evDatumOffsetWrite : ∀ v, Fits.Statement (.evDatumOffsetWrite v) := fun _ => ⟨zero40, zero16⟩
theorem Fits.evThermalSample : ∀ hot watts flow tin, Fits.Statement (.evThermalSample hot watts flow tin) := fun _ _ _ _ => ⟨zero40, zero16⟩
theorem Fits.evPcieLinkTrains : ∀ gen7 wide16, Fits.Statement (.evPcieLinkTrains gen7 wide16) := fun _ _ => ⟨zero40, zero16⟩
theorem Fits.evAccessPerformed : ∀ id group, Fits.Statement (.evAccessPerformed id group) := fun _ _ => ⟨zero40, zero16⟩
theorem Fits.evDatumRootWrite : ∀ root, Fits.Statement (.evDatumRootWrite root) := fun _ => ⟨zero40, zero16⟩
theorem Fits.nop : Fits.Statement .nop := ⟨by decide, by decide⟩
theorem Fits.evCcwaitRelease : Fits.Statement .evCcwaitRelease := ⟨by decide, by decide⟩
theorem Fits.evSleepuntilWake : Fits.Statement .evSleepuntilWake := ⟨by decide, by decide⟩
theorem Fits.evWidleComplete : Fits.Statement .evWidleComplete := ⟨by decide, by decide⟩
theorem Fits.evTtakeComplete : Fits.Statement .evTtakeComplete := ⟨by decide, by decide⟩
theorem Fits.evLwaitPass : Fits.Statement .evLwaitPass := ⟨by decide, by decide⟩
theorem Fits.evLwaitTimeout : Fits.Statement .evLwaitTimeout := ⟨by decide, by decide⟩
theorem Fits.evRdvComplete : Fits.Statement .evRdvComplete := ⟨by decide, by decide⟩
theorem Fits.evWaitEntryRelease : Fits.Statement .evWaitEntryRelease := ⟨by decide, by decide⟩
theorem Fits.wDup : Fits.Statement .wDup := ⟨by decide, by decide⟩
theorem Fits.wDrop : Fits.Statement .wDrop := ⟨by decide, by decide⟩
theorem Fits.wSwap : Fits.Statement .wSwap := ⟨by decide, by decide⟩
theorem Fits.wOver : Fits.Statement .wOver := ⟨by decide, by decide⟩
theorem Fits.wRot : Fits.Statement .wRot := ⟨by decide, by decide⟩
theorem Fits.wAdd : Fits.Statement .wAdd := ⟨by decide, by decide⟩
theorem Fits.wSub : Fits.Statement .wSub := ⟨by decide, by decide⟩
theorem Fits.wAnd : Fits.Statement .wAnd := ⟨by decide, by decide⟩
theorem Fits.wOr : Fits.Statement .wOr := ⟨by decide, by decide⟩
theorem Fits.wXor : Fits.Statement .wXor := ⟨by decide, by decide⟩
theorem Fits.wInc : Fits.Statement .wInc := ⟨by decide, by decide⟩
theorem Fits.wDec : Fits.Statement .wDec := ⟨by decide, by decide⟩
theorem Fits.wNeg : Fits.Statement .wNeg := ⟨by decide, by decide⟩
theorem Fits.wMin : Fits.Statement .wMin := ⟨by decide, by decide⟩
theorem Fits.wMax : Fits.Statement .wMax := ⟨by decide, by decide⟩
theorem Fits.wEqz : Fits.Statement .wEqz := ⟨by decide, by decide⟩
theorem Fits.wEnd : Fits.Statement .wEnd := ⟨by decide, by decide⟩
theorem Fits.wReply : Fits.Statement .wReply := ⟨by decide, by decide⟩
theorem Fits.wBound : Fits.Statement .wBound := ⟨by decide, by decide⟩
theorem Fits.wJoin : Fits.Statement .wJoin := ⟨by decide, by decide⟩
theorem Fits.wRets : Fits.Statement .wRets := ⟨by decide, by decide⟩
theorem Fits.wDesc : Fits.Statement .wDesc := ⟨by decide, by decide⟩
theorem Fits.wMload : Fits.Statement .wMload := ⟨by decide, by decide⟩
theorem Fits.wAccz : Fits.Statement .wAccz := ⟨by decide, by decide⟩
theorem Fits.wAccout : Fits.Statement .wAccout := ⟨by decide, by decide⟩
theorem Fits.wCrci : Fits.Statement .wCrci := ⟨by decide, by decide⟩
theorem Fits.evFolioIssue : Fits.Statement .evFolioIssue := ⟨by decide, by decide⟩
theorem Fits.evEngineOverrun : Fits.Statement .evEngineOverrun := ⟨by decide, by decide⟩
theorem Fits.evMloadBankActivate : Fits.Statement .evMloadBankActivate := ⟨by decide, by decide⟩
theorem Fits.evCopyComplete : Fits.Statement .evCopyComplete := ⟨by decide, by decide⟩
theorem Fits.evPromiseMiss : Fits.Statement .evPromiseMiss := ⟨by decide, by decide⟩
theorem Fits.evCopyResend : Fits.Statement .evCopyResend := ⟨by decide, by decide⟩
theorem Fits.evBoundaryTrap : Fits.Statement .evBoundaryTrap := ⟨by decide, by decide⟩
theorem Fits.evSafePointDrought : Fits.Statement .evSafePointDrought := ⟨by decide, by decide⟩
theorem Fits.evSideLogReplay : Fits.Statement .evSideLogReplay := ⟨by decide, by decide⟩
theorem Fits.evRecordReady : Fits.Statement .evRecordReady := ⟨by decide, by decide⟩
theorem Fits.evStrandStart : Fits.Statement .evStrandStart := ⟨by decide, by decide⟩
theorem Fits.evImageLoad : Fits.Statement .evImageLoad := ⟨by decide, by decide⟩
theorem Fits.evRecordRetire : Fits.Statement .evRecordRetire := ⟨by decide, by decide⟩
theorem Fits.evPreemptionRequest : Fits.Statement .evPreemptionRequest := ⟨by decide, by decide⟩
theorem Fits.evCoreHalt : Fits.Statement .evCoreHalt := ⟨by decide, by decide⟩
theorem Fits.evResume : Fits.Statement .evResume := ⟨by decide, by decide⟩
theorem Fits.evSlewStep : Fits.Statement .evSlewStep := ⟨by decide, by decide⟩
theorem Fits.evFillerStroke : Fits.Statement .evFillerStroke := ⟨by decide, by decide⟩
theorem Fits.evLevellingStart : Fits.Statement .evLevellingStart := ⟨by decide, by decide⟩
theorem Fits.evLevellingPeriodExpiry : Fits.Statement .evLevellingPeriodExpiry := ⟨by decide, by decide⟩
theorem Fits.evExchangeRound : Fits.Statement .evExchangeRound := ⟨by decide, by decide⟩
theorem Fits.evSystemExchangeRound : Fits.Statement .evSystemExchangeRound := ⟨by decide, by decide⟩
theorem Fits.evLaunchPacket : Fits.Statement .evLaunchPacket := ⟨by decide, by decide⟩
theorem Fits.evLaunchComplete : Fits.Statement .evLaunchComplete := ⟨by decide, by decide⟩
theorem Fits.evActivate : Fits.Statement .evActivate := ⟨by decide, by decide⟩
theorem Fits.evRetire : Fits.Statement .evRetire := ⟨by decide, by decide⟩
theorem Fits.evCoolingEnd : Fits.Statement .evCoolingEnd := ⟨by decide, by decide⟩
theorem Fits.evInvalLeaseExpiry : Fits.Statement .evInvalLeaseExpiry := ⟨by decide, by decide⟩
theorem Fits.evInvalDone : Fits.Statement .evInvalDone := ⟨by decide, by decide⟩
theorem Fits.evPreempt : Fits.Statement .evPreempt := ⟨by decide, by decide⟩
theorem Fits.evCctlResume : Fits.Statement .evCctlResume := ⟨by decide, by decide⟩
theorem Fits.evTraceTransfer : Fits.Statement .evTraceTransfer := ⟨by decide, by decide⟩
theorem Fits.evComputeReset : Fits.Statement .evComputeReset := ⟨by decide, by decide⟩
theorem Fits.evFunctionLevelReset : Fits.Statement .evFunctionLevelReset := ⟨by decide, by decide⟩
theorem Fits.evComputeRailLoss : Fits.Statement .evComputeRailLoss := ⟨by decide, by decide⟩
theorem Fits.evIslandRailUp : Fits.Statement .evIslandRailUp := ⟨by decide, by decide⟩
theorem Fits.evIslandRailLoss : Fits.Statement .evIslandRailLoss := ⟨by decide, by decide⟩
theorem Fits.evAttach : Fits.Statement .evAttach := ⟨by decide, by decide⟩
theorem Fits.evDetach : Fits.Statement .evDetach := ⟨by decide, by decide⟩
theorem Fits.evIslandReset : Fits.Statement .evIslandReset := ⟨by decide, by decide⟩
theorem Fits.evRetrainPort : Fits.Statement .evRetrainPort := ⟨by decide, by decide⟩
theorem Fits.evIslandDrainEnd : Fits.Statement .evIslandDrainEnd := ⟨by decide, by decide⟩
theorem Fits.evTrainComplete : Fits.Statement .evTrainComplete := ⟨by decide, by decide⟩
theorem Fits.evPortUp : Fits.Statement .evPortUp := ⟨by decide, by decide⟩
theorem Fits.evLinkDown : Fits.Statement .evLinkDown := ⟨by decide, by decide⟩
theorem Fits.evClass0Admission : Fits.Statement .evClass0Admission := ⟨by decide, by decide⟩
theorem Fits.evPtmDialogue : Fits.Statement .evPtmDialogue := ⟨by decide, by decide⟩
theorem Fits.evComputeRailUp : Fits.Statement .evComputeRailUp := ⟨by decide, by decide⟩
theorem Fits.evComputeResetComplete : Fits.Statement .evComputeResetComplete := ⟨by decide, by decide⟩

end Sys2Proof.Laws
end

