-- ==== Sys2Proof/Tests/Slice0.lean ====
section
/-!
SUPPORT. The model's own tests: ill-formed terms that the checks refuse, words written out from the spec's encodings, small results worked
by hand from the spec, and for every obligation a state and operands that meet its hypotheses, clause by clause.
-/
namespace Sys2Proof.Tests

-- One test after the other: their kernel evaluations wait for each other, and each waiting test would hold a thread.
set_option Elab.async false

open Machine Stated

-- Small states.

/-- The state after an outcome. -/
def after : Host.Outcome State Fault Refusal → State
  | .next s => s
  | _ => State.reset
/-- An outcome is a next state. -/
def goesOn : Host.Outcome State Fault Refusal → Bool
  | .next _ => true
  | _ => false

/-- A page of 64 KiB for core 0 under ASID 0: its virtual number, target type, physical address and lattice type. -/
def page (n tt pa : Nat) (lt : BitVec 4 := 0) : Tlb := ⟨0, 0, n * 65536, 65536, tt, true, true, true, true, pa, lt, false, 0, BitVec.allOnes 64⟩

/-- A record of launch 1. -/
def aRec (seq : Nat) (st : RState) (jcnt : Nat := 0) : Rec :=
  { lid := 1, seq := seq, wid := 7, code := 64, frame := 0, jcnt := jcnt, preds := [], pri := 0, helper := false, node := false, det := false, member := false
    state := st, dw2 := 0, dw3 := 0, slot := seq, readyStamp := 0, readyDatum := 0, readyCode := 64, core := (if st = .running then some 0 else none), rollbacks := 0
    retiredSince := [], nidem := false, fp := 0, held := none, posns := [], sig := Sig.empty }

/-- Launch 1, with its flags. -/
def aLaunch (flags : BitVec 16) : Launch :=
  { lid := 1, asid := 0, idx := 0, img := 0, frame := 0, stk := 0, sz := 0, cmask := 1, numctl := 0, tvec := 0, start := 0, compl := 0, tag := 5
    chipset := 0xFFFF, flags := flags, code0 := 0, codeBase := 0, descBase := 0, hdr := [], fields := [], k := 0, dyn := true, nchips := 1, chipPos := 0
    nextMember := 1, members := 1, nextSeq := 2, started := some 0, ended := 0, nret := 0, lost := 0, fp := 0, status := 0, done := false, held := false, asked := false
    declined := false, peers := none, statics := [], sigs := [] }

/-- Core 0 runs record 0 of launch 1, a trap handler is installed, and four pages are mapped: linear HBM, a lattice page of type `lt`, core
scratchpad and host memory. -/
def busy (flags : BitVec 16 := 0) (lt : BitVec 4 := 0) : State :=
  { (State.reset.coreUpd 0 fun k => { k with run := some ⟨1, 0, 7, 1, 0, []⟩, tvec := 0x10001 }) with
    launches := [aLaunch flags], recs := [aRec 0 .running, aRec 1 .pending 1]
    tlb := [page 0 0 0, page 1 4 latBase lt, page 2 2 (coreBase + 8388608 - 65536), page 3 5 0]
    slots := [⟨0, lt, false⟩], power := true, hostLink := some (true, true), island := { Island.reset with cpres := true } }

/-- A state whose acting cluster's scalars hold some values, before the line and now. -/
def withS (xs : List (SReg × Word)) (s : State) : State :=
  let f := xs.foldl (fun f x => vput f x.1 x.2) s.clu.s
  { (s.onClu fun c => { c with s := f }) with iss := { s.iss with src := { s.iss.src with s := f } } }

/-- A state that issues a line of a folio. -/
def inFolio (s : State) : State := { s with iss := { s.iss with sync := true } }

/-- A state whose acting cluster is in handler mode. -/
def handling (s : State) : State :=
  { (s.onClu fun c => { c with hm := true }) with iss := { s.iss with src := { s.iss.src with hm := true } } }

/-- A command of record 0, at word 3, with a stack. -/
def aCmd (stk : List Word) : Cmd where
  spec := { entry := 0, a := 0, b := 0, clu := 0, reply := none, numctl := 0, iter := [], pos := 0, wid := 7, lid := 1, seq := 0, run := 1, folio := 0
            stamp := 0, enq := 0, known := [0, 0, 0, 0], notAfter := [] }
  ip := 3
  stk := stk
  rstk := []
  bound := none
  issued := 0
  replied := false
  flags := 0
  pend := []
  job := none
  spot := 1
  conv := 0
  drawn := []
  promise := none
  left := 0
  hops := 0
  copies := 0
  stall := .none
  owner := none
  killed := false

/-- Engine `e` of core 0 runs a command with a stack. -/
def working (e : Eng) (stk : List Word) (s : State) : State :=
  { (s.engUpd 0 e fun g => { g with cmd := some (aCmd stk) }) with at_ := { s.at_ with eng := e } }

-- Ill-formed instructions.

theorem test_ill_formed :
    wfCheck (.ext 0 none 1 63 1) = some .fieldBeyondWord ∧ wfCheck (.extu 0 none 1 1 63) = some .fieldBeyondWord ∧
    wfCheck (.ins 0 1 1 32 32) = some .fieldBeyondWord ∧ wfCheck (.forkc 0 0 5) = some .emptyForkMask ∧
    wfCheck (.cas2 0 3 1 2) = some .badScalarPair ∧ wfCheck (.cas2 0 0 1 2) = some .badScalarPair ∧ wfCheck (.cas2 0 2 1 3) = some .badScalarPair ∧
    wfCheck (.vcmp 0 .f32 .eq true 1 0 (.v 0)) = some .noSuchElement ∧ wfCheck (.vicmp 0 .w16 .eq 2 1 0 (.v 0)) = some .noSuchElement ∧
    wfCheck (.vgmax 0 .i32 0 0 0 0) = some .badGroup ∧ wfCheck (.vbsr 0 1 4 47 3) = some .pairBeyondV47 ∧
    wfCheck (.vbsr 0 1 4 2 1) = some .cursorIsDestination ∧ wfCheck (.vcvt 0 0 1 2 none) = some .badSecondSource ∧
    wfCheck (.vcvt 0 2 1 2 (some (.v 0))) = some .badSecondSource := by decide

/-- Where the checks meet what is legal: the last legal operands. -/
theorem test_well_formed :
    wfCheck (.ext 0 none 1 63 0) = none ∧ wfCheck (.ext 0 none 1 0 63) = none ∧ wfCheck (.cas2 0 62 1 62) = none ∧
    wfCheck (.vcmp 0 .f16x2 .eq true 1 0 (.v 0)) = none ∧ wfCheck (.vicmp 0 .w8 .eq 3 1 0 (.v 0)) = none ∧
    wfCheck (.vgmax 0 .i32 0 0 0 7) = none ∧ wfCheck (.vbsr 0 1 4 46 3) = none := by decide

/-- A reserved field, a wrong operand class and an unassigned opcode are refused by name (R187, R196). -/
theorem test_refused_encodings :
    decodeSyl .x 0x0106102810 = .error .unusedField ∧ decodeSyl .x 0xFF00000000 = .error .unassignedOpcode ∧
    decodeSyl .x 0x0107000000 = .error .wrongClass := ⟨rfl, rfl, rfl⟩

-- Words written out bit by bit from the formats of R185 and the fields of each entry.

/-- X slot: FA, FI and FL forms of R198 to R207. -/
theorem test_decode_integers :
    decodeSyl .x 0x0102081800 = .ok (.add 0 (some 1) 2 3) ∧ decodeSyl .x 0x03020BFFF0 = .ok (.addi 0 (some 1) 2 0x3FFF) ∧
    decodeSyl .x 0x1E0BFFFFE0 = .ok (.li 0 (some 5) 0x1FFFFE) ∧ decodeSyl .x 0x21020820F0 = .ok (.extu 0 (some 1) 2 8 15) ∧
    decodeSyl .x 0x01FE081800 = .ok (.add 0 none 2 3) ∧ decodeSyl .x 0x4086102800 = .ok (.cmp 0 .ltu 3 4 5) ∧
    decodeSyl .x 0x41E24001F0 = .ok (.cmpi 0 .tnz 1 16 0x1F) ∧ decodeSyl .x 0x42040C0450 = .ok (.tstb 0 true 2 3 5) ∧
    decodeSyl .x 0x4602001000 = .ok (.pandn 0 1 0 2) := ⟨rfl, rfl, rfl, rfl, rfl, rfl, rfl, rfl, rfl⟩

/-- X slot: transfers, loops, cluster coordination, strands and the system instructions (R209 to R228, R322 to R332). -/
theorem test_decode_control :
    decodeSyl .x 0x60FFFFFF00 = .ok (.br 0 0xFFFFFF) ∧ decodeSyl .x 0x6100000230 = .ok (.brcc 0 3 2) ∧
    decodeSyl .x 0x660EA80030 = .ok (.loop 0 7 2 true 2 3) ∧ decodeSyl .x 0x68000001A0 = .ok (.forkc 0 0b1010 1) ∧
    decodeSyl .x 0x6B00080010 = .ok (.ccwait 0 0x8001) ∧ decodeSyl .x 0x6D00000305 = .ok (.safe 3 5) ∧
    decodeSyl .x 0x6E02080000 = .ok (.spawn 0 (some 1) 2) ∧ decodeSyl .x 0x7000041000 = .ok (.yield 0 1 2) ∧
    decodeSyl .x 0x7100000003 = .ok (.exit 3) ∧ decodeSyl .x 0x81000C0000 = .ok (.mtk 0 0 3) ∧
    decodeSyl .x 0x800A000010 = .ok (.mfk 0 5 1) ∧ decodeSyl .x 0x8076000270 = .ok (.mfk 0 59 0x27) ∧
    decodeSyl .x 0x8206000000 = .ok (.rdcyc 0 (some 3)) ∧ decodeSyl .x 0x8800140000 = .ok (.widle 0 5) ∧
    decodeSyl .x 0x9092800000 = .ok (.mempfx .sc .pkg .strm .drv) :=
  ⟨rfl, rfl, rfl, rfl, rfl, rfl, rfl, rfl, rfl, rfl, rfl, rfl, rfl, rfl, rfl⟩

/-- M slot: loads and stores, tiles, atomics, lattices, fences and engine issue (R230 to R255). -/
theorem test_decode_memory :
    decodeSyl .m 0x0108180260 = .ok (.ld 0 (some 4) (.off 6 2) .d64) ∧ decodeSyl .m 0x20861A1C00 = .ok (.vld 0 3 (.idx 6 7) (.plain .w32)) ∧
    decodeSyl .m 0x4482028920 = .ok (.tld 0 1 (.num 5) 9 .b256) ∧ decodeSyl .m 0x4100018010 = .ok (.tfree 0 (.reg 3)) ∧
    decodeSyl .m 0x60020818B0 = .ok (.amo 0 .add true (some 1) 2 3) ∧ decodeSyl .m 0x7204188900 = .ok (.lwait 0 2 6 17 16) ∧
    decodeSyl .m 0x80000000B0 = .ok (.fence 0 .rel .sys) ∧ decodeSyl .m 0x908004CA00 = .ok (.eng 16 0 19 10 none false) ∧
    decodeSyl .m 0x9080009400 = .ok (.eng 16 0 2 20 none false) ∧ decodeSyl .m 0x9080238F00 = .ok (.eng 16 2 14 15 none false) ∧
    decodeSyl .m 0x9622000100 = .ok (.qstat 0 17 16) ∧ decodeSyl .m 0x9620000100 = .ok (.qstat 0 16 16) :=
  ⟨rfl, rfl, rfl, rfl, rfl, rfl, rfl, rfl, rfl, rfl, rfl, rfl⟩

/-- V slot: floating point, integers, reductions, bit streams, moves, permutes, masks and conversions (R261 to R287). -/
theorem test_decode_vectors :
    decodeSyl .v 0x0106143000 = .ok (.vadd 0 .f32 1 2 (.v 3)) ∧ decodeSyl .v 0x0406143110 = .ok (.vfma 0 .bf16x2 1 2 (.v 3) 4) ∧
    decodeSyl .v 0x4006103020 = .ok (.viadd 0 .w8 1 2 (.s 3)) ∧ decodeSyl .v 0x6006173010 = .ok (.vredadd 0 .i32 1 2 3) ∧
    decodeSyl .v 0x6706143100 = .ok (.vbsr 0 1 2 3 4) ∧ decodeSyl .v 0x8284FFFFF0 = .ok (.vli 0 2 (.plain 0xFFFFF)) ∧
    decodeSyl .v 0x8506143100 = .ok (.vperm 0 1 2 (.v 3) 4) ∧ decodeSyl .v 0x8BE3CB9820 = .ok (.mlog 0 .xor 1 2 3) ∧
    decodeSyl .v 0xA006143000 = .ok (.vcvt 0 0 1 2 (some (.v 3))) := ⟨rfl, rfl, rfl, rfl, rfl, rfl, rfl, rfl, rfl⟩

/-- Stream words of every class (R297 to R316). -/
theorem test_decode_words :
    decodeWord 0x02BC = .ok (.wLit 700) ∧ decodeWord 0x1FFF = .ok (.wLitx 4095) ∧ decodeWord 0x2143 = .ok (.wPick 3) ∧
    decodeWord 0x22EE = .ok (.wShl 46) ∧ decodeWord 0x2320 = .ok (.wShr 32) ∧ decodeWord 0x33FF = .ok (.wJmp 0x3FF) ∧
    decodeWord 0x4205 = .ok (.wWaitf 5) ∧ decodeWord 0x4800 = .ok .wDesc ∧ decodeWord 0x5000 = .ok .wMload ∧
    decodeWord 0x5210 = .ok (.wMma 0 true) ∧ decodeWord 0x7480 = .ok (.wTbld false) ∧ decodeWord 0x7D40 = .ok (.wTbl true true) ∧
    decodeWord 0x8000 = .ok (.wScan .add false) ∧ decodeWord 0x9180 = .ok (.wCpy .sys) ∧ decodeWord 0x9800 = .ok .wCrci ∧
    decodeWord 0x9B80 = .ok (.wCrcc .sys false) ∧ decodeWord 0x9BC0 = .ok (.wCrcc .sys true) :=
  ⟨rfl, rfl, rfl, rfl, rfl, rfl, rfl, rfl, rfl, rfl, rfl, rfl, rfl, rfl, rfl, rfl, rfl⟩

/-- Every word that the opcode table writes out, its fields zero (TBLD and TBL with shape 0x9, since R308 takes no other), decodes, and runs
as the first instruction after reset. -/
theorem test_table_words_run :
    ([0x0000, 0x1000, 0x2000, 0x2040, 0x2080, 0x20C0, 0x2100, 0x2140, 0x2180, 0x21C0, 0x2200, 0x2240, 0x2280, 0x22C0, 0x2300,
       0x2340, 0x2380, 0x23C0, 0x2400, 0x2440, 0x2480, 0x3000, 0x3400, 0x3800, 0x3C00, 0x4000, 0x4100, 0x4200, 0x4300, 0x4400,
       0x4500] ++
      [0x4600, 0x4700, 0x4800, 0x5000, 0x5200, 0x5400, 0x5600, 0x5800, 0x6000, 0x6400, 0x6800, 0x6C00, 0x7480, 0x7C80, 0x8000,
       0x8800, 0x9000, 0x9200, 0x9400, 0x9600, 0x9800, 0x9A00, 0xA000, 0xA100, 0xA200, 0xA300, 0xA400, 0xA500, 0xA600, 0xA700] : List Nat).all (fun w => (decodeTableWord 16 w).isSome && goesOn (step (State.reset.withFetchWord 16 w))) = true := by
  decide +kernel

-- States and operands that meet the hypotheses of the statements. The machine as a whole.

/-- A reset machine that runs a line next. -/
def fetching (x m v : Instr) : State := State.reset.withLine (encodeLine ⟨false, false, false, false, false, x, m, v⟩)

/-- What StepExecutesTheLine asks of a state. -/
def runsALine (s : State) : Bool :=
  match s.agenda with
  | .cluster n c :: more =>
    s.issued.contains (n.val, c.val) == false && (s.cores[n]).run.isSome && !(s.cores[n]).haltd && !(s.cores[n]).pstop &&
    !((s.cores[n]).clu[c]).halted && ((s.cores[n]).clu[c]).refused == 0 && ((s.cores[n]).clu[c]).hold == .none &&
    (match fetch { s with agenda := more, at_ := { s.at_ with core := n, clu := c } } with
    | .line w s1 => (match readLine w s1.clu with
      | .ok l =>
        let b := s1.beginLine w l
        !l.sync && b.nextBoundary.isNone && !b.core.preReq &&
        (match tryLine exec l b with
        | .ready false ports => mayTake exec ports b &&
          (match runAll exec [l.m, l.v, l.x] ((takePorts ports b).onClu fun k => { k with hold := .passed }) with | .next t => t.iss.afterTrap.isNone | _ => false)
        | _ => false)
      | _ => false)
    | _ => false)
  | _ => false

theorem meets_StepKeepsMemoryCanonical : Safety.MemoryOk State.reset ∧ goesOn (step State.reset) = true := by
  unfold Safety.MemoryOk; decide +kernel

theorem meets_StepExecutesTheLine :
    runsALine (fetching (.add 0 (some 5) 1 2) .nop (.vmov 0 3 (.s 1))) = true ∧ runsALine (fetching (.br 0 0xFFFFFF) (.st 0 5 (.off 1 0) .d64) .nop) = true := by
  decide +kernel

/-- What FetchReadsTheColumn asks of a state. -/
def fetchesHere (s : State) : Bool :=
  let a := s.clu.pc.toNat + 16 * s.at_.clu.val
  decide (s.clu.pc.toNat + 64 ≤ 2 ^ 55) && s.clu.pc.toNat % 64 == 0 && s.clu.hold == .none &&
  match s.cached s.at_.core.val s.asid.val a with
  | some t => t.x && decide (t.tt ≤ 5) && (List.range 16).all fun i => !(s.sealed (placeIn t (a + i)).2) && !(s.badAt (placeIn t (a + i)).2)
  | none => false

/-- A page at the highest rows of the lower half, and the row there that is the last to fit. -/
theorem meets_FetchReadsTheColumn : fetchesHere (busy 0) = true ∧
    fetchesHere { ((busy 0).onClu fun c => { c with pc := 0x7FFFFFFFFFFFC0 }) with tlb := [page 0x7FFFFFFFFF 0 65536] } = true ∧
    fetchesHere { (busy 0) with at_ := { (busy 0).at_ with clu := 3 } } = true := by decide +kernel

/-- What each clause of StepExecutesTheWord asks. -/
theorem meets_StepExecutesTheWord :
    (let s := State.reset.withFetchWord 16 0x02BC
     s.agenda = [.engine 0 0] ∧ s.island.cpres = true ∧ (match s.eng.cmd with
      | some c => !c.overrun s.cyc && c.job.isNone && s.eng.wordAt c.ip == some (.wLit 700)
      | none => false) = true) ∧
    isEvent .evActivate = true ∧ (State.reset.agenda = [] ∧ State.reset.rr < 128) ∧
    (∀ r ∈ [127, 128, 991, 992], ({ State.reset with rr := r } : State).agenda = [] ∧ ({ State.reset with rr := r } : State).rr = r) := by
  refine ⟨by decide +kernel, rfl, by decide +kernel, fun r _ => ⟨rfl, rfl⟩⟩

-- Encodings and memory.

theorem meets_SyllableRoundTrip :
    (Instr.add 15 none 63 63).slot = some .x ∧ (Instr.add 15 none 63 63).wf = true ∧ (Instr.ld 8 (some 63) (.off 63 0x1FF) .d64).slot = some .m ∧
    (Instr.ld 8 (some 63) (.off 63 0x1FF) .d64).wf = true ∧ (Instr.vperm 15 47 47 (.v 47) 47).slot = some .v ∧ (Instr.vperm 15 47 47 (.v 47) 47).wf = true := by
  decide

theorem meets_SyllableDecodingIsExact :
    0x0102081800 < 2 ^ 40 ∧ decodeSyl .x 0x0102081800 = .ok (.add 0 (some 1) 2 3) ∧ decodeSyl .m 0 = .ok .nop ∧ decodeSyl .v 0 = .ok .nop :=
  ⟨by decide, rfl, rfl, rfl⟩

theorem meets_WordsAndLinesRoundTrip :
    (Instr.wJmp 0x3FF).isWord = true ∧ (decodeWord 0xA700).toOption = some (.wSigm .fp32) ∧ 0xA700 < 2 ^ 16 ∧ encodeSyl (.add 15 none 63 63) < 2 ^ 40 ∧
    encodeSyl (.ld 8 (some 63) (.off 63 0x1FF) .d64) < 2 ^ 40 ∧ encodeSyl (.vperm 15 47 47 (.v 47) 47) < 2 ^ 40 := by decide +kernel

theorem meets_MemoryReadsWhatWasWritten :
    Memory.wf [] = true ∧ Memory.wf [⟨0, 7⟩, ⟨5, 1⟩] = true ∧ Memory.wf [⟨5, 0⟩] = false ∧ Memory.wf [⟨5, 1⟩, ⟨0, 7⟩] = false := by decide

/-- The first and the last byte, and a place with the offset of R130 that names it. -/
theorem meets_InterleaveIsABijection :
    ilPlace 0 = 0 ∧ ilOfPlace (ilPlace (2 ^ 39 - 1)) = 2 ^ 39 - 1 ∧ ilPlace (2 ^ 39 - 1) < 2 ^ 39 ∧
    ilPlace (ilOfPlace (7 * 2 ^ 36 + (2 ^ 36 - 1))) = 7 * 2 ^ 36 + (2 ^ 36 - 1) := by decide

theorem meets_PhysicalWritesReadBack :
    Memory.wf State.reset.mem = true ∧ State.reset.inflight = [] ∧ (State.reset.bad = [] ∧ State.reset.badAt (linTop - 8) = false) ∧ (linTop - 8) + 8 ≤ linTop ∧ 256 ^ 8 - 1 < 256 ^ 8 ∧
    (State.reset.putPhys (linTop - 8) (leBytes 8 (256 ^ 8 - 1))).getPhysN (linTop - 8) 8 = 256 ^ 8 - 1 := by decide +kernel

-- Registers and conditions.

theorem meets_RegisterWrites :
    (writeD (some 63) 9 (busy 0)).clu.s[(63 : SReg)] = 9 ∧ (writeS 0 9 (busy 0)).clu.s[(0 : SReg)] = 0 ∧
    (writeP 15 true (busy 0)).clu.p.getLsbD 15 = true ∧ (writeM 7 5 (busy 0)).clu.m[(7 : MReg)] = 5 ∧
    rotReg 31 15 = 15 ∧ rotReg 0 16 = 16 ∧ rotReg 31 16 = 47 ∧ rotReg 1 47 = 16 := by decide +kernel

/-- A state in a loop body, whose stage predicates are p8 and p15. -/
def inBody : State := { (busy 0) with iss := { (busy 0).iss with inBody := true, src := { (busy 0).iss.src with p := 0x8101, loops := [⟨2, 0, 4, 2, false, 5, 1⟩] } } }

theorem meets_ConditionsOfTheQField :
    qCond 0 (busy 0) = some true ∧ qCond 1 (busy 0) = some false ∧ qCond 7 (busy 0) = some false ∧ qCond 8 (busy 0) = none ∧
    qCond 9 (busy 0) = some true ∧ qCond 15 (busy 0) = some true ∧ qCond 8 inBody = some true ∧ qCond 9 inBody = some false ∧
    qCond 15 inBody = some true ∧ (Instr.add 1 (some 5) 1 2).wf = true ∧ (Instr.ld 8 (some 5) (.off 1 0) .d64).slot = some .m ∧
    (Instr.ld 8 (some 5) (.off 1 0) .d64).wf = true ∧ (Instr.vmov 8 1 (.v 2)).slot = some .v ∧ (Instr.vmov 8 1 (.v 2)).wf = true := by decide +kernel

-- The X slot.

theorem meets_IntegerSumsProductsAndLogic : Active 0 (busy 0) ∧ Active 8 inBody ∧ Active 15 (busy 0) := by
  unfold Active; decide +kernel

/-- Sources of the division's boundaries: a zero divisor, the least number by -1, and neither. -/
def dividing (a b : Word) : State := withS [(1, a), (2, b)] (busy 0)

theorem meets_DivisionAndItsBoundaries :
    Active 0 (dividing 7 0) ∧ srcS 2 (dividing 7 0) = 0 ∧
    (srcS 1 (dividing 0x8000000000000000 0xFFFFFFFFFFFFFFFF) = BitVec.intMin 64 ∧ srcS 2 (dividing 0x8000000000000000 0xFFFFFFFFFFFFFFFF) = BitVec.allOnes 64) ∧
    (srcS 2 (dividing 0x8000000000000000 1) ≠ 0 ∧ srcS 2 (dividing 0x8000000000000000 1) ≠ BitVec.allOnes 64) := by
  unfold Active; decide +kernel

theorem meets_ShiftsCountsImmediatesAndFields :
    Active 0 (busy 0) ∧ (63 : Fin 64).val + (1 : Fin 64).val + 1 > 64 ∧ (63 : Fin 64).val + (0 : Fin 64).val + 1 ≤ 64 ∧ (0 : Fin 64).val + (63 : Fin 64).val + 1 ≤ 64 := by
  unfold Active; decide +kernel

theorem meets_FrameOfScalarAndPredicateResults :
    scalarDest (.add 0 (some 5) 1 2) = some (some 5) ∧ scalarDest (.rdcyc 0 none) = some none ∧ (Instr.add 0 (some 5) 1 2).wf = true ∧ Active 0 (busy 0) ∧
    goesOn (exec (.add 0 (some 5) 1 2) (busy 0)) = true ∧ predDest (.cmp 0 .eq 7 1 2) = some 7 ∧ (7 : PReg).val < 8 ∧
    (busy 0).iss.src.inPiped = false ∧ goesOn (exec (.cmp 0 .eq 15 1 2) (busy 0)) = true := by
  unfold Active; decide +kernel

theorem meets_ComparisonsAndPredicates :
    Active 0 (busy 0) ∧ (busy 0).iss.src.inPiped = false ∧ ((8 : PReg).val ≥ 8 ∧ inBody.iss.src.inPiped = true ∧ Active 0 inBody) := by
  unfold Active; decide +kernel

/-- A cluster in the body of loop 2, at its second row. -/
def looping (stages : Nat) (rot : Bool) (id : Fin 8 := 2) : State :=
  let ls : List LoopRec := [⟨id, 64, 4, stages, rot, 5, 1⟩]
  { ((busy 0).onClu fun c => { c with loops := ls, pc := 128 }) with
    iss := { (busy 0).iss with src := { (busy 0).iss.src with loops := ls, pc := 128 } } }

theorem meets_TransfersOfControl :
    Active 0 (dividing 0 0) ∧ (srcS 1 (dividing 0xFFFFFFFFFFFFFF 0)).toNat < 2 ^ 56 ∧ (0xFFFFFFFFFFFFC0#64).toNat = (srcS 1 (dividing 0xFFFFFFFFFFFFFF 0)).toNat / 64 * 64 ∧
    (srcS 1 (dividing 0x100000000000000 0)).toNat ≥ 2 ^ 56 ∧ ((busy 0).clu.branch = none ∧ (busy 0).clu.loops = []) ∧
    (let c : Cluster := { (looping 1 false).clu with branch := some 256 }
     c.branch = some 256 ∧ ∃ l, c.loops = [l] ∧ l.holds c.pc.toNat = true ∧ l.holds 256 = true ∧ l.holds 320 = false) ∧
    (let inner : LoopRec := ⟨3, 128, 1, 1, false, 5, 1⟩
     let l : LoopRec := ⟨2, 64, 4, 1, false, 5, 1⟩
     let outer : LoopRec := ⟨1, 0, 100, 1, false, 5, 1⟩
     let c : Cluster := { (busy 0).clu with pc := 128, branch := some 320, loops := [inner, l, outer] }
     c.loops = [inner] ++ l :: [outer] ∧ l.holds c.pc.toNat = true ∧ l.holds 320 = false ∧ (∀ m ∈ [outer], m.holds c.pc.toNat = true ∧ m.holds 320 = true) ∧
       (∃ m ∈ [inner, l], m.id = 3) ∧ ∀ m ∈ [inner, l], m.id ≠ 1) := by
  unfold Active
  exact ⟨by decide +kernel, by decide +kernel, by decide +kernel, by decide +kernel, by decide +kernel,
    ⟨by decide +kernel, ⟨2, 64, 4, 1, false, 5, 1⟩, rfl, by decide +kernel⟩, by decide +kernel⟩

/-- A loop that may not begin: its id active, an enclosing pipelined or rotating loop, a body that ends beyond the enclosing one's; and those
that may, of zero trips, of one, and with stages or rotation. -/
theorem meets_HardwareLoops :
    (∃ m ∈ (looping 1 false).iss.src.loops, m.id = 2) ∧ (∃ m ∈ (looping 2 false 3).iss.src.loops, m.stages ≥ 2 ∨ m.rot = true) ∧
    (∃ m ∈ (looping 1 true 3).iss.src.loops, m.stages ≥ 2 ∨ m.rot = true) ∧
    (∃ m ∈ (looping 1 false 3).iss.src.loops, ¬(192 + 64 * 2 < m.first + 64 * m.len)) ∧
    (∀ m ∈ (looping 1 false 3).iss.src.loops, m.id ≠ 2 ∧ ¬(m.stages ≥ 2 ∨ m.rot = true) ∧ m.first ≤ 128 ∧ 192 + 64 * 1 < m.first + 64 * m.len) ∧
    (srcS 1 (dividing 0x100000000 0)).toNat % 2 ^ 32 = 0 ∧ (srcS 1 (dividing 0xFFFFFFFF 0)).toNat % 2 ^ 32 ≠ 0 ∧ (busy 0).iss.src.loops = [] := by
  decide +kernel

-- Strands, registers and traps.

/-- A state whose held line has been let through. -/
def letThrough (s : State) : State := s.onClu fun c => { c with hold := .passed }

theorem meets_ClustersFlagsAndWaits :
    Active 0 (busy 0) ∧ (busy 0).iss.sync = false ∧ (inFolio (busy 0)).iss.sync = true ∧ CanRelease .core (busy 0) ∧
    CanRelease .core (letThrough (busy 0)) ∧ ((busy 0).core.cc &&& 0 = 0) ∧ ¬((busy 0).passed = true ∨ (busy 0).core.cc &&& 0x8000 = 0x8000) ∧
    (srcS 1 (dividing 0 0)).toNat ≤ (dividing 0 0).cyc.toNat ∧ ¬((dividing 1 0).passed = true ∨ (srcS 1 (dividing 1 0)).toNat ≤ (dividing 1 0).cyc.toNat) := by
  unfold Active CanRelease; decide +kernel

/-- An image whose reserved bits stand, after a good one of zeros; and the rings set up. -/
def withImages (a : Word) : State :=
  let s := dividing a 0
  { s with mem := [⟨41, 0x10⟩], pkg := { s.pkg with pqring := Vector.replicate 4 0x10000000A } }

/-- What SPAWN's clauses ask of the image that its operand names. -/
def spawns (a : Word) (bad : Bool) : Bool :=
  let s := withImages a
  (srcS 1 s).toNat % 32 == 0 &&
  match readImage (srcS 1 s).toNat s with
  | .ok i t => i.bad == bad && (bad || (match s.myLaunch with
    | some l => s.core.run.isSome && t.clu.slog == [] && t.settled t.at_.core t.at_.clu .sys && t.mayPush l (bits 7 6 i.w3.toNat)
    | none => false))
  | _ => false

theorem meets_SpawnAndJoin :
    Active 0 (withImages 1) ∧ (srcS 1 (withImages 1)).toNat % 32 ≠ 0 ∧ spawns 0 false = true ∧ spawns 32 true = true ∧
    (srcS 1 (withImages 65536)).toNat ≥ 65536 ∧ CanRelease .sys (withImages 1) ∧
    (match (withImages 1).myLaunch with
    | some l => (match (withImages 1).namedRec l (srcS 1 (withImages 1)).toNat with | some r => r.state == .pending && r.jcnt != 0 | none => false) &&
      (srcS 1 (withImages 65535)).toNat == 65535 && (withImages 65535).namedRec l (srcS 1 (withImages 65535)).toNat == none
    | none => false) = true := by
  unfold Active CanRelease; decide +kernel

theorem meets_YieldAndExit :
    (dividing 64 4096).core.run = some ⟨1, 0, 7, 1, 0, []⟩ ∧ ((dividing 64 4096).iss.sync = false ∧ (inFolio (dividing 64 4096)).iss.sync = true) ∧ (srcS 2 (dividing 64 4096)).toNat > 4095 ∧ (srcS 1 (dividing 65 0)).toNat % 64 ≠ 0 ∧
    (srcS 1 (dividing 0x100000000000000 0)).toNat ≥ 2 ^ 56 ∧ (busy 0).iss.sync = false ∧
    (let s := inFolio (dividing 0xFFFFFFFFFFFFC0 4095)
     Active 0 s ∧ s.iss.sync = true ∧ NoPending s ∧ s.allEnded = true ∧ s.noneQueued = true ∧ AllCanRelease .sys s ∧ (srcS 1 s).toNat % 64 = 0 ∧
     (srcS 1 s).toNat < 2 ^ 56 ∧ (srcS 2 s).toNat ≤ 4095) ∧
    (∃ x ∈ (after (exec (.yield 0 1 2) (inFolio (dividing 64 0)))).recs, x.lid = 1 ∧ x.seq = 0 ∧ x.state = .ready) ∧
    ∃ x ∈ (after (exec (.exit 0) (inFolio (busy 0)))).recs, x.lid = 1 ∧ x.seq = 0 ∧ x.state = .draining := by
  unfold Active AllCanRelease NoPending; decide +kernel

/-- A core in a cycle that sets and clears cc bits and flags, both of one bit too, and raises a flag and an exception. -/
def cycling : Core :=
  { Core.reset with cc := 0x8000, ccSet := 0x8001, ccClr := 0x8000, f := 1, fSet := 0x8000000000000000, fClr := 1, fpSetNow := 0x40, exNow := [(3, ⟨7, [], false, 0, 1, 1⟩)] }

theorem meets_EndOfCycle :
    cycling.kpend = [] ∧ cycling.endCycle.cc = 0x8001 ∧ cycling.endCycle.f = 0x8000000000000000 ∧ cycling.endCycle.fpstat = 0x40 ∧
    ((cycling.endCycle).clu[(3 : CluId)]).pendEx ≠ [] ∧ ((cycling.endCycle).clu[(0 : CluId)]).pendEx = [] ∧
    (cycling.kWrite (0x001, 0x7F)).fpstat = 0x40 ∧ ({ cycling with fpstat := 0x41 }.kWrite (0x001, 0x01)).fpstat = 0x40 := by decide +kernel

/-- A state whose launches are deterministic. -/
def static (s : State) : State := { s with launches := s.launches.map fun l => { l with dyn := false } }

/-- The refusals of MTK NUMCTL (reserved rounding mode, non-SYNC in a static launch) and of MEMDEF, and the values that they take. -/
theorem meets_TheKSpace :
    Active 0 (busy 0) ∧ bits 10 8 0x500 ≤ 5 ∧ bits 10 8 0x600 > 5 ∧ (busy 0).iss.sync = false ∧ (∃ l, (static (busy 0)).myLaunch = some l ∧ l.dyn = false) ∧
    ((bits 9 7 0x240 = 0 ∨ bits 9 7 0x240 = 4) ∧ bits 4 3 0x240 ≠ 3 ∧ bits 2 1 0x240 = 0) ∧
    ((bits 9 7 0x204 = 0 ∨ bits 9 7 0x204 = 4) ∧ bits 4 3 0x204 ≠ 3 ∧ bits 2 1 0x204 < 3 ∧ (handling (busy 0)).iss.src.hm = true) ∧
    ¬((bits 9 7 0x80 = 0 ∨ bits 9 7 0x80 = 4)) ∧ bits 4 3 0x18 = 3 ∧ (busy 0).iss.src.inPiped = false ∧ inBody.iss.src.inPiped = true ∧
    ((busy 0).iss.src.lctr[(7 : Fin 8)]).act = false ∧
    (let s := { (busy 0) with iss := { (busy 0).iss with src := { (busy 0).iss.src with lctr := vput (busy 0).iss.src.lctr 2 ⟨true, 5⟩ } } }
     (s.iss.src.lctr[(2 : Fin 8)]).act = true) ∧ (handling (busy 0)).iss.src.hm = true ∧ (busy 0).iss.src.hm = false := by
  unfold Active
  refine ⟨by decide +kernel, by decide, by decide, by decide +kernel, ⟨_, rfl, by decide +kernel⟩, by decide, by decide +kernel, by decide, by decide,
    by decide +kernel, by decide +kernel, by decide +kernel, by decide +kernel, by decide +kernel, by decide +kernel⟩

/-- Pages of each target type at addresses 0 to 6·64 KiB, the last of a reserved type, and the next not mapped. -/
def placed (a : Word) : State :=
  let s := dividing a 0
  { s with tlb := s.tlb ++ [page 4 3 tileBase, page 5 1 linTop, page 6 6 0] }

/-- The target type at an address, as LOCALITY sees it. -/
def typeAt (a : Word) : Option Nat := match (xlatePage (placed a).attr (srcS 1 (placed a)).toNat (placed a)).1 with
  | .ok t => some t.tt
  | _ => none

theorem meets_TimeAndPlace :
    Active 0 (placed 0) ∧ (∃ l, (placed 0).myLaunch = some l) ∧ typeAt 0 = some 0 ∧ typeAt 0x10000 = some 4 ∧ typeAt 0x2FFFF = some 2 ∧
    typeAt 0x30000 = some 5 ∧ typeAt 0x40000 = some 3 ∧ typeAt 0x5FFFF = some 1 ∧ typeAt 0x6FFFF = some 6 ∧ typeAt 0x70000 = none ∧ typeAt 0x80000000000000 = none := by
  unfold Active
  exact ⟨by decide +kernel, ⟨_, rfl⟩, by decide +kernel, by decide +kernel, by decide +kernel, by decide +kernel, by decide +kernel, by decide +kernel,
    by decide +kernel, by decide +kernel, by decide +kernel⟩

/-- A state without a handler, and one whose launch is staged. -/
def noHandler (s : State) : State := s.onCore fun k => { k with tvec := 0 }
def stagedRun (s : State) : State := { s with launches := s.launches.map fun l => { l with flags := 4 } }

theorem meets_TakingATrap : (busy 0).clu.hm = false ∧ (busy 0).core.tvec.getLsbD 0 = true := by decide +kernel

theorem meets_TrapsThatAreNotTaken :
    (∃ run l, (busy 0).core.run = some run ∧ (busy 0).launch run.lid = some l ∧ l.staged = false ∧ ∃ x ∈ (busy 0).recs, x.lid = run.lid ∧ x.seq = run.seq ∧
      x.state = .running) ∧
    ((noHandler (busy 0)).clu.hm = false ∧ (noHandler (busy 0)).core.tvec.getLsbD 0 = false) ∧ (handling (busy 0)).clu.hm = true ∧
    (let s := stagedRun (handling (busy 0))
     s.clu.hm = true ∧ (∃ l, s.launch 1 = some l ∧ l.staged = true) ∧ ∃ x, s.recOf 1 0 = some x ∧ x.rollbacks < s.mc.rblimit.toNat) := by
  refine ⟨⟨_, _, rfl, rfl, by decide +kernel, _, List.mem_cons_self, by decide +kernel⟩, by decide +kernel, by decide +kernel, by decide +kernel,
    ⟨_, rfl, by decide +kernel⟩, ⟨_, rfl, by decide +kernel⟩⟩

theorem meets_SoftwareTrapsAndTheReturn :
    Active 0 (busy 0) ∧ (busy 0).clu.hm = false ∧ (busy 0).core.tvec.getLsbD 0 = true ∧ (busy 0).pkg.dbghalt.getLsbD (busy 0).asid.val = false ∧
    (({ (busy 0) with pkg := { (busy 0).pkg with dbghalt := 1 } } : State).pkg.dbghalt.getLsbD 0 = true) ∧ (handling (busy 0)).iss.src.hm = true ∧
    (busy 0).iss.src.hm = false ∧ ((handling (busy 0)).onClu fun c => { c with stoppedEng := some 3 }).clu.stoppedEng = some 3 := by
  unfold Active; decide +kernel

theorem meets_EngineWaitsAndAttributes :
    Active 0 (dividing 0x8000000 0) ∧ (srcS 1 (dividing 0x8000000 0)).toNat ≥ 2 ^ 27 ∧ (srcS 1 (dividing 0x7FFFFFF 0)).toNat < 2 ^ 27 ∧
    (∀ e : Eng, ((dividing 0x7FFFFFF 0).core.eng[e]).cmd = none ∧ ((dividing 0x7FFFFFF 0).core.eng[e]).queue = [] ∧ ((dividing 0x7FFFFFF 0).core.eng[e]).pulse = none) ∧
    (({ (dividing 1 0) with cores := vmod (dividing 1 0).cores 0 fun k => { k with eng := vmod k.eng 0 fun g => { g with pulse := some (1, 0) } } } : State).core.eng[(0 : Eng)]).pulse ≠ none ∧
    (let s := working 26 [] (dividing 0x4000000 0)
     (srcS 1 s).getLsbD 26 = true ∧ (s.core.eng[(26 : Eng)]).cmd.isSome = true ∧ s.passed = false) := by
  unfold Active; decide +kernel

-- Memory.

/-- Nothing logged, nothing to read in the log. -/
theorem readLog_nil (vas : List Nat) : readLog [] vas = .no := by
  unfold readLog
  cases vas with
  | nil => rfl
  | cons a vas => simp [lastWrite]

/-- Pages as the acting cluster has them cached. -/
def entries (s : State) (vas : List Nat) : List (Nat × Tlb) :=
  vas.map fun va => (va / 65536, (s.cached s.unit (s.spaceOf s.attr.asp).val (va % 2 ^ 56)).getD (page 0 0 0))

/-- What Translates asks, of pages that are all cached. -/
def pagesCached (s : State) (allows : Tlb → Bool) (vas : List Nat) : Bool :=
  s.attr.asp == .ctx && vas.all fun va => canonical va && !s.declinedAt s.attr va &&
    match s.cached s.unit (s.spaceOf s.attr.asp).val (va % 2 ^ 56) with
    | some t => allows t && decide (t.tt ≤ 5)
    | none => false

theorem translates_of {s : State} {allows : Tlb → Bool} {vas : List Nat} (h : pagesCached s allows vas = true) :
    Translates s.attr allows vas s (entries s vas) s := by
  simp only [pagesCached, Bool.and_eq_true, List.all_eq_true, beq_iff_eq, Bool.not_eq_true'] at h
  obtain ⟨x, h⟩ := h
  induction vas with
  | nil => exact ⟨rfl, rfl⟩
  | cons va vas ih =>
    have g := h va List.mem_cons_self
    cases e : s.cached s.unit (s.spaceOf s.attr.asp).val (va % 2 ^ 56) with
    | none => rw [e] at g; exact absurd g.2 Bool.false_ne_true
    | some t =>
      rw [e] at g
      simp only [Bool.and_eq_true, decide_eq_true_eq] at g
      refine ⟨g.1.2, t, s, entries s vas, xlatePage_cached (by rw [x]; exact Asp.noConfusion) g.1.1 e, g.2.1, g.2.2, ?_,
        ih fun v m => h v (List.mem_cons_of_mem _ m)⟩
      show (_, (s.cached s.unit (s.spaceOf s.attr.asp).val (va % 2 ^ 56)).getD _) :: entries s vas = _
      rw [e]; rfl

/-- What LoadPerforms asks, of a relaxed or acquire load with nothing logged. -/
def loadsHere (s : State) (vas : List Nat) : Bool :=
  s.aspAllowed s.attr && (s.attr.ord == .rlx || s.attr.ord == .acq) && s.clu.slog == [] && s.clu.scOut == [] && !(s.acquiring s.at_.core s.at_.clu) &&
  s.attr.scope != .sys && pagesCached s Tlb.r (pagesOf vas) && (placesOf (entries s (pagesOf vas)) vas).all fun k => !s.sealed k && !s.badAt k

/-- Requested ports are all that a load of such pages leaves. -/
theorem touched_clean {s : State} (w : s.weak = []) (ps : List (Nat × Tlb)) (ks : List Nat) :
    ∃ f, touched ps ks s = { s with iss := { s.iss with ports := f } } := by
  have u : ∀ (ps : List (Nat × Tlb)) (s : State), ∃ f, usePages ps s = { s with iss := { s.iss with ports := f } } := by
    intro ps
    induction ps with
    | nil => exact fun s => ⟨s.iss.ports, rfl⟩
    | cons p ps ih => exact fun s => ih (usePort (p.2.port s.at_.core) s)
  obtain ⟨f, e⟩ := u ps s
  refine ⟨f, ?_⟩
  unfold touched State.correctAt State.correct
  rw [e]
  simp only [w, List.filter_nil, List.foldl_nil]

theorem loadPerforms_of {s : State} {vas : List Nat} (h : loadsHere s vas = true) (w : s.weak = []) :
    ∃ bs t f, LoadPerforms s vas bs t ∧ t = { s with iss := { s.iss with ports := f } } := by
  simp only [loadsHere, Bool.and_eq_true, List.all_eq_true, beq_iff_eq, bne_iff_ne, Bool.or_eq_true, Bool.not_eq_true'] at h
  obtain ⟨⟨⟨⟨⟨⟨⟨p, o⟩, l⟩, z⟩, q⟩, sy⟩, c⟩, d⟩ := h
  let ps := entries s (pagesOf vas)
  let ks := (placesOf ps vas).filter fun k => (s.stagedByte k).isNone
  obtain ⟨f, e⟩ := touched_clean w ps ks
  have log : s.logHere = [] := by unfold State.logHere; rw [l]; rfl
  have plain : s.attr.releases = false ∧ (s.attr.ord == Ord.sc) = false := by unfold Attr.releases; rcases o with o | o <;> rw [o] <;> exact ⟨rfl, rfl⟩
  refine ⟨_, _, f, ⟨p, o.elim .inl fun e => .inr (.inl e), ⟨?_, z, fun _ => q, ?_⟩, ?_, .inr ⟨?_, ps, s, translates_of c, ?_, ?_, rfl, rfl⟩⟩, e⟩
  · rw [l]; exact fun e m => nomatch m
  · rw [plain.2]; exact fun e => nomatch e
  · unfold Settled; rw [plain.1]; exact fun e => nomatch e
  · rw [log]; exact readLog_nil vas
  · exact fun k m => ⟨(d k m).1, fun b => absurd ((d k m).2.symm.trans b) Bool.false_ne_true⟩
  · unfold hostOrdered
    exact fun b => absurd (eq_of_beq (Bool.and_eq_true .. ▸ b).1) sy

/-- What StorePerforms asks, of a store with nothing logged. -/
def storesHere (s : State) (vas : List Nat) : Bool :=
  s.aspAllowed s.attr && (s.attr.ord == .rlx || s.attr.ord == .sc) && s.clu.slog == [] && s.clu.scOut == [] && s.replayed s.at_.core s.at_.clu && pagesCached s Tlb.w (pagesOf vas) &&
  (placesOf (entries s (pagesOf vas)) vas).all fun k => !s.sealed k

theorem storePerforms_of {s : State} {vas : List Nat} (h : storesHere s vas = true) : StorePerforms s vas (entries s (pagesOf vas)) s := by
  simp only [storesHere, Bool.and_eq_true, Bool.or_eq_true, List.all_eq_true, beq_iff_eq, Bool.not_eq_true'] at h
  obtain ⟨⟨⟨⟨⟨⟨p, o⟩, l⟩, z⟩, r⟩, c⟩, d⟩ := h
  have log : s.logHere = [] := by unfold State.logHere; rw [l]; rfl
  refine ⟨p, o.elim .inl fun e => .inr (.inr e), ⟨(by rw [l]; exact fun e m => nomatch m), z, (fun e => nomatch e), fun _ => ⟨l, r⟩⟩, translates_of c, ?_, d⟩
  · unfold State.meetsLog; rw [log, readLog_nil]

/-- A load performs here, and stores too. -/
def Loads (s : State) (vas : List Nat) : Prop := ∃ bs t, LoadPerforms s vas bs t
theorem loads_of {s : State} {vas : List Nat} (h : loadsHere s vas = true ∧ s.weak = []) : Loads s vas :=
  (loadPerforms_of h.1 h.2).elim fun bs h => h.elim fun t h => h.elim fun _ h => ⟨bs, t, h.1⟩
/-- The pages of a store of the acting cluster are plain ones. -/
def plainHere (s : State) (vas : List Nat) : Bool := storesHere s vas && (entries s (pagesOf vas)).all fun p => p.2.tt != 4
theorem stores_of {s : State} {vas : List Nat} (h : plainHere s vas = true) :
    ∃ ps u, StorePerforms s vas ps u ∧ PlainPages ps := by
  simp only [plainHere, Bool.and_eq_true, List.all_eq_true, bne_iff_ne] at h
  exact ⟨_, _, storePerforms_of h.1, h.2⟩

/-- A state with two operands, a lattice type, and two vector registers that hold 0 in every lane. -/
def acts (lt : BitVec 4) (a b : Word) : State := withS [(1, a), (2, b)] (busy 0 lt)

/-- A state whose cluster has a logged store of 8 bytes at an address. -/
def logged (va : Nat) (s : State) : State :=
  s.onClu fun c => { c with slog := [⟨.store .scalar ((bytesFrom va 8).map fun a => (a, 7)), ⟨.rlx, .pkg, .norm, .ctx⟩, 0, some (va, false)⟩] }

theorem meets_EffectiveAddresses :
    eaOf (.off 1 0x1FF) 8 (acts 0 7 0) = 2 ^ 64 - 1 ∧ eaOf (.idx 1 2) 8 (acts 0 (BitVec.allOnes 64) 2) = 1 ∧
    (strided (BitVec.allOnes 64) 1)[127]? = some 126 ∧ (indexed 1 (Vector.replicate 128 (BitVec.allOnes 32)))[127]? = some 0 := by decide +kernel

/-- A doubleword load in a lattice page of a type. -/
def cellLoads (c : BitVec 4 × Word) : Bool :=
  loadsHere (acts c.1 c.2 0) (bytesFrom (eaOf (.off 1 0) 8 (acts c.1 c.2 0)) 8) && decide (eaOf (.off 1 0) 8 (acts c.1 c.2 0) % 8 = 0) &&
  decide (((acts c.1 c.2 0).latticePage (eaOf (.off 1 0) 8 (acts c.1 c.2 0))).map Tlb.ltype = some c.1)

/-- The last doubleword of a plain page, a lattice cell of every kind that LD takes and of those that it does not, loads of the side log and of
memory, a vector across a page's last bytes, unpacked fields, and lanes that stride through a page. -/
theorem meets_LoadsGiveTheirRegister :
    Active 0 (acts 0 0xFFF8 0) ∧
    (Loads (acts 0 0xFFF8 0) (bytesFrom (eaOf (.off 1 0) (ldBytes .d64) (acts 0 0xFFF8 0)) (ldBytes .d64)) ∧
      eaOf (.off 1 0) (ldBytes .d64) (acts 0 0xFFF8 0) % 8 = 0 ∧ (acts 0 0xFFF8 0).latticePage 0xFFF8 = none) ∧
    (Loads (acts 0 0x1FFFE 0) (bytesFrom (eaOf (.off 1 0) (ldBytes .i16) (acts 0 0x1FFFE 0)) (ldBytes .i16)) ∧ eaOf (.off 1 0) 2 (acts 0 0x1FFFE 0) % 2 = 0) ∧
    Loads (logged 0x8 (acts 0 8 0)) (bytesFrom (eaOf (.off 1 0) (ldBytes .d64) (acts 0 8 0)) (ldBytes .d64)) ∧
    (∀ c ∈ ([(0, 0x1FFF8), (5, 0x1FFF8), (6, 0x10000), (7, 0x10008), (7, 0x1FFC0)] : List (BitVec 4 × Word)),
      Loads (acts c.1 c.2 0) (bytesFrom (eaOf (.off 1 0) 8 (acts c.1 c.2 0)) 8) ∧ eaOf (.off 1 0) 8 (acts c.1 c.2 0) % 8 = 0 ∧
        ((acts c.1 c.2 0).latticePage (eaOf (.off 1 0) 8 (acts c.1 c.2 0))).map Tlb.ltype = some c.1) ∧
    (Loads (acts 0 0x800 0) (bytesFrom (eaOf (.off 1 0) 16 (acts 0 0x800 0)) (16 * vkWidth .w32)) ∧ eaOf (.off 1 0) 16 (acts 0 0x800 0) % 16 = 0) ∧
    (let p := unpkOf (busy 0).core.unpk[(0 : Fin 4)]
     p.first + (p.cnt - 1) * p.step + p.w ≤ p.per ∧ Loads (acts 0 0x800 0) (bytesFrom (eaOf (.off 1 0) 16 (acts 0 0x800 0)) p.bytes)) ∧
    (let p := unpkOf 0x100000000#64; ¬(p.first + (p.cnt - 1) * p.step + p.w ≤ p.per)) ∧
    (Loads (acts 0 0xFFFC 0) (bytesFrom (eaOf (.off 1 0) 16 (acts 0 0xFFFC 0)) (vkElem .w32)) ∧ eaOf (.off 1 0) 16 (acts 0 0xFFFC 0) % vkElem .w32 = 0) ∧
    (let as := strided (srcS 1 (acts 0 0xFE00 4)) (srcS 2 (acts 0 0xFE00 4))
     (∀ a ∈ as, a % vkElem .w32 = 0) ∧ Loads (acts 0 0xFE00 4) (as.flatMap fun a => bytesFrom a (vkElem .w32))) ∧
    (let as := indexed (srcS 1 (acts 0 0xFFFC 4)) (srcV 1 (acts 0 0xFFFC 4))
     (∀ a ∈ as, a % 4 = 0) ∧ Loads (acts 0 0xFFFC 4) (as.flatMap fun a => bytesFrom a 4)) ∧
    (busy 0).aspAllowed (busy 0).attr = true ∧ (busy 0).weak = [] := by
  refine ⟨by unfold Active; decide +kernel, ⟨loads_of (by decide +kernel), by decide +kernel, by decide +kernel⟩, ⟨loads_of (by decide +kernel), by decide +kernel⟩,
    ⟨_, _, by decide +kernel, .inl (by decide +kernel), ⟨by decide +kernel, by decide +kernel, fun _ => by decide +kernel, (fun e => nomatch e)⟩, (fun e => nomatch e), .inl ⟨rfl, rfl⟩⟩,
    ?_, ⟨loads_of (by decide +kernel), by decide +kernel⟩,
    ⟨by decide +kernel, loads_of (by decide +kernel)⟩, by decide, ⟨loads_of (by decide +kernel), by decide +kernel⟩,
    ⟨by decide +kernel, loads_of (by decide +kernel)⟩, ⟨by decide +kernel, loads_of (by decide +kernel)⟩, by decide +kernel, rfl⟩
  have h : ([(0, 0x1FFF8), (5, 0x1FFF8), (6, 0x10000), (7, 0x10008), (7, 0x1FFC0)] : List (BitVec 4 × Word)).all cellLoads = true := by decide +kernel
  intro c m
  have k := List.all_eq_true.1 h c m
  simp only [cellLoads, Bool.and_eq_true, decide_eq_true_eq] at k
  exact ⟨loads_of ⟨k.1.1, rfl⟩, k.1.2, k.2⟩

/-- A line under another order; replicas of slot 0 on another package; a staged byte of record 0, of its store `n`; and a fence behind it. -/
def ordering (o : Ord) (s : State) : State := { s with iss := { s.iss with attr := some ⟨o, .pkg, .norm, .ctx⟩ } }
def meeting (s : State) : State :=
  { s with slots := s.slots.map fun r => { r with lscope := true }
           island := { s.island with state := .attached, ports := vmod s.island.ports 0 fun p => { p with lstate := 2, ncpres := true } } }
def held9 (n : Nat) (s : State) : State := s.coreUpd 0 fun k => { k with staging := [⟨1, 0, 0, 5, 7, .rlx, .pkg, 5, 0, 0, 0, 0, n⟩] }
def afterFence (s : State) : State := s.onClu fun c => { c with relAt := 2 }

/-- The cell at the end of page 1 holds `x` (the bottom, where 0), and a checked store of `v` to it performs; the join is `v` only where `x` is lower. -/
def checksCell (x : Nat) (v : Word) (s0 : State) : Bool :=
  let s := { s0 with lat := if x = 0 then [] else [⟨0, 0, 65528, x⟩] }
  let e := entries s (pagesOf (bytesFrom (eaOf (.off 1 0) 8 s) 8))
  storesHere s (bytesFrom (eaOf (.off 1 0) 8 s) 8) && e == [(1, page 1 4 latBase)] && srcS 1 s == 0x1FFF8 && srcS 2 s == v &&
  !(s.acquiring s.at_.core s.at_.clu) && s.settled s.at_.core s.at_.clu s.attr.scope && cellNamed (page 1 4 latBase) (eaOf (.off 1 0) 8 s) == (0, 65528, 0) &&
  s.latGet 0 0 65528 0 == x && v != 0

/-- The last doubleword of host memory's page, a vector of each width of store, strides that wrap, and a cell of a lattice page. -/
theorem meets_StoresPerformTheirBytes :
    Active 0 (acts 0 0x3FFF8 0) ∧
    (plainHere (acts 0 0x3FFF8 0) (bytesFrom (eaOf (.off 1 0) (stBytes .d64) (acts 0 0x3FFF8 0)) (stBytes .d64)) = true ∧
      eaOf (.off 1 0) (stBytes .d64) (acts 0 0x3FFF8 0) % 8 = 0) ∧
    plainHere (acts 0 0xFE00 0) (bytesFrom (eaOf (.off 1 0) 16 (acts 0 0xFE00 0)) (16 * vsWidth .w32)) = true ∧
    (let bs := vstmBytes (vstmAddr (.msk 1 0) (acts 0 0xFE00 0)).1 (vstmAddr (.msk 1 0) (acts 0 0xFE00 0)).2 (srcV 1 (acts 0 0xFE00 0))
     bs ≠ [] ∧ plainHere (acts 0 0xFE00 0) (bs.map Prod.fst) = true) ∧
    (vstmBytes (vstmAddr (.msk 1 1) (acts 0 0xFE00 0)).1 (vstmAddr (.msk 1 1) (acts 0 0xFE00 0)).2 (srcV 1 (acts 0 0xFE00 0)) = [] ∧
      (acts 0 0xFE00 0).storeAttr = true) ∧
    (let s := acts 0 0xFFFC 0xFFFFFFFFFFFFFFFC
     (∀ a ∈ strided (srcS 1 s) (srcS 2 s), a % vsElem .w32 = 0) ∧
     plainHere s ((elemStores (vsElem .w32) (strided (srcS 1 s) (srcS 2 s)) ((vlist (srcV 1 s)).map (vsPart .w32))).map Prod.fst) = true) ∧
    (let s := acts 0 0xFFFC 4
     (∀ a ∈ indexed (srcS 1 s) (srcV 1 s), a % 4 = 0) ∧
     plainHere s ((elemStores 4 (indexed (srcS 1 s) (srcV 1 s)) ((vlist (srcV 1 s)).map BitVec.toNat)).map Prod.fst) = true) ∧
    plainHere (acts 0 0xFF80 1) (strided (srcS 1 (acts 0 0xFF80 1)) (srcS 2 (acts 0 0xFF80 1))) = true ∧
    (∀ x ∈ ([(0, 5), (5, 4)] : List (Nat × Word)), checksCell x.1 x.2 (acts 0 0x1FFF8 x.2) = true ∧
      checksCell x.1 x.2 (ordering .sc (acts 0 0x1FFF8 x.2)) = true ∧ (acts 0 0x1FFF8 x.2).reaches 0 = false ∧
      checksCell x.1 x.2 (ordering .sc (meeting (acts 0 0x1FFF8 x.2))) = true ∧ (meeting (acts 0 0x1FFF8 x.2)).reaches 0 = true ∧
      (let s := held9 1 (afterFence (acts 0 0x1FFF8 x.2))
       checksCell x.1 x.2 s = true ∧ s.defers 0 0 s.runKey s.attr = true)) := by
  unfold Active; decide +kernel

theorem meets_PerformedStoresAndTheirFrame :
    (∀ b ∈ ([(0, 5, 7), (5, hostBase, 9)] : List (Nat × Nat × Byte)), b.1 < 6 ∧ (busy 0).badAt b.2.1 = false ∧
      (busy 0).aside 0 0 (some (1, 0)) (busy 0).attr b = false) ∧
    (let s := held9 1 (stagedRun (busy 0))
     (∃ l, s.launch 1 = some l ∧ l.staged = true) ∧ s.at_.core = 0 ∧
     (((s.cores[(0 : CoreId)]).staging.filter fun (b : Staged) => b.window == 0 || b.window == 1 || b.window == 5).map (fun (b : Staged) => b.pa / 64) ++
        ([(0, 5, 7), (5, hostBase, 9)] : List (Nat × Nat × Byte)).map fun (b : Nat × Nat × Byte) => b.2.1 / 64).eraseDups.length ≤ 32768) ∧
    lastWrite 5 ([(5, 7), (hostBase, 9)] : List (Nat × Byte)) = some 7 := by
  refine ⟨by decide +kernel, ⟨⟨_, rfl, by decide +kernel⟩, by decide +kernel, by decide +kernel⟩, by decide +kernel⟩

/-- A page that may not be read or not be written, or of a reserved type, and one in migration. -/
def closed (r w : Bool) (tt : Nat := 0) : Tlb := { page 0 tt 0 with r := r, w := w }
def shut (t : Tlb) (a : Word) : State := { (acts 0 a 0) with tlb := [t] }

/-- What the clauses ask of an access of 8 bytes at an address. -/
def looksAt (s : State) (a : Nat) : Bool :=
  s.aspAllowed s.attr && s.attr.ord == .rlx && eaOf (.off 1 0) (ldBytes .d64) s == a && eaOf (.off 1 0) (stBytes .d64) s == a && a % 8 == 0 &&
  s.clu.slog == [] && !(s.acquiring s.at_.core s.at_.clu) && readLog s.logHere (bytesFrom a 8) == .no

/-- Tables in memory by which page 5 of address space 0 is in migration, of a target type. -/
def migrating (tt : Nat) : State :=
  let s := acts 0 0x50000 0
  let t := [(0x8000, 2 ^ 63 + 0x9000), (0x9000, 2 ^ 63 + 0xA000), (0xA000, 2 ^ 63 + 0xB000), (0xB000, 2 ^ 63 + 0xC000),
    (0xC028, 2 ^ 63 + 2 ^ 62 + tt * 2 ^ 59 + 0x7C0000000000000 + (if tt = 4 then latBase else 0))]
  t.foldl (fun s e => s.putPhys e.1 (leBytes 8 e.2)) { s with ctxs := vput s.ctxs 0 { s.ctxs[(0 : Fin 64)] with ptroot := 0x8000 } }

/-- An address space that a handler only names; misaligned operands; a page that its driver declined, each refused page, an address outside the
map of the physical space, one that is not canonical, and a lattice page in migration. -/
theorem meets_AccessesThatDoNotPerform :
    (let s := { (acts 0 0 0) with iss := { (acts 0 0 0).iss with attr := some ⟨.rlx, .pkg, .norm, .drv⟩ } }
     Active 0 s ∧ s.attr.asp ≠ .ctx ∧ s.iss.src.hm = false) ∧
    eaOf (.off 1 0) (ldBytes .i16) (acts 0 1 0) % ldBytes .i16 ≠ 0 ∧ eaOf (.off 1 0) (stBytes .d64) (acts 0 7 0) % stBytes .d64 ≠ 0 ∧
    (∀ t ∈ [closed false true, closed true false, closed true true 6, closed true true 7], looksAt (shut t 8) 8 = true ∧ (shut t 8).declinedAt (shut t 8).attr 8 = false ∧
      xlatePage (shut t 8).attr 8 (shut t 8) = (.ok t, shut t 8)) ∧
    (let s := (acts 0 8 0).onClu fun c => { c with hold := .declined 0 8 }
     looksAt s 8 = true ∧ s.declinedAt s.attr 8 = true) ∧
    (looksAt (acts 0 0x80000000000000 0) 0x80000000000000 = true ∧
      xlatePage (acts 0 0x80000000000000 0).attr 0x80000000000000 (acts 0 0x80000000000000 0) = (.unmapped, acts 0 0x80000000000000 0)) ∧
    (let s := handling (acts 0 0x80000000000000 0)
     let u : State := { s with iss := { s.iss with attr := some ⟨.rlx, .pkg, .norm, .phys⟩ } }
     looksAt u 0x80000000000000 = true ∧ (xlatePage u.attr 0x80000000000000 u).1 = .nowhere) ∧
    (∀ tt ∈ ([0, 4] : List Nat), looksAt (migrating tt) 0x50000 = true ∧ (xlatePage (migrating tt).attr 0x50000 (migrating tt)).1 = .migrating (tt == 4)) ∧
    (acts 0 0 0).clu.slog.length + ((acts 0 0 0).core.left.filter fun y => y.clu == (acts 0 0 0).at_.clu).length < 32 := by
  refine ⟨by unfold Active; decide +kernel, by decide +kernel, by decide +kernel, ?_, by decide +kernel, ⟨by decide +kernel, ?_⟩, by decide +kernel, by decide +kernel, by decide +kernel⟩
  · have h : ∀ t ∈ [closed false true, closed true false, closed true true 6, closed true true 7],
        looksAt (shut t 8) 8 = true ∧ (shut t 8).declinedAt (shut t 8).attr 8 = false ∧ (shut t 8).attr.asp = .ctx ∧
          (shut t 8).cached (shut t 8).unit ((shut t 8).spaceOf (shut t 8).attr.asp).val (8 % 2 ^ 56) = some t := by decide +kernel
    exact fun t m => ⟨(h t m).1, (h t m).2.1, xlatePage_cached (by rw [(h t m).2.2.1]; exact Asp.noConfusion) (by decide) (h t m).2.2.2⟩
  · exact xlatePage_noncanonical (by decide +kernel) (by decide +kernel)


/-- What the atomics ask of their operands. -/
def atomicsHere (s : State) (va n : Nat) : Bool :=
  match entries s [va] with
  | [(_, e)] =>
    let ks := (bytesFrom va n).map fun a => (placeIn e a).2
    pagesCached s Tlb.w [va] && va % n == 0 && decide (e.tt ≠ 4) && s.clu.slog == [] && s.attr.ord == .rlx && !(s.meetsLog (bytesFrom va n)) &&
    s.clu.scOut == [] && !(s.acquiring s.at_.core s.at_.clu) && ks.all (fun k => !s.sealed k && !s.badAt k) && !(hostOrdered s.attr [(va / 65536, e)]) &&
    !((s.correctAt ks).contested s.at_.core s.at_.clu s.runKey ks)
  | _ => false

/-- The last word of linear HBM's page, host memory for the operations that it takes, scratchpad for a pair; pages and operands that refuse. -/
theorem meets_AtomicsReadAndWriteAtOnce :
    (Active 0 (acts 0 0xFFF8 0) ∧ (acts 0 0xFFF8 0).aspAllowed (acts 0 0xFFF8 0).attr = true) ∧
    (∀ x ∈ ([(0xFFF8, 8), (0xFFFC, 4), (0x3FFF8, 8), (0x2FFF0, 16)] : List (Nat × Nat)), atomicsHere (acts 0 (BitVec.ofNat 64 x.1) 0) x.1 x.2 = true ∧
      (srcS 1 (acts 0 (BitVec.ofNat 64 x.1) 0)).toNat = x.1) ∧
    ((page 3 5 0).tt = 5 ∧ (AmoOp.add == .swap || AmoOp.add == .add) = true ∧ (page 2 2 0).tt ≤ 2) ∧
    ((62 : SReg).val % 2 = 0 ∧ (62 : SReg).val ≠ 0) ∧ leNat ((bytesFrom 0xFFF8 8).map fun a => (acts 0 0xFFF8 0).atomicByte (some (1, 0)) 0 a) = 0 ∧
    srcS 3 (acts 0 0xFFF8 0) = 0 ∧ srcS 1 (acts 0 0xFFF8 0) ≠ 0 ∧ (srcS 1 (acts 0 0xFFFC 0)).toNat % 8 ≠ 0 ∧
    ((acts 0 0x1FFF8 0).declinedAt (acts 0 0x1FFF8 0).attr 0x1FFF8 = false ∧ ((acts 0 0x1FFF8 0).latticePage 0x1FFF8).map Tlb.w = some true) := by
  unfold Active; decide +kernel

/-- What the lattice instructions ask, for a cell of `n` bytes at the operand's address. -/
def cellHere (lt : BitVec 4) (s : State) (va n : Nat) : Bool :=
  s.aspAllowed s.attr && s.attr.ord == .rlx && entries s [va] == [(va / 65536, page 1 4 latBase lt)] && pagesCached s Tlb.r [va] && pagesCached s Tlb.w [va] &&
  s.clu.slog == [] && s.clu.scOut == [] && !(s.acquiring s.at_.core s.at_.clu) && !(s.meetsLog (bytesFrom va n)) && va % (latSize lt.toNat) == 0 && s.clu.pendEx == []

/-- A held LWAIT, its test still to come or decided. -/
def waiting (done : Option (Bool × Word)) (s : State) : State :=
  let h : Hold := .lwait 0 0x1FFF8 0 s.attr none done
  { (s.onClu fun c => { c with hold := h }) with iss := { s.iss with src := { s.iss.src with hold := h } } }

/-- A cell of each type, at the end of its page, a GCNT operand at its limit, an SC join that reaches another package or none, and one that stands
behind a staged byte; an LWAIT that is over, one that is not, one whose cell a clk looks at, one whose page has gone; and the fences' waits, over
or not. -/
theorem meets_LatticeCellsAndFences :
    Active 0 (acts 0 0x1FFF8 0) ∧
    (∀ lt ∈ ([0, 1, 2, 3, 4, 5] : List (BitVec 4)), cellHere lt (acts lt 0x1FFF8 0) (eaOf (.off 1 0) 1 (acts lt 0x1FFF8 0)) 8 = true) ∧
    (∀ lt ∈ ([6, 7] : List (BitVec 4)), cellHere lt (acts lt 0x1FFC0 0) (eaOf (.off 1 0) 1 (acts lt 0x1FFC0 0)) 64 = true ∧
      eaOf (.off 1 0) 16 (acts lt 0x1FFC0 0) = 0x1FFC0) ∧ (srcS 2 (acts 7 0x1FFC0 0xFFFFFFFFF)).toNat < 2 ^ 36 ∧
    (∀ s ∈ [ordering .sc (acts 0 0x1FFF8 0), ordering .sc (meeting (acts 0 0x1FFF8 0))], WaitsOver s true true ∧ s.settled 0 0 .pkg = true ∧
      s.defers 0 0 s.runKey s.attr = false) ∧
    ((acts 0 0x1FFF8 0).reaches 0 = false ∧ (meeting (acts 0 0x1FFF8 0)).reaches 0 = true) ∧
    (held9 1 (afterFence (acts 0 0x1FFF8 0))).defers 0 0 (some (1, 0)) (acts 0 0x1FFF8 0).attr = true ∧
    NoPending (acts 0 0x1FFF8 0) ∧ (acts 0 0x1FFF8 0).iss.src.hold = .none ∧
    latPassed 0 ((acts 0 0x1FFF8 0).cellSeen 0 65528 0) 0 = true ∧ latPassed 0 ((acts 0 0x1FFF8 0).cellSeen 0 65528 0) 1 = false ∧
    ((waiting (some (true, 0)) (acts 0 0x1FFF8 0)).iss.src.hold = .lwait 0 0x1FFF8 0 (acts 0 0x1FFF8 0).attr none (some (true, 0)) ∧
      (0#64).toNat ≤ (acts 0 0x1FFF8 0).cyc.toNat ∧ (acts 0 0x1FFF8 0).cyc.toNat < (1#64).toNat) ∧
    (waiting none (acts 0 0x1FFF8 0)).iss.src.hold = .lwait 0 0x1FFF8 0 (acts 0 0x1FFF8 0).attr none none ∧
    ((((waiting none (acts 0 0x1FFF8 0)).cores[(0 : CoreId)]).clu[(0 : CluId)]).hold = .lwait 0 0x1FFF8 0 (acts 0 0x1FFF8 0).attr none none ∧
      (xlatePage (acts 0 0x1FFF8 0).attr 0x1FFF8 (waiting none (acts 0 0x1FFF8 0))).1 = .ok (page 1 4 latBase) ∧
      (xlatePage (acts 0 0x1FFF8 0).attr 0x1FFF8 { (waiting none (acts 0 0x1FFF8 0)) with tlb := [] }).1 = .unmapped) ∧
    ((4 : Nat) < 5 ∧ 2 ^ 64 - 1 < 2 ^ 64) ∧
    (NoPending (busy 0) ∧ CanRelease .sys (busy 0) ∧ (busy 0).clu.slog = [] ∧ (busy 0).replayed (busy 0).at_.core (busy 0).at_.clu = true ∧ (busy 0).hbmSettled .sys = true) ∧
    ((logged 0 (busy 0)).passed = false ∧ (logged 0 (busy 0)).clu.slog ≠ [] ∧ NoPending (logged 0 (busy 0))) := by
  unfold Active CanRelease NoPending WaitsOver; decide +kernel
-- Tiles and engines.

/-- A tile request as TALLOC's operands give it, and an entry for it. -/
def handle (h lev : Nat) (f : TileEnt → TileEnt) : Nat × TileEnt :=
  (h, f ((⟨3, if lev = 2 then 63 else 1023, if lev = 2 then 2 else 0, lev, 0⟩ : TReq).entry h h (4 * h) 5 6 none))

/-- Core 0 holds handle 0 of its own, handle 1 of an engine, handle 2 pinned to the limit, handle 3 pinned and handle 4 in flight. -/
def tiled (a b : Word) : State :=
  let s := acts 0 a b
  { (s.coreUpd 0 fun k => { k with tiles :=
      [handle 0 1 id, handle 1 1 fun t => { t with owner := true }, handle 2 0 fun t => { t with pins := 255 }, handle 3 1 fun t => { t with pins := 1 },
       handle 4 1 fun t => { t with infl := true }, handle 6 2 id] }) with
    ctxs := vput s.ctxs 0 { s.ctxs[(0 : Fin 64)] with active := true, backsize := 16777216, texp := 1, cexp := 1 } }

/-- The entry that a handle number names. -/
def entAt (h : Nat) : TileEnt := match (tiled 0 0).tileEnt h with
  | some t => t
  | none => (handle 0 1 id).2

/-- A bad request, one that finds no room, one that finds handle 5; and handles in each state. -/
theorem meets_TileHandles :
    Active 0 (tiled 0 0) ∧ tallocBad (srcS 1 (tiled 0x40000000 0)) (srcS 2 (tiled 0x40000000 0)) (tiled 0x40000000 0) = true ∧
    (let s := tiled 0x10010003 0x21
     tallocBad (srcS 1 s) (srcS 2 s) s = false ∧ (tallocFind (reqOf (srcS 1 s) (srcS 2 s)) s.at_.core s.asid s).map Prod.fst = some 5) ∧
    (let s := { (tiled 0x10010003 0x21) with ctxs := vput (tiled 0 0).ctxs 0 { (tiled 0 0).ctxs[(0 : Fin 64)] with backsize := 0 } }
     tallocBad (srcS 1 s) (srcS 2 s) s = false ∧ tallocFind (reqOf (srcS 1 s) (srcS 2 s)) s.at_.core s.asid s = none) ∧
    (∀ h ∈ ([0, 1, 2, 3, 4] : List (Fin 1024)), handleOf (.num h) (tiled 0 0) = some h.val ∧ (tiled 0 0).tileEnt h.val = some (entAt h.val)) ∧
    ((entAt 0).owner = false ∧ (entAt 0).pins = 0 ∧ (entAt 0).infl = false) ∧ (entAt 1).owner = true ∧ (entAt 2).pins = 255 ∧ (entAt 3).pins = 1 ∧
    (entAt 4).infl = true ∧ (handleOf (.reg 1) (tiled 1023 0) = some 1023 ∧ (tiled 1023 0).tileEnt 1023 = none) := by
  unfold Active; decide +kernel

theorem meets_TileOwnershipAndContents :
    (Holds (.num 0) 0 (entAt 0) (tiled 0 0) ∧ Holds (.num 1) 1 (entAt 1) (tiled 0 0) ∧ Holds (.num 6) 6 (entAt 6) (tiled 0 0)) ∧
    ((entAt 0).owner = false ∧ (tiled 0 0).clu.slog = [] ∧ (tiled 0 0).replayed (tiled 0 0).at_.core (tiled 0 0).at_.clu = true ∧ (entAt 0).res = true) ∧
    ((entAt 1).owner = true ∧ (tiled 0 0).named (tiled 0 0).at_.core (tiled 0 0).core.asid 1 (ttakeStamp 1 (tiled 0 0)) = false) ∧
    (let x := srcS 1 (tiled (BitVec.ofNat 64 (2 ^ 32 + 3)) 0)
     x.toNat < 2 ^ 48 ∧ (entAt 0).level ≠ 2 ∧ bits 31 0 x.toNat < (entAt 0).rows ∧ 512 * bits 47 32 x.toNat < (entAt 0).rowBytes) ∧
    (entAt 6).level = 2 ∧ ¬(bits 31 0 (srcS 1 (tiled 4 0)).toNat < (entAt 0).rows) ∧
    ¬(512 * bits 47 32 (srcS 1 (tiled (BitVec.ofNat 64 (2 ^ 33)) 0)).toNat < (entAt 0).rowBytes) := by
  unfold Holds; decide +kernel

/-- An engine whose queue is full, and one whose mark is set. -/
def queued (n : Nat) (s : State) : State := s.engUpd 0 3 fun g => { g with queue := List.replicate n (.wait 5), mark := true }

theorem meets_EngineIssue :
    (∀ e : Eng, (acts 0 0 0).fenced e.val = false) ∧ (({ (acts 0 0 0) with tile := vmod (acts 0 0 0).tile 3 fun t => { t with fenced := true } } : State).fenced 3 = true) ∧
    rangesBad 3 0 (srcS 1 (acts 0 0 0)) (srcS 2 (acts 0 0 0)) (acts 0 0 0) = false ∧
    (let s := (acts 0 1 0).engUpd 0 3 fun g => { g with entries := [0x4000] }
     rangesBad 3 0 (srcS 1 s) (srcS 2 s) s = true) ∧
    CanRelease .pkg (acts 0 0 0) ∧ CanRelease .core (acts 0 0 0) ∧ (queued 7 (acts 0 0 0)).queueFull 3 = false ∧
    ((queued 8 (acts 0 0 0)).queueFull 3 = true ∧ (queued 8 (acts 0 0 0)).passed = false) ∧
    forkList (srcS 1 (acts 0 0x8205 0)) = some [(4, 5)] ∧ forkList (srcS 1 (acts 0 0 0)) = none ∧
    ((acts 0 0 0).fenced 4 = false ∧ rangesBad 4 5 (srcS 1 (acts 0 0 0)) (srcS 2 (acts 0 0 0)) (acts 0 0 0) = false ∧ (acts 0 0 0).queueFull 4 = false) ∧
    (((acts 0 0 0).core.eng[(3 : Eng)]).queue = [] ∧ ((acts 0 0 0).onCore fun k => { k with f := 0x20 }).core.f.getLsbD 5 = true) ∧
    (((queued 7 (acts 0 0 0)).core.eng[(3 : Eng)]).queue.head? = some (.wait 5) ∧ (queued 7 (acts 0 0 0)).core.f.getLsbD 5 = false) ∧
    (Active 0 (acts 0 8 0) ∧ NoPending (acts 0 8 0)) ∧ (srcS 1 (acts 0 0x8000000 0)).toNat ≥ 2 ^ 27 ∧
    (∀ x : Eng, (srcS 1 (queued 0 (acts 0 8 0))).getLsbD x.val = true → ((queued 0 (acts 0 8 0)).core.eng[x]).mark = true) := by
  unfold Active NoPending CanRelease; decide +kernel

-- The V slot.

/-- A state with integers saturating. -/
def saturating : State := (busy 0).onCore fun k => { k with numctl := 0xFFFF }

theorem meets_VectorFloatingPoint : Active 0 (busy 0) ∧ ¬(FTy.f32 = .f32 ∧ false = true) ∧ ¬(FTy.f16x2 = .f32 ∧ true = true) ∧ (FTy.f32 = .f32 ∧ true = true) := by
  unfold Active; decide +kernel

/-- In each format both ends of the normal numbers, of either sign, and the least and the greatest NaN. -/
theorem meets_FloatingPointCorners :
    (∀ f ∈ formats, 2 ^ f.mb < 2 ^ f.width ∧ ¬NanIn f (2 ^ f.mb) ∧ ¬NanIn f (2 ^ (f.eb + f.mb) + f.maxBits) ∧ 2 ^ f.mb ≤ 2 ^ f.mb % 2 ^ (f.eb + f.mb) ∧
      (2 ^ (f.eb + f.mb) + f.maxBits) % 2 ^ (f.eb + f.mb) ≤ f.maxBits ∧ 2 ^ f.mb ≤ f.maxBits ∧ NanIn f (2 ^ f.width - 1) ∧ NanIn f (f.maxBits + (if f.ocp then 1 else 2))) := by
  unfold NanIn; decide +kernel

theorem meets_VectorIntegers :
    Active 0 (busy 0) ∧ ((0 : Fin 4).val < itElems .w32 ∧ itElems .w32 ≤ (1 : Fin 4).val) ∧ ((3 : Fin 4).val < itElems .w8) ∧
    ((1 : Fin 4).val < itElems .w16 ∧ itElems .w16 ≤ (2 : Fin 4).val) ∧ (busy 0).cfg.sati = false ∧ saturating.cfg.sati = true := by
  unfold Active; decide +kernel

/-- A mask with every lane, one with none; the ends of the group sizes; and the registers that a pair needs. -/
theorem meets_ReductionsScansAndBitStreams :
    Active 0 (busy 0) ∧ (RTy.i32 ≠ .f32 ∧ RTy.n32 ≠ .f32) ∧ (∃ l < 128, (srcM 0 (busy 0)).getLsbD l = true) ∧ (∀ l < 128, (srcM 1 (busy 0)).getLsbD l = false) ∧
    ((1 : Fin 8).val ≠ 0 ∧ (7 : Fin 8).val ≠ 0 ∧ (0 : Fin 8).val = 0) ∧ ((46 : VReg).val ≠ 47 ∧ (1 : VReg) ≠ 2) ∧ (47 : VReg).val = 47 := by
  unfold Active
  exact ⟨by decide +kernel, by decide, ⟨127, by decide, by decide +kernel⟩, by decide +kernel, by decide, by decide, by decide⟩

theorem meets_MovesPermutesAndMasks :
    Active 0 (acts 0 0 127) ∧ (srcS 2 (acts 0 0 127)).toNat < 128 ∧ (srcS 2 (acts 0 0 128)).toNat ≥ 128 ∧ (srcS 2 (acts 0 0 511)).toNat < 128 * itElems .w8 ∧
    (srcS 2 (acts 0 0 512)).toNat ≥ 128 * itElems .w8 ∧ (srcS 2 (acts 0 0 128)).toNat ≤ 128 ∧ (srcS 2 (acts 0 0 129)).toNat > 128 ∧
    ((46 : VReg).val ≠ 47 ∧ (47 : VReg).val = 47) ∧ srcM 1 (busy 0) = 0 ∧ srcM 0 (busy 0) ≠ 0 := by
  unfold Active; decide +kernel

/-- Lane 0 is infinite, 31 and 64 to 66 are not zero, lane 66 the greatest of its block; the other lanes, so blocks 1 and 3 too, are zeros. -/
def quantized : State :=
  let v : VecReg := Vector.ofFn fun l => if l.val = 0 then 0x7F800000 else if l.val = 31 ∨ l.val = 64 then 0x3F800000 else if l.val = 65 then 0x80000001 else if l.val = 66 then 0xC0400000 else 0
  { (busy 0) with iss := { (busy 0).iss with src := { (busy 0).iss.src with v := vput (busy 0).iss.src.v 1 v } } }

theorem meets_VectorConversions :
    Active 0 (busy 0) ∧ (∀ sel : Fin 36, (if vcvtTwoSource sel.val then some (VOrS.v 3) else none).isSome = vcvtTwoSource sel.val) ∧
    (vcvtTwoSource 0 = true ∧ vcvtTwoSource 35 = false) ∧
    (let x := fun (k j : Nat) => operand quantized.cfg fp32 (opVA 1 quantized)[Fin.ofNat 128 (32 * k + j)].toNat
     (x 0 0).isFin = false ∧ (∀ j < 32, (x 1 j).isFin = true ∧ (x 1 j).isZero = true) ∧ (∀ j < 32, (x 2 j).isFin = true) ∧ (x 2 2).isZero = false ∧
       (∀ j < 32, (x 2 j).isZero = false → (x 2 j).top ≤ (x 2 2).top)) ∧ 4 * mxWidth .mx8 ≤ 32 := by
  unfold Active; decide +kernel

-- Stream words.

/-- The command of an engine. -/
def cmdOf (s : State) : Cmd := match s.eng.cmd with
  | some c => c
  | none => aCmd []

/-- An engine at work, with its command changed, its pages mapped as core 0's are, and its program's entry 0 at word 0. -/
def engine (e : Eng) (stk : List Word) (f : Cmd → Cmd := id) : State :=
  let s := working e stk (busy 0)
  { (s.onEng fun g => { g with cmd := g.cmd.map f, entries := [0] }) with tlb := s.tlb ++ s.tlb.map fun t => { t with unit := engUnit 0 e } }

/-- An engine runs a word now. -/
def runs (i : Instr) (s : State) : Bool := s.eng.cmd.isSome && (cmdOf s).job.isNone && kindRuns s.at_.eng.val (encodeWord i)

theorem runs_of {i : Instr} {s : State} (h : runs i s = true) : Runs i (cmdOf s) s := by
  simp only [runs, Bool.and_eq_true, Option.isNone_iff_eq_none] at h
  refine ⟨?_, h.1.2, h.2⟩
  have e := h.1.1
  unfold cmdOf
  cases c : s.eng.cmd with
  | none => rw [c] at e; cases e
  | some x => rfl

/-- The branch of a word at an index. -/
def goal (ip : Nat) (off : BitVec 10) : Int := (ip : Int) + 1 + off.toInt

theorem meets_StackWordsAndBranches :
    (∀ i ∈ [Instr.wLit 0, .wLitx 0, .wDup, .wDrop, .wPick 7, .wShl 63, .wShr 63, .wInc, .wDec, .wNeg, .wEqz, .wSwap, .wOver, .wAdd, .wSub, .wAnd, .wOr,
      .wXor, .wMin, .wMax, .wRot, .wJmp 0, .wJz 0, .wJnz 0, .wLoopn 0], runs i (engine 3 [1, 2, 3, 4, 5, 6, 7]) = true ∧ runs i (engine 3 []) = true ∧
        runs i (engine 3 [1, 2, 3, 4, 5, 6, 7, 8]) = true) ∧
    ((cmdOf (engine 3 [1, 2, 3, 4, 5, 6, 7])).stk.length < 8 ∧ (cmdOf (engine 3 [1, 2, 3, 4, 5, 6, 7, 8])).stk.length = 8 ∧ (cmdOf (engine 3 [])).stk = []) ∧
    goal 3 0x3FC = 0 ∧ goal 3 0x3FB = -1 ∧ goal 4094 0 = 4095 ∧ goal 4094 1 = 4096 ∧ ((2#64).toNat > 1 ∧ (1#64).toNat ≤ 1) := by decide +kernel

/-- What END and a descriptor read and write, in pages that the engine holds. -/
theorem reaches_page {s : State} {reads writes : List Nat} {ps qs : List (Nat × Tlb)} (h : (cmdOf s).stall = .none) (k : s.weak = [])
    (r : engPages (cmdOf s) false (pagesOf reads) (s.takeMarkers (cmdOf s)) = .ok ps s) (w : engPages (cmdOf s) true (pagesOf writes) s = .ok qs s)
    (d : ((placesOf ps reads ++ placesOf qs writes).any s.sealed) = false) (b : (placesOf ps reads).find? s.badAt = none) :
    Reaches (cmdOf s) reads writes ps qs s s := fun f => by
  have e : s.correctAt (placesOf ps reads) = s := by
    unfold State.correctAt State.correct; simp only [k, List.filter_nil, List.foldl_nil]
  rw [engAccess_reaches h r w d b f, e]

/-- The entry of page `n` for an engine. -/
def engPage (e : Eng) (n : Nat) : Tlb := { (busy 0).tlb.getD n (page 0 0 0) with unit := engUnit 0 e }

/-- Engine 20 of core 0 ends a command whose operand is in core memory, and engine 3 reads a descriptor from page 0. -/
def endsAt (b : Word) : State := engine 20 [64] fun c => { c with spec := { c.spec with b := b } }

/-- The helper sequencer of core 1 runs a helper strand. -/
def helps : State :=
  let s := engine 20 [64] fun c => { c with spec := { c.spec with lid := 1, seq := 0 } }
  { s with recs := [{ aRec 0 .running with helper := true }] }

theorem meets_ControlWords :
    (∀ i ∈ [Instr.wEnd, .wReply, .wWaitf 63, .wSetf 0, .wBound, .wJoin, .wCalls 0, .wRets, .wDesc], runs i (engine 3 [64]) = true) ∧
    (kindRuns 3 (encodeWord (.wCpy .pkg)) = false ∧ (busy 0).eng.cmd = none) ∧
    (runs .wEnd helps = true ∧ helps.isHelperStrand (cmdOf helps).spec = true) ∧
    ((engine 3 [64]).isHelperStrand (cmdOf (engine 3 [64])).spec = false ∧ (cmdOf (engine 3 [64])).copies = 0 ∧ (engine 3 [64]).liveOn 0 (cmdOf (engine 3 [64])).spec = true) ∧
    (let s := engine 20 [64] fun c => { c with copies := 1 }
     runs .wEnd s = true ∧ runs (.wSetf 63) s = true ∧ (cmdOf s).copies ≠ 0 ∧ s.savedOn 0 (cmdOf s).spec = false ∧ s.isHelperStrand (cmdOf s).spec = false) ∧
    (runs .wEnd (endsAt 0x20001) = true ∧ (0x20001#64).toNat % 8 ≠ 0) ∧
    (let s := endsAt 0x20008
     let vas := (upto 8).map fun i => (cmdOf s).spec.b.toNat + i
     runs .wEnd s = true ∧ (cmdOf s).spec.b.toNat % 8 = 0 ∧ Reaches (cmdOf s) [] vas [] [(2, engPage 20 2)] s s ∧
       entryOf [(2, engPage 20 2)] (cmdOf s).spec.b.toNat = some (engPage 20 2) ∧ (placeIn (engPage 20 2) 0x20008).1 = 2) ∧
    (let s := endsAt 0x8
     Reaches (cmdOf s) [] ((upto 8).map fun i => (cmdOf s).spec.b.toNat + i) [] [(0, engPage 20 0)] s s ∧ (placeIn (engPage 20 0) 0x8).1 ≠ 2) ∧
    (runs .wDesc (engine 3 [0x1001]) = true ∧ (0x1001#64).toNat % 32 ≠ 0) ∧
    (let s := engine 3 [0x1000]
     runs .wDesc s = true ∧ (0x1000#64).toNat % 32 = 0 ∧ Reaches (cmdOf s) ((upto 32).map fun i => 0x1000 + i) [] [(0, engPage 3 0)] [] s s) ∧
    (let s := engine 3 [64]
     s.savedOn 0 (cmdOf s).spec = false ∧ s.cmdFlag 0 (cmdOf s).spec 63 = false ∧ { s with cores := (s.coreUpd 0 fun k => { k with f := 1 <<< 63 }).cores }.cmdFlag 0 (cmdOf s).spec 63 = true) ∧
    ((engine 3 [64]).eng.entryAt 0 ≠ 0xFFFF ∧ (engine 3 [64]).eng.entryAt 1 = 0xFFFF) ∧
    ((cmdOf (engine 3 [64] fun c => { c with rstk := [1, 2, 3] })).rstk.length < 4 ∧ (cmdOf (engine 3 [64] fun c => { c with rstk := [1, 2, 3, 4] })).rstk.length ≥ 4 ∧
      (cmdOf (engine 3 [64])).rstk = []) := by
  refine ⟨by decide +kernel, by decide +kernel, by decide +kernel, by decide +kernel, by decide +kernel, by decide +kernel,
    ⟨by decide +kernel, by decide +kernel, reaches_page rfl rfl rfl rfl (by decide +kernel) (by decide +kernel), by decide +kernel, by decide +kernel⟩,
    ⟨reaches_page rfl rfl rfl rfl (by decide +kernel) (by decide +kernel), by decide +kernel⟩, by decide +kernel,
    ⟨by decide +kernel, by decide +kernel, reaches_page rfl rfl rfl rfl (by decide +kernel) (by decide +kernel)⟩, by decide +kernel, by decide +kernel,
    by decide +kernel⟩


/-- A header that names rows from 0 of a handle, with its layout code open. -/
def hdr (w : Bool) (h rows : Nat) : Word := BitVec.ofNat 64 (5 * 2 ^ 61 + (if w then 2 ^ 60 else 0) + h * 2 ^ 50 + (rows - 1) * 2 ^ 18 + 0xFF * 2 ^ 10)

/-- Handles 0 and 1 of tile memory, 4 of accumulators, 5 and 8 of tile memory and 9 of core memory, owned by engines. -/
def entry (lev esz rows cols h : Nat) : Nat × TileEnt :=
  (h, { (⟨rows - 1, cols - 1, esz, lev, if lev = 0 then 0 else 3⟩ : TReq).entry h h (4 * h) 5 6 none with owner := true, home := 3 })

/-- A command on engine 3 whose entry names its operands `a` and `b` as ranges, with a stack and a descriptor. -/
def matrix (a b : Word) (stk : List Word) (dw : Word) (f : Engine → Engine := id) (e : Eng := 3) : State :=
  let s := engine e stk fun c => { c with spec := { c.spec with entry := 2, a := a, b := b } }
  (s.onEng fun g => f { g with entries := [0, 0, 0xC000], desc := some (vput (Vector.replicate 4 0) 0 dw) }).coreUpd 0 fun k => { k with tiles :=
    [entry 1 0 256 1024 0, entry 1 0 256 1024 1, entry 2 2 256 256 4, entry 1 1 64 32 5, entry 1 0 256 4096 8, entry 0 0 256 4096 9, entry 0 0 256 4096 10, entry 1 1 256 256 11] }

/-- The descriptor in force, and an operand as a word finds it, none of its words uncorrectable. -/
def descNow (s : State) : Desc := descOf (s.eng.desc.getD (Vector.replicate 4 0))
def operand (w : Want) (x : Word) (s : State) : Option (Hdr × TileEnt) := match useHdr w x s with
  | .ok p => if s.regionBad p.1 p.2 = none then some p else none
  | .error _ => none

def acc : Word := hdr true 4 256
def out : Word := hdr true 8 256

/-- The word's operands: the second on the stack, and the top. -/
def words : State := matrix (hdr false 1 256) out [hdr false 1 256] 0x100
def multiplies (b : Desc → Bank) (u : TileEnt → TileEnt) : State :=
  let s := matrix (hdr false 0 256) acc [acc, hdr false 0 256] 0x100 fun g => { g with active := some false }
  (s.onEng fun g => { g with bank0 := some (b (descNow s)) }).onEnt 0 0 4 u

/-- The same with a word in progress. -/
def inJob (j : Job) (s : State) : State := s.onEng fun g => { g with cmd := g.cmd.map fun c => { c with job := some j } }

theorem meets_AccumulatorArithmetic :
    (0 < 1) ∧ ((3 : Nat) < (AccGroup.m ⟨0, 0, 254, false, List.replicate 16 0⟩).length) ∧
    (let s := matrix acc out [acc] 0x100
     runs .wAccz s = true ∧ (operand wantAccW acc s).isSome = true ∧ s.bad = [] ∧ s.weak = []) := by decide +kernel

theorem meets_MatrixWords :
    (let s := words
     let d := descNow s
     runs .wMload s = true ∧ d.path = false ∧ (match operand wantW (hdr false 1 256) s with
      | some (h, t) => decide (align64 (weightBytes d (bankDims (d.cls.getD .table)).1 (bankDims (d.cls.getD .table)).2) +
          (bankDims (d.cls.getD .table)).1 * (bankDims (d.cls.getD .table)).2 / 32 ≤ h.size t)
      | none => false) = true) ∧
    (∀ tag ∈ ([0xFF, 0] : List (BitVec 8)),
     let s := multiplies (fun d => ⟨d.bankFmt, [], [], []⟩) fun t => { t with ptag := tag }
     let d := descNow s
     runs (.wMma 0 true) s = true ∧ d.cls = some (shapeOf 0).cls ∧ (s.eng.bank.map Bank.fmt) = some d.bankFmt ∧
     (match operand wantAct (hdr false 0 256) s, operand wantAccW acc s with
      | some (h, t), some (g, u) => decide ((shapeOf 0).m ≤ g.rows) && decide ((shapeOf 0).n ≤ u.cols) && decide (actEnd d (shapeOf 0) ≤ h.size t) &&
          decide (u.ptag = 0xFF ∨ u.ptag = d.tag)
      | _, _ => false) = true) ∧
    (let s := multiplies (fun d => ⟨d.bankFmt, [], [], []⟩) fun t => { t with ptag := 0x77 }
     (operand wantAccW acc s).map (fun p => decide (p.2.ptag = 0xFF ∨ p.2.ptag = (descNow s).tag)) = some false) ∧
    ((cmdOf (inJob (.mload (hdr false 1 256)) words)).job = some (.mload (hdr false 1 256)) ∧ words.eng.active ≠ some false ∧
      (multiplies (fun d => ⟨d.bankFmt, [], [], []⟩) id).eng.active = some false) ∧
    (let s := inJob (.mma (hdr false 0 256) acc 0 63 0) (multiplies (fun d => ⟨d.bankFmt, [], [], []⟩) id)
     (cmdOf s).job = some (.mma (hdr false 0 256) acc 0 63 0) ∧ (operand wantAct (hdr false 0 256) s).isSome = true ∧ (operand wantAccW acc s).isSome = true) ∧
    ((nextStroke (descNow words) (shapeOf 0) 62 0).1 < (shapeOf 0).m ∧ (shapeOf 0).m ≤ (nextStroke (descNow words) (shapeOf 0) 63 0).1) ∧
    (let s := matrix (hdr false 4 64) out [out, hdr false 4 64] 0x300
     let d := descNow s
     runs .wAccout s = true ∧ (match operand wantAccR (hdr false 4 64) s, operand wantOut out s with
      | some (h, t), some (g, u) => decide (accOutSize d h.rows t.cols ≤ g.size u)
      | _, _ => false) = true) ∧
    (let s := matrix (hdr false 5 64) out [out, hdr false 5 64] 0x300
     let d := descNow s
     runs (.wQnt .l32) s = true ∧ (mxBits d.ofmt).isSome = true ∧ (match operand ⟨false, 1, some 0⟩ (hdr false 5 64) s, operand wantOut out s with
      | some (h, t), some (g, u) => (t.esz == 1 || t.esz == 2) && h.rows % qntLen .l32 == 0 && t.cols % qntLen .l32 == 0 &&
          decide (align64 (qntSize ((mxBits d.ofmt).getD 0) (h.rows * t.cols) (qntLen .l32)) + qntSize ((mxBits d.ofmt).getD 0) (h.rows * t.cols) (qntLen .l32) ≤ g.size u)
      | _, _ => false) = true) := by decide +kernel

/-- A state in which one word of an operand is uncorrectable, and where that word lies. -/
def spoiled (w : Want) (x : Word) (s : State) : State := match useHdr w x s with
  | .ok (h, t) => { s with bad := [(t.sram s.at_.core (h.base t), 64)] }
  | .error _ => s
def isBad (w : Want) (x : Word) (s : State) : Bool := match useHdr w x (spoiled w x s) with
  | .ok (h, t) => ((spoiled w x s).regionBad h t).isSome
  | .error _ => false
def refused (w : Want) (x : Word) (s : State) : Bool := match useHdr w x s with
  | .ok _ => false
  | .error _ => true

/-- The size of an operand's region, its rows and its handle's columns. -/
def sized (w : Want) (x : Word) (s : State) : Nat × Nat × Nat := match useHdr w x s with
  | .ok (h, t) => (h.size t, h.rows, t.cols)
  | .error _ => (0, 0, 0)

/-- Words without a descriptor, on the table path, without a bank, with a bank of another class or format; operands that name no handle, that
hold an uncorrectable word, and that are too small. -/
theorem meets_MatrixWords_refusals :
    (let s := words.onEng fun g => { g with desc := none }
     s.eng.desc = none ∧ ∀ i ∈ [Instr.wMload, .wMma 0 true, .wAccout, .wQnt .l32], runs i s = true) ∧
    (let s := matrix 0 out [hdr false 1 256] 0x800008105
     runs .wMload s = true ∧ (descNow s).path = true) ∧
    ((descNow words).path = false ∧ refused wantW (hdr false 77 256) words = true ∧ isBad wantW (hdr false 1 256) words = true ∧
      sized wantW (hdr false 1 1) (matrix (hdr false 1 1) out [hdr false 1 1] 0x100) = (1024, 1, 1024)) ∧
    (let s := multiplies (fun d => ⟨d.bankFmt, [], [], []⟩) id
     let none_ := s.onEng fun g => { g with active := none }
     none_.eng.bank = none ∧ runs (.wMma 0 true) none_ = true ∧ (descNow s).cls ≠ some (shapeOf 8).cls ∧
       ((multiplies (fun d => ⟨d.bankFmt + 1, [], [], []⟩) id).eng.bank.map Bank.fmt) ≠ some (descNow s).bankFmt ∧
       refused wantAct (hdr false 77 256) s = true ∧ isBad wantAct (hdr false 0 256) s = true ∧ refused wantAccW (hdr true 77 256) s = true ∧
       isBad wantAccW acc s = true ∧ (sized wantAccW (hdr true 4 1) s).2.1 < (shapeOf 0).m) ∧
    (let s := matrix (hdr false 4 64) out [out, hdr false 4 64] 0x300
     refused wantAccR (hdr false 77 64) s = true ∧ isBad wantAccR (hdr false 4 64) s = true ∧ refused wantOut (hdr true 77 64) s = true) ∧
    (let s := matrix (hdr false 4 64) (hdr true 8 1) [hdr true 8 1, hdr false 4 64] 0x300
     (sized wantOut (hdr true 8 1) s).1 < accOutSize (descNow s) 64 256) ∧
    (let s := matrix (hdr false 5 64) out [out, hdr false 5 64] 0x300
     let src : Want := ⟨false, 1, some 0⟩
     refused src (hdr false 77 64) s = true ∧ isBad src (hdr false 5 64) s = true ∧ refused wantOut (hdr true 77 64) s = true ∧
       mxBits (descNow words).ofmt = none ∧ (sized src (hdr false 5 63) (matrix (hdr false 5 63) out [out, hdr false 5 63] 0x300)).2.1 % qntLen .l32 ≠ 0 ∧
       refused src (hdr false 11 256) (matrix (hdr false 11 256) (hdr true 8 1) [hdr true 8 1, hdr false 11 256] 0x300) = false ∧
       (sized wantOut (hdr true 8 1) (matrix (hdr false 11 256) (hdr true 8 1) [hdr true 8 1, hdr false 11 256] 0x300)).1 < 256 * 256 * 4 / 8) := by
  decide +kernel

/-- A descriptor word of the table path, with its image at the first row of handle 8. -/
def tableWord : Word := 0x800008105

/-- A table word's operands on engine 3, with a second command on engine 4 whose write range is the image. -/
def tables (x y : Word) (stk : List Word) (rival : Bool := false) : State :=
  let s := matrix x y stk tableWord
  if rival then s.engUpd 0 4 fun g => { g with entries := [0, 0, 0xC000], cmd := some { cmdOf s with spec := { (cmdOf s).spec with stamp := 9, a := out } } } else s

/-- What a TBL finds: its image, the other writers of it, and whether its operands are long enough. -/
def tableOk (big : Bool) (s : State) : Bool := match imageOfDesc (descNow s) s, operand wantAct (hdr false 0 256) s, operand wantAccW acc s, s.eng.desc with
  | some im, some (h, t), some (g, u), some dv => decide (s.imageWriters s.at_.core (cmdOf s).spec (imageHdr dv im.rowBytes) = []) &&
      decide ((if big then 256 else 64) ≤ g.rows) && decide (256 ≤ u.cols) && decide (actEnd (descNow s) ⟨.table, if big then 256 else 64, 256, 512⟩ ≤ h.size t) &&
      decide ((imageHdr dv im.rowBytes).row0 + (imageHdr dv im.rowBytes).rows ≤ im.rows) && (u.ready g (descNow s) false).isSome
  | _, _, _, _ => false

/-- Function words over `n` elements from handle 9 to handle 10. -/
def functions (n : Word) : State := matrix (hdr false 9 256) (hdr true 10 256) [n, hdr true 10 256, hdr false 9 256] 0x100 id 24

/-- Each function word runs there, and its operands are long enough. -/
def functionOk (ff : FnFmt) (n : Word) : Bool :=
  ([Instr.wExp2 ff, .wLog2 ff, .wRcp ff, .wRsqrt ff, .wSinpi ff, .wCospi ff, .wTanh ff, .wSigm ff].all fun i => runs i (functions n)) &&
  match operand ⟨false, 0, some 0⟩ (hdr false 9 256) (functions n), operand ⟨true, 0, none⟩ (hdr true 10 256) (functions n) with
  | some (h, t), some (g, u) => decide (n.toNat * ((fnFmt ff).width / 8) ≤ h.size t) && decide (n.toNat * ((fnFmt ff).width / 8) ≤ g.size u)
  | _, _ => false

/-- The image of the tables with a word that is uncorrectable. -/
def spoiledImage (s : State) : Bool := match imageOfDesc (descNow s) s, s.eng.desc with
  | some im, some dv =>
    let h := imageHdr dv im.rowBytes
    ({ s with bad := [(im.sram s.at_.core (h.base im), 64)] }.regionBad h im).isSome
  | _, _ => false

theorem meets_TablesAndFunctions :
    spoiledImage (tables (hdr false 0 256) acc [acc, hdr false 0 256]) = true ∧
    (let s := tables (hdr false 0 256) out [out, hdr false 0 256]
     runs (.wTbld true) s = true ∧ (descNow s).path = true ∧ (match operand ⟨false, 1, some 3⟩ (hdr false 0 256) s, operand ⟨true, 1, some 4⟩ out s with
      | some (h, t), some (g, u) => g.h == (descNow s).timg && g.row0 == (descNow s).trow && decide (align64 (131072 * tblBits (descNow s).wfmt / 8) + 4096 ≤ h.size t) &&
          decide (528384 ≤ g.size u)
      | _, _ => false) = true) ∧
    (let s := tables (hdr false 0 256) acc [acc, hdr false 0 256]
     runs (.wTbl true false) s = true ∧ tableOk true s = true) ∧
    (let s := { tables (hdr false 0 256) acc [acc, hdr false 0 256] true with launches := [{ aLaunch 0 with dyn := true }] }
     runs (.wTbl true false) s = true ∧ s.detLaunch (cmdOf s).spec = false ∧ (imageOfDesc (descNow s) s).isSome = true ∧ tableOk true s = false) ∧
    ([1, 65536].all fun n => [FnFmt.fp32, .bf16].all fun ff => functionOk ff n) = true := by decide +kernel

/-- Races over the keys of handle 5, into handle 8. -/
def keys : Word := hdr false 5 64
def races (stk : List Word) (j : Option Job := none) : State :=
  matrix keys out stk 0x100 fun g => { g with cmd := g.cmd.map fun c => { c with job := j } }

/-- Every race word runs over `n` keys of a type, and its operands are long enough; so it is where a race of each kind is in progress. -/
def raceOk (k : Key) (n : Word) : Bool :=
  runs (.wRmin k) (races [n, keys]) && runs (.wRmax k) (races [n, keys]) && runs (.wRsort k) (races [n, out, keys]) &&
  runs (.wRtopk k true) (races [n, n, out, keys]) &&
  (match operand ⟨false, 1, some 0⟩ keys (races [n, keys]), operand ⟨true, 1, some 0⟩ out (races [n, out, keys]) with
   | some (h, t), some (g, u) => decide (n.toNat * (keyWidth k / 8) ≤ h.size t) && decide (4 * n.toNat ≤ g.size u)
   | _, _ => false) &&
  [0, 1, 2, 3].all fun kind =>
    let s := races [1, 2, out, keys] (some (.race kind keys out k 2 1 false 0 [(0, 0), (1, 0)]))
    (operand ⟨false, 1, some 0⟩ keys s).isSome && (operand ⟨true, 1, some 0⟩ out s).isSome

theorem meets_RaceWords :
    ([Key.n8, .i64, .fp32].all fun k => [1, 256].all fun n => raceOk k n) = true ∧
    ([0, 1, 2, 3].all fun kind => racers kind 1 [(0, 0), (1, 0)] != [] && racers kind 1 [(0, 0), (1, 1)] == []) = true ∧
    ([0, 1, 2, 3].all fun kind =>
      let s := races [1, 1, out, keys] (some (.race kind keys out .n8 1 1 false 0 [(0, 0)]))
      (operand ⟨false, 1, some 0⟩ keys s).isSome && (operand ⟨true, 1, some 0⟩ out s).isSome && (cmdOf s).job == some (.race kind keys out .n8 1 1 false 0 [(0, 0)]) &&
        decide (1 * (keyWidth .n8 / 8) ≤ 64) && racers kind 1 [(0, 0)] == []) = true ∧
    (0 < keyDigits .n16 ∧ 0 + 1 < keyDigits .n16 ∧ 1 + 1 = keyDigits .n16) := by decide +kernel

/-- The group of a launch of two strands, and a participant of it. -/
def pair : Launch := { aLaunch 0 with fields := [⟨1, 2, 2, false⟩] }
def part (i : Nat) (s : State) : Contrib := ⟨0, { (cmdOf s).spec with stamp := if i = (groupIdx pair 0 (cmdOf s).spec.wid) then (cmdOf s).spec.stamp else 99 }, i, false, .add, false, [(1, 0)], false⟩
def gathers (j : Option Job) (ps : State → List Contrib) (z : Word := 0) : State :=
  let s := matrix (hdr false 9 256) (hdr true 10 256) [z, hdr true 10 256, hdr false 9 256] 0x100 (fun g => { g with cmd := g.cmd.map fun c => { c with job := j } }) 26
  { s with launches := [pair], coll := [⟨1, 0, 0, 2, false, ps s⟩] }

/-- A copy engine with words on its stack. -/
def copies (stk : List Word) (j : Option Job := none) : State := engine 16 stk fun c => { c with job := j }
def len (n : Nat) : Word := BitVec.ofNat 64 (0x3FFFF * 2 ^ 46 + n)
def planned (i : Instr) (s : State) : Option Bool := match planOf i (cmdOf s).spec (cmdOf s).stk s with
  | some (.ok (j, _)) => some (decide (j.pieces = [] ∧ j.fold = false ∧ j.init = none))
  | _ => none
def copied_ : CopyJob := CopyJob.plain .cl 3 [⟨.va 0x1000, .va 0x2000, 8⟩]
def copied : Job := .copy copied_

/-- A participant's words run, its group is of one package and no more than 512, and its regions are long enough for `z` elements. -/
def gatherOk (z : Word) : Bool :=
  let s := gathers none (fun _ => []) z
  runs (.wScan .affine true) s && runs (.wReduce .max) s && (s.launch (cmdOf s).spec.lid).map Launch.fields == some pair.fields &&
    groupTotal pair 0 ≤ 512 && !groupSpans pair 0 &&
    match operand wantSrcC (hdr false 9 256) s, operand wantDstC (hdr true 10 256) s with
    | some (h, t), some (g, u) => decide ((wf_ 11 0 z + 1) * collSize .affine ≤ h.size t) && decide ((wf_ 11 0 z + 1) * collSize .affine ≤ g.size u)
    | _, _ => false

/-- A participant waits at the combiner, alone or with the whole group. -/
def waits (whole : Bool) : Bool :=
  let s := gathers (some .coll) fun s => if whole then [part 0 s, part 1 s] else [part (groupIdx pair 0 (cmdOf s).spec.wid) s]
  match s.coll.find? (fun k => k.parts.any fun q => q.isOf s.at_.core (cmdOf s).spec && !q.done) with
  | some k => (match k.parts.find? (fun q => q.isOf s.at_.core (cmdOf s).spec) with
    | some p => !k.bad && k.arrived p == whole
    | none => false)
  | none => false

/-- Copy words run at a scope, with operands that name a range or, of no bytes, nothing. -/
def copyOk (sc : Scope) : Bool :=
  runs (.wCpy sc) (copies [len 1, 2, 1]) && runs (.wCrcc sc false) (copies [len 1, 2, 1]) && runs (.wCpy2d sc) (copies [len 1, 2, 1]) &&
  runs .wCrci (copies [0xFFFFFFFF]) && runs (.wCpyg sc) (copies [1, 0, 0x1000]) &&
  planned (.wCpy sc) (copies [len 0, 2, 1]) == some true && planned (.wCpy sc) (copies [len 1, 2, 1]) == some false &&
  planned (.wCrcc sc true) (copies [5, len 0xFFFFFFFF, 2, 1]) == some false && planned .wCrci (copies [0xFFFFFFFF]) == some false

/-- A helper sequencer at a copy word, its channels empty or all of them full. -/
def helperCopy (full : Bool) : State :=
  let s := engine 20 [len 1, 2, 1]
  if full then s.coreUpd 0 fun k => { k with eng := Vector.ofFn fun e => { k.eng[e] with queue := if 16 ≤ e.val ∧ e.val < 20 then List.replicate 8 (QEnt.wait 0) else [] } }
  else s

/-- The address that CPYG reads from its table in some memory. -/
def tableAddr (m : List Host.Cell) : Nat :=
  leNat ((upto 8).map fun i => engByte 0 [(0, engPage 16 0)] { copies [1, 0, 0x1000] with mem := m } ((0x1000 + i) % 2 ^ 64))

theorem meets_CollectivesAndCopies :
    ([0, 4095].all gatherOk = true) ∧ (waits true = true ∧ waits false = true) ∧
    ([Scope.cl, .core, .pkg, .sys].all copyOk = true) ∧
    (bits 63 46 (len 1).toNat = 0x3FFFF ∧ bits 45 32 (len 1).toNat = 0 ∧ bits 31 0 (len 1).toNat ≠ 0 ∧ bits 31 0 (len 0xFFFFFFFF).toNat ≠ 0) ∧
    ((planned (.wCpy .cl) (helperCopy false) = some false ∧ runs (.wCpy .cl) (helperCopy false) = true ∧ (helperCopy false).core.copiesInFlight < 64 ∧
      ((helperCopy false).core.eng[(helperCopy false).core.channel]).queue.length < 8) ∧
      ((helperCopy true).core.eng[(helperCopy true).core.channel]).queue.length ≥ 8) ∧
    (let s := copies [1, 0, 0x1000]
     Reaches (cmdOf s) ((upto 8).map fun i => (0x1000 + i) % 2 ^ 64) [] [(0, engPage 16 0)] [] s s ∧ tableAddr [] % 256 = 0 ∧ tableAddr [⟨0x1000, 7⟩] % 256 ≠ 0) ∧
    (let s := { copies [1, 0, 0x1000] with mem := [⟨0x1000, 7⟩] }
     Reaches (cmdOf s) ((upto 8).map fun i => (0x1000 + i) % 2 ^ 64) [] [(0, engPage 16 0)] [] s s) ∧
    (let s := copies [len 8, 0x2000, 0x1000] (some copied)
     (cmdOf s).job = some copied ∧ Reaches (cmdOf s) ((upto 8).map fun i => 0x1000 + i) ((upto 8).map fun i => 0x2000 + i) [(0, engPage 16 0)] [(0, engPage 16 0)] s s ∧
       partCell [(0, engPage 16 0)] ((upto 8).map fun i => 0x1000 + i) = none ∧ partCell [(0, engPage 16 0)] ((upto 8).map fun i => 0x2000 + i) = none) ∧
    (let j : CopyJob := { CopyJob.plain .cl 3 [⟨.va 0x1000, .va 0x2000, 8⟩] with fold := true }
     let s := copies [len 8, 0x2000, 0x1000] (some (.copy j))
     s.eng.cmd = some (cmdOf s) ∧ (cmdOf s).owner = none ∧ (cmdOf s).job = some (.copy j) ∧ j.init = none ∧ j.exp = none ∧ j.remote = none ∧ j.tile = none ∧
       nbit 63 s.mc.inj.toNat = false ∧ Reaches (cmdOf s) (CopyEnd.vas 8 (.va 0x1000)) (CopyEnd.vas 8 (.va 0x2000)) [(0, engPage 16 0)] [(0, engPage 16 0)] s s) ∧
    (let j : CopyJob := { copied_ with remote := some ⟨1, 0, 0, 0⟩, sent := some 7 }
     (cmdOf (copies [] (some (.copy j)))).job = some (.copy j) ∧ j.sent = some 7 ∧ (copies []).weak = []) ∧
    ((copies []).cyc.toNat < (21000#64).toNat ∧ (0#64).toNat ≤ (copies []).cyc.toNat) :=
  ⟨by decide +kernel, by decide +kernel, by decide +kernel, by decide +kernel, by decide +kernel,
    ⟨reaches_page rfl rfl rfl rfl (by decide +kernel) (by decide +kernel), by decide +kernel⟩, reaches_page rfl rfl rfl rfl (by decide +kernel) (by decide +kernel),
    ⟨by decide +kernel, reaches_page rfl rfl rfl rfl (by decide +kernel) (by decide +kernel), by decide +kernel, by decide +kernel⟩,
    ⟨by decide +kernel, by decide +kernel, by decide +kernel, by decide +kernel, by decide +kernel, by decide +kernel, by decide +kernel, by decide +kernel,
      reaches_page rfl rfl rfl rfl (by decide +kernel) (by decide +kernel)⟩, by decide +kernel, by decide +kernel⟩

-- The steps that no line and no word makes.

/-- The acting cluster's line is held. -/
def held (h : Hold) (s : State := busy 0) : State := s.onClu fun c => { c with hold := h }

/-- Core 0's clusters stand at lines of a folio that hold an X and an M syllable each. -/
def folios (x m : Instr) : State :=
  let w := encodeLine ⟨true, false, false, false, false, x, m, .nop⟩
  { busy 0 with mem := (upto 4).foldl (fun m c => memPuts m (atAddr (16 * c) (leBytes 16 w))) [] }

/-- What the folio clauses ask of a state: whose ports grant its lines or do not, and, where they do, whose lines stop it or act. -/
def folioIssues (granted stops : Bool) (s : State) : Bool := match presentedAll s with
  | (some ps, t) =>
    let r : State := { t with at_ := s.at_ }
    let fates := ps.map fun p => (p, tryLine runSyl p.line (p.beginIn ps r))
    let g := fates.foldl folioAsk r
    s.core.run.isSome && !s.core.haltd && !(ps.all fun p => (r.core.clu[p.clu]).acted.isSome) && !folioIllegal ps r && !r.core.preReq &&
    (fates.all fun f => match f.2 with | .ready _ _ => true | _ => false) && (ps.all fun p => (r.turnTo p.clu).nextBoundary.isNone) &&
    folioGranted fates g == granted &&
    (!granted || ((folioStop runSyl g ps (folioStart ps g)).isSome == stops && (stops || (!(ps.any (Presented.ending g)) &&
      match folioActs runSyl (folioCtx g) ps (folioStart ps g) with
      | .next _ => true
      | _ => false))))
  | _ => false

/-- What the clause on folios of NOP and ADD lines asks, of four lines of one instruction. -/
def plainFolio (x : Instr) (s : State) : Bool :=
  let w := encodeLine ⟨true, false, false, false, false, x, .nop, .nop⟩
  s.core.run.isSome && !s.core.haltd && !s.core.preReq && !s.core.pstop &&
  (List.finRange 4).all fun c =>
    let k := s.core.clu[c]
    !k.halted && !k.hm && k.replies == [] && k.pendTrap == [] && k.acted.isNone && k.branch.isNone && k.forked.isNone && k.hold == .none &&
    !(s.issued.contains (s.at_.core.val, c.val)) &&
    (match readLine w k with | .ok l => l == ⟨true, false, false, false, false, x, .nop, .nop⟩ | _ => false)

/-- A page of LWAIT's cell: handle 1 of `busy` is its lattice page, page 9 is not mapped. -/
def cellAt (va : Nat) : Option Nat := match xlatePage {} va (busy 0) with
  | (.ok t, _) => some t.tt
  | _ => none

theorem meets_WaitsAndQueues_waits :
    (0x8000#16 &&& 0x8000 = 0x8000 ∧ ¬((busy 0).core.cc &&& 0x8000 = 0x8000)) ∧ ((0#64).toNat ≤ (busy 0).cyc.toNat ∧ ¬((1#64).toNat ≤ (busy 0).cyc.toNat)) ∧
    (((List.finRange 27).all fun e => ((busy 0).core.eng[e]).cmd.isNone && ((busy 0).core.eng[e]).queue.isEmpty && ((busy 0).core.eng[e]).pulse.isNone) = true ∧
      ((engine 26 []).core.eng[(26 : Eng)]).cmd.isNone = false ∧ (0x4000000#64).getLsbD 26 = true ∧ ((busy 0).core.eng[(26 : Eng)]).mark = false) ∧
    (cellAt 65536 = some 4 ∧ cellAt (9 * 65536) = none) ∧
    (∀ b : Bool, (if b then 5 else 2 ^ 64 - 1) < 2 ^ 64 - 1 ∨ b = false) := by decide +kernel

/-- A promise that stands at CYC 0 with eight bytes of the copy to go. -/
def promising (e : Eng) (f : Cmd → Cmd := id) : State :=
  engine e [] fun c => f { c with promise := some 0, left := 8, job := some (.copy (CopyJob.plain .sys 3 [⟨.va 0x1000, .va 0x2000, 8⟩])) }

/-- A pending boundary trap of core 0's cluster 0, a handler being installed. -/
def pends (c : BitVec 8) (e : Word) (s : State) : State := s.onClu fun k => { k with pendTrap := [{ tr := { cause := c, a0 := e } }] }

theorem meets_WaitsAndQueues_traps :
    (∀ s ∈ [pends 0x0B 0 (busy 0), pends 0x08 16 (promising 16)], (s.nextBoundary.isSome && s.core.run.isSome && !s.core.haltd && !s.clu.halted && !s.clu.hm &&
      s.core.tvec.getLsbD 0 && !s.core.preReq) = true) ∧
    ((pends 0x08 16 (promising 16)).revised { cause := 0x08, a0 := 16 }).isSome = true ∧ (busy 0).nextBoundary = none ∧
    (let s := promising 16
     (cmdOf s).promise = some 0 ∧ (0#64).toNat ≤ s.cyc.toNat ∧ ¬((cmdOf s).unperformed = 0 ∧ (cmdOf s).job = none) ∧ (cmdOf s).unperformed ≠ 0 ∧
       s.liveOn s.at_.core (cmdOf s).spec = true ∧ s.isHelperStrand (cmdOf s).spec = false ∧ s.core.tvec.getLsbD 0 = true) ∧
    (let s := promising 16 fun c => { c with promise := some 1 }
     s.cyc.toNat < (1#64).toNat) ∧
    (let s := { engine 3 [] fun c => { c with bound := some 9 } with cyc := 10 }
     (s.cyc - (cmdOf s).issued).toNat > 9 ∧ (cmdOf s).job = none ∧ (cmdOf s).owner = none ∧ s.liveOn s.at_.core (cmdOf s).spec = true ∧
       ¬(({ s with cyc := 9 }.cyc - (cmdOf s).issued).toNat > 9)) ∧
    (let s := busy 0
     (∀ n ∈ ([8191, 8192] : List Nat), n < 8192 ∨ 8192 ≤ n) ∧ s.clu.dfired = false) := by decide +kernel

/-- An entry of the side log: a store of one byte into page 0. -/
def sideEntry : SideEntry := ⟨.store .scalar [(8, 7)], {}, 0, none⟩
def logs : State := (busy 0).onClu fun c => { c with slog := [sideEntry] }
def pagesLogged : List (Nat × Tlb) := [(0, page 0 0 0)]

/-- A store in flight that no group has seen. -/
def flies (id : Nat) : InFlight := ⟨id, 0, 0, 0, [(8, 7)], .rlx, .pkg, 0, [], [], some (1, 0), [(8, 8)], 0, 0, [], false, false, 0, 0, false⟩

theorem meets_WaitsAndQueues_memory :
    replayPages ⟨logs.runKey, logs.runWid, logs.asid, false⟩ sideEntry.attr logs (pagesOf [8]) = .ok pagesLogged logs ∧
    (logs.core.run.isSome = true ∧ logs.core.left = [] ∧ logs.clu.slog = [sideEntry] ∧ sideEntry.held = none ∧ sideEntry.attr.ord = .rlx ∧
      (placesOf pagesLogged [8]).any logs.sealed = false ∧ logs.clu.scOut = [] ∧ logs.acquiring logs.at_.core logs.at_.clu = false) ∧
    ((busy 0).clu.slog = [] ∧ (busy 0).core.left = []) ∧
    (let fs := [flies 2, flies 3]
     (flies 1).ord = .rlx ∧ (flies 1).seen = 0 ∧ (flies 1).behind = [] ∧ (flies 1).held = false ∧ (∀ b ∈ (flies 1).bytes, (busy 0).sealed b.1 = false) ∧ (flies 1).window ≠ 5 ∧ ∀ h ∈ fs, h.id ≠ (flies 1).id ∧ h.seen = 0 ∧ h.rmw = false) ∧
    (let s := matrix 0 0 [] 0x100
     let gone := s.onEnt 0 0 1 fun t => { t with res := false, slot := 0 }
     (gone.reload gone.at_.core gone.asid 1).isSome = true ∧ (s.core.tile s.asid.val 0).map TileEnt.res = some true) := by
  refine ⟨by rfl, ?_⟩; decide +kernel

/-- A folio whose first two lines free one handle: cluster 1's line traps once cluster 0's has acted. -/
def freesTwice : State :=
  let line := fun (m : Instr) => leBytes 16 (encodeLine ⟨true, false, false, false, false, .nop, m, .nop⟩)
  let s := (busy 0).coreUpd 0 fun k => { k with tiles := [entry 1 0 1 1 0].map fun (p : Nat × TileEnt) => (p.1, { p.2 with owner := false }) }
  { s with mem := (upto 4).foldl (fun m c => memPuts m (atAddr (16 * c) (line (if c < 2 then .tfree 0 (.num 0) else .nop)))) [] }

theorem meets_WaitsAndQueues_folios :
    folioIssues true false (folios .nop .nop) = true ∧ folioIssues true false (folios (.add 0 (some 5) 1 2) .nop) = true ∧
    folioIssues false false (folios .nop (.setf 0 63)) = true ∧ folioIssues true true freesTwice = true := by
  decide +kernel

/-- The lines of NOP and ADD that the completion clause takes. -/
theorem meets_WaitsAndQueues_plain_folios :
    (∀ x ∈ [Instr.nop, .add 0 (some 5) 1 2], plainFolio x (folios x .nop) = true) ∧
    (let s := folios (.add 0 (some 5) 1 2) .nop
     let w := encodeLine ⟨true, false, false, false, false, .add 0 (some 5) 1 2, .nop, .nop⟩
     fetch (s.turnTo 0) = .line w (s.turnTo 0) ∧ fetch (s.turnTo 1) = .line w (s.turnTo 1) ∧ fetch (s.turnTo 2) = .line w (s.turnTo 2) ∧
       fetch (s.turnTo 3) = .line w (s.turnTo 3)) :=
  ⟨by decide +kernel, rfl, rfl, rfl, rfl⟩

/-- The head of an engine's queue, in a launch that is not deterministic. -/
def heads (e : Eng) (q : List QEnt) : State :=
  let s := busy 0
  { (s.engUpd 0 e fun g => { g with queue := q, entries := [0], prog := [0x4100] }) with
    at_ := { s.at_ with eng := e }, cyc := 8, tile := vmod s.tile (tileOf 0 e.val) fun t => { t with granted := true } }

/-- The entry that a queue's head issues, for a state in which one does. -/
def headOf (s : State) : Option (Option CmdSpec) := match s.headState s.at_.core s.at_.eng with
  | .ready c => some (some c)
  | .readyCopy _ _ _ => some none
  | _ => none

theorem meets_WaitsAndQueues_queues :
    (∀ e ∈ ([3, 16, 19, 26] : List Eng), headOf (heads e [.cmd (aCmd []).spec]) = some (some (aCmd []).spec) ∧
      issueFaultOf (heads e [.cmd (aCmd []).spec]) 0 e (aCmd []).spec = none ∧
      issueFaultOf (heads e [.cmd (aCmd []).spec]) 0 e { (aCmd []).spec with entry := 1 } = some .illegalWord) ∧
    headOf (heads 16 [QEnt.placed (aCmd []).spec 20 (CopyJob.plain .sys 3 [⟨.va 0x1000, .va 0x2000, 8⟩])]) = some none ∧
    (heads 3 [QEnt.wait 63]).eng.queue = [.wait 63] ∧
    (∀ k ∈ ([0, 15] : List Nat), let x := { Xbar.reset with due := [(k, 63)] }
      (∀ d ∈ x.due, d.1 ≠ 16 + k) ∧ ∀ d ∈ ({ Xbar.reset with due := [(16 + k, 63)] }).due, d.1 ≠ k) := by decide +kernel

-- Records, strands and launches.

/-- Core 0 is free, and these records stand in launch 1; the acting record is number 0. -/
def standing (rs : List Rec) (f : Core → Core := id) : State :=
  let s := busy 0
  { (s.coreUpd 0 fun k => f { k with run := none }) with recs := rs, at_ := { s.at_ with lid := 1, seq := 0 } }

/-- The next record of a core's class. -/
def nextOf (s : State) (helper : Bool) : Option Nat := (s.nextRec s.at_.core helper).map Rec.seq

/-- Core 0 holds the image of the launch, and helper sequencer 20 an entry table. -/
def helperAt (es : List (BitVec 16)) : State :=
  standing [{ aRec 0 .ready with helper := true, code := 0 }] fun k => { k with imgTag := some (0, 0), eng := vmod k.eng 20 fun g => { g with entries := es } }

/-- Core 0 has popped record 0, and its image and static handles stand. -/
def poppedHere : State :=
  let s := standing [aRec 0 .ready] fun k => { k with popped := some (1, 0), imgTag := some (0, 0) }
  { s with launches := s.launches.map fun l => { l with statics := [(0, [])] } }

theorem meets_RecordsStrandsAndLaunches_records :
    ([0, 1].all fun j => let s := standing [aRec 0 .pending j]
      ((s.recOf s.at_.lid s.at_.seq).map fun r => (r.state, s.eligible r)) == some (.pending, j == 0)) = true ∧
    (let s := standing [aRec 0 .ready, { aRec 1 .ready with readyStamp := -1 }]
     nextOf s false = some 1 ∧ s.free s.at_.core = true ∧ s.core.admits 0 = true) ∧
    (nextOf poppedHere false = some 0 ∧ poppedHere.free poppedHere.at_.core = false) ∧
    ([[0], [0xFFFF]].all fun es => let s := helperAt es
      nextOf s true == some 0 && (s.launch 1).map Launch.img == some 0 && s.island.cpres && (s.core.eng[(20 : Eng)]).cmd.isNone &&
      (s.core.eng[(20 : Eng)]).queue.isEmpty && ((s.core.eng[(20 : Eng)]).entryAt 0 == 0xFFFF) == (es == [0xFFFF])) = true ∧
    ((poppedHere.startable 0).map (fun p => p.2.seq) = some 0 ∧ poppedHere.startGroup 0 = [0] ∧ (poppedHere.wantedLaunch 0).map Launch.held = some false ∧
      poppedHere.core.imgTag = some (0, 0)) := by decide +kernel

/-- A record that drains, with staged bytes of its own, a store in flight, or a command still queued. -/
def drains (st : List Staged) (fs : List InFlight) (q : List QEnt) : State :=
  let s := standing [{ aRec 0 .draining with core := some 0 }] fun k => { k with staging := st, eng := vmod k.eng 3 fun g => { g with queue := q } }
  { s with inflight := fs }

/-- What its retirement waits for: a command outstanding (on core 0, or on core 1, at reset as those after it are), staged bytes, stores in
flight. -/
def waitsFor (s : State) (busy staged flying : Bool) : Bool :=
  ([0, 1].any fun m => s.outstanding m 1 0) == busy && (s.core.staging.any fun b => b.lid == 1 && b.seq == 0) == staged &&
  (s.inflight.any fun f => f.who == some (1, 0)) == flying

theorem meets_RecordsStrandsAndLaunches_retirement :
    (((drains [] [] []).recOf 1 0).map fun r => (r.state, r.seq)) = some (.draining, 0) ∧
    (waitsFor (drains [] [] []) false false false && waitsFor (drains [] [] [.cmd (aCmd []).spec]) true false false &&
      waitsFor (drains [⟨1, 0, 0, 8, 7, .rlx, .pkg, 8, 0, 0, 0, 0, 0⟩] [] []) false true false && waitsFor (drains [] [flies 1] []) false false true) = true := by
  decide +kernel

/-- A core whose clusters have all halted, in a run of record 0. -/
def halts : State := (busy 0).coreUpd 0 fun k => { k with clu := Vector.replicate 4 { Cluster.reset with halted := true } }

/-- The saved context of a run of record 0, and a core that holds it. -/
def context (debug : Bool) : Saved where
  run := ⟨1, 0, 7, 1, 0, []⟩
  pri := 0
  asid := 0
  clusters := Vector.replicate 4 Cluster.reset
  numctl := 0
  fpstat := 0
  memdef := 0x40
  agectl := 0x0FF55
  unpk := Vector.replicate 4 0
  tvec := 0
  xb := Xbar.reset
  cc := 0
  cck := Vector.replicate 16 (Vector.replicate 4 0)
  f := 0
  marks := []
  credits := []
  queues := []
  posns := []
  crcs := []
  arrays := []
  recorded := ⟨0, 0, [], 0, []⟩
  debug := debug
  given := false
def saves (debug : Bool) : State :=
  { standing [aRec 0 .preempted] fun k => { k with saved := [context debug], haltd := debug, imgTag := some (0, 0) } with launches := [aLaunch 0] }

/-- A run of priority 1, and a READY record of priority `p`. -/
def outranked (p : Nat) : State := { busy 0 with recs := [{ aRec 0 .running with pri := 1 }, { aRec 1 .ready with pri := p }] }

theorem meets_RecordsStrandsAndLaunches_halts :
    ((halts.core.run.bind fun r => halts.recOf r.lid r.seq).map Rec.seq = some 0 ∧ ((List.finRange 4).all fun c => (halts.core.clu[c]).halted) = true ∧
      halts.pkg.dump.isNone = true ∧ ((busy 0).core.clu[(0 : CluId)]).halted = false) ∧
    ([0, 1].all fun p => (outranked p).core.run.isSome && ((outranked p).nextRec 0 false).map Rec.pri == some p) = true ∧
    ((saves true).core.haltd = true ∧ (busy 0).core.haltd = false ∧ (busy 0).core.saved.isEmpty = true) := by decide +kernel

theorem meets_RecordsStrandsAndLaunches_resumption :
    (let s := saves false
     s.free 0 && !(s.dumping 0) && (s.core.saved.map fun v => (v.debug, v.given)) == [(false, false)] && (s.nextRec 0 false).isNone &&
       s.core.imgTag == some (0, 0) && (s.launch 1).map (fun l => (l.img, l.asid)) == some (0, 0)) = true := by decide +kernel

/-- A section entry of an image, and an image of the sections CODE, LAUNCH and FRAME, whose page 1 holds 512 bytes with its header. -/
def section_ (ty al off size : Nat) : List Byte := [BitVec.ofNat 8 ty, BitVec.ofNat 8 al] ++ leBytes 6 0 ++ leBytes 8 off ++ leBytes 8 size ++ leBytes 8 0
def image : List Byte :=
  leBytes 4 0x494A584B ++ leBytes 2 1 ++ leBytes 2 3 ++ leBytes 24 0 ++ section_ 1 6 0x100 64 ++ section_ 7 6 0x1C0 64 ++ section_ 6 16 0x10000 64 ++
    leBytes 320 0 ++ leBytes 8 0x41 ++ leBytes 8 1 ++ leBytes 48 0

/-- A packet of an image, on core 0, with a stack of so many bytes. -/
def packet (img sz : Nat) : List Byte :=
  leBytes 8 img ++ leBytes 16 0 ++ leBytes 4 sz ++ leBytes 4 1 ++ leBytes 24 0 ++ leBytes 8 0x20000 ++ leBytes 8 5 ++ leBytes 4 0 ++ leBytes 4 0xFFFF ++ leBytes 48 0

/-- A context whose launch ring holds a packet, its image mapped for the launch unit. -/
def packed (img sz : Nat) : State :=
  let s := busy 0
  { s with
    mem := memPuts (memPuts [] (atAddr 0x10000 image)) (atAddr 0x40000 (packet img sz))
    launches := [], recs := []
    tlb := [{ page 1 0 0x10000 with unit := launchUnit }, { page 2 0 0x20000 with unit := launchUnit }]
    pkg := { s.pkg with pqring := Vector.replicate 4 0x10000000A }
    ctxs := vput s.ctxs 0 { Ctx.reset with active := true, lseq := 1, ringbase := 0x40000, rlog := 4, lease := 4 } }

/-- Tables in memory by which page 5 of address space 0 is in migration. -/
def moving (s : State) : State :=
  let t := [(0x8000, 2 ^ 63 + 0x9000), (0x9000, 2 ^ 63 + 0xA000), (0xA000, 2 ^ 63 + 0xB000), (0xB000, 2 ^ 63 + 0xC000), (0xC028, 2 ^ 63 + 2 ^ 62 + 0x7C0000000000000)]
  let u : State := t.foldl (fun s e => s.putPhys e.1 (leBytes 8 e.2)) s
  { u with ctxs := vmod u.ctxs 0 fun c => { c with ptroot := 0x8000 } }

/-- What the packet comes to: 0 a launch, 1 a refusal, 2 a page not mapped, 3 a page in migration, 4 a wait. -/
def comesTo (s : State) : Nat :=
  let c := s.ctxs[s.at_.asid]
  let slot := c.ringbase + 128 * (c.cons % 2 ^ c.rlog)
  let bs := s.getPhys slot 128
  match checkPacket (launchOf bs (s.ids + 1) c.cons s.at_.asid.val ((s.chipSet (pField bs 76 2)).getD (1, 0))) bs
    (({ s with ids := s.ids + 1 }.readsPhys slot 128).readsSet (pField bs 76 2)) with
  | .ok _ _ => 0
  | .refused _ _ => 1
  | .miss _ _ => 2
  | .mig _ => 3
  | .wait => 4

theorem meets_RecordsStrandsAndLaunches_packets :
    comesTo (packed 0x10000 256) = 0 ∧ comesTo (packed 0x10000 0) = 1 ∧ comesTo (packed 0x50000 256) = 2 ∧ comesTo (moving (packed 0x50000 256)) = 3 ∧
    comesTo { (packed 0x10000 256) with pkg := { (packed 0x10000 256).pkg with seals := Vector.replicate 16 0x8000000000010000 } } = 4 ∧
    (let s := packed 0x10000 256
     let c := s.ctxs[s.at_.asid]
     s.weak = [] ∧ c.active = true ∧ s.island.cpres = true ∧ c.cons < c.lseq.toNat ∧ c.pktHeld = false ∧ c.pktDeclined = false ∧
       ({ c with cons := 1 } : Ctx).lseq.toNat ≤ 1) := by decide +kernel

/-- A launch whose records have all retired, its completion record on a page of the launch unit, and programs that it would load. -/
def completes (compl : Nat) (chips : Nat := 1) (peers : Option Nat := none) : State :=
  { packed 0x10000 256 with launches := [{ aLaunch 0 with compl := compl, img := 0x10000, nchips := chips, peers := peers }] }

/-- What the completion record of the launch that is over comes to: 0 written, 1 a page not mapped, 2 one in migration, 9 else. -/
def endsWith (s : State) : Nat := match s.launches.find? fun l => l.asid == 0 && s.launchOver l && !l.held with
  | some m => (match s.writeVirt 0 m.tag m.compl (m.tally.record m.tally.finalStatus) with
    | (.ok _, _) => 0
    | (.miss _, _) => 1
    | (.mig, _) => 2
    | _ => 9)
  | none => 9

theorem meets_RecordsStrandsAndLaunches_ends :
    endsWith (completes 0x20000) = 0 ∧ endsWith (completes 0x20000 2 (some 1)) = 0 ∧ endsWith (completes 0x50000) = 1 ∧ endsWith (moving (completes 0x50000)) = 2 ∧
    (completes 0x20000 2).launches.find? (fun l => l.asid == 0 && (completes 0x20000 2).launchOver l && !l.held) = none ∧
    (let s := { completes 0x20000 with cores := ((completes 0x20000).coreUpd 0 fun k => { k with run := none, popped := some (1, 0) }).cores }
     (s.wantedLaunch s.at_.core).map (fun l => (l.held, l.img)) = some (false, 0x10000) ∧ s.core.imgTag = none ∧ s.core.enginesFree = true ∧ s.island.cpres = true ∧
       (match s.programs 0 5 0x10000 with | (.ok _, _) => true | _ => false) = true) := by decide +kernel

-- Dies, the island and the host.

/-- The machine with the compute rails up, the dies out of reset and the link trained. -/
def up (f : State → State := id) : State := f { State.reset with power := true, hostLink := some (true, true), island := { Island.reset with cpres := true } }

/-- The acting tile changed. -/
def tile0 (f : TileRegs → TileRegs) : State := up fun s => { s with tile := vmod s.tile 0 f }

theorem meets_DiesExchangeAndResets_registers :
    ((up).cyc.toNat % 4 = 0 ∧ (up).island.cpres = true ∧ State.reset.island.cpres = false ∧ (up fun s => { s with cyc := 3 }).cyc.toNat % 4 ≠ 0) ∧
    (rampOk 0x201C1814100C0804 ((up).rdie[(0 : RaceDie)]).ramph && rampOk ((up).rdie[(0 : RaceDie)]).rampl 0x403C383430302C28) = true ∧
    (1 ≤ (1#64).toNat % 128 ∧ (64#64).toNat % 128 ≤ 64 ∧ ¬((65#64).toNat % 128 ≤ 64) ∧ ¬(1 ≤ (128#64).toNat % 128)) ∧
    (let v : Word := 0x100100101
     bits 47 24 v.toNat ≠ 0 ∧ 16 ≤ bits 20 16 v.toNat ∧ bits 15 8 v.toNat ≠ 0 ∧ bits 7 0 v.toNat ≠ 0 ∧ v.getLsbD 62 = false ∧ bits 47 24 (0x100101#64).toNat = 0) ∧
    ((up).at_.eng.val < 16 ∧ bits 56 48 (0x12C000000000000#64).toNat ≤ 300 ∧ bits 56 48 (0x12D000000000000#64).toNat > 300) := by decide +kernel

theorem meets_DiesExchangeAndResets_levelling :
    (((up).rdie[(0 : RaceDie)]).period.toNat = 50 ∧ ((up).tile[(0 : TileId)]).began = 0 ∧ (up).datum = 0 ∧ 50 * 1000000 ≤ (50000000#64 - 0#64).toNat) ∧
    (let s := tile0 fun t => { t with pending := true }
     s.levelDue s.tileId && !(s.tile[s.tileId]).lvl && !(s.tile[s.tileId]).dead && s.eng.cmd.isNone && !(s.tile[s.tileId]).granted && !(s.stepTaken s.tileId)) = true ∧
    (let s := tile0 fun t => { t with lvl := true }
     (s.tile[s.tileId]).lvl = true ∧ (s.tile[s.tileId]).tgt = 100) ∧
    (ringCounts 1000 4 [990, 1001] = some [990, 1001] ∧ ringCounts 1000 4 [990, 998] = none ∧ ringCounts 1000 4 [] = none ∧
      ringCounts 1000 4 [1, 2, 3, 4, 5] = some [1, 2, 3, 4]) ∧
    (((1024 : Nat) : Int) = (1024#12).toNat + 3 * (([1000] : List Nat).map fun c : Nat => (c : Int) - 1000).sum) := by decide +kernel

theorem meets_DiesExchangeAndResets_patrol :
    (let s := up fun s => { s with mc := { s.mc with rllog := 0 } }
     ((s.rdie[(7 : RaceDie)]).paten && s.bad.isEmpty && s.weak.isEmpty && s.patrol.isEmpty) = true ∧ 1048575 < 1048576 ∧
       s.badAt (linOf 255 (2048 * 1048575 + 64 * 31)) = false ∧ s.mc.rlbase = 0 ∧ s.mc.rllog = 0 ∧
       ((upto 64).all fun j => (placeOf j).all fun p => !((upto 32).any fun i =>
         decide (linOf 255 (2048 * 1048575 + 64 * i) ≤ p.2) && decide (p.2 < linOf 255 (2048 * 1048575 + 64 * i) + 64))) = true) ∧
    ((up).pkg.round < bits 2 0 (up).pkg.xctl.toNat ∧ bits 2 0 (up).pkg.xctl.toNat ≤ 3) ∧
    ((busy 0 5).slotRec 0).map (fun r => decide (r.ltype.toNat < 6)) = some true ∧
    (schedOk 0xFFFFFFFF10 = true ∧ schedOk 0xFFFFFFFFA0 = false ∧ schedOk 0xFFFFFFFF11 = false ∧ bits 15 8 (0x100#64).toNat ≠ 0) ∧
    (let top := fun hot rhot : BitVec 16 => if hot.toInt < rhot.toInt then rhot else hot
     (top 1600 1759).toInt < 1760 ∧ (top 1759 1600).toInt < 1760 ∧ 1760 ≤ (top 1760 1600).toInt ∧ 1760 ≤ (top 0 1760).toInt) := by decide +kernel

theorem meets_DiesExchangeAndResets_resets :
    ((up).power = true ∧ (up).hostLink.isSome = true ∧ State.reset.power = false ∧ State.reset.island.state = .train) ∧
    (let s := { State.reset with island := { Island.reset with state := .forwardOnly } }
     s.power = false ∧ s.island.state ≠ .off ∧ s.island.state ≠ .train) ∧
    (∀ x : TileId, ((up).tile[x]).pending = false ∧ ((up).tile[x]).lvl = false) ∧
    (let s := { (up).island with state := IState.forwardOnly }
     s.state ≠ .off) := by
  refine ⟨by decide +kernel, by decide +kernel, fun x => ?_, by decide +kernel⟩
  show ((Vector.ofFn fun i => TileRegs.reset i.val)[x.val]).pending = false ∧ ((Vector.ofFn fun i => TileRegs.reset i.val)[x.val]).lvl = false
  simp [TileRegs.reset]

/-- The island in a state, with its rail up, and one port up or not. -/
def islands (st : IState) (l : BitVec 2) (f : Island → Island := id) : State :=
  up fun s => { s with island := f { s.island with state := st, ports := vmod s.island.ports 0 fun p => { p with lstate := l } } }

/-- A packet to a chip: a CAS answer of no bytes. -/
def packetTo (c : Coord) : Packet := ⟨⟨0, 0, 0, 0⟩, c, true, [], [], .status true⟩

theorem meets_TheTransitIsland :
    ((islands .off 0).island.state = .off ∧ (islands .forwardOnly 2).island.cpres = true ∧ (islands .forwardOnly 2).island.state = .forwardOnly) ∧
    ((islands .draining 2).island.outbound = false ∧ (islands .draining 2 fun i => { i with ports := vmod i.ports 0 fun p => { p with wait0 := [packetTo ⟨0, 0, 0, 1⟩] } }).island.outbound = true) ∧
    ((islands .train 2).island.root = true ∧
      (let i := (islands .train 2 fun i => { i with root := false, lock := true, ext := ⟨2, 1, 1, 1⟩ }).island
       i.root = false ∧ i.ext ≠ ⟨1, 1, 1, 1⟩ ∧ i.lock = true ∧ (i.ports[(0 : PortId)]).lstate = 2 ∧ i.trained = false)) ∧
    (let i := (islands .attached 2 fun i => { i with root := false, trained := true, ext := ⟨2, 1, 1, 1⟩ }).island
     i.state ≠ .off ∧ i.unused 0 = false ∧ i.root = false ∧ i.trained = true ∧ i.lock = false) ∧
    ((packetTo ⟨0, 0, 0, 0⟩).dst = (islands .attached 2).island.me ∧ (packetTo ⟨0, 0, 0, 1⟩).dst ≠ (islands .attached 2).island.me) ∧
    (let i := (islands .train 2).island
     i.inbox = [] ∧ i.state = .train ∧ (islands .attached 2).island.state ≠ .train) ∧
    (let i := (islands .train 2 fun i => { i with root := false, ext := ⟨2, 1, 1, 1⟩ }).island
     i.towards ⟨1, 0, 0, 0⟩ = some 0 ∧ i.towards ⟨0, 0, 0, 0⟩ = none ∧ i.trained = false) ∧
    (let within := fun r : List Word => (r.filter fun d => decide ((0#64 - d).toNat < 1000000)).length + 1
     within (List.replicate 1023 0) ≤ 1024 ∧ 1024 < within (List.replicate 1024 0)) ∧
    (192 * flitsOf (packetTo ⟨0, 0, 0, 1⟩) ≤ 192 ∧ ¬(192 * flitsOf (packetTo ⟨0, 0, 0, 1⟩) ≤ 191)) ∧
    ((1048576#64).toInt.natAbs ≤ 2 ^ 20 ∧ (1048577#64).toInt.natAbs > 2 ^ 20 ∧ (0xFFFFFFFFFFF00000#64).toInt.natAbs ≤ 2 ^ 20) ∧
    (((16 * 2 + 0 - 0 : Int)).natAbs ≤ 32 ∧ ¬((16 * 2 + 1 - 0 : Int)).natAbs ≤ 32) := by decide +kernel

/-- A context descriptor that ACTIVATE takes, and the machine with it in the table. -/
def descriptor : List Byte :=
  leBytes 8 0 ++ leBytes 8 linTop ++ leBytes 4 4 ++ leBytes 4 4 ++ leBytes 16 0 ++ leBytes 4 6 ++ leBytes 212 0

/-- The acting context changed. -/
def context0 (f : Ctx → Ctx) (g : State → State := id) : State := up fun s => g { s with ctxs := vmod s.ctxs 0 f }

theorem meets_TheHostAndTheDriver_contexts :
    ((up).hostUp = true ∧ (up).pkg.ctxBusy = false ∧ State.reset.hostUp = false) ∧ ((7#4).toNat ≤ 7 ∧ (8#4).toNat > 7) ∧
    (descriptorOk descriptor = true ∧ descriptorOk (leBytes 256 0) = false) ∧
    (let s := context0 fun c => { c with cooling := some 0 }
     (s.ctxs[(0 : Fin 64)]).active = false ∧ s.datum.toNat < (0#64).toNat + 64000 ∧ (0#64).toNat + 64000 ≤ (64000#64).toNat ∧ s.pkg.stalled = none) ∧
    (let s := up fun s => { s with ctxs := vmod s.ctxs 63 fun c => { c with active := true }, at_ := { s.at_ with asid := 63 } }
     s.at_.asid ≠ 0 ∧ (s.ctxs[s.at_.asid]).active = true ∧ (s.ctxs[s.at_.asid]).lseq.toNat ≤ (s.ctxs[s.at_.asid]).cons ∧ s.launches.isEmpty = true) ∧
    ((busy 0).core.run.isSome = true ∧ (busy 0).core.asid = (busy 0).at_.asid.val ∧ (busy 0).hostUp = true) := by decide +kernel

theorem meets_TheHostAndTheDriver_translation :
    ((up).pkg.invPhase = 0 ∧ (0#64).getLsbD 0 = false ∧ bits 63 58 (0xFC00000000000000#64).toNat = 63) ∧
    (let s := up fun s => { s with pkg := { s.pkg with invPhase := 1 } }
     s.pkg.invStart.toNat + (s.ctxs[(Fin.ofNat 64 (bits 63 58 s.pkg.inv.toNat) : Fin 64)]).leaseTicks ≤
       (100000000#64).toNat) ∧
    (let s := up fun s => { s with pkg := { s.pkg with invPhase := 2, invStart := 1 } }
     s.olderAccess = false ∧ { s with inflight := [{ flies 1 with grants := [(0, 0)] }] }.olderAccess = true) ∧
    ((busy 0).tlb[3]? = some (page 3 5 0) ∧ ((page 3 5 0).expiry.toNat ≤ (busy 0).datum.toNat) = False) := by
  refine ⟨by decide +kernel, by decide +kernel, by decide +kernel, by decide +kernel, eq_false (by decide +kernel)⟩

/-- The streamer holds one record, its ring at host page 1 of 2^8 places. -/
def streams : State := up fun s => { s with trace := { s.trace with ring := 0x1008, circle := [⟨0, 1, 0, 0, 0, 0, 0, 0, 0, 7⟩] } }

theorem meets_TheHostAndTheDriver_registers :
    (Memory.wf streams.host = true ∧ streams.hostLink.isSome = true ∧ streams.trace.circle.isEmpty = false ∧
      (streams.trace.wr - streams.trace.rd).toNat < 2 ^ bits 4 0 streams.trace.ring.toNat ∧ ¬((256#64 - 0#64).toNat < 2 ^ bits 4 0 streams.trace.ring.toNat)) ∧
    ((0x150028#21).toNat % 8 = 0 ∧ (0x150028#21).toNat / 0x8000 = 42 ∧ (0x150001#21).toNat % 8 ≠ 0) ∧
    ((up).mc.write 0x805 255 |>.isSome) = true ∧ ((up).mc.write 0x805 256 |>.isSome) = false ∧ ((up).mc.write 0x805 0 |>.isSome) = false ∧
    ((islands .off 0).island.state = .off ∧ (islands .train 0).island.state ≠ .off ∧ bits 63 60 (0x3000000000000000#64).toNat = 3) ∧
    (0x2B * 0x8000 < 2 ^ 21 ∧ 43 ≤ 0x2B) ∧ ((up).cores[(31 : CoreId)]).haltd = false := by decide +kernel

theorem meets_TheHostAndTheDriver_windows :
    (let s := up
     s.hostUp = true ∧ 65536 ≤ 65536 ∧ s.pkg.mwbase.toNat + 65536 + 8 ≤ 2 ^ 39 ∧ s.inflight.isEmpty = true ∧ s.weak.isEmpty = true ∧ Memory.wf s.mem = true ∧
       ((upto 8).all fun i => !(s.badAt (ilPlace (s.pkg.mwbase.toNat + 65536 + i))) && !(s.sealed (ilPlace (s.pkg.mwbase.toNat + 65536 + i)))) = true) ∧
    (let s := context0 fun c => { c with active := true, lseq := 5 }
     (s.ctxs[(0 : Fin 64)]).active = true ∧ bits 19 0 (0#26).toNat = 0 ∧ (s.ctxs[(0 : Fin 64)]).lseq.toNat ≤ (5#64).toNat ∧
       (4#64).toNat < (s.ctxs[(0 : Fin 64)]).lseq.toNat ∧ (s.ctxs[(1 : Fin 64)]).active = false) := by decide +kernel
end Sys2Proof.Tests
end

/-!
The part's own reads and writes at physical addresses of linear HBM (R5, R384, R402).
-/
namespace Sys2Proof.Proofs

open Machine

/-! Little-endian numbers (R5). -/

@[simp] theorem length_leBytes (n x : Nat) : (leBytes n x).length = n := by
  induction n generalizing x with
  | zero => rfl
  | succ n ih => simp [leBytes, ih]

/-- The bytes of a number give its residue: what does not fit in them is lost. -/
theorem leNat_leBytes (n x : Nat) : leNat (leBytes n x) = x % 256 ^ n := by
  induction n generalizing x with
  | zero => simp [leBytes, leNat, Nat.mod_one]
  | succ n ih => rw [Nat.pow_succ', Nat.mod_mul, leBytes, leNat, ih, BitVec.toNat_ofNat]

theorem upto_eq_range (n : Nat) : upto n = List.range n := by
  induction n with
  | zero => rfl
  | succ n ih => rw [upto, ih, List.range_succ]

/-! Bytes written in order: each address holds its last byte written, and any other what it held before. -/

theorem memGet_memPuts (bs : List (Nat × Byte)) (m : List Host.Cell) (h : Memory.wf m = true) (k : Nat) :
    memGet (memPuts m bs) k = (lastWrite k bs).getD (memGet m k) := by
  induction bs generalizing m with
  | nil => rfl
  | cons p bs ih =>
    have rest : memGet (memPuts m (p :: bs)) k = (lastWrite k bs).getD (memGet (memPut m p.1 p.2) k) := ih _ (wf_memPut m p.1 p.2 h)
    rw [rest, memGet_memPut m p.1 p.2 h, lastWrite]
    cases lastWrite k bs with
    | some y => rfl
    | none => by_cases e : p.1 = k <;> simp [e, eq_comm (a := k)]

/-- Bytes that lie together are all at different addresses, so that each is the last written at its own. -/
theorem lastWrite_atAddr (k a : Nat) (bs : List Byte) : lastWrite k (atAddr a bs) = if a ≤ k then bs[k - a]? else none := by
  induction bs generalizing a with
  | nil => simp [atAddr, lastWrite]
  | cons b bs ih =>
    rw [atAddr, lastWrite, ih]
    rcases Nat.lt_trichotomy a k with h | rfl | h
    · have next : k - a = k - (a + 1) + 1 := by omega
      rw [if_pos (Nat.le_of_lt h), if_pos (Nat.succ_le_of_lt h), if_neg (Nat.ne_of_lt h), next, List.getElem?_cons_succ]
      cases bs[k - (a + 1)]? <;> rfl
    · rw [if_neg (Nat.not_succ_le_self a), if_pos rfl, if_pos (Nat.le_refl a), Nat.sub_self, List.getElem?_cons_zero]
    · rw [if_neg (by omega), if_neg (Nat.ne_of_gt h), if_neg (Nat.not_le.2 h)]

/-- Below the places of host memory every write goes to device memory. -/
theorem putBytes_of_lt_hostBase (bs : List (Nat × Byte)) (s : State) (h : ∀ p ∈ bs, p.1 < hostBase) :
    s.putBytes bs = { s with mem := memPuts s.mem bs } := by
  induction bs generalizing s with
  | nil => rfl
  | cons p bs ih =>
    obtain ⟨hp, hbs⟩ := List.forall_mem_cons.1 h
    have one : s.putByte p.1 p.2 = { s with mem := memPut s.mem p.1 p.2 } := if_neg (Nat.not_le.2 hp)
    calc s.putBytes (p :: bs) = (s.putByte p.1 p.2).putBytes bs := rfl
      _ = _ := by rw [one, ih _ hbs]; rfl

/-! The linear window: physical addresses are places (R384). -/

theorem linTop_lt_hostBase : linTop < hostBase := by decide

theorem placeOf_linear {pa : Nat} (h : pa < linTop) : placeOf pa = some (0, pa) := if_pos h

theorem atAddr_range {a : Nat} {bs : List Byte} {p : Nat × Byte} (h : p ∈ atAddr a bs) : a ≤ p.1 ∧ p.1 < a + bs.length := by
  induction bs generalizing a with
  | nil => cases h
  | cons b bs ih =>
    rcases List.mem_cons.1 h with rfl | h
    · simp
    · have := ih h
      simp only [List.length_cons]; omega

theorem physBytes_cons_linear (pa : Nat) (b : Byte) (bs : List Byte) (h : pa < linTop) : physBytes pa (b :: bs) = (pa, b) :: physBytes (pa + 1) bs :=
  List.filterMap_cons_some (by rw [placeOf_linear h]; rfl)

theorem physBytes_linear (pa : Nat) (bs : List Byte) (h : pa + bs.length ≤ linTop) : physBytes pa bs = atAddr pa bs := by
  induction bs generalizing pa with
  | nil => rfl
  | cons b bs ih =>
    rw [List.length_cons] at h
    rw [physBytes_cons_linear pa b bs (by omega), ih (pa + 1) (by omega), atAddr]

/-! Reads while no store is in flight. -/

theorem readByte_of_inflight_nil {s : State} (h : s.inflight = []) (o : Obs) (w k : Nat) : s.readByte o w k = s.byteAt k := by
  rw [State.readByte, h]; rfl

theorem inflight_putPhys (s : State) (pa : Nat) (bs : List Byte) : (s.putPhys pa bs).inflight = s.inflight := by
  obtain ⟨_, _, _, _, _, _, e⟩ := putPhys_frame s pa bs
  rw [e]

theorem getPhys_linear {s : State} (hs : s.inflight = []) (pa n : Nat) (hl : pa + n ≤ linTop) :
    s.getPhys pa n = (List.range n).map fun i => s.byteAt (pa + i) := by
  rw [State.getPhys, upto_eq_range]
  refine List.map_congr_left fun i hi => ?_
  have hi := List.mem_range.1 hi
  rw [placeOf_linear (show pa + i < linTop by omega)]
  exact readByte_of_inflight_nil hs _ _ _

/-! Writes with no byte in an uncorrectable codeword (R402). -/

theorem dropBad_of_not_badAt (s : State) (bs : List (Nat × Byte)) (h : ∀ p ∈ bs, s.badAt p.1 = false) :
    dropBad s bs = (bs, { s with weak := s.weak.filter fun w => !(bs.any fun b => decide (w.place ≤ b.1) && decide (b.1 < w.place + w.size)) }) := by
  have misses : ∀ b ∈ s.bad, (bs.filter fun x => decide (b.1 ≤ x.1) && decide (x.1 < b.1 + b.2)) = [] := fun b hb =>
    List.filter_eq_nil_iff.2 fun p hp => by simpa using List.any_eq_false.1 (h p hp) b hb
  refine List.foldlRecOn (motive := fun p => p = (bs, _)) s.bad _ rfl fun p hp b hb => ?_
  subst hp
  exact if_pos (misses b hb)

section

variable (s : State) (pa : Nat) (bs : List Byte) (hm : Memory.wf s.mem = true) (hl : pa + bs.length ≤ linTop)
  (hbad : ∀ k, pa ≤ k → k < pa + bs.length → s.badAt k = false)

include hm hl hbad

/-- The part's own write to good codewords of linear HBM: in each place the byte that belongs there, and every other place as before. -/
theorem byteAt_putPhys_linear (k : Nat) : (s.putPhys pa bs).byteAt k = (if pa ≤ k then bs[k - pa]? else none).getD (s.byteAt k) := by
  have hdrop := dropBad_of_not_badAt s (atAddr pa bs) fun p hp => hbad p.1 (atAddr_range hp).1 (atAddr_range hp).2
  have hdev : ∀ p ∈ atAddr pa bs, p.1 < hostBase := fun p hp =>
    Nat.lt_trans (Nat.lt_of_lt_of_le (atAddr_range hp).2 hl) linTop_lt_hostBase
  rw [State.putPhys, physBytes_linear pa bs hl, hdrop]
  dsimp only
  rw [putBytes_of_lt_hostBase _ _ hdev]
  unfold State.byteAt
  by_cases hk : hostBase ≤ k
  · have past : bs[k - pa]? = none := List.getElem?_eq_none (by have := linTop_lt_hostBase; omega)
    simp [hk, past]
  · simp only [if_neg hk, memGet_memPuts _ _ hm, lastWrite_atAddr]

/-- The part reads back the bytes that it wrote. -/
theorem getPhys_putPhys_linear (hs : s.inflight = []) : (s.putPhys pa bs).getPhys pa bs.length = bs := by
  rw [getPhys_linear ((inflight_putPhys s pa bs).trans hs) pa _ hl]
  refine List.ext_getElem (by simp) fun i _ hi => ?_
  rw [List.getElem_map, List.getElem_range, byteAt_putPhys_linear s pa bs hm hl hbad]
  simp [hi]

/-- Outside the bytes that the part writes, every observer reads what it read before. -/
theorem readByte_putPhys_linear_of_outside (hs : s.inflight = []) (o : Obs) (w k : Nat) (hk : k < pa ∨ pa + bs.length ≤ k) :
    (s.putPhys pa bs).readByte o w k = s.readByte o w k := by
  rw [readByte_of_inflight_nil ((inflight_putPhys s pa bs).trans hs), readByte_of_inflight_nil hs, byteAt_putPhys_linear s pa bs hm hl hbad]
  rcases hk with hk | hk
  · rw [if_neg (by omega)]; rfl
  · rw [List.getElem?_eq_none (by omega), ite_self]; rfl

end

/-- Settles O13: the bytes read back are the bytes written, which give the number again, and no other place has changed. -/
theorem physicalWritesReadBack : Obligations.PhysicalWritesReadBack := by
  intro s pa n x hm hs hl hx hbad
  have back := getPhys_putPhys_linear s pa (leBytes n x) hm
  have frame := readByte_putPhys_linear_of_outside s pa (leBytes n x) hm
  rw [length_leBytes] at back frame
  refine ⟨?_, frame hl hbad hs⟩
  rw [State.getPhysN, back hl hbad hs, leNat_leBytes, Nat.mod_eq_of_lt hx]

end Sys2Proof.Proofs
